-- ==== Sys2Proof/Word.lean ====
section
/-!
DEFINITION. The plain number types of the UC320: bytes, words, ids, tokens and clock values
(Introduction section 5).
-/

namespace Sys2Proof

/-- One byte on the U-bus. -/
abbrev Byte := BitVec 8

/-- One 16-bit register of the supervisor window. -/
abbrev Word := BitVec 16

/-- A resource id as it is carried in a frame or an argument register (R3: 0x0000 and 0xFFFF are not valid). -/
abbrev ResourceId := BitVec 16

/-- A 24-bit token (R10: 0 is never drawn). -/
abbrev Token := BitVec 24

/-- A clock value or a deadline: a count of milliseconds that wraps after 4 294 967 295 (R142). -/
abbrev Millis := BitVec 32

/-- The index of a node record in the Node Table: node `k` of the manual, 1 to 30, has index `k - 1` (R79). -/
abbrev NodeId := Fin 30

/-- A directory slot number, 0 to 255. -/
abbrev SlotId := Fin 256

/-- A recall slot number, 0 to 7 (R63). -/
abbrev RecallId := Fin 8

end Sys2Proof
end

