-- ==== Sys2Proof/Syntax.lean ====
section
/-!
DEFINITION. The commands of the UC320: one constructor of `Instr` for each row of spec/opcode_table.json,
with the operands that come from outside the part at that event.
-/

namespace Sys2Proof

/-- The mode of a claim, a holding and a wait (Introduction section 5). -/
inductive Mode where
  | shared
  | exclusive
  deriving DecidableEq, Repr

/-- A whole request frame addressed to the part from node `src`, less what its row of the table fixes: the kind
code, destination 0, format version 1, and a body length and frame check that are right (R110, R111). -/
structure Request where
  /-- The priority field, which only arbitration reads (R164). -/
  prio : BitVec 2
  /-- The node whose frame it is. -/
  src : NodeId
  /-- The request sequence. -/
  seq : BitVec 3
  /-- The body, at most seven bytes. -/
  body : List Byte
  deriving DecidableEq, Repr

/-- A whole frame addressed to the part that R111 drops for its source or its format version. -/
structure DroppedFrame where
  prio : BitVec 2
  kind : BitVec 4
  src : BitVec 5
  version : BitVec 2
  seq : BitVec 3
  body : List Byte
  deriving DecidableEq, Repr

/-- What makes a receive error (R110, R129, R133). Lengths are in thousandths of the bit period T. -/
inductive ReceiveFault where
  /-- In IDLE, a pulse of this length that is not a SOF: a start error (R133). -/
  | startPulse (length : Nat)
  /-- In RECEIVING, a pulse of this length where a data bit is expected (R129). -/
  | dataPulse (length : Nat)
  /-- In RECEIVING, a falling edge this long after the edge that began the previous bit (R129). -/
  | edge (gap : Nat)
  /-- At the end of data, these collected bits fail the checks of R110. -/
  | badFrame (bits : List Bool)
  deriving DecidableEq, Repr

/-- A bit error in the part's own frame (R137). -/
inductive BitFault where
  /-- The bit at this place of the frame reads back as the opposite bit. -/
  | inverted (pos : Nat)
  /-- A symbol error or a spacing error is read back. -/
  | badSymbol
  deriving DecidableEq, Repr

/-- A two-byte reply received in AWAIT_ACK: the acknowledgement byte and its reply check (section 11.4). -/
structure AckReply where
  ack : Byte
  check : Byte
  deriving DecidableEq, Repr

/-- A reply in AWAIT_ACK that is not of the form of an acknowledgement (R138, R165). -/
inductive BrokenReply where
  /-- A falling edge after the last bit but before EOD. -/
  | earlyEdge
  /-- Bits that break the symbol or spacing rules. -/
  | brokenBits
  /-- Good bits, at least one, whose number or codes are not those of an acknowledgement. -/
  | bits (first : Bool) (rest : List Bool)
  deriving DecidableEq, Repr

/-- One SPI access: the bits on SDI at the rising SCK edges of one CSN period, in order (R150). -/
structure SpiAccess where
  bits : List Bool
  deriving DecidableEq, Repr

/-- The commands, in the order of spec/opcode_table.json. -/
inductive Instr where
  /-- POR: RESETN is released, with RATE high or low and LINE dominant or recessive (R127, R132, R163). -/
  | por (rateHigh lineDominant : Bool)
  | timebaseStep
  | leaseExpiry (node : NodeId)
  | waitDeadlineExpiry (slot : SlotId) (node : NodeId)
  | recallDeadline (which : RecallId)
  /-- BACKOFF_END of the entry at this place of the notice queue, counted from the oldest. -/
  | backoffEnd (place : Fin 16)
  | join (frame : Request)
  | leave (frame : Request)
  | claim (frame : Request)
  | release (frame : Request)
  | downgrade (frame : Request)
  | renew (frame : Request)
  | check (frame : Request)
  | query (frame : Request)
  | cancel (frame : Request)
  /-- A request frame whose kind code is none of the nine (R115). -/
  | badKind (kind : BitVec 4) (frame : Request)
  | frameDropped (frame : DroppedFrame)
  /-- A destination field other than 0 has been received (R133). -/
  | frameIgnored (destination : BitVec 5)
  | receiveError (fault : ReceiveFault)
  | sendNotice
  /-- The bit at this place of the arbitration field, sent as ONE, reads back as ZERO (R136). -/
  | arbitrationLoss (pos : Fin 11)
  | bitError (fault : BitFault)
  | noticeFrameSent
  | accept (reply : AckReply)
  | refuse (reply : AckReply)
  | ackWrongSequence (reply : AckReply)
  | badCheckByte (reply : AckReply)
  | notAnAcknowledgement (reply : BrokenReply)
  | noReply
  | announceDelivered
  | replySent
  | replyLost
  | endOfFrame
  | lineHold
  | lineRelease
  | provision
  | retire
  | withdraw
  | setNode
  | evict
  | readResource
  | readHolder
  | readWait
  | readNode
  | readPools
  | setTiming
  | clearClaims
  | halt
  | resume
  | badCommand (code : Word)
  | cmdRefused (code : Word)
  | flagsWrite (data : Word)
  | enableWrite (data : Word)
  | registerWrite (access : SpiAccess)
  | commandWrite (code : Word)
  /-- SOF_RECEIVED: in IDLE, a node's pulse of this length (thousandths of T) is classified SOF (R133). -/
  | sofReceived (length : Nat)
  deriving DecidableEq, Repr

end Sys2Proof
end

