-- ==== Sys2Proof/Decode.lean ====
section
/-!
DEFINITION. The rows of spec/opcode_table.json give no bits: the part takes commands from outside and decodes no
instruction words, so no word spells a command.
-/

namespace Sys2Proof

/-- The command that a word spells by the table's bits: none, as no row has bits. -/
def decodeTableWord (_nbits _w : Nat) : Option Instr := none

end Sys2Proof
end

