-- ==== Sys2Proof/Config.lean ====
section
/-!
DEFINITION. What the manual fixes once for the part (sizes of pools, lists and margins), and the free
values the manual leaves open.
-/

namespace Sys2Proof.Config

/-- Holding records in the Holding Pool (R20). -/
abbrev holdingRecords : Nat := 384

/-- Wait records in the Wait Pool (R43). -/
abbrev waitRecords : Nat := 64

/-- Entries of the Notice Queue (R96). -/
abbrev noticeEntries : Nat := 16

/-- Free entries a best-effort notice needs when it is offered (R99). -/
abbrev bestEffortMargin : Nat := 5

/-- Waits one node may have (R45). -/
abbrev waitsPerNode : Nat := 4

/-- Waits one queue may hold (R6). -/
abbrev waitsPerQueue : Nat := 16

/-- Counted failures at which a notice entry fails (R103). -/
abbrev attemptLimit : Nat := 3

/-- The ceiling of a node's revocation count (R38). -/
abbrev revocationCeiling : Nat := 255

/-- FREE VALUE (log 5, safe): which of several expiries reached at one millisecond step is taken next,
where the sender of the commands has given none. R144 takes them "in any order". -/
opaque expiryPick : Nat → Nat

/-- FREE VALUE (log 28, safe): what SDO carries at a place of an SPI access, counted in accesses and in bits, where R150
gives nothing: during the control byte, and during the data bits of a write. -/
opaque openSdo : Nat → Nat → Bool

end Sys2Proof.Config
end

