-- ==== Sys2Proof/Machine/State.lean ====
section
/-!
DEFINITION. The state of the UC320, block by block, as plain data, and the state right after power-on reset.
-/

namespace Sys2Proof.Machine

/-- No rule of the manual stops the part: it has no fault. The type is empty, so no command can raise one (log 4). -/
inductive Fault where
  deriving DecidableEq, Repr

/-- Why the model gives a command no meaning. -/
inductive Refusal where
  /-- Raised by an arm of `exec` whose command has no meaning yet. Safe: the run stops. No arm raises it now. -/
  | notModelled (mnemonic : String)
  /-- Raised by a command whose operands are no event of its row in any state (`Instr.wellFormed`, log 3).
  Safe: the run stops, and the hardware never meets such a command. -/
  | illFormed
  deriving DecidableEq, Repr

/-! ### Line Interface (chapter 8) -/

/-- The eight line states (R132). -/
inductive LineState where
  | idle
  | receiving
  | ignoring
  | replying
  | sending
  | awaitAck
  | trailing
  | held
  deriving DecidableEq, Repr

/-- The bit period selected by the RATE strap (R127). -/
inductive BitPeriod where
  /-- RATE low: 62.5 kbit/s. -/
  | micros16
  /-- RATE high: 125 kbit/s. -/
  | micros8
  deriving DecidableEq, Repr

/-- The Line Interface: line state, bit period, and the frame being received or sent. -/
structure Lif where
  lineState : LineState
  bitPeriod : BitPeriod
  /-- The bits received so far of the frame being received. -/
  rxBits : List Bool
  /-- The bytes being driven: a reply with its check, or a notice frame. -/
  txBytes : List Byte
  /-- How many bits of them have been driven. -/
  txPos : Nat
  deriving DecidableEq, Repr

/-! ### Replies (R124, R125) and the reply memory (R112) -/

/-- The life state of an IN_USE slot (section 1.1): OPEN or RETIRING. -/
inductive Life where
  | opened
  | retiring
  deriving DecidableEq, Repr

/-- The claim state derived from the holders (R8). -/
inductive ClaimState where
  | free
  | shared
  | exclusive
  deriving DecidableEq, Repr

/-- The fields of INFO (R12). -/
structure Info where
  life : Life
  claimState : ClaimState
  recallRunning : Bool
  shareLimit : Nat
  holders : Nat
  waits : Nat
  deriving DecidableEq, Repr

/-- The outcomes and refusals with their fields (R124, R125). -/
inductive Reply where
  | granted (token : Token) (mode : Mode)
  | queued (position : Nat)
  | denied
  | alreadyHeld (token : Token) (mode : Mode)
  | alreadyWaiting (position : Nat)
  | released
  | downgraded (token : Token)
  | notHeld
  | valid (mode : Mode)
  | stale
  | info (i : Info)
  | cancelled
  | notWaiting
  | joined (epoch : BitVec 4) (directoryEpoch : BitVec 8) (leaseTerm quota : Nat)
  | left
  | renewed (leaseTerm : Nat)
  | noResource
  | retiring
  | quota
  | noRoom
  | queueFull
  | notJoined
  | lapsed
  | notAdmitted
  | halted
  | badKind
  | badRequest
  deriving DecidableEq, Repr

/-- The reply memory of a node record (R112). -/
inductive ReplyMemory where
  | empty
  /-- OPEN, with what identifies the request answered and the reply. -/
  | stored (seq : BitVec 3) (kind : BitVec 4) (resource : Option ResourceId) (reply : Reply)
  | closed
  deriving DecidableEq, Repr

/-! ### Node Table (chapter 5) -/

/-- Whether the supervisor admits a node (R81). -/
inductive Admission where
  | admitted
  | barred
  deriving DecidableEq, Repr

/-- The session state of a node; the lease deadline is present in ACTIVE only (R79, R80). -/
inductive Session where
  | absent
  | active (leaseDeadline : Millis)
  | lapsed
  deriving DecidableEq, Repr

/-- One node record (R79). -/
structure NodeRecord where
  admission : Admission
  session : Session
  epoch : BitVec 4
  /-- In units of 20 ms, 1 to 255. -/
  leaseTerm : Nat
  quota : Nat
  heldCount : Nat
  waitCount : Nat
  revocationCount : Nat
  noticeSeq : BitVec 3
  reply : ReplyMemory
  deriving DecidableEq, Repr

/-- A node record's values after POR (R79). -/
def NodeRecord.afterPor : NodeRecord :=
  { admission := .admitted, session := .absent, epoch := 0, leaseTerm := 50, quota := 8, heldCount := 0
    waitCount := 0, revocationCount := 0, noticeSeq := 0, reply := .empty }

/-! ### Resource Directory, Holding Pool, Wait Pool (chapters 1 to 3) -/

/-- A holding record in use (section 2.1). -/
structure Holding where
  node : NodeId
  mode : Mode
  token : Token
  /-- The directory slot the record belongs to. -/
  slot : SlotId
  recallTarget : Bool
  deriving DecidableEq, Repr

/-- A wait record in use (R44). -/
structure Wait where
  node : NodeId
  mode : Mode
  /-- The directory slot the record belongs to. -/
  slot : SlotId
  /-- A hold-clock value. -/
  deadline : Millis
  deriving DecidableEq, Repr

/-- The entry of an IN_USE slot (section 1.1). Its deferred and recall-pending marks are read from the two
lists (R9). -/
structure Entry where
  id : ResourceId
  life : Life
  shareLimit : Nat
  recallable : Bool
  /-- In grant order (R5). -/
  holders : List Holding
  /-- In arrival order (R6). -/
  queue : List Wait
  recallSlot : Option RecallId
  deriving DecidableEq, Repr

/-- The Resource Directory; an UNUSED slot is `none` (R1). -/
structure Dir where
  slots : Vector (Option Entry) 256
  /-- The grant sequence's next token (R10). -/
  nextToken : Token
  /-- The directory epoch (R11). -/
  epoch : BitVec 8
  /-- The deferred-grant list, oldest first (R55). -/
  deferred : List SlotId
  deriving DecidableEq, Repr

/-! ### Recall Tracker (chapter 4) -/

/-- The status of a recall target (R64). -/
inductive TargetStatus where
  | pending
  | notified
  | gone
  deriving DecidableEq, Repr

/-- One target entry (R64). -/
structure Target where
  node : NodeId
  token : Token
  status : TargetStatus
  deriving DecidableEq, Repr

/-- A running recall (R63). -/
structure Recall where
  slot : SlotId
  /-- The head wait that caused the recall; no field of a wait changes while it stands (R44). -/
  waiter : Wait
  targets : List Target
  /-- A hold-clock value. -/
  deadline : Millis
  deriving DecidableEq, Repr

/-- The Recall Tracker: its slots, the start order, and the recall-start list (R63, R67). -/
structure Rct where
  slots : Vector (Option Recall) 8
  startOrder : List RecallId
  startList : List SlotId
  deriving DecidableEq, Repr

/-! ### Notice Queue (chapter 6) -/

/-- Why a wait ended (section 11.4). -/
inductive Reason where
  | timeout
  | retired
  | withdrawn
  | quota
  deriving DecidableEq, Repr

/-- The kind and fields of a notice to a node (R97). -/
inductive NoticeMsg where
  | granted (resource : ResourceId) (token : Token)
  | askBack (resource : ResourceId) (token : Token)  -- RECALL
  | revoked (resource : ResourceId) (token : Token)
  | waitEnded (resource : ResourceId) (reason : Reason)
  deriving DecidableEq, Repr

/-- What a notice entry carries: a notice to a node with its notice sequence, or ANNOUNCE (R97, R98). -/
inductive Notice where
  | toNode (node : NodeId) (seq : BitVec 3) (msg : NoticeMsg)
  | announce (directoryEpoch : BitVec 8)
  deriving DecidableEq, Repr

/-- The state of a notice entry in use (R96). -/
inductive EntryState where
  | ready
  | inFlight (discard : Bool)
  | backoff (ends : Millis)
  deriving DecidableEq, Repr

/-- A notice entry in use (R97). -/
structure NoticeEntry where
  notice : Notice
  attempts : Nat
  state : EntryState
  deriving DecidableEq, Repr

/-! ### Deadline Unit (chapter 9) and Supervisor Port (chapter 10) -/

/-- The Deadline Unit: three clocks and two timing parameters (R142, R147). Whether the line is held and whether
the part is halted are read from their owners (R149). -/
structure Dlu where
  leaseClock : Millis
  holdClock : Millis
  noticeClock : Millis
  /-- In units of 10 ms. -/
  recallTimeout : Nat
  /-- In ms. -/
  noticeBackoff : Nat
  deriving DecidableEq, Repr

/-- The command state of the mailbox (R152). -/
inductive CmdState where
  | idle
  | running
  | done
  | failed
  deriving DecidableEq, Repr

/-- The Supervisor Port (R151, R152, R158, R160, R161). -/
structure Svp where
  cmdState : CmdState
  /-- What COMMAND reads back: the code of the last command started. -/
  command : Word
  /-- ARG0 to ARG3. -/
  args : Vector Word 4
  /-- The arguments captured for the last command started. -/
  captured : Vector Word 4
  /-- RES0 to RES6. -/
  results : Vector Word 7
  /-- The eleven event flags, numbered as in FLAGS. -/
  flags : BitVec 11
  /-- Their enables. -/
  enables : BitVec 11
  halted : Bool
  deriving DecidableEq, Repr

/-- The state of the part, and the queue of commands that wait to be taken. -/
structure State where
  lif : Lif
  nodes : Vector NodeRecord 30
  dir : Dir
  /-- Free records of the Holding Pool (R20). -/
  freeHoldings : Nat
  /-- Free records of the Wait Pool (R43). -/
  freeWaits : Nat
  rct : Rct
  /-- The entries in use of the Notice Queue, in enqueue order (R96). -/
  nq : List NoticeEntry
  dlu : Dlu
  svp : Svp
  /-- The model's own: how many free choices have been made (log 5). -/
  picks : Nat
  /-- The model's own: the commands that wait, first in, first out. -/
  pending : List Instr
  deriving DecidableEq, Repr

/-- The bit of LINE_HELD in FLAGS (section 11.5), set at a reset on a dominant line (R163). -/
def lineHeldAtReset : BitVec 11 := 0x040#11

/-- The state after POR with RATE high or low and LINE dominant or recessive at the release of RESETN (R18, R79,
R109, R127, R132, R142, R147, R163). -/
def State.afterPor (rateHigh lineDominant : Bool) : State where
  lif :=
    { lineState := if lineDominant then .held else .trailing
      bitPeriod := if rateHigh then .micros8 else .micros16
      rxBits := [], txBytes := [], txPos := 0 }
  nodes := Vector.replicate 30 NodeRecord.afterPor
  dir := { slots := Vector.replicate 256 none, nextToken := 1, epoch := 0, deferred := [] }
  freeHoldings := Config.holdingRecords
  freeWaits := Config.waitRecords
  rct := { slots := Vector.replicate 8 none, startOrder := [], startList := [] }
  nq := [{ notice := .announce 0, attempts := 0, state := .ready }]
  dlu := { leaseClock := 0, holdClock := 0, noticeClock := 0, recallTimeout := 20, noticeBackoff := 5 }
  svp :=
    { cmdState := .idle, command := 0, args := Vector.replicate 4 0, captured := Vector.replicate 4 0
      results := Vector.replicate 7 0, flags := if lineDominant then lineHeldAtReset else 0
      enables := 0, halted := true }
  picks := 0
  pending := []

/-- The machine right after reset: POR with RATE strapped low and LINE recessive (log 2). -/
def State.reset : State := State.afterPor false false

end Sys2Proof.Machine
end

