-- ==== Sys2Proof/Machine/Flags.lean ====
section
/-!
DEFINITION. The event flags, their enables and ATTN (R160, R161, section 11.5).
-/

namespace Sys2Proof.Machine

/-- The eleven event flags (R160). -/
inductive Flag where
  | cmdDone
  | cmdRefused
  | nodeLapsed
  | revocation
  | noticeFailed
  | noticeDropped
  | lineHeld
  | lineReleased
  | resourceFreed
  | poolRefusal
  | frameError
  deriving DecidableEq, Repr

/-- The bit of FLAGS and ENABLE that is given to a flag (section 11.5). -/
def flagBit : Flag → Nat
  | .cmdDone => 0
  | .cmdRefused => 1
  | .nodeLapsed => 2
  | .revocation => 3
  | .noticeFailed => 4
  | .noticeDropped => 5
  | .lineHeld => 6
  | .lineReleased => 7
  | .resourceFreed => 8
  | .poolRefusal => 9
  | .frameError => 10

/-- FLAGS with one flag set. -/
def flagMask (f : Flag) : BitVec 11 := 1#11 <<< flagBit f

/-- Whether a flag is set. -/
def flagSet (f : Flag) (s : State) : Bool := s.svp.flags.getLsbD (flagBit f)

/-- Set a flag; a flag already set stays set (R160). -/
def setFlag (f : Flag) (s : State) : State :=
  { s with svp := { s.svp with flags := s.svp.flags ||| flagMask f } }

/-- Clear each flag whose bit is written 1; undefined bits have no effect (R160, R166). -/
def clearFlags (data : Word) (s : State) : State :=
  { s with svp := { s.svp with flags := s.svp.flags &&& ~~~(data.setWidth 11) } }

/-- Replace all eleven enables; undefined bits have no effect (R161, R166). -/
def writeEnables (data : Word) (s : State) : State :=
  { s with svp := { s.svp with enables := data.setWidth 11 } }

/-- ATTN is asserted while at least one flag is set and its enable is set (R161). -/
def attn (s : State) : Bool := s.svp.flags &&& s.svp.enables ≠ 0#11

end Sys2Proof.Machine
end

