-- ==== Sys2Proof/Machine/Table.lean ====
section
/-!
DEFINITION. Reading and writing tables of a fixed number of records.
-/

namespace Sys2Proof.Machine

/-- The record at an index. -/
def tget {α : Type} {n : Nat} (v : Vector α n) (i : Fin n) : α := v[i.val]

/-- The table with the record at an index replaced. -/
def tset {α : Type} {n : Nat} (v : Vector α n) (i : Fin n) (x : α) : Vector α n := v.set i.val x

/-- The table with every record changed by a function. -/
def tmap {α β : Type} {n : Nat} (f : α → β) (v : Vector α n) : Vector β n :=
  ⟨(v.toList.map f).toArray, by simp⟩

/-- The indices of a table's records that meet a test, in ascending order. -/
def twhere {α : Type} {n : Nat} (p : α → Bool) (v : Vector α n) : List (Fin n) :=
  (List.finRange n).filter fun i => p (tget v i)

/-- The first index, in ascending order, whose record meets a test. -/
def tfind {α : Type} {n : Nat} (p : α → Bool) (v : Vector α n) : Option (Fin n) :=
  (List.finRange n).find? fun i => p (tget v i)

end Sys2Proof.Machine
end

