-- ==== Sys2Proof/Machine/Ops.lean ====
section
/-!
DEFINITION. The named operations the blocks share: records read and written, the directory's lookup and lists, the
token draw (R10), leases (R86), and offering a notice (R98, R99).
-/

namespace Sys2Proof.Machine

/-! ### Records -/

/-- The record of a node. -/
def node (n : NodeId) (s : State) : NodeRecord := tget s.nodes n

/-- Change the record of a node. -/
def modNode (n : NodeId) (f : NodeRecord → NodeRecord) (s : State) : State :=
  { s with nodes := tset s.nodes n (f (tget s.nodes n)) }

/-- The entry of a directory slot, or none when the slot is UNUSED. -/
def slot (i : SlotId) (s : State) : Option Entry := tget s.dir.slots i

/-- Write a directory slot. -/
def setSlot (i : SlotId) (e : Option Entry) (s : State) : State :=
  { s with dir := { s.dir with slots := tset s.dir.slots i e } }

/-- The recall in a recall slot, or none when the slot is free. -/
def recallAt (k : RecallId) (s : State) : Option Recall := tget s.rct.slots k

/-- Write a recall slot. -/
def setRecall (k : RecallId) (r : Option Recall) (s : State) : State :=
  { s with rct := { s.rct with slots := tset s.rct.slots k r } }

/-- The lowest-numbered free recall slot (R66). -/
def freeRecallSlot (s : State) : Option RecallId := tfind (fun r => r.isNone) s.rct.slots

/-- The directory slot of the IN_USE entry with a resource id, and that entry (R3). -/
def lookup (id : ResourceId) (s : State) : Option (SlotId × Entry) :=
  (tfind (fun o => o.any fun e => e.id = id) s.dir.slots).bind fun i => (slot i s).map fun e => (i, e)

/-- The holding of a node on an entry (R7: at most one). -/
def holdingOf (n : NodeId) (e : Entry) : Option Holding := e.holders.find? fun h => h.node = n

/-- The wait of a node on an entry (R7: at most one). -/
def waitOf (n : NodeId) (e : Entry) : Option Wait := e.queue.find? fun w => w.node = n

/-- The position of a node's wait, counted from the head, which is position 1 (R6). -/
def waitPosition (n : NodeId) (e : Entry) : Option Nat := (e.queue.findIdx? fun w => w.node = n).map (· + 1)

/-- The claim state (R8). -/
def claimState (e : Entry) : ClaimState :=
  if e.holders.isEmpty then .free
  else if e.holders.all fun h => h.mode = .shared then .shared
  else .exclusive

/-! ### The two lists of directory entries (R9, R55, R67) -/

/-- Whether the resource stands on the deferred-grant list: its deferred mark. -/
def isDeferred (i : SlotId) (s : State) : Bool := s.dir.deferred.contains i

/-- Whether the resource stands on the recall-start list: its recall-pending mark. -/
def isRecallPending (i : SlotId) (s : State) : Bool := s.rct.startList.contains i

/-- Append at the tail, unless it already stands there (R9). -/
def appendOnce (i : SlotId) (l : List SlotId) : List SlotId := if l.contains i then l else l ++ [i]

/-- Join the deferred-grant list (R55). -/
def joinDeferred (i : SlotId) (s : State) : State :=
  { s with dir := { s.dir with deferred := appendOnce i s.dir.deferred } }

/-- Leave the deferred-grant list (R55). -/
def leaveDeferred (i : SlotId) (s : State) : State :=
  { s with dir := { s.dir with deferred := s.dir.deferred.filter (· ≠ i) } }

/-- Join the recall-start list (R67). -/
def joinStartList (i : SlotId) (s : State) : State :=
  { s with rct := { s.rct with startList := appendOnce i s.rct.startList } }

/-- Leave the recall-start list (R67). -/
def leaveStartList (i : SlotId) (s : State) : State :=
  { s with rct := { s.rct with startList := s.rct.startList.filter (· ≠ i) } }

/-- Leave both lists. -/
def leaveBothLists (i : SlotId) (s : State) : State := leaveStartList i (leaveDeferred i s)

/-! ### Tokens (R10) -/

/-- The tokens of all live holdings. -/
def liveTokens (s : State) : List Token :=
  s.dir.slots.toList.flatMap fun o => match o with
    | none => []
    | some e => e.holders.map fun h => h.token

/-- The value after a token: 1 follows 16 777 215, so 0 is never reached. -/
def tokenAfter (t : Token) : Token := if t = 0xFFFFFF#24 then 1#24 else t + 1#24

/-- The first candidate from `t` on that no live holding carries, tried at most `tries` times beyond `t`. -/
def firstFree (live : List Token) : Nat → Token → Token
  | 0, t => t
  | tries + 1, t => if live.contains t then firstFree live tries (tokenAfter t) else t

/-- The token a draw gives: at most as many candidates are skipped as there are live tokens. -/
def drawnToken (s : State) : Token := firstFree (liveTokens s) (liveTokens s).length s.dir.nextToken

/-- The grant sequence after a token has been drawn. -/
def afterDraw (t : Token) (s : State) : State :=
  { s with dir := { s.dir with nextToken := tokenAfter t } }

/-! ### Leases (R86) -/

/-- A lease term in ms. -/
def leaseTermMs (r : NodeRecord) : Millis := BitVec.ofNat 32 (20 * r.leaseTerm)

/-- Whether a session is ACTIVE. -/
def isActive : Session → Bool
  | .active _ => true
  | .absent | .lapsed => false

/-- Lease renewal: only an ACTIVE node's deadline is set, one term ahead of the lease clock (R86). -/
def renewLease (n : NodeId) (s : State) : State :=
  if isActive (node n s).session then
    modNode n (fun r => { r with session := .active (s.dlu.leaseClock + leaseTermMs r) }) s
  else s

/-! ### Notices (R98, R99) -/

/-- The free entries of the Notice Queue (R96). -/
def freeEntries (s : State) : Nat := Config.noticeEntries - s.nq.length

/-- Queue a notice for a node: it joins the tail in READY with attempts 0 and takes the node's notice sequence,
which advances by one (R98, R99). -/
def queueNotice (n : NodeId) (msg : NoticeMsg) (s : State) : State :=
  let entry : NoticeEntry := { notice := .toNode n (node n s).noticeSeq msg, attempts := 0, state := .ready }
  modNode n (fun r => { r with noticeSeq := r.noticeSeq + 1 }) { s with nq := s.nq ++ [entry] }

/-- Offer a best-effort notice: queued when 5 or more entries are free, otherwise dropped with NOTICE_DROPPED set
(R99). -/
def offerBestEffort (n : NodeId) (msg : NoticeMsg) (s : State) : State :=
  if Config.bestEffortMargin ≤ freeEntries s then queueNotice n msg s else setFlag .noticeDropped s

/-! ### Record pools (R20, R43) and slots (R2) -/

/-- A directory slot becomes UNUSED: its records are in their pools, it stands on no list, and RESOURCE_FREED is
set (R2). Every rule that frees a slot has emptied both lists before; what they still held would go back to the
pools. -/
def freeSlot (i : SlotId) (s : State) : State :=
  match slot i s with
  | none => s
  | some e =>
    setFlag .resourceFreed (leaveBothLists i (setSlot i none
      { s with
        freeHoldings := s.freeHoldings + e.holders.length
        freeWaits := s.freeWaits + e.queue.length }))

end Sys2Proof.Machine
end

