-- ==== Sys2Proof/Machine/Recall.lean ====
section
/-!
DEFINITION. The Recall Tracker: blockers and qualification (R61, R62), starting a recall (R65, R66), the
recall-start list and slot handout (R67, R68), and entries handed to PENDING targets (R69).
-/

namespace Sys2Proof.Machine

/-- Whether a claim of a mode fits beside the holders of an entry: the condition of R25 and R50 on the holders. -/
def fits (m : Mode) (e : Entry) : Bool :=
  match m with
  | .exclusive => e.holders.isEmpty
  | .shared => (e.holders.all fun h => h.mode = .shared) && e.holders.length < e.shareLimit

/-- The head wait is grantable (R50). -/
def headGrantable (e : Entry) : Bool := e.queue.head?.any fun w => fits w.mode e

/-- Whether a holding stands between a head of this mode and its grant: every holding blocks an EXCLUSIVE head,
and an EXCLUSIVE holding blocks a SHARED head (R61). -/
def blocks (head : Mode) (h : Holding) : Bool := head = .exclusive || h.mode = .exclusive

/-- The blockers of a head of this mode, in holder-list order (R61). -/
def blockers (head : Mode) (e : Entry) : List Holding := e.holders.filter (blocks head)

/-- The entry qualifies for a recall (R62). -/
def entryQualifies (e : Entry) : Bool :=
  e.life = .opened && e.recallable && e.recallSlot.isNone
    && e.queue.head?.any fun w => !(blockers w.mode e).isEmpty

/-- The resource of a slot qualifies for a recall (R62). -/
def qualifies (i : SlotId) (s : State) : Bool := (slot i s).any entryQualifies

/-- Change the status of a node's target in a recall (R64). -/
def setStatus (n : NodeId) (st : TargetStatus) (r : Recall) : Recall :=
  { r with targets := r.targets.map fun t => if t.node = n then { t with status := st } else t }

/-- The resource id of the entry in a slot. -/
def slotId (i : SlotId) (s : State) : Option ResourceId := (slot i s).map fun e => e.id

/-- Queue a RECALL notice for a target of the recall in slot `k`, with the target's current token, and make the
target NOTIFIED (R66, R69). -/
def notifyTarget (k : RecallId) (t : Target) (s : State) : State :=
  match recallAt k s with
  | none => s
  | some r =>
    match slotId r.slot s with
    | none => s
    | some id =>
      queueNotice t.node (.askBack id t.token) (setRecall k (some (setStatus t.node .notified r)) s)

/-- Notify the targets of a recall that starts, in list order, while an entry is free (R66 step 3). -/
def notifyWhileFree (k : RecallId) : List Target → State → State
  | [], s => s
  | t :: ts, s => if freeEntries s = 0 then s else notifyWhileFree k ts (notifyTarget k t s)

/-- The hold clock plus the recall timeout (R63, R147). -/
def recallDeadlineFrom (s : State) : Millis := s.dlu.holdClock + BitVec.ofNat 32 (10 * s.dlu.recallTimeout)

/-- The recall that starts on the resource of slot `i` for its head wait `w`: the blockers are its targets, in
holder-list order, and none has been notified (R64, R66 step 1). -/
def newRecall (i : SlotId) (e : Entry) (w : Wait) (s : State) : Recall :=
  { slot := i, waiter := w
    targets := (blockers w.mode e).map fun h => { node := h.node, token := h.token, status := .pending }
    deadline := recallDeadlineFrom s }

/-- The entry with the recall slot it has been given and with its blockers marked as recall targets (R64, R66). -/
def markBlockers (k : RecallId) (w : Wait) (e : Entry) : Entry :=
  { e with
    holders := e.holders.map fun h => if blocks w.mode h then { h with recallTarget := true } else h
    recallSlot := some k }

/-- A recall occupies a free recall slot and joins the start order (R63, R66). -/
def openRecall (k : RecallId) (r : Recall) (s : State) : State :=
  let s := setRecall k (some r) s
  { s with rct := { s.rct with startOrder := s.rct.startOrder ++ [k] } }

/-- A recall starts in recall slot `k` on the resource of slot `i` (R66). -/
def startRecall (k : RecallId) (i : SlotId) (s : State) : State :=
  match slot i s with
  | none => s
  | some e =>
    match e.queue with
    | [] => s
    | w :: _ =>
      let r := newRecall i e w s
      notifyWhileFree k r.targets (setSlot i (some (markBlockers k w e)) (openRecall k r s))

/-- The recall decision for one resource, made only while the part is not halted (R65). -/
def recallDecision (i : SlotId) (s : State) : State :=
  if s.svp.halted then s
  else if qualifies i s then
    match freeRecallSlot s with
    | some k => leaveStartList i (startRecall k i s)
    | none => joinStartList i s
  else leaveStartList i s

/-- The walk of R68 from the oldest resource of the recall-start list, over at most `fuel` resources: the first that
qualifies takes the lowest free slot, and those met before it leave the list. -/
def handoutWalk : Nat → State → State
  | 0, s => s
  | fuel + 1, s =>
    match freeRecallSlot s, s.rct.startList with
    | some k, i :: _ =>
      if qualifies i s then leaveStartList i (startRecall k i s)
      else handoutWalk fuel (leaveStartList i s)
    | _, _ => s

/-- A freed recall slot is handed out, while the part is not halted (R68). -/
def handOut (s : State) : State :=
  if s.svp.halted then s else handoutWalk s.rct.startList.length s

/-- The first PENDING target, in list order, of the oldest running recall that has one (R69). -/
def firstPending (s : State) : Option (RecallId × Target) :=
  s.rct.startOrder.findSome? fun k =>
    (recallAt k s).bind fun r => (r.targets.find? fun t => t.status = .pending).map fun t => (k, t)

/-- The Recall Tracker is offered a free entry (R69). -/
def takeFreeEntry (s : State) : State :=
  match firstPending s with
  | none => s
  | some (k, t) => notifyTarget k t s

end Sys2Proof.Machine
end

