-- ==== Sys2Proof/Machine/GrantPass.lean ====
section
/-!
DEFINITION. The grant pass with its end check (R50 to R53), the serving of the deferred-grant list (R56), the
free-entry arbiter (R100), and the removal of notice entries (R106, R107).
-/

namespace Sys2Proof.Machine

/-- A wait's record leaves use: back to the Wait Pool, and the node's wait count falls by one (R46 step 2). -/
def returnWait (n : NodeId) (s : State) : State :=
  modNode n (fun r => { r with waitCount := r.waitCount - 1 }) { s with freeWaits := s.freeWaits + 1 }

/-- A holding is created on an entry for a node (R26 step 3, R51 step 1): a record from the Holding Pool, a token
drawn, appended at the tail, the held count up by one. -/
def addHolding (i : SlotId) (e : Entry) (n : NodeId) (m : Mode) (s : State) : State :=
  let t := drawnToken s
  let h : Holding := { node := n, mode := m, token := t, slot := i, recallTarget := false }
  let s := afterDraw t { s with freeHoldings := s.freeHoldings - 1 }
  let s := setSlot i (some { e with holders := e.holders ++ [h] }) s
  modNode n (fun r => { r with heldCount := r.heldCount + 1 }) s

/-- The head wait `w` of an entry, with `rest` behind it, is granted (R51). -/
def grantHead (i : SlotId) (e : Entry) (w : Wait) (rest : List Wait) (s : State) : State :=
  let t := drawnToken s
  queueNotice w.node (.granted e.id t)
    (returnWait w.node (addHolding i { e with queue := rest } w.node w.mode s))

/-- The head wait `w` of an entry, with `rest` behind it, is ended by quota (R52). A grantable head is the waiter of
no recall (R74), so step 4 of the wait removal has nothing to abandon (log 6). -/
def endByQuota (i : SlotId) (e : Entry) (w : Wait) (rest : List Wait) (s : State) : State :=
  offerBestEffort w.node (.waitEnded e.id .quota)
    (returnWait w.node (setSlot i (some { e with queue := rest }) s))

/-- The cases of R50, for at most `fuel` heads. -/
def passLoop : Nat → SlotId → State → State
  | 0, _, s => s
  | fuel + 1, i, s =>
    match slot i s with
    | none => s
    | some e =>
      match e.queue with
      | [] => s
      | w :: rest =>
        if fits w.mode e then
          if (node w.node s).heldCount = (node w.node s).quota then passLoop fuel i (endByQuota i e w rest s)
          else if s.freeHoldings = 0 ∨ freeEntries s = 0 then joinDeferred i s
          else passLoop fuel i (grantHead i e w rest s)
        else s

/-- The end check on an entry (R53). -/
def endCheck (i : SlotId) (s : State) : State :=
  match slot i s with
  | none => s
  | some e =>
    if e.queue.isEmpty then leaveBothLists i s
    else if headGrantable e then leaveStartList i s
    else recallDecision i (leaveDeferred i s)

/-- The grant pass: on an OPEN entry, while the part is not halted, with its end check (R50, R54). Each case takes the
head away or stops, so the length of the queue bounds the heads dealt with. -/
def grantPass (i : SlotId) (s : State) : State :=
  if s.svp.halted then s
  else
    match slot i s with
    | none => s
    | some e => if e.life = .opened then endCheck i (passLoop e.queue.length i s) else s

/-- Serving from the oldest resource, over at most `fuel` resources: it stops when one keeps its place (R56). -/
def serveLoop : Nat → State → State
  | 0, s => s
  | fuel + 1, s =>
    match s.dir.deferred with
    | [] => s
    | i :: _ =>
      let t := grantPass i s
      if isDeferred i t then t else serveLoop fuel t

/-- The deferred-grant list is served, while the part is not halted (R56). -/
def serveDeferred (s : State) : State :=
  if s.svp.halted then s else serveLoop s.dir.deferred.length s

/-- The free-entry arbiter acts for one entry just freed: first the deferred-grant list, then, if an entry is free,
the Recall Tracker (R100). -/
def arbiter (s : State) : State :=
  let s := serveDeferred s
  if freeEntries s = 0 then s else takeFreeEntry s

/-- The notice entry at a place is removed, and the freed entry goes to the arbiter (R100). -/
def removeEntry (place : Nat) (s : State) : State := arbiter { s with nq := s.nq.eraseIdx place }

/-- Every entry that meets a test is removed, the oldest first, each freed entry going to the arbiter in turn; at
most `fuel` entries. -/
def removeEntries (p : NoticeEntry → Bool) : Nat → State → State
  | 0, s => s
  | fuel + 1, s =>
    match s.nq.findIdx? p with
    | none => s
    | some place => removeEntries p fuel (removeEntry place s)

/-- The frame of the entry is on the line. -/
def isInFlight (e : NoticeEntry) : Bool :=
  match e.state with
  | .inFlight _ => true
  | .ready | .backoff _ => false

/-- Mark an entry for discard if it is IN_FLIGHT (R96). -/
def markDiscard (e : NoticeEntry) : NoticeEntry :=
  match e.state with
  | .inFlight _ => { e with state := .inFlight true }
  | .ready | .backoff _ => e

/-- The targets of the running recalls that still wait for a notice entry (R69). -/
def pendingTargets (s : State) : Nat :=
  (s.rct.slots.toList.map fun o => (o.elim [] Recall.targets).countP fun t => t.status = .pending).sum

/-- The entries that meet a test are taken back: an IN_FLIGHT one is marked for discard, and the others are removed
(R106, R107). Each removal lets the arbiter notify one PENDING target at most, so the entries queued and the PENDING
targets bound the removals (log 11). -/
def takeBack (p : NoticeEntry → Bool) (s : State) : State :=
  removeEntries (fun e => p e && !isInFlight e) (s.nq.length + pendingTargets s)
    { s with nq := s.nq.map fun e => if p e then markDiscard e else e }

/-- A RECALL entry that names a resource. -/
def isRecallFor (id : ResourceId) (e : NoticeEntry) : Bool :=
  match e.notice with
  | .toNode _ _ (.askBack r _) => r = id
  | _ => false

/-- An entry addressed to a node. -/
def isAddressedTo (n : NodeId) (e : NoticeEntry) : Bool :=
  match e.notice with
  | .toNode m _ _ => m = n
  | .announce _ => false

end Sys2Proof.Machine
end

