-- ==== Sys2Proof/Machine/Departure.lean ====
section
/-!
DEFINITION. How a recall ends (R70 to R75), how a holding leaves (R30, R37) and how a wait leaves (R46), and the
sessions that end with all of them (R40, R41, R49, R84).
-/

namespace Sys2Proof.Machine

/-! ### The end of a recall -/

/-- The recall slot `k` of the resource of slot `i` is freed, and the recall leaves the start order (R72 step 1,
R74 step 3). -/
def freeRecall (k : RecallId) (i : SlotId) (s : State) : State :=
  let s := setRecall k none s
  let s := { s with rct := { s.rct with startOrder := s.rct.startOrder.filter (· ≠ k) } }
  match slot i s with
  | none => s
  | some e => setSlot i (some { e with recallSlot := none }) s

/-- The holding of a node on an entry, if it remains, loses its recall-target mark (R64). -/
def clearMark (n : NodeId) (e : Entry) : Entry :=
  { e with holders := e.holders.map fun h => if h.node = n then { h with recallTarget := false } else h }

/-- The recall in slot `k` has a target of this node that is not GONE. -/
def hasLiveTarget (n : NodeId) (r : Recall) : Bool := r.targets.any fun t => t.node = n && t.status ≠ .gone

/-- Every target of the recall is GONE. -/
def allGone (r : Recall) : Bool := r.targets.all fun t => t.status = .gone

/-- The queued RECALL notices to a node for a resource are superseded (R70, R107). -/
def supersede (id : ResourceId) (n : NodeId) (s : State) : State :=
  takeBack (fun e => isRecallFor id e && isAddressedTo n e) s

/-- The target of a node becomes GONE in the recall on the resource of slot `i`; when it is the last, the recall
completes and its slot is handed out (R70, R71, R72). -/
def resolveTarget (i : SlotId) (n : NodeId) (s : State) : State :=
  match slot i s with
  | none => s
  | some e =>
    match e.recallSlot with
    | none => s
    | some k =>
      match recallAt k s with
      | none => s
      | some r =>
        if hasLiveTarget n r then
          let s := setRecall k (some (setStatus n .gone r)) s
          let s := setSlot i (some (clearMark n e)) s
          let s := supersede e.id n s
          if allGone (setStatus n .gone r) then handOut (freeRecall k i s) else s
        else s

/-- A running recall on the resource of slot `i` is abandoned. `waiterLeft` says that the cause is the waiter
leaving the head, and not RETIRE or WITHDRAW (R74). -/
def abandonRecall (i : SlotId) (waiterLeft : Bool) (s : State) : State :=
  match slot i s with
  | none => s
  | some e =>
    match e.recallSlot with
    | none => s
    | some k =>
      let s := takeBack (isRecallFor e.id) s
      let s := match slot i s with
        | none => s
        | some e =>
          setSlot i (some { e with holders := e.holders.map fun h => { h with recallTarget := false } }) s
      let s := freeRecall k i s
      let s := if waiterLeft && qualifies i s then joinStartList i s else s
      handOut s

/-! ### Departure of a holding -/

/-- Why a holding departs: given up, or revoked with or without a REVOKED notice (R30, R37). -/
inductive Departing where
  | released
  | revoked (notify : Bool)
  deriving DecidableEq, Repr

/-- The revocation effects on the holder (R37). -/
def revocationEffects (id : ResourceId) (h : Holding) (why : Departing) (s : State) : State :=
  match why with
  | .released => s
  | .revoked notify =>
    let s := modNode h.node
      (fun r => { r with revocationCount := min (r.revocationCount + 1) Config.revocationCeiling }) s
    let s := setFlag .revocation s
    if notify then offerBestEffort h.node (.revoked id h.token) s else s

/-- A RETIRING entry whose holder list is empty is freed (R15). -/
def freeIfRetired (i : SlotId) (s : State) : State :=
  match slot i s with
  | none => s
  | some e => if e.life = .retiring ∧ e.holders = [] then freeSlot i s else s

/-- The departure of a node's holding from the resource of slot `i`, in the seven steps of R30. -/
def depart (i : SlotId) (n : NodeId) (why : Departing) (s : State) : State :=
  match slot i s with
  | none => s
  | some e =>
    match holdingOf n e with
    | none => s
    | some h =>
      let s := setSlot i (some { e with holders := e.holders.eraseP fun h => h.node = n }) s
      let s := modNode n (fun r => { r with heldCount := r.heldCount - 1 })
        { s with freeHoldings := s.freeHoldings + 1 }
      let s := revocationEffects e.id h why s
      let s := resolveTarget i n s
      let s := freeIfRetired i s
      let s := serveDeferred s
      grantPass i s

/-! ### Removal of a wait -/

/-- Why a wait is removed (R46). -/
inductive WaitEnd where
  | cancelled
  | timedOut
  | dropped
  | retired
  | withdrawn
  deriving DecidableEq, Repr

/-- The reason of the WAIT_ENDED notice that belongs to a cause, if any (R46 step 3). -/
def waitEndReason : WaitEnd → Option Reason
  | .cancelled => none
  | .timedOut => some .timeout
  | .dropped => none
  | .retired => some .retired
  | .withdrawn => some .withdrawn

/-- The causes after which the grant pass runs for the new head (R46 step 6). -/
def passAfter : WaitEnd → Bool
  | .cancelled | .timedOut | .dropped => true
  | .retired | .withdrawn => false

/-- The removal of a node's wait from the queue of the resource of slot `i`, in the six steps of R46. -/
def removeWait (i : SlotId) (n : NodeId) (why : WaitEnd) (s : State) : State :=
  match slot i s with
  | none => s
  | some e =>
    match waitOf n e with
    | none => s
    | some _ =>
      let wasHead : Bool := e.queue.head?.any fun w => w.node = n
      let queue := e.queue.eraseP fun w => w.node = n
      let s := returnWait n (setSlot i (some { e with queue := queue }) s)
      let s := match waitEndReason why with
        | none => s
        | some reason => offerBestEffort n (.waitEnded e.id reason) s
      let s := if wasHead then abandonRecall i true s else s
      let s := if (slot i s).any fun e => e.queue.isEmpty then leaveBothLists i s else s
      if wasHead && passAfter why then grantPass i s else s

/-! ### The end of a session -/

/-- The slots on which a node waits, ascending. -/
def slotsAwaited (n : NodeId) (s : State) : List SlotId :=
  twhere (fun o => o.any fun e => (waitOf n e).isSome) s.dir.slots

/-- The slots on which a node holds, ascending. -/
def slotsHeld (n : NodeId) (s : State) : List SlotId :=
  twhere (fun o => o.any fun e => (holdingOf n e).isSome) s.dir.slots

/-- Session drop: every wait of a node is removed, in ascending slot order, without notices (R49). -/
def sessionDrop (n : NodeId) (s : State) : State :=
  (slotsAwaited n s).foldl (fun s i => removeWait i n .dropped s) s

/-- Session release (R40) or session revocation (R41): every holding of a node departs, in ascending slot order. -/
def sessionDepart (n : NodeId) (why : Departing) (s : State) : State :=
  (slotsHeld n s).foldl (fun s i => depart i n why s) s

/-- The cause of a session end (R84). -/
inductive SessionEnd where
  | left
  | restarted
  | lapsed
  | evicted
  deriving DecidableEq, Repr

/-- What a cause does with the node's holdings (R84 step 2). -/
def departureOf : SessionEnd → Departing
  | .left | .restarted => .released
  | .lapsed | .evicted => .revoked false

/-- What a cause makes of the node record's reply memory and session (R84 steps 4 and 5). -/
def endSession : SessionEnd → NodeRecord → NodeRecord
  | .left, r | .restarted, r => { r with session := .absent }
  | .lapsed, r => { r with session := .lapsed, reply := .closed }
  | .evicted, r => { r with session := .absent, reply := .closed }

/-- The session end of a node (R84). A restarting JOIN goes on to start the new session (R83). -/
def sessionEnd (n : NodeId) (why : SessionEnd) (s : State) : State :=
  let s := sessionDrop n s
  let s := sessionDepart n (departureOf why) s
  let s := takeBack (isAddressedTo n) s
  modNode n (endSession why) s

end Sys2Proof.Machine
end

