-- ==== Sys2Proof/Machine/Check.lean ====
section
/-!
DEFINITION. Bytes and bits on the line, the CRC-8 (R131), the frame header (section 11.1, R164), a request frame
written out, and what the Request Decoder makes of the bits collected at the end of data (R110, R111).
-/

namespace Sys2Proof.Machine

/-- The number by which the manual calls the node at an index of the Node Table. -/
def nodeNumber (n : NodeId) : Nat := n.val + 1

/-- The node a number names: 1 to 30 only (R79). -/
def nodeOf (k : Nat) : Option NodeId :=
  if h : 1 ≤ k ∧ k ≤ 30 then some ⟨k - 1, by omega⟩ else none

/-- The bits of a byte in the order they are sent, most significant first (R128). -/
def byteBits (b : Byte) : List Bool :=
  [b.getLsbD 7, b.getLsbD 6, b.getLsbD 5, b.getLsbD 4, b.getLsbD 3, b.getLsbD 2, b.getLsbD 1, b.getLsbD 0]

/-- The bits of several bytes in the order they are sent. -/
def bytesBits (bs : List Byte) : List Bool := bs.flatMap byteBits

/-- The byte made of eight bits received most significant first. -/
def byteOfBits (a b c d e f g h : Bool) : Byte :=
  BitVec.ofBool a ++ BitVec.ofBool b ++ BitVec.ofBool c ++ BitVec.ofBool d ++
    BitVec.ofBool e ++ BitVec.ofBool f ++ BitVec.ofBool g ++ BitVec.ofBool h

/-- The whole bytes of a run of received bits, or none when their number is not a multiple of eight (R110). -/
def bytesOfBits : List Bool → Option (List Byte)
  | [] => some []
  | a :: b :: c :: d :: e :: f :: g :: h :: rest =>
    (bytesOfBits rest).map (byteOfBits a b c d e f g h :: ·)
  | _ => none

/-- One input bit into the CRC-8 register (R131). -/
def crcBit (reg : Byte) (bit : Bool) : Byte :=
  if reg.msb = bit then reg <<< 1 else (reg <<< 1) ^^^ 0x07#8

/-- The CRC-8 of R131 over some bytes, from the initial value 0xFF. -/
def crc8 (bs : List Byte) : Byte := (bytesBits bs).foldl crcBit 0xFF#8

/-- The fields of the three header bytes (section 11.1). -/
structure Header where
  prio : BitVec 2
  kind : BitVec 4
  src : BitVec 5
  dest : BitVec 5
  version : BitVec 2
  seq : BitVec 3
  len : BitVec 3
  deriving DecidableEq, Repr

/-- The 24 bits of a header, the first bit on the line being the most significant. -/
def headerBits (h : Header) : BitVec 24 :=
  h.prio ++ h.kind ++ h.src ++ h.dest ++ h.version ++ h.seq ++ h.len

/-- The three header bytes in the order they are sent. -/
def headerBytes (h : Header) : List Byte :=
  [(headerBits h).extractLsb' 16 8, (headerBits h).extractLsb' 8 8, (headerBits h).extractLsb' 0 8]

/-- The header fields read from the bit positions of the header table (R164). -/
def headerOf (b0 b1 b2 : Byte) : Header :=
  let w : BitVec 24 := b0 ++ b1 ++ b2
  { prio := w.extractLsb' 22 2, kind := w.extractLsb' 18 4, src := w.extractLsb' 13 5
    dest := w.extractLsb' 8 5, version := w.extractLsb' 6 2, seq := w.extractLsb' 3 3
    len := w.extractLsb' 0 3 }

/-- A frame's bytes: header, body and frame check (R131). -/
def frameBytes (h : Header) (body : List Byte) : List Byte :=
  headerBytes h ++ body ++ [crc8 (headerBytes h ++ body)]

/-- The header of a request frame with this kind code: destination 0, format version 1 (R111). -/
def requestHeader (kind : BitVec 4) (r : Request) : Header :=
  { prio := r.prio, kind := kind, src := BitVec.ofNat 5 (nodeNumber r.src), dest := 0#5
    version := 1#2, seq := r.seq, len := BitVec.ofNat 3 r.body.length }

/-- The bits of a request frame, from the first header bit to the last bit of the frame check. -/
def requestBits (kind : BitVec 4) (r : Request) : List Bool :=
  bytesBits (frameBytes (requestHeader kind r) r.body)

/-- The frame check byte of a request frame, over which its reply's check is computed (R121). -/
def requestCheck (kind : BitVec 4) (r : Request) : Byte :=
  crc8 (headerBytes (requestHeader kind r) ++ r.body)

/-- The bits of a whole frame to the part that R111 drops. -/
def droppedBits (f : DroppedFrame) : List Bool :=
  bytesBits (frameBytes
    { prio := f.prio, kind := f.kind, src := f.src, dest := 0#5, version := f.version
      seq := f.seq, len := BitVec.ofNat 3 f.body.length } f.body)

/-- What the bits collected at an end of data are (R110, R111). -/
inductive FrameVerdict where
  /-- The destination is not 0: the Line Interface was IGNORING (R111). -/
  | notForPart
  /-- A receive error of R110. -/
  | receiveError
  /-- A source of 0 or 31, or a version other than 1 (R111). -/
  | dropped
  /-- A request taken from the node of its source. -/
  | request (kind : BitVec 4) (r : Request)
  deriving DecidableEq, Repr

/-- The destination field of some collected bits, once all five of its bits are there. -/
def destinationOf (bits : List Bool) : Option (List Bool) :=
  if 16 ≤ bits.length then some ((bits.drop 11).take 5) else none

/-- What a whole frame with good checks is: dropped, or a request (R111). -/
def verdictOf (h : Header) (body : List Byte) : FrameVerdict :=
  match nodeOf h.src.toNat with
  | some n => if h.version = 1#2 then .request h.kind ⟨h.prio, n, h.seq, body⟩ else .dropped
  | none => .dropped

/-- The checks of R110 and R111 on the bits collected at an end of data. -/
def parseFrame (bits : List Bool) : FrameVerdict :=
  if (destinationOf bits).any (· ≠ [false, false, false, false, false]) then .notForPart
  else
    match bytesOfBits bits with
    | some (b0 :: b1 :: b2 :: b3 :: rest) =>
      let h := headerOf b0 b1 b2
      let body := (b3 :: rest).dropLast
      if body.length = h.len.toNat ∧ (b3 :: rest).getLast? = some (crc8 ([b0, b1, b2] ++ body)) then
        verdictOf h body
      else .receiveError
    | _ => .receiveError

end Sys2Proof.Machine
end

