-- ==== Sys2Proof/Machine/Symbols.lean ====
section
/-!
DEFINITION. The symbols of the U-bus as pulse lengths, in thousandths of the bit period T (R128, R129).
-/

namespace Sys2Proof.Machine

/-- What a dominant pulse is classified as (R129). -/
inductive PulseClass where
  | nothing
  | one
  | zero
  | symbolError
  | sof
  | lineHold
  deriving DecidableEq, Repr

/-- The classification of R129 for a pulse of `d` thousandths of T. A pulse that reaches 8T is a line hold, as
R139 says (log 12). -/
def classifyPulse (d : Nat) : PulseClass :=
  if d < 125 then .nothing
  else if d ≤ 500 then .one
  else if d ≤ 1250 then .zero
  else if d < 1500 then .symbolError
  else if d ≤ 3000 then .sof
  else if d < 8000 then .symbolError
  else .lineHold

/-- The three symbols a transmitter forms (R128). -/
inductive Symbol where
  | zero
  | one
  | sof
  deriving DecidableEq, Repr

/-- The symbol of a data bit (R128). -/
def symbolOfBit (bit : Bool) : Symbol := if bit then .one else .zero

/-- How long a transmitter drives a symbol dominant, in thousandths of T (R128). -/
def dominantLength : Symbol → Nat
  | .zero => 750
  | .one => 250
  | .sof => 2000

/-- How long a transmitter then leaves the line recessive, in thousandths of T (R128). -/
def recessiveLength : Symbol → Nat
  | .zero => 250
  | .one => 750
  | .sof => 1000

/-- A falling edge `gap` thousandths of T after the edge that began the previous bit (for a SOF, after the end of
its dominant part) keeps the spacing rule of R129. -/
def spacingGood (gap : Nat) : Bool := 875 ≤ gap && gap ≤ 1500

/-- A falling edge at which the spacing rule of R129 is broken: too early, or too late but before the end of data,
which comes 3T after the edge that began the last data bit (R130). After a SOF with no data bit R130 gives no end of
data; the model puts it 3T after the end of the SOF's dominant part, as R129 measures the spacing there from that
moment. DESIGN CHOICE (log 27). -/
def spacingError (gap : Nat) : Bool := gap < 875 || (1500 < gap && gap < 3000)

/-- A pulse in IDLE that is a start error: classified, but as neither SOF nor line hold (R133). -/
def isStartError (d : Nat) : Bool :=
  match classifyPulse d with
  | .one | .zero | .symbolError => true
  | .nothing | .sof | .lineHold => false

/-- A pulse in RECEIVING that is a symbol error, a SOF where a data bit is expected included (R129). -/
def isDataError (d : Nat) : Bool :=
  match classifyPulse d with
  | .symbolError | .sof => true
  | .nothing | .one | .zero | .lineHold => false

end Sys2Proof.Machine
end

