-- ==== Sys2Proof/Machine/Frames.lean ====
section
/-!
DEFINITION. The bytes the part drives and the acknowledgements it reads: replies (section 11.3), notice and
ANNOUNCE frames (section 11.4), the tests of R165, and the symbols driven (R128).
-/

namespace Sys2Proof.Machine

/-- Mode is encoded as 1 for SHARED and 2 for EXCLUSIVE (R164). -/
def modeCode : Mode → Nat
  | .shared => 1
  | .exclusive => 2

/-- A number below 256 as one byte. -/
def byteOf (k : Nat) : Byte := BitVec.ofNat 8 k

/-- The three bytes of a token, most significant first. -/
def tokenBytes (t : Token) : List Byte := [t.extractLsb' 16 8, t.extractLsb' 8 8, t.extractLsb' 0 8]

/-- The two bytes of a resource id, most significant first. -/
def resourceBytes (r : ResourceId) : List Byte := [r.extractLsb' 8 8, r.extractLsb' 0 8]

/-- The code of a claim state (section 11.3). -/
def claimStateCode : ClaimState → Nat
  | .free => 0
  | .shared => 1
  | .exclusive => 2

/-- The INFO state byte (section 11.3). -/
def infoStateByte (i : Info) : Byte :=
  byteOf ((if i.life = .retiring then 128 else 0) + 32 * claimStateCode i.claimState
    + (if i.recallRunning then 16 else 0) + i.shareLimit % 16)

/-- The outcome code byte and the field bytes of a reply (section 11.3). -/
def replyBytes : Reply → List Byte
  | .granted t m => 0x01#8 :: tokenBytes t ++ [byteOf (modeCode m)]
  | .queued p => [0x02#8, byteOf p]
  | .denied => [0x03#8]
  | .alreadyHeld t m => 0x04#8 :: tokenBytes t ++ [byteOf (modeCode m)]
  | .alreadyWaiting p => [0x05#8, byteOf p]
  | .released => [0x06#8]
  | .downgraded t => 0x07#8 :: tokenBytes t
  | .notHeld => [0x08#8]
  | .valid m => [0x09#8, byteOf (modeCode m)]
  | .stale => [0x0A#8]
  | .info i => [0x0B#8, infoStateByte i, byteOf i.holders, byteOf i.waits]
  | .cancelled => [0x0C#8]
  | .notWaiting => [0x0D#8]
  | .joined e d term quota => [0x0E#8, e.setWidth 8, d, byteOf term, byteOf quota]
  | .left => [0x0F#8]
  | .renewed term => [0x10#8, byteOf term]
  | .noResource => [0x80#8]
  | .retiring => [0x81#8]
  | .quota => [0x82#8]
  | .noRoom => [0x83#8]
  | .queueFull => [0x84#8]
  | .notJoined => [0x85#8]
  | .lapsed => [0x86#8]
  | .notAdmitted => [0x87#8]
  | .halted => [0x88#8]
  | .badKind => [0x89#8]
  | .badRequest => [0x8A#8]

/-- The reply check: the CRC-8 over the frame's own check byte and then the reply bytes (R121). -/
def replyCheck (frameCheck : Byte) (reply : List Byte) : Byte := crc8 (frameCheck :: reply)

/-- All the bytes the part drives for a reply: the reply and its check. -/
def replyOnLine (frameCheck : Byte) (r : Reply) : List Byte :=
  replyBytes r ++ [replyCheck frameCheck (replyBytes r)]

/-- The code of a reason (section 11.4). -/
def reasonCode : Reason → Nat
  | .timeout => 1
  | .retired => 2
  | .withdrawn => 3
  | .quota => 4

/-- The body of a NOTICE frame (section 11.4). -/
def noticeBody : NoticeMsg → List Byte
  | .granted r t => 0x01#8 :: resourceBytes r ++ tokenBytes t
  | .askBack r t => 0x02#8 :: resourceBytes r ++ tokenBytes t
  | .revoked r t => 0x03#8 :: resourceBytes r ++ tokenBytes t
  | .waitEnded r why => 0x04#8 :: resourceBytes r ++ [byteOf (reasonCode why)]

/-- The frame the Line Interface sends for a notice entry: priority 1, source 0, version 1, kind 12 for a NOTICE
and 13 for ANNOUNCE (R135). -/
def noticeFrame : Notice → List Byte
  | .toNode n seq msg =>
    frameBytes
      { prio := 1#2, kind := 12#4, src := 0#5, dest := BitVec.ofNat 5 (nodeNumber n), version := 1#2
        seq := seq, len := BitVec.ofNat 3 (noticeBody msg).length } (noticeBody msg)
  | .announce epoch =>
    frameBytes
      { prio := 1#2, kind := 13#4, src := 0#5, dest := 31#5, version := 1#2, seq := 0#3, len := 1#3 } [epoch]

/-- What a reply received in AWAIT_ACK is at its end of data (R165). -/
inductive AckVerdict where
  | notAcknowledgement
  | badCheck
  | wrongSequence
  | accepted
  | refused
  deriving DecidableEq, Repr

/-- The five tests of R165, in order. -/
def classifyAck (frameCheck : Byte) (seq : BitVec 3) : List Byte → AckVerdict
  | [ack, check] =>
    if replyCheck frameCheck [ack] ≠ check then .badCheck
    else if ack.extractLsb' 4 4 ≠ 0b0101#4 then .notAcknowledgement
    else if ack.extractLsb' 0 3 ≠ seq then .wrongSequence
    else if ack.getLsbD 3 then .refused
    else .accepted
  | _ => .notAcknowledgement

/-- The five tests of R165 on the bits of a reply: where their number is no multiple of eight, the reply is not two
bytes long. -/
def classifyReply (frameCheck : Byte) (seq : BitVec 3) (bits : List Bool) : AckVerdict :=
  match bytesOfBits bits with
  | none => .notAcknowledgement
  | some reply => classifyAck frameCheck seq reply

/-- A good acknowledgement of a frame: the marker 0101, ACCEPT or REFUSE, and the echoed sequence, under its
check (section 11.4). -/
def goodAck (frameCheck : Byte) (refuse : Bool) (seq : BitVec 3) : AckReply :=
  let ack : Byte := 0b0101#4 ++ BitVec.ofBool refuse ++ seq
  { ack := ack, check := replyCheck frameCheck [ack] }

/-- The bits of a two-byte reply, in the order they are received. -/
def ackBits (a : AckReply) : List Bool := bytesBits [a.ack, a.check]

/-! ### The symbols the part drives (R128) -/

/-- The symbols of the frame or the reply that the part is driving: in SENDING a SOF and then the data bits; in REPLYING
the data bits, with no SOF before them (R130); in every other line state nothing (R128). -/
def drivenSymbols (s : State) : List Symbol :=
  let data := (bytesBits s.lif.txBytes).map symbolOfBit
  match s.lif.lineState with
  | .sending => .sof :: data
  | .replying => data
  | .idle | .receiving | .ignoring | .awaitAck | .trailing | .held => []

/-- The same as pulses on LINE: how long each symbol is dominant and then recessive, in thousandths of T (R128). -/
def drivenPulses (s : State) : List (Nat × Nat) :=
  (drivenSymbols s).map fun y => (dominantLength y, recessiveLength y)

end Sys2Proof.Machine
end

