-- ==== Sys2Proof/Machine/Attempts.lean ====
section
/-!
DEFINITION. Notice attempts: the entry offered and the entry on the line (R101), and what each outcome does to it
(R102 to R106).
-/

namespace Sys2Proof.Machine

/-- Enter a line state with no frame being received or sent. -/
def setLine (l : LineState) (s : State) : State :=
  { s with lif := { s.lif with lineState := l, rxBits := [], txBytes := [], txPos := 0 } }

/-- The place of the oldest READY entry, which is the one offered while no entry is IN_FLIGHT (R101). -/
def offeredEntry (s : State) : Option Nat :=
  if s.nq.any isInFlight then none else s.nq.findIdx? fun e => e.state = .ready

/-- The place of the IN_FLIGHT entry, and that entry. -/
def entryInFlight (s : State) : Option (Nat × NoticeEntry) :=
  (s.nq.findIdx? isInFlight).bind fun place => (s.nq[place]?).map fun e => (place, e)

/-- Replace the entry at a place. -/
def setEntry (place : Nat) (e : NoticeEntry) (s : State) : State := { s with nq := s.nq.set place e }

/-- How an attempt ended (R102). -/
inductive Attempt where
  /-- Arbitration loss or line hold. -/
  | interrupted
  /-- A counted failure. -/
  | failure
  /-- ACCEPT, or the EOD of an ANNOUNCE. -/
  | delivered
  /-- REFUSE. -/
  | refusal
  deriving DecidableEq, Repr

/-- A counted failure of the entry at a place (R103). -/
def countFailure (place : Nat) (e : NoticeEntry) (s : State) : State :=
  if e.attempts + 1 < Config.attemptLimit then
    setEntry place
      { e with
        attempts := e.attempts + 1
        state := .backoff (s.dlu.noticeClock + BitVec.ofNat 32 s.dlu.noticeBackoff) } s
  else removeEntry place (setFlag .noticeFailed s)

/-- The lease renewal of R104 step 1; ANNOUNCE has no addressee and renews no lease (R105). -/
def renewAddressee (nt : Notice) (s : State) : State :=
  match nt with
  | .toNode n _ _ => renewLease n s
  | .announce _ => s

/-- REFUSE of a GRANTED notice: the addressee's holding under that token, if it stands, departs as a release (R42). -/
def refuseGrant (nt : Notice) (s : State) : State :=
  match nt with
  | .toNode n _ (.granted id token) =>
    match lookup id s with
    | none => s
    | some (i, e) => if (holdingOf n e).any fun h => h.token = token then depart i n .released s else s
  | _ => s

/-- The end of the attempt of the entry at a place. An entry marked for discard is removed whatever the outcome
(R106). -/
def endAttemptOf (place : Nat) (e : NoticeEntry) (how : Attempt) (s : State) : State :=
  if e.state = .inFlight true then removeEntry place s
  else
    match how with
    | .interrupted => setEntry place { e with state := .ready } s
    | .failure => countFailure place e s
    | .delivered => removeEntry place (renewAddressee e.notice s)
    | .refusal => refuseGrant e.notice (removeEntry place (renewAddressee e.notice s))

/-- The end of the attempt under way, if there is one (R102). -/
def endAttempt (how : Attempt) (s : State) : State :=
  match entryInFlight s with
  | none => s
  | some (place, e) => endAttemptOf place e how s

/-- In AWAIT_ACK with a notice on the line: what a reply of these bits is by the tests of R165. -/
def ackVerdict (reply : List Bool) (s : State) : Option AckVerdict :=
  match s.lif.lineState, entryInFlight s with
  | .awaitAck, some (_, e) =>
    match e.notice with
    | .toNode _ seq _ => some (classifyReply (s.lif.txBytes.getLastD 0) seq reply)
    | .announce _ => none
  | _, _ => none

/-- The attempt's outcome is fixed: the Line Interface enters TRAILING and the Notice Queue takes the outcome
(R138). -/
def fixOutcome (how : Attempt) (s : State) : State := endAttempt how (setLine .trailing s)

end Sys2Proof.Machine
end

