-- ==== Sys2Proof/Machine/Operands.lean ====
section
/-!
DEFINITION. The operands of the requests, read from their bodies with every check of R116 (section 11.2), the nine
request kinds, and the argument checks of the supervisor's commands (R166, section 11.5).
-/

namespace Sys2Proof.Machine

/-- The nine request kinds (R115). -/
inductive RequestKind where
  | join
  | leave
  | claim
  | release
  | downgrade
  | renew
  | check
  | query
  | cancel
  deriving DecidableEq, Repr

/-- The kind code of a request kind (section 11.1). -/
def kindCode : RequestKind → BitVec 4
  | .join => 1
  | .leave => 2
  | .claim => 3
  | .release => 4
  | .downgrade => 5
  | .renew => 6
  | .check => 7
  | .query => 8
  | .cancel => 9

/-- A resource id other than 0x0000 and 0xFFFF (R3). -/
def validId (r : ResourceId) : Bool := r ≠ 0x0000#16 && r ≠ 0xFFFF#16

/-- A resource id in range, read from two bytes (R116). -/
def readId (hi lo : Byte) : Option ResourceId :=
  let r : ResourceId := hi ++ lo
  if validId r then some r else none

/-- A token in range, read from three bytes (R116). -/
def readToken (b2 b1 b0 : Byte) : Option Token :=
  let t : Token := b2 ++ b1 ++ b0
  if t = 0#24 then none else some t

/-- A mode field: 1 is SHARED, 2 is EXCLUSIVE, 0 and 3 are out of range (R164). -/
def readMode (m : BitVec 2) : Option Mode :=
  if m = 1#2 then some .shared else if m = 2#2 then some .exclusive else none

/-- The body of JOIN, LEAVE and RENEW: nothing. -/
def readNothing : List Byte → Option Unit
  | [] => some ()
  | _ => none

/-- The fields of CLAIM. -/
structure ClaimArgs where
  id : ResourceId
  mode : Mode
  /-- In units of 100 ms, 0 to 15. -/
  limit : Nat
  deriving DecidableEq, Repr

/-- The body of CLAIM: resource id, then two zero bits, the mode and the wait limit. -/
def readClaim : List Byte → Option ClaimArgs
  | [hi, lo, m] =>
    match readId hi lo, readMode (m.extractLsb' 4 2) with
    | some id, some mode =>
      if m.extractLsb' 6 2 = 0#2 then some ⟨id, mode, (m.extractLsb' 0 4).toNat⟩ else none
    | _, _ => none
  | _ => none

/-- The fields of RELEASE and DOWNGRADE. -/
structure TokenArgs where
  id : ResourceId
  token : Token
  deriving DecidableEq, Repr

/-- The body of RELEASE and DOWNGRADE: resource id and token. -/
def readTokenArgs : List Byte → Option TokenArgs
  | [hi, lo, b2, b1, b0] =>
    match readId hi lo, readToken b2 b1 b0 with
    | some id, some token => some ⟨id, token⟩
    | _, _ => none
  | _ => none

/-- The fields of CHECK. -/
structure CheckArgs where
  id : ResourceId
  holder : NodeId
  token : Token
  deriving DecidableEq, Repr

/-- The body of CHECK: resource id, holder node under three zero bits, token. -/
def readCheck : List Byte → Option CheckArgs
  | [hi, lo, n, b2, b1, b0] =>
    match readId hi lo, nodeOf n.toNat, readToken b2 b1 b0 with
    | some id, some holder, some token => some ⟨id, holder, token⟩
    | _, _, _ => none
  | _ => none

/-- The body of QUERY and CANCEL: a resource id. -/
def readIdOnly : List Byte → Option ResourceId
  | [hi, lo] => readId hi lo
  | _ => none

/-- The resource id that the reply memory records and matches: the first two body bytes of the six kinds that carry
one, in range or not, absent for any other kind and for a shorter body (R112, R164). -/
def recordedId (kind : BitVec 4) : List Byte → Option ResourceId
  | hi :: lo :: _ =>
    if kind = 3#4 || kind = 4#4 || kind = 5#4 || kind = 7#4 || kind = 8#4 || kind = 9#4 then some (hi ++ lo)
    else none
  | _ => none

/-- An argument register whose value lies in a range; any bit above the range puts it outside (R166). -/
def argIn (lo hi : Nat) (w : Word) : Option Nat :=
  if lo ≤ w.toNat ∧ w.toNat ≤ hi then some w.toNat else none

/-- A resource id argument (R3). -/
def argId (w : Word) : Option ResourceId := if validId w then some w else none

/-- A node argument, 1 to 30. -/
def argNode (w : Word) : Option NodeId := nodeOf w.toNat

/-- The two-way code of the recallable flag: 1 no, 2 yes (section 11.5). -/
def argRecallable (w : Word) : Option Bool :=
  if w = 1#16 then some false else if w = 2#16 then some true else none

/-- The two-way code of the admission: 1 ADMITTED, 2 BARRED (section 11.5). -/
def argAdmission (w : Word) : Option Admission :=
  if w = 1#16 then some .admitted else if w = 2#16 then some .barred else none

end Sys2Proof.Machine
end

