-- ==== Sys2Proof/Machine/Claims.lean ====
section
/-!
DEFINITION. The decisions of the owning blocks on requests (R119): the Resource Directory's on CLAIM, RELEASE,
DOWNGRADE, CHECK, QUERY and CANCEL, the Node Table's on JOIN, LEAVE and RENEW. Each gives the state after the
decision and the reply.
-/

namespace Sys2Proof.Machine

/-- The CLAIM is grantable now (R25). -/
def grantableNow (m : Mode) (e : Entry) : Bool := e.queue.isEmpty && fits m e

/-- The decision of R26 on a CLAIM that is grantable now. -/
def claimNow (i : SlotId) (e : Entry) (n : NodeId) (m : Mode) (s : State) : State × Reply :=
  if (node n s).heldCount = (node n s).quota then (s, .quota)
  else if s.freeHoldings = 0 then (setFlag .poolRefusal s, .noRoom)
  else (addHolding i e n m s, .granted (drawnToken s) m)

/-- The hold clock plus the wait limit times 100 ms (R44). -/
def waitDeadlineFrom (limit : Nat) (s : State) : Millis := s.dlu.holdClock + BitVec.ofNat 32 (100 * limit)

/-- A wait is created and appended at the tail of the queue (R27 step 5). -/
def addWait (i : SlotId) (e : Entry) (n : NodeId) (m : Mode) (limit : Nat) (s : State) : State :=
  let w : Wait := { node := n, mode := m, slot := i, deadline := waitDeadlineFrom limit s }
  modNode n (fun r => { r with waitCount := r.waitCount + 1 })
    (setSlot i (some { e with queue := e.queue ++ [w] }) { s with freeWaits := s.freeWaits - 1 })

/-- The decision of R27 on a CLAIM that is not grantable now. A wait that becomes the head leads to the end check. -/
def claimLater (i : SlotId) (e : Entry) (n : NodeId) (m : Mode) (limit : Nat) (s : State) : State × Reply :=
  if limit = 0 then (s, .denied)
  else if (node n s).waitCount = Config.waitsPerNode then (s, .quota)
  else if e.queue.length = Config.waitsPerQueue then (setFlag .poolRefusal s, .queueFull)
  else if s.freeWaits = 0 then (setFlag .poolRefusal s, .noRoom)
  else
    let t := addWait i e n m limit s
    (if e.queue.isEmpty then endCheck i t else t, .queued (e.queue.length + 1))

/-- CLAIM (R23 to R28). -/
def decideClaim (n : NodeId) (a : ClaimArgs) (s : State) : State × Reply :=
  match lookup a.id s with
  | none => (s, .noResource)
  | some (i, e) =>
    if e.life = .retiring then (s, .retiring)
    else
      match holdingOf n e, waitPosition n e with
      | some h, _ => (s, .alreadyHeld h.token h.mode)
      | none, some p => (s, .alreadyWaiting p)
      | none, none => if grantableNow a.mode e then claimNow i e n a.mode s else claimLater i e n a.mode a.limit s

/-- RELEASE (R31). -/
def decideRelease (n : NodeId) (a : TokenArgs) (s : State) : State × Reply :=
  match lookup a.id s with
  | none => (s, .noResource)
  | some (i, e) =>
    match holdingOf n e with
    | none => (s, .notHeld)
    | some h => if h.token = a.token then (depart i n .released s, .released) else (s, .notHeld)

/-- The entry with a node's holding made SHARED under a new token, in its place (R33 step 1). -/
def downgradeHolding (n : NodeId) (t : Token) (e : Entry) : Entry :=
  { e with
    holders := e.holders.map fun h => if h.node = n then { h with mode := .shared, token := t } else h }

/-- The token of a node's target in a recall follows its holding (R64, R71). -/
def retokenTarget (n : NodeId) (t : Token) (r : Recall) : Recall :=
  { r with targets := r.targets.map fun x => if x.node = n then { x with token := t } else x }

/-- The Recall Tracker is told of the downgrade of a node's holding (R33 step 2, R71): under a SHARED waiter the
target becomes GONE, under an EXCLUSIVE waiter it takes the new token. -/
def tellDowngrade (i : SlotId) (n : NodeId) (t : Token) (s : State) : State :=
  match (slot i s).bind fun e => e.recallSlot with
  | none => s
  | some k =>
    match recallAt k s with
    | none => s
    | some r =>
      match r.waiter.mode with
      | .shared => resolveTarget i n s
      | .exclusive => if hasLiveTarget n r then setRecall k (some (retokenTarget n t r)) s else s

/-- DOWNGRADE (R33, R34). -/
def decideDowngrade (n : NodeId) (a : TokenArgs) (s : State) : State × Reply :=
  match lookup a.id s with
  | none => (s, .noResource)
  | some (i, e) =>
    match holdingOf n e with
    | none => (s, .notHeld)
    | some h =>
      if h.token ≠ a.token then (s, .notHeld)
      else
        match h.mode with
        | .shared => (s, .downgraded h.token)
        | .exclusive =>
          let t := drawnToken s
          let s := afterDraw t (setSlot i (some (downgradeHolding n t e)) s)
          (grantPass i (tellDowngrade i n t s), .downgraded t)

/-- CHECK (R35). -/
def decideCheck (a : CheckArgs) (s : State) : State × Reply :=
  match lookup a.id s with
  | none => (s, .noResource)
  | some (_, e) =>
    match e.holders.find? fun h => h.node = a.holder && h.token = a.token with
    | none => (s, .stale)
    | some h => (s, .valid h.mode)

/-- The fields of INFO, read from an entry (R12). -/
def infoOf (e : Entry) : Info :=
  { life := e.life, claimState := claimState e, recallRunning := e.recallSlot.isSome
    shareLimit := e.shareLimit, holders := e.holders.length, waits := e.queue.length }

/-- QUERY (R12). -/
def decideQuery (id : ResourceId) (s : State) : State × Reply :=
  match lookup id s with
  | none => (s, .noResource)
  | some (_, e) => (s, .info (infoOf e))

/-- CANCEL (R47). -/
def decideCancel (n : NodeId) (id : ResourceId) (s : State) : State × Reply :=
  match lookup id s with
  | none => (s, .noResource)
  | some (i, e) =>
    match waitOf n e with
    | none => (s, .notWaiting)
    | some _ => (removeWait i n .cancelled s, .cancelled)

/-- The start of a session (R82 steps 1 to 4). -/
def startSession (n : NodeId) (s : State) : State :=
  modNode n
    (fun r =>
      { r with epoch := r.epoch + 1, noticeSeq := 0, session := .active (s.dlu.leaseClock + leaseTermMs r) }) s

/-- The JOINED reply of a node whose session has just started (R82). -/
def joinedReply (n : NodeId) (s : State) : Reply :=
  .joined (node n s).epoch s.dir.epoch (node n s).leaseTerm (node n s).quota

/-- JOIN: from ACTIVE the session restarts (R83), otherwise it starts (R82). -/
def decideJoin (n : NodeId) (s : State) : State × Reply :=
  let s := if isActive (node n s).session then sessionEnd n .restarted s else s
  let s := startSession n s
  (s, joinedReply n s)

/-- LEAVE (R85). -/
def decideLeave (n : NodeId) (s : State) : State × Reply :=
  (if isActive (node n s).session then sessionEnd n .left s
   else modNode n (fun r => { r with session := .absent }) s, .left)

/-- RENEW (R87); the lease itself is renewed as for every request taken. -/
def decideRenew (n : NodeId) (s : State) : State × Reply := (s, .renewed (node n s).leaseTerm)

end Sys2Proof.Machine
end

