-- ==== Sys2Proof/WellFormed.lean ====
section
/-!
DEFINITION. Which commands are events of their row at all: operands that no state of the part can make into that
row's event are ill formed (log 3).
-/

namespace Sys2Proof

/-- A request frame's body is at most seven bytes (section 11.1). -/
def Request.wellFormed (r : Request) : Bool := r.body.length ≤ 7

/-- The frame is one that R111 drops: source 0 or 31, or a format version other than 1. -/
def DroppedFrame.wellFormed (f : DroppedFrame) : Bool :=
  f.body.length ≤ 7 && (f.src = 0#5 || f.src = 31#5 || f.version ≠ 1#2)

/-- The fault is a receive error of R110, R129 or R133. -/
def ReceiveFault.wellFormed : ReceiveFault → Bool
  | .startPulse d => Machine.isStartError d
  | .dataPulse d => Machine.isDataError d
  | .edge gap => Machine.spacingError gap
  | .badFrame bits => Machine.parseFrame bits = .receiveError

/-- The nine request kinds have the codes 1 to 9 (section 11.1). -/
def isRequestKind (kind : BitVec 4) : Bool := 1 ≤ kind.toNat && kind.toNat ≤ 9

/-- The fourteen commands have the codes 0x0001 to 0x000E (section 11.5). -/
def isCommandCode (code : Word) : Bool := 1 ≤ code.toNat && code.toNat ≤ 14

/-- The command's operands can make its row's event. -/
def Instr.wellFormed : Instr → Bool
  | .join r | .leave r | .claim r | .release r | .downgrade r | .renew r | .check r | .query r | .cancel r =>
    r.wellFormed
  | .badKind kind r => r.wellFormed && !isRequestKind kind
  | .frameDropped f => f.wellFormed
  | .frameIgnored d => d ≠ 0#5
  | .receiveError f => f.wellFormed
  | .badCommand code => !isCommandCode code
  | .sofReceived d => Machine.classifyPulse d = .sof
  | .por _ _ | .timebaseStep | .leaseExpiry _ | .waitDeadlineExpiry _ _ | .recallDeadline _ | .backoffEnd _
  | .sendNotice | .arbitrationLoss _ | .bitError _ | .noticeFrameSent | .accept _ | .refuse _
  | .ackWrongSequence _ | .badCheckByte _ | .notAnAcknowledgement _ | .noReply | .announceDelivered
  | .replySent | .replyLost | .endOfFrame | .lineHold | .lineRelease | .provision | .retire | .withdraw
  | .setNode | .evict | .readResource | .readHolder | .readWait | .readNode | .readPools | .setTiming
  | .clearClaims | .halt | .resume | .cmdRefused _ | .flagsWrite _ | .enableWrite _ | .registerWrite _
  | .commandWrite _ => true

end Sys2Proof
end

