-- ==== Sys2Proof/Machine/Requests.lean ====
section
/-!
DEFINITION. The Request Decoder (chapter 7): the repeat check, validation, gating, the reply memory, the lease
renewal and the reply, and the meanings of the nine requests and of BAD_KIND.
-/

namespace Sys2Proof.Machine

/-- Gating by the sender's node record (R117): the refusal, or none when the request passes. -/
def gateSession (k : RequestKind) (r : NodeRecord) : Option Reply :=
  match k with
  | .check | .query => none
  | .join =>
    match r.session with
    | .absent => if r.admission = .barred then some .notAdmitted else none
    | .active _ | .lapsed => none
  | .leave =>
    match r.session with
    | .absent => some .notJoined
    | .active _ | .lapsed => none
  | .claim | .release | .downgrade | .cancel | .renew =>
    match r.session with
    | .absent => some .notJoined
    | .lapsed => some .lapsed
    | .active _ => none

/-- Gating by the halted flag (R118). -/
def gateHalted (k : RequestKind) (halted : Bool) : Option Reply :=
  match k with
  | .join | .claim | .downgrade => if halted then some .halted else none
  | .leave | .release | .cancel | .renew | .check | .query => none

/-- Both gates, the node's first (R117, R118). -/
def gate (k : RequestKind) (n : NodeId) (s : State) : Option Reply :=
  (gateSession k (node n s)).or (gateHalted k s.svp.halted)

/-- Validation, gating and dispatch: `args` are the fields read from the body, if it fits (R116 to R119). -/
def decideRequest {α : Type} (k : RequestKind) (n : NodeId) (args : Option α) (owner : α → State → State × Reply)
    (s : State) : State × Reply :=
  match args with
  | none => (s, .badRequest)
  | some a =>
    match gate k n s with
    | some refusal => (s, refusal)
    | none => owner a s

/-- The stored reply, when the request is a repeat (R113). -/
def repeatReply (kind : BitVec 4) (r : Request) (m : ReplyMemory) : Option Reply :=
  match m with
  | .stored seq k res reply =>
    if seq = r.seq ∧ k = kind ∧ res = recordedId kind r.body then some reply else none
  | .empty | .closed => none

/-- The reply memory records the request and its reply (R114). -/
def recordReply (kind : BitVec 4) (r : Request) (reply : Reply) (s : State) : State :=
  modNode r.src (fun rec => { rec with reply := .stored r.seq kind (recordedId kind r.body) reply }) s

/-- The Line Interface enters REPLYING with the reply and its check (R121, R134). -/
def beginReply (kind : BitVec 4) (r : Request) (reply : Reply) (s : State) : State :=
  { s with
    lif :=
      { s.lif with
        lineState := .replying, rxBits := [], txBytes := replyOnLine (requestCheck kind r) reply, txPos := 0 } }

/-- The lease renewal for a request taken from a node that was ACTIVE (R120). -/
def renewAfter (wasActive : Bool) (n : NodeId) (s : State) : State := if wasActive then renewLease n s else s

/-- A request is taken: the steps of R111 in order, as one event. -/
def takeRequest (kind : BitVec 4) (r : Request) (decide : State → State × Reply) (s : State) : State :=
  let wasActive := isActive (node r.src s).session
  match repeatReply kind r (node r.src s).reply with
  | some reply => beginReply kind r reply (renewAfter wasActive r.src s)
  | none =>
    let d := decide s
    beginReply kind r d.2 (renewAfter wasActive r.src (recordReply kind r d.2 d.1))

/-- The frame can reach its end of data now: the Line Interface is RECEIVING, and the bits it has received so far
begin this frame (R132, R136). -/
def frameArrives (bits : List Bool) (s : State) : Bool :=
  s.lif.lineState = .receiving && s.lif.rxBits.isPrefixOf bits

/-- The end of data of a good request frame for the part. -/
def onRequest (kind : BitVec 4) (r : Request) (decide : State → State × Reply) (s : State) :
    Host.Outcome State Fault Refusal :=
  if r.wellFormed then
    .next (if frameArrives (requestBits kind r) s then takeRequest kind r decide s else s)
  else .refused .illFormed

/-- JOIN (R82, R83). -/
def execJoin (r : Request) (s : State) : Host.Outcome State Fault Refusal :=
  onRequest (kindCode .join) r (decideRequest .join r.src (readNothing r.body) fun _ => decideJoin r.src) s

/-- LEAVE (R85). -/
def execLeave (r : Request) (s : State) : Host.Outcome State Fault Refusal :=
  onRequest (kindCode .leave) r (decideRequest .leave r.src (readNothing r.body) fun _ => decideLeave r.src) s

/-- CLAIM (R23 to R28). -/
def execClaim (r : Request) (s : State) : Host.Outcome State Fault Refusal :=
  onRequest (kindCode .claim) r (decideRequest .claim r.src (readClaim r.body) (decideClaim r.src)) s

/-- RELEASE (R31). -/
def execRelease (r : Request) (s : State) : Host.Outcome State Fault Refusal :=
  onRequest (kindCode .release) r (decideRequest .release r.src (readTokenArgs r.body) (decideRelease r.src)) s

/-- DOWNGRADE (R33, R34). -/
def execDowngrade (r : Request) (s : State) : Host.Outcome State Fault Refusal :=
  onRequest (kindCode .downgrade) r
    (decideRequest .downgrade r.src (readTokenArgs r.body) (decideDowngrade r.src)) s

/-- RENEW (R87). -/
def execRenew (r : Request) (s : State) : Host.Outcome State Fault Refusal :=
  onRequest (kindCode .renew) r (decideRequest .renew r.src (readNothing r.body) fun _ => decideRenew r.src) s

/-- CHECK (R35). -/
def execCheck (r : Request) (s : State) : Host.Outcome State Fault Refusal :=
  onRequest (kindCode .check) r (decideRequest .check r.src (readCheck r.body) decideCheck) s

/-- QUERY (R12). -/
def execQuery (r : Request) (s : State) : Host.Outcome State Fault Refusal :=
  onRequest (kindCode .query) r (decideRequest .query r.src (readIdOnly r.body) decideQuery) s

/-- CANCEL (R47). -/
def execCancel (r : Request) (s : State) : Host.Outcome State Fault Refusal :=
  onRequest (kindCode .cancel) r (decideRequest .cancel r.src (readIdOnly r.body) (decideCancel r.src)) s

/-- BAD_KIND: no validation of the body and no gating (R115). -/
def execBadKind (kind : BitVec 4) (r : Request) (s : State) : Host.Outcome State Fault Refusal :=
  if isRequestKind kind then .refused .illFormed else onRequest kind r (fun s => (s, .badKind)) s

end Sys2Proof.Machine
end

