-- ==== Sys2Proof/Machine/Time.lean ====
section
/-!
DEFINITION. The Deadline Unit: clocks (R142, R143), expiries (R144) and what their owners do (R48, R73, R88, R103),
and the meanings of POR, TIMEBASE_STEP and the four expiries.
-/

namespace Sys2Proof.Machine

/-! ### Clocks -/

/-- The lease and notice clocks run exactly while the line is not held (R143, R149). -/
def lineRuns (s : State) : Bool := s.lif.lineState ≠ .held

/-- The hold clock runs exactly while the line is not held and the part is not halted (R143, R149). -/
def holdRuns (s : State) : Bool := s.lif.lineState ≠ .held && !s.svp.halted

/-- Every clock that is running advances by one (R142). -/
def advanceClocks (s : State) : State :=
  { s with
    dlu :=
      { s.dlu with
        leaseClock := if lineRuns s then s.dlu.leaseClock + 1 else s.dlu.leaseClock
        holdClock := if holdRuns s then s.dlu.holdClock + 1 else s.dlu.holdClock
        noticeClock := if lineRuns s then s.dlu.noticeClock + 1 else s.dlu.noticeClock } }

/-! ### Expiries -/

/-- A deadline that its owner may be told has been reached (R144). -/
inductive Expiry where
  | lease (n : NodeId)
  | wait (i : SlotId) (n : NodeId)
  | recallEnd (k : RecallId)
  | backoff (place : Nat)
  deriving DecidableEq, Repr

/-- The lease clock runs and has reached the deadline of an ACTIVE node (R88, R144). -/
def leaseReached (n : NodeId) (s : State) : Bool :=
  lineRuns s && (node n s).session = .active s.dlu.leaseClock

/-- The hold clock runs and has reached the deadline of a node's wait on a slot (R48, R144). -/
def waitReached (i : SlotId) (n : NodeId) (s : State) : Bool :=
  holdRuns s && (slot i s).any fun e => (waitOf n e).any fun w => w.deadline = s.dlu.holdClock

/-- The hold clock runs and has reached the deadline of a running recall (R73, R144). -/
def recallReached (k : RecallId) (s : State) : Bool :=
  holdRuns s && (recallAt k s).any fun r => r.deadline = s.dlu.holdClock

/-- The notice clock runs and has reached the back-off end of the entry at a place (R103, R144). -/
def backoffReached (place : Nat) (s : State) : Bool :=
  lineRuns s && (s.nq[place]?).any fun e => e.state = .backoff s.dlu.noticeClock

/-- The lapse of a node (R88). -/
def lapse (n : NodeId) (s : State) : State := setFlag .nodeLapsed (sessionEnd n .lapsed s)

/-- A wait's deadline (R48). -/
def waitTimeout (i : SlotId) (n : NodeId) (s : State) : State := removeWait i n .timedOut s

/-- A recall's deadline: the holding of every target that is not GONE is revoked, in target-list order (R73). -/
def recallTimeout (k : RecallId) (s : State) : State :=
  match recallAt k s with
  | none => s
  | some r =>
    (r.targets.filter fun t => t.status ≠ .gone).foldl (fun s t => depart r.slot t.node (.revoked true) s) s

/-- A back-off ends: the entry returns to READY and keeps its place (R103). -/
def backoffOver (place : Nat) (s : State) : State :=
  match s.nq[place]? with
  | none => s
  | some e => setEntry place { e with state := .ready } s

/-- Whether an expiry's deadline has been reached and not yet taken. -/
def expiryReached (x : Expiry) (s : State) : Bool :=
  match x with
  | .lease n => leaseReached n s
  | .wait i n => waitReached i n s
  | .recallEnd k => recallReached k s
  | .backoff place => backoffReached place s

/-- What the owner does at an expiry (R144). -/
def takeExpiry (x : Expiry) (s : State) : State :=
  match x with
  | .lease n => lapse n s
  | .wait i n => waitTimeout i n s
  | .recallEnd k => recallTimeout k s
  | .backoff place => backoffOver place s

/-- The waits of the directory, by slot and node. -/
def allWaits (s : State) : List (SlotId × NodeId) :=
  (List.finRange 256).flatMap fun i =>
    match slot i s with
    | none => []
    | some e => e.queue.map fun w => (i, w.node)

/-- The expiries on the hold clock that have been reached and not yet taken. -/
def holdExpiries (s : State) : List Expiry :=
  if holdRuns s then
    ((allWaits s).map fun p => Expiry.wait p.1 p.2).filter (expiryReached · s)
      ++ ((List.finRange 8).map Expiry.recallEnd).filter (expiryReached · s)
  else []

/-- All expiries that have been reached and not yet taken. -/
def reachedExpiries (s : State) : List Expiry :=
  ((List.finRange 30).map Expiry.lease).filter (expiryReached · s)
    ++ holdExpiries s
    ++ ((List.range s.nq.length).map Expiry.backoff).filter (expiryReached · s)

/-- Take the expiries that `due` lists, one after another, in an order that no rule fixes: R144 takes them "in any
order", so the next one is a free choice (log 5). -/
def takeExpiries (due : State → List Expiry) : Nat → State → State
  | 0, s => s
  | fuel + 1, s =>
    match due s with
    | [] => s
    | x :: xs =>
      let chosen := ((x :: xs)[Config.expiryPick s.picks % (xs.length + 1)]?).getD x
      takeExpiries due fuel (takeExpiry chosen { s with picks := s.picks + 1 })

/-- The expiries of the present millisecond step that the sender has not given are taken (log 5). -/
def settleExpiries (due : State → List Expiry) (s : State) : State := takeExpiries due (due s).length s

/-! ### Meanings -/

/-- POR (R163): every block takes its POR values; the queue of commands and the count of free choices are the
model's own and are kept. -/
def execPor (rateHigh lineDominant : Bool) (s : State) : Host.Outcome State Fault Refusal :=
  .next { State.afterPor rateHigh lineDominant with picks := s.picks, pending := s.pending }

/-- TIMEBASE_STEP (R142): the expiries of the step before belong to that step (R144), so any still to be taken are
taken first; then every running clock advances by one. -/
def execTimebaseStep (s : State) : Host.Outcome State Fault Refusal :=
  .next (advanceClocks (settleExpiries reachedExpiries s))

/-- LEASE_EXPIRY (R88). -/
def execLeaseExpiry (n : NodeId) (s : State) : Host.Outcome State Fault Refusal :=
  .next (if leaseReached n s then lapse n s else s)

/-- WAIT_DEADLINE_EXPIRY (R48). -/
def execWaitDeadlineExpiry (i : SlotId) (n : NodeId) (s : State) : Host.Outcome State Fault Refusal :=
  .next (if waitReached i n s then waitTimeout i n s else s)

/-- RECALL_DEADLINE (R73). -/
def execRecallDeadline (k : RecallId) (s : State) : Host.Outcome State Fault Refusal :=
  .next (if recallReached k s then recallTimeout k s else s)

/-- BACKOFF_END (R103). -/
def execBackoffEnd (place : Fin 16) (s : State) : Host.Outcome State Fault Refusal :=
  .next (if backoffReached place.val s then backoffOver place.val s else s)

end Sys2Proof.Machine
end

