-- ==== Sys2Proof/Machine/Line.lean ====
section
/-!
DEFINITION. The Line Interface's events (chapter 8): frames received and not taken, notice frames sent and their
outcomes, replies, end of frame, line hold and release.
-/

namespace Sys2Proof.Machine

/-! ### Frames received -/

/-- SOF_RECEIVED: in IDLE the Line Interface enters RECEIVING with an empty frame (R133). -/
def execSofReceived (d : Nat) (s : State) : Host.Outcome State Fault Refusal :=
  if classifyPulse d = .sof then .next (if s.lif.lineState = .idle then setLine .receiving s else s)
  else .refused .illFormed

/-- FRAME_DROPPED: no reply, no flag, no change of any node record (R111). -/
def execFrameDropped (f : DroppedFrame) (s : State) : Host.Outcome State Fault Refusal :=
  if f.wellFormed then .next (if frameArrives (droppedBits f) s then setLine .trailing s else s)
  else .refused .illFormed

/-- FRAME_IGNORED: IGNORING until end of frame, and the bits are discarded (R111, R133). -/
def execFrameIgnored (dest : BitVec 5) (s : State) : Host.Outcome State Fault Refusal :=
  if dest ≠ 0#5 then .next (if s.lif.lineState = .receiving then setLine .ignoring s else s)
  else .refused .illFormed

/-- The line state in which a receive error can come about: IDLE for a start error, RECEIVING for the others; at an
end of data the collected bits begin with those received so far (R133). -/
def faultArrives (f : ReceiveFault) (s : State) : Bool :=
  match f with
  | .startPulse _ => s.lif.lineState = .idle
  | .dataPulse _ | .edge _ => s.lif.lineState = .receiving
  | .badFrame bits => frameArrives bits s

/-- RECEIVE_ERROR: FRAME_ERROR is set, the frame is not taken, and no node record changes (R110, R133). -/
def execReceiveError (f : ReceiveFault) (s : State) : Host.Outcome State Fault Refusal :=
  if f.wellFormed then .next (if faultArrives f s then setFlag .frameError (setLine .trailing s) else s)
  else .refused .illFormed

/-! ### Notice frames sent -/

/-- The Line Interface begins the SOF of the entry at a place, which becomes IN_FLIGHT (R135). -/
def startNotice (place : Nat) (e : NoticeEntry) (s : State) : State :=
  let s := setEntry place { e with state := .inFlight false } s
  { s with
    lif := { s.lif with lineState := .sending, rxBits := [], txBytes := noticeFrame e.notice, txPos := 0 } }

/-- SEND_NOTICE: in IDLE with an entry offered (R101, R135). -/
def execSendNotice (s : State) : Host.Outcome State Fault Refusal :=
  .next
    (if s.lif.lineState = .idle then
      match (offeredEntry s).bind fun place => (s.nq[place]?).map fun e => (place, e) with
      | none => s
      | some (place, e) => startNotice place e s
    else s)

/-- The bits of the frame the Line Interface is sending. -/
def sentBits (s : State) : List Bool := bytesBits s.lif.txBytes

/-- ARBITRATION_LOSS: the entry returns to READY, and the Line Interface receives the winner's frame, whose first bits
are those read so far, the losing one included (R136). -/
def execArbitrationLoss (pos : Fin 11) (s : State) : Host.Outcome State Fault Refusal :=
  .next
    (if s.lif.lineState = .sending ∧ (sentBits s)[pos.val]? = some true then
      let bits := (sentBits s).take pos.val ++ [false]
      let s := endAttempt .interrupted (setLine .receiving s)
      { s with lif := { s.lif with rxBits := bits } }
    else s)

/-- A bit that reads back wrong is a bit error, but for a ONE read as ZERO in the arbitration field, which is
arbitration loss (R136, R137). -/
def isBitError (f : BitFault) (s : State) : Bool :=
  match f with
  | .badSymbol => true
  | .inverted pos =>
    match (sentBits s)[pos]? with
    | none => false
    | some bit => !(bit && pos < 11)

/-- BIT_ERROR: the attempt is a counted failure (R137). -/
def execBitError (f : BitFault) (s : State) : Host.Outcome State Fault Refusal :=
  .next (if s.lif.lineState = .sending && isBitError f s then fixOutcome .failure s else s)

/-- The last bit of the frame has been sent: after a NOTICE the Line Interface enters AWAIT_ACK, after an ANNOUNCE
TRAILING (R132, R138). -/
def frameSent (nt : Notice) (s : State) : State :=
  match nt with
  | .toNode _ _ _ =>
    { s with lif := { s.lif with lineState := .awaitAck, txPos := 8 * s.lif.txBytes.length } }
  | .announce _ => setLine .trailing s

/-- NOTICE_FRAME_SENT (R138). -/
def execNoticeFrameSent (s : State) : Host.Outcome State Fault Refusal :=
  .next
    (if s.lif.lineState = .sending then
      match entryInFlight s with
      | none => s
      | some (_, e) => frameSent e.notice s
    else s)

/-- ACCEPT: the notice is delivered (R104). -/
def execAccept (a : AckReply) (s : State) : Host.Outcome State Fault Refusal :=
  .next (if ackVerdict (ackBits a) s = some .accepted then fixOutcome .delivered s else s)

/-- REFUSE: the notice is delivered, and a GRANTED holding is handed back (R104, R42). -/
def execRefuse (a : AckReply) (s : State) : Host.Outcome State Fault Refusal :=
  .next (if ackVerdict (ackBits a) s = some .refused then fixOutcome .refusal s else s)

/-- ACK_WRONG_SEQUENCE: a counted failure (R102, R165). -/
def execAckWrongSequence (a : AckReply) (s : State) : Host.Outcome State Fault Refusal :=
  .next (if ackVerdict (ackBits a) s = some .wrongSequence then fixOutcome .failure s else s)

/-- BAD_CHECK_BYTE: a counted failure (R102, R165). -/
def execBadCheckByte (a : AckReply) (s : State) : Host.Outcome State Fault Refusal :=
  .next (if ackVerdict (ackBits a) s = some .badCheck then fixOutcome .failure s else s)

/-- A reply in AWAIT_ACK that is not of the form of an acknowledgement (R138, R165). -/
def isBrokenReply (b : BrokenReply) (s : State) : Bool :=
  match b with
  | .earlyEdge | .brokenBits => s.lif.lineState = .awaitAck
  | .bits first rest => ackVerdict (first :: rest) s = some .notAcknowledgement

/-- NOT_AN_ACKNOWLEDGEMENT: a counted failure (R138). -/
def execNotAnAcknowledgement (b : BrokenReply) (s : State) : Host.Outcome State Fault Refusal :=
  .next (if isBrokenReply b s then fixOutcome .failure s else s)

/-- NO_REPLY: a counted failure at the close of the reply window (R138). -/
def execNoReply (s : State) : Host.Outcome State Fault Refusal :=
  .next (if s.lif.lineState = .awaitAck then fixOutcome .failure s else s)

/-- An ANNOUNCE is on the line: it is IN_FLIGHT, and the line is SENDING it or TRAILING before its EOD. -/
def announceOnLine (s : State) : Bool :=
  (s.lif.lineState = .sending || s.lif.lineState = .trailing)
    && (entryInFlight s).any fun p => match p.2.notice with
      | .announce _ => true
      | .toNode _ _ _ => false

/-- ANNOUNCE_DELIVERED: at the EOD of an ANNOUNCE sent without a bit error it is removed (R105, R138). -/
def execAnnounceDelivered (s : State) : Host.Outcome State Fault Refusal :=
  .next (if announceOnLine s then fixOutcome .delivered s else s)

/-! ### Replies sent and the end of a frame -/

/-- REPLY_SENT (R134). -/
def execReplySent (s : State) : Host.Outcome State Fault Refusal :=
  .next (if s.lif.lineState = .replying then setLine .trailing s else s)

/-- REPLY_LOST: the decision and the reply memory stand (R122, R134). -/
def execReplyLost (s : State) : Host.Outcome State Fault Refusal :=
  .next (if s.lif.lineState = .replying then setLine .trailing s else s)

/-- END_OF_FRAME: from IGNORING or TRAILING to IDLE (R130, R133). The EOD of an ANNOUNCE comes before its EOF. -/
def execEndOfFrame (s : State) : Host.Outcome State Fault Refusal :=
  .next
    (if s.lif.lineState = .ignoring ∨ (s.lif.lineState = .trailing ∧ ¬ announceOnLine s) then setLine .idle s
    else s)

/-! ### Line hold and release -/

/-- A line hold is detected: an attempt under way is interrupted, the line state is HELD, LINE_HELD is set (R139). -/
def holdLine (s : State) : State := setFlag .lineHeld (endAttempt .interrupted (setLine .held s))

/-- LINE_HOLD (R139). A deadline reached at the present step has its expiry taken before the clocks stop (R145). -/
def execLineHold (s : State) : Host.Outcome State Fault Refusal :=
  .next (holdLine (settleExpiries reachedExpiries s))

/-- The resume grace for one node record: an ACTIVE lease with less than 100 ms remaining gets a deadline 100 ms ahead
(R146). -/
def graceRecord (leaseClock : Millis) (r : NodeRecord) : NodeRecord :=
  match r.session with
  | .active deadline =>
    if (deadline - leaseClock).toNat < 100 then { r with session := .active (leaseClock + 100#32) } else r
  | .absent | .lapsed => r

/-- The line is released (R140, R146). -/
def releaseLine (s : State) : State :=
  let s := setFlag .lineReleased (setLine .idle s)
  { s with nodes := tmap (graceRecord s.dlu.leaseClock) s.nodes }

/-- LINE_RELEASE (R140). -/
def execLineRelease (s : State) : Host.Outcome State Fault Refusal :=
  .next (if s.lif.lineState = .held then releaseLine s else s)

end Sys2Proof.Machine
end

