-- ==== Sys2Proof/Machine/Supervisor.lean ====
section
/-!
DEFINITION. The supervisor's commands, each taken by its owner while RUNNING (R154, R155), and their completion.
-/

namespace Sys2Proof.Machine

/-! ### The mailbox -/

/-- The result codes (section 11.5). -/
inductive ResultCode where
  | ok
  | duplicate
  | directoryFull
  | noResource
  | badArgument
  | nodeBusy
  | badCommand
  deriving DecidableEq, Repr

/-- The code of a result (section 11.5). -/
def resultWord : ResultCode → Word
  | .ok => 0
  | .duplicate => 1
  | .directoryFull => 2
  | .noResource => 3
  | .badArgument => 4
  | .nodeBusy => 5
  | .badCommand => 6

/-- What an owner gives the Supervisor Port: a failure, or OK with the results from RES1 on (R154). -/
inductive Completion where
  | failed (code : ResultCode)
  | done (results : List Word)
  deriving DecidableEq, Repr

/-- RES0 to RES6 at a completion: the result code, then the results; a register the command does not use is written 0,
and after a failed command all six are (R154). -/
def resultRegisters : Completion → Vector Word 7
  | .failed code => #v[resultWord code, 0, 0, 0, 0, 0, 0]
  | .done rs =>
    #v[resultWord .ok, rs.getD 0 0, rs.getD 1 0, rs.getD 2 0, rs.getD 3 0, rs.getD 4 0, rs.getD 5 0]

/-- The command state at a completion (R154). -/
def completedState : Completion → CmdState
  | .failed _ => .failed
  | .done _ => .done

/-- Completion: the results are written, the state becomes DONE or FAILED, and CMD_DONE is set (R154). -/
def complete (c : Completion) (s : State) : State :=
  setFlag .cmdDone
    { s with svp := { s.svp with results := resultRegisters c, cmdState := completedState c } }

/-- A command's owner: from the captured arguments and the state to the state after its effects and the completion. -/
abbrev Owner := Vector Word 4 → State → State × Completion

/-- The command with this code is RUNNING: its owner takes it as one event, and it completes (R154). -/
def runCommand (code : Word) (owner : Owner) (s : State) : State :=
  if s.svp.cmdState = .running ∧ s.svp.command = code then
    let d := owner s.svp.captured s
    complete d.2 d.1
  else s

/-- A number as a result register. -/
def resultOf (k : Nat) : Word := BitVec.ofNat 16 k

/-! ### The Resource Directory's commands -/

/-- A fresh OPEN entry (R2). -/
def openEntry (id : ResourceId) (share : Nat) (recallable : Bool) : Entry :=
  { id := id, life := .opened, shareLimit := share, recallable := recallable, holders := [], queue := []
    recallSlot := none }

/-- PROVISION (R13). -/
def ownProvision : Owner := fun a s =>
  match argId (tget a 0), argIn 1 8 (tget a 1), argRecallable (tget a 2) with
  | some id, some share, some recallable =>
    match lookup id s with
    | some _ => (s, .failed .duplicate)
    | none =>
      match tfind (fun o => o.isNone) s.dir.slots with
      | none => (s, .failed .directoryFull)
      | some i => (setSlot i (some (openEntry id share recallable)) s, .done [resultOf i.val])
  | _, _, _ => (s, .failed .badArgument)

/-- Every wait of a queue is ended in turn from the head (R14 step 3, R16 step 2). -/
def endWaits (i : SlotId) (why : WaitEnd) (s : State) : State :=
  match slot i s with
  | none => s
  | some e => e.queue.foldl (fun s w => removeWait i w.node why s) s

/-- The retirement of an OPEN entry (R14 steps 1 to 5). -/
def retireEntry (i : SlotId) (e : Entry) (s : State) : State :=
  let s := setSlot i (some { e with life := .retiring }) s
  let s := abandonRecall i false s
  let s := endWaits i .retired s
  let s := leaveBothLists i s
  freeIfRetired i s

/-- RETIRE (R14). -/
def ownRetire : Owner := fun a s =>
  match argId (tget a 0) with
  | none => (s, .failed .badArgument)
  | some id =>
    match lookup id s with
    | none => (s, .failed .noResource)
    | some (i, e) => if e.life = .retiring then (s, .done []) else (retireEntry i e s, .done [])

/-- Every holding of an entry is revoked in turn, in holder-list order, with a REVOKED notice offered (R16 step 3). -/
def revokeHolders (i : SlotId) (s : State) : State :=
  match slot i s with
  | none => s
  | some e => e.holders.foldl (fun s h => depart i h.node (.revoked true) s) s

/-- The withdrawal of an entry (R16 steps 1 to 5). -/
def withdrawEntry (i : SlotId) (s : State) : State :=
  let s := abandonRecall i false s
  let s := endWaits i .withdrawn s
  let s := revokeHolders i s
  let s := leaveBothLists i s
  freeSlot i s

/-- WITHDRAW (R16). -/
def ownWithdraw : Owner := fun a s =>
  match argId (tget a 0) with
  | none => (s, .failed .badArgument)
  | some id =>
    match lookup id s with
    | none => (s, .failed .noResource)
    | some (i, _) => (withdrawEntry i s, .done [])

/-- One bit of a result word. -/
def bitAt (b : Bool) (place : Nat) : Nat := if b then 2 ^ place else 0

/-- The entry word of READ_RESOURCE (section 11.5). -/
def entryWord (i : SlotId) (e : Entry) (s : State) : Word :=
  resultOf (e.shareLimit % 16 + 16 * claimStateCode (claimState e) + bitAt (e.life = .retiring) 6
    + bitAt e.recallable 7 + bitAt e.recallSlot.isSome 8 + bitAt (isDeferred i s) 9
    + bitAt (isRecallPending i s) 10)

/-- READ_RESOURCE (R19). -/
def ownReadResource : Owner := fun a s =>
  match argId (tget a 0) with
  | none => (s, .failed .badArgument)
  | some id =>
    match lookup id s with
    | none => (s, .failed .noResource)
    | some (i, e) =>
      (s, .done [resultOf i.val, entryWord i e s, resultOf ((e.recallSlot.map fun k => k.val).getD 0),
        resultOf e.holders.length, resultOf e.queue.length])

/-- The item of a list at an index counted from 1; an index of 0 or beyond the list names nothing (R19). -/
def itemAt {α : Type} (l : List α) (index : Word) : Option α :=
  if index = 0#16 then none else l[index.toNat - 1]?

/-- READ_HOLDER: the resource id is checked before the index (R19, R155). -/
def ownReadHolder : Owner := fun a s =>
  match argId (tget a 0) with
  | none => (s, .failed .badArgument)
  | some id =>
    match lookup id s with
    | none => (s, .failed .noResource)
    | some (_, e) =>
      match itemAt e.holders (tget a 1) with
      | none => (s, .failed .badArgument)
      | some h =>
        (s, .done [resultOf (nodeNumber h.node), resultOf (modeCode h.mode), (h.token.extractLsb' 16 8).setWidth 16,
          h.token.extractLsb' 0 16, resultOf (bitAt h.recallTarget 0)])

/-- The time remaining to a deadline, counted with the wrap: at least 1 while the deadline stands (R44, R95, R144), so a
deadline that the clock has reached and whose expiry is still to be taken reads as 1 (log 7). -/
def remaining (deadline clock : Millis) : Nat := if deadline = clock then 1 else (deadline - clock).toNat

/-- READ_WAIT: the resource id is checked before the index (R19, R155). -/
def ownReadWait : Owner := fun a s =>
  match argId (tget a 0) with
  | none => (s, .failed .badArgument)
  | some id =>
    match lookup id s with
    | none => (s, .failed .noResource)
    | some (_, e) =>
      match itemAt e.queue (tget a 1) with
      | none => (s, .failed .badArgument)
      | some w =>
        (s, .done [resultOf (nodeNumber w.node), resultOf (modeCode w.mode),
          resultOf (remaining w.deadline s.dlu.holdClock)])

/-! ### The Node Table's commands -/

/-- SET_NODE (R91). -/
def ownSetNode : Owner := fun a s =>
  match argNode (tget a 0), argAdmission (tget a 1), argIn 1 255 (tget a 2), argIn 1 32 (tget a 3) with
  | some n, some adm, some term, some quota =>
    match (node n s).session with
    | .absent =>
      (modNode n (fun r => { r with admission := adm, leaseTerm := term, quota := quota }) s, .done [])
    | .active _ | .lapsed => (s, .failed .nodeBusy)
  | _, _, _, _ => (s, .failed .badArgument)

/-- The reply memory after EVICT: OPEN or CLOSED becomes CLOSED, EMPTY stays EMPTY (R112). -/
def closeMemory : ReplyMemory → ReplyMemory
  | .empty => .empty
  | .stored _ _ _ _ | .closed => .closed

/-- The eviction of a node (R90). -/
def evictNode (n : NodeId) (s : State) : State :=
  let s := if isActive (node n s).session then sessionEnd n .evicted s else s
  modNode n (fun r => { r with session := .absent, admission := .barred, reply := closeMemory r.reply }) s

/-- EVICT (R90). -/
def ownEvict : Owner := fun a s =>
  match argNode (tget a 0) with
  | none => (s, .failed .badArgument)
  | some n => (evictNode n s, .done [])

/-- The code of a session state (section 11.5). -/
def sessionCode : Session → Nat
  | .absent => 0
  | .active _ => 1
  | .lapsed => 2

/-- The code of a reply memory's condition (section 11.5). -/
def memoryCode : ReplyMemory → Nat
  | .empty => 0
  | .stored _ _ _ _ => 1
  | .closed => 2

/-- The session word of READ_NODE (section 11.5). -/
def sessionWord (r : NodeRecord) : Word :=
  resultOf (sessionCode r.session + bitAt (r.admission = .barred) 2 + 8 * memoryCode r.reply
    + 256 * r.noticeSeq.toNat + 4096 * r.epoch.toNat)

/-- The time remaining to a node's lease deadline, 0 unless ACTIVE (R95). -/
def leaseRemaining (r : NodeRecord) (leaseClock : Millis) : Nat :=
  match r.session with
  | .active deadline => remaining deadline leaseClock
  | .absent | .lapsed => 0

/-- READ_NODE (R95). -/
def ownReadNode : Owner := fun a s =>
  match argNode (tget a 0) with
  | none => (s, .failed .badArgument)
  | some n =>
    let r := node n s
    (s, .done [sessionWord r, resultOf (r.leaseTerm + 256 * r.quota), resultOf (r.heldCount + 256 * r.waitCount),
      resultOf r.revocationCount, resultOf (leaseRemaining r s.dlu.leaseClock)])

/-! ### Commands of the other blocks -/

/-- The number of free recall slots (R63). -/
def freeRecallSlots (s : State) : Nat := (twhere (fun r => r.isNone) s.rct.slots).length

/-- READ_POOLS (R156). -/
def ownReadPools : Owner := fun _ s =>
  (s, .done [resultOf s.freeHoldings, resultOf s.freeWaits, resultOf (freeEntries s), resultOf (freeRecallSlots s),
    resultOf s.dir.deferred.length, resultOf s.rct.startList.length])

/-- SET_TIMING (R148). -/
def ownSetTiming : Owner := fun a s =>
  match argIn 1 255 (tget a 0), argIn 1 255 (tget a 1) with
  | some timeout, some backoff =>
    ({ s with dlu := { s.dlu with recallTimeout := timeout, noticeBackoff := backoff } }, .done [])
  | _, _ => (s, .failed .badArgument)

/-- An IN_USE slot after CLEAR_CLAIMS: an OPEN entry keeps its provisioning, a RETIRING one is freed (R17). -/
def clearSlot : Option Entry → Option Entry
  | none => none
  | some e =>
    match e.life with
    | .opened => some { e with holders := [], queue := [], recallSlot := none }
    | .retiring => none

/-- Whether a slot holds a RETIRING entry. -/
def isRetiring (o : Option Entry) : Bool := o.any fun e => e.life = .retiring

/-- CLEAR_CLAIMS at the directory, the pools and the Recall Tracker (R17, R75, R162 steps 1 and 2). -/
def clearDirectory (s : State) : State :=
  let freed := s.dir.slots.toList.any isRetiring
  let s :=
    { s with
      dir := { s.dir with slots := tmap clearSlot s.dir.slots, deferred := [], epoch := s.dir.epoch + 1 }
      rct := { slots := Vector.replicate 8 none, startOrder := [], startList := [] }
      freeHoldings := Config.holdingRecords
      freeWaits := Config.waitRecords }
  if freed then setFlag .resourceFreed s else s

/-- A node record's values after CLEAR_CLAIMS (R79, R94). -/
def clearRecord (r : NodeRecord) : NodeRecord :=
  { r with
    session := .absent, heldCount := 0, waitCount := 0, revocationCount := 0, noticeSeq := 0, reply := .empty }

/-- CLEAR_CLAIMS at the Notice Queue: only an IN_FLIGHT entry stays, marked for discard, and ANNOUNCE is queued with
the directory epoch after the clear (R105, R109). -/
def clearQueue (s : State) : State :=
  { s with
    nq := (s.nq.filter isInFlight).map markDiscard
      ++ [{ notice := .announce s.dir.epoch, attempts := 0, state := .ready }] }

/-- CLEAR_CLAIMS (R162). -/
def ownClearClaims : Owner := fun _ s =>
  let s := clearDirectory s
  let s := { s with nodes := tmap clearRecord s.nodes }
  (clearQueue s, .done [])

/-- HALT (R158). A wait or recall deadline reached at the present step has its expiry taken before the halt (R145). -/
def ownHalt : Owner := fun _ s =>
  if s.svp.halted then (s, .done [])
  else
    let s := settleExpiries holdExpiries s
    ({ s with svp := { s.svp with halted := true } }, .done [])

/-- Every free recall slot is handed out, by repeating the walk of R68 (R76): at most the eight slots there are. -/
def handOutAll : Nat → State → State
  | 0, s => s
  | fuel + 1, s => handOutAll fuel (handOut s)

/-- The second stage of RESUME at one slot: the pass runs on an OPEN entry with a non-empty queue that does not stand on
the deferred-grant list when the visit reaches it (R58). -/
def resumeVisit (s : State) (i : SlotId) : State :=
  if (slot i s).any (fun e => e.life = .opened && !e.queue.isEmpty) && !isDeferred i s then grantPass i s else s

/-- The second stage of RESUME: every slot is visited in ascending order (R58). -/
def resumePasses (s : State) : State := (List.finRange 256).foldl resumeVisit s

/-- RESUME (R159, R58, R76). -/
def ownResume : Owner := fun _ s =>
  if s.svp.halted then
    let s := { s with svp := { s.svp with halted := false } }
    let s := serveDeferred s
    let s := handOutAll 8 s
    (resumePasses s, .done [])
  else (s, .done [])

/-! ### Meanings -/

/-- PROVISION (R13). -/
def execProvision (s : State) : Host.Outcome State Fault Refusal := .next (runCommand 0x0001 ownProvision s)

/-- RETIRE (R14). -/
def execRetire (s : State) : Host.Outcome State Fault Refusal := .next (runCommand 0x0002 ownRetire s)

/-- WITHDRAW (R16). -/
def execWithdraw (s : State) : Host.Outcome State Fault Refusal := .next (runCommand 0x0003 ownWithdraw s)

/-- SET_NODE (R91). -/
def execSetNode (s : State) : Host.Outcome State Fault Refusal := .next (runCommand 0x0004 ownSetNode s)

/-- EVICT (R90). -/
def execEvict (s : State) : Host.Outcome State Fault Refusal := .next (runCommand 0x0005 ownEvict s)

/-- READ_RESOURCE (R19). -/
def execReadResource (s : State) : Host.Outcome State Fault Refusal := .next (runCommand 0x0006 ownReadResource s)

/-- READ_HOLDER (R19). -/
def execReadHolder (s : State) : Host.Outcome State Fault Refusal := .next (runCommand 0x0007 ownReadHolder s)

/-- READ_WAIT (R19). -/
def execReadWait (s : State) : Host.Outcome State Fault Refusal := .next (runCommand 0x0008 ownReadWait s)

/-- READ_NODE (R95). -/
def execReadNode (s : State) : Host.Outcome State Fault Refusal := .next (runCommand 0x0009 ownReadNode s)

/-- READ_POOLS (R156). -/
def execReadPools (s : State) : Host.Outcome State Fault Refusal := .next (runCommand 0x000A ownReadPools s)

/-- SET_TIMING (R148). -/
def execSetTiming (s : State) : Host.Outcome State Fault Refusal := .next (runCommand 0x000B ownSetTiming s)

/-- CLEAR_CLAIMS (R162). -/
def execClearClaims (s : State) : Host.Outcome State Fault Refusal := .next (runCommand 0x000C ownClearClaims s)

/-- HALT (R158). -/
def execHalt (s : State) : Host.Outcome State Fault Refusal := .next (runCommand 0x000D ownHalt s)

/-- RESUME (R159). -/
def execResume (s : State) : Host.Outcome State Fault Refusal := .next (runCommand 0x000E ownResume s)

end Sys2Proof.Machine
end

