-- ==== Sys2Proof/Machine/Window.lean ====
section
/-!
DEFINITION. The supervisor window: SPI accesses (R150), the sixteen registers read and written (R151, section 11.5),
and the meanings of the writes.
-/

namespace Sys2Proof.Machine

/-! ### COMMAND -/

/-- A write to COMMAND starts a command: the code and ARG0 to ARG3 are captured, and the state becomes RUNNING
(R152). -/
def startCommand (code : Word) (s : State) : State :=
  { s with svp := { s.svp with command := code, captured := s.svp.args, cmdState := .running } }

/-- A write to COMMAND: refused with CMD_REFUSED while RUNNING, otherwise it starts a command (R151 to R153). A code that
names none of the fourteen commands completes at once with BAD_COMMAND (R155). -/
def writeCommand (code : Word) (s : State) : State :=
  if s.svp.cmdState = .running then setFlag .cmdRefused s
  else if isCommandCode code then startCommand code s
  else complete (.failed .badCommand) (startCommand code s)

/-- COMMAND_WRITE (R152). -/
def execCommandWrite (code : Word) (s : State) : Host.Outcome State Fault Refusal := .next (writeCommand code s)

/-- CMD_REFUSED: the write to COMMAND that R153 refuses. -/
def execCmdRefused (code : Word) (s : State) : Host.Outcome State Fault Refusal := .next (writeCommand code s)

/-- BAD_COMMAND: the write to COMMAND of a code that names no command, which completes at once (R155, R166, log 9). -/
def execBadCommand (code : Word) (s : State) : Host.Outcome State Fault Refusal :=
  if isCommandCode code then .refused .illFormed else .next (writeCommand code s)

/-! ### The other registers -/

/-- FLAGS_WRITE (R160). -/
def execFlagsWrite (data : Word) (s : State) : Host.Outcome State Fault Refusal := .next (clearFlags data s)

/-- ENABLE_WRITE (R161). -/
def execEnableWrite (data : Word) (s : State) : Host.Outcome State Fault Refusal := .next (writeEnables data s)

/-- A write to one of ARG0 to ARG3; a command in progress is not affected (R151). -/
def writeArg (i : Fin 4) (data : Word) (s : State) : State :=
  { s with svp := { s.svp with args := tset s.svp.args i data } }

/-- A write taken whole acts on the addressed register; a read-only register ignores it (R151). -/
def writeRegister (address : BitVec 4) (data : Word) (s : State) : State :=
  match address.toNat with
  | 0x2 => writeCommand data s
  | 0x3 => writeArg 0 data s
  | 0x4 => writeArg 1 data s
  | 0x5 => writeArg 2 data s
  | 0x6 => writeArg 3 data s
  | 0xE => clearFlags data s
  | 0xF => writeEnables data s
  | _ => s

/-- The code of a command state in STATUS (section 11.5). -/
def cmdStateCode : CmdState → Nat
  | .idle => 0
  | .running => 1
  | .done => 2
  | .failed => 3

/-- The code of a line state in STATUS (section 11.5). -/
def lineStateCode : LineState → Nat
  | .idle => 0
  | .receiving => 1
  | .ignoring => 2
  | .replying => 3
  | .sending => 4
  | .awaitAck => 5
  | .trailing => 6
  | .held => 7

/-- STATUS (section 11.5). -/
def statusWord (s : State) : Word :=
  resultOf (cmdStateCode s.svp.cmdState + bitAt s.svp.halted 2 + 8 * lineStateCode s.lif.lineState)

/-- What a read of each register returns; a read changes no state (R150, R151). -/
def readRegister (address : BitVec 4) (s : State) : Word :=
  match address.toNat with
  | 0x0 => 0xC321
  | 0x1 => statusWord s
  | 0x2 => s.svp.command
  | 0x3 => tget s.svp.args 0
  | 0x4 => tget s.svp.args 1
  | 0x5 => tget s.svp.args 2
  | 0x6 => tget s.svp.args 3
  | 0x7 => tget s.svp.results 0
  | 0x8 => tget s.svp.results 1
  | 0x9 => tget s.svp.results 2
  | 0xA => tget s.svp.results 3
  | 0xB => tget s.svp.results 4
  | 0xC => tget s.svp.results 5
  | 0xD => tget s.svp.results 6
  | 0xE => s.svp.flags.setWidth 16
  | _ => s.svp.enables.setWidth 16

/-! ### SPI accesses -/

/-- The word made of sixteen bits, most significant first. -/
def wordOfBits (bits : List Bool) : Word := bits.foldl (fun w b => (w <<< 1) ||| (BitVec.ofBool b).setWidth 16) 0#16

/-- The control byte of an access (R150, section 11.5). -/
structure Control where
  /-- A write; otherwise a read. -/
  write : Bool
  /-- The three must-be-zero bits are zero. -/
  good : Bool
  address : BitVec 4
  deriving DecidableEq, Repr

/-- The control byte that some bits on SDI begin with, once all eight of its bits are there. -/
def controlOf (bits : List Bool) : Option Control :=
  match bits with
  | dir :: z2 :: z1 :: z0 :: a3 :: a2 :: a1 :: a0 :: _ =>
    some
      { write := dir, good := !(z2 || z1 || z0)
        address := BitVec.ofBool a3 ++ BitVec.ofBool a2 ++ BitVec.ofBool a1 ++ BitVec.ofBool a0 }
  | _ => none

/-- The write that some bits on SDI make, to a register and of its 16 data bits: none when the access is a read, its
control byte is not good, or it is abandoned before the 24th bit; bits after the 24th are ignored (R150). -/
def writeOf (bits : List Bool) : Option (BitVec 4 × Word) :=
  (controlOf bits).bind fun c =>
    if c.write && c.good && 24 ≤ bits.length then some (c.address, wordOfBits ((bits.drop 8).take 16)) else none

/-- What SDO carries during the bit at a place of an access, counted from 0, when the part stands in `s` at the end of
the control byte: on a read the bits of the addressed register's captured value, most significant first, or 0 when the
control byte is not good; and 0 after the 24th bit (R150). During the control byte and during the data bits of a write
R150 gives nothing: there it is a free value, of the `access`-th access (log 28). -/
def sdoBit (access : Nat) (bits : List Bool) (place : Nat) (s : State) : Bool :=
  if 24 ≤ place then false
  else if place < 8 then Config.openSdo access place
  else
    match controlOf bits with
    | some ⟨false, good, address⟩ => good && (readRegister address s).getLsbD (23 - place)
    | some ⟨true, _, _⟩ | none => Config.openSdo access place

/-- What SDO carries during each of the bits on SDI, while CSN is low (R150). -/
def sdoBits (access : Nat) (bits : List Bool) (s : State) : List Bool :=
  (List.range bits.length).map fun place => sdoBit access bits place s

/-- REGISTER_WRITE: an SPI access; a write taken whole acts, and every other access changes nothing (R150, R151). -/
def execRegisterWrite (a : SpiAccess) (s : State) : Host.Outcome State Fault Refusal :=
  .next
    (match writeOf a.bits with
    | some (address, data) => writeRegister address data s
    | none => s)

end Sys2Proof.Machine
end

