-- ==== Sys2Proof/Machine/Dispatch.lean ====
section
/-!
DEFINITION. One arm per command, each one call of its meaning.
-/

namespace Sys2Proof.Machine

def exec (i : Instr) (s : State) : Host.Outcome State Fault Refusal :=
  match i with
  | .por rateHigh lineDominant => Sys2Proof.Machine.execPor rateHigh lineDominant s
  | .timebaseStep => Sys2Proof.Machine.execTimebaseStep s
  | .leaseExpiry node => Sys2Proof.Machine.execLeaseExpiry node s
  | .waitDeadlineExpiry slot node => Sys2Proof.Machine.execWaitDeadlineExpiry slot node s
  | .recallDeadline which => Sys2Proof.Machine.execRecallDeadline which s
  | .backoffEnd place => Sys2Proof.Machine.execBackoffEnd place s
  | .join frame => Sys2Proof.Machine.execJoin frame s
  | .leave frame => Sys2Proof.Machine.execLeave frame s
  | .claim frame => Sys2Proof.Machine.execClaim frame s
  | .release frame => Sys2Proof.Machine.execRelease frame s
  | .downgrade frame => Sys2Proof.Machine.execDowngrade frame s
  | .renew frame => Sys2Proof.Machine.execRenew frame s
  | .check frame => Sys2Proof.Machine.execCheck frame s
  | .query frame => Sys2Proof.Machine.execQuery frame s
  | .cancel frame => Sys2Proof.Machine.execCancel frame s
  | .badKind kind frame => Sys2Proof.Machine.execBadKind kind frame s
  | .frameDropped frame => Sys2Proof.Machine.execFrameDropped frame s
  | .frameIgnored destination => Sys2Proof.Machine.execFrameIgnored destination s
  | .receiveError fault => Sys2Proof.Machine.execReceiveError fault s
  | .sendNotice => Sys2Proof.Machine.execSendNotice s
  | .arbitrationLoss pos => Sys2Proof.Machine.execArbitrationLoss pos s
  | .bitError fault => Sys2Proof.Machine.execBitError fault s
  | .noticeFrameSent => Sys2Proof.Machine.execNoticeFrameSent s
  | .accept reply => Sys2Proof.Machine.execAccept reply s
  | .refuse reply => Sys2Proof.Machine.execRefuse reply s
  | .ackWrongSequence reply => Sys2Proof.Machine.execAckWrongSequence reply s
  | .badCheckByte reply => Sys2Proof.Machine.execBadCheckByte reply s
  | .notAnAcknowledgement reply => Sys2Proof.Machine.execNotAnAcknowledgement reply s
  | .noReply => Sys2Proof.Machine.execNoReply s
  | .announceDelivered => Sys2Proof.Machine.execAnnounceDelivered s
  | .replySent => Sys2Proof.Machine.execReplySent s
  | .replyLost => Sys2Proof.Machine.execReplyLost s
  | .endOfFrame => Sys2Proof.Machine.execEndOfFrame s
  | .lineHold => Sys2Proof.Machine.execLineHold s
  | .lineRelease => Sys2Proof.Machine.execLineRelease s
  | .provision => Sys2Proof.Machine.execProvision s
  | .retire => Sys2Proof.Machine.execRetire s
  | .withdraw => Sys2Proof.Machine.execWithdraw s
  | .setNode => Sys2Proof.Machine.execSetNode s
  | .evict => Sys2Proof.Machine.execEvict s
  | .readResource => Sys2Proof.Machine.execReadResource s
  | .readHolder => Sys2Proof.Machine.execReadHolder s
  | .readWait => Sys2Proof.Machine.execReadWait s
  | .readNode => Sys2Proof.Machine.execReadNode s
  | .readPools => Sys2Proof.Machine.execReadPools s
  | .setTiming => Sys2Proof.Machine.execSetTiming s
  | .clearClaims => Sys2Proof.Machine.execClearClaims s
  | .halt => Sys2Proof.Machine.execHalt s
  | .resume => Sys2Proof.Machine.execResume s
  | .badCommand code => Sys2Proof.Machine.execBadCommand code s
  | .cmdRefused code => Sys2Proof.Machine.execCmdRefused code s
  | .flagsWrite data => Sys2Proof.Machine.execFlagsWrite data s
  | .enableWrite data => Sys2Proof.Machine.execEnableWrite data s
  | .registerWrite access => Sys2Proof.Machine.execRegisterWrite access s
  | .commandWrite code => Sys2Proof.Machine.execCommandWrite code s
  | .sofReceived length => Sys2Proof.Machine.execSofReceived length s

end Sys2Proof.Machine
end

