-- ==== Sys2Proof/Safety.lean ====
section
/-!
DEFINITION. What a sound state of the part is, rule by rule, and what a command may leave alone: the terms in which
claims about runs are stated.
-/

namespace Sys2Proof.Machine

/-! ### Views of the whole part -/

/-- The entries of the IN_USE slots, in slot order. -/
def entries (s : State) : List Entry := s.dir.slots.toList.filterMap id

/-- All holdings, in slot order and grant order. -/
def allHoldings (s : State) : List Holding := (entries s).flatMap fun e => e.holders

/-- All waits of the directory, in slot order and arrival order. -/
def waitsQueued (s : State) : List Wait := (entries s).flatMap fun e => e.queue

/-- The holdings that name a node. -/
def holdingsOf (n : NodeId) (s : State) : Nat := (allHoldings s).countP fun h => h.node = n

/-- The waits that name a node. -/
def waitsOf (n : NodeId) (s : State) : Nat := (waitsQueued s).countP fun w => w.node = n

/-- The node holds the resource of a slot. -/
def holds (n : NodeId) (i : SlotId) (s : State) : Bool := (slot i s).any fun e => (holdingOf n e).isSome

/-- The node waits for the resource of a slot. -/
def waits (n : NodeId) (i : SlotId) (s : State) : Bool := (slot i s).any fun e => (waitOf n e).isSome

/-! ### Laws of the state -/

/-- The law of an entry (R4, R5): a share limit of 1 to 8, never more holdings than that, and an EXCLUSIVE holding is
the only one. -/
def Entry.lawful (e : Entry) : Prop :=
  1 ≤ e.shareLimit ∧ e.shareLimit ≤ 8 ∧ e.holders.length ≤ e.shareLimit
    ∧ ∀ h ∈ e.holders, h.mode = .exclusive → e.holders = [h]

/-- Every entry keeps the law of R5. -/
def holdersLawful (s : State) : Prop := ∀ i e, slot i s = some e → e.lawful

/-- No two IN_USE slots carry the same id (R3). -/
def idsDistinct (s : State) : Prop :=
  ∀ i j e f, slot i s = some e → slot j s = some f → e.id = f.id → i = j

/-- A node has at most one holding and at most one wait on a resource, and never both (R7). -/
def membersDistinct (s : State) : Prop :=
  ∀ i e, slot i s = some e → (e.holders.map (·.node) ++ e.queue.map (·.node)).Nodup

/-- The records in use and the free records number 384 and 64 (R20, R43). -/
def poolsLawful (s : State) : Prop :=
  s.freeHoldings + (allHoldings s).length = Config.holdingRecords
    ∧ s.freeWaits + (waitsQueued s).length = Config.waitRecords

/-- Every live holding carries a token other than 0 that no other live holding carries, and 0 is never drawn (R10). -/
def tokensLawful (s : State) : Prop :=
  ((allHoldings s).map (·.token)).Nodup ∧ (∀ h ∈ allHoldings s, h.token ≠ 0#24) ∧ s.dir.nextToken ≠ 0#24

/-- Every node's held and wait counts are the numbers of holdings and waits naming it (R22, R45). -/
def countsLawful (s : State) : Prop :=
  ∀ n, (node n s).heldCount = holdingsOf n s ∧ (node n s).waitCount = waitsOf n s

/-- A RETIRING entry has no waits: its queue was emptied when it retired (R14), and no wait joins it (R24). -/
def retiringEmpty (s : State) : Prop := ∀ i e, slot i s = some e → e.life = .retiring → e.queue = []

/-- The notice queue holds at most 16 entries, at most one of them IN_FLIGHT (R96), each with fewer than three
counted failures (R103). -/
def noticesLawful (s : State) : Prop :=
  s.nq.length ≤ Config.noticeEntries ∧ s.nq.countP isInFlight ≤ 1
    ∧ ∀ e ∈ s.nq, e.attempts < Config.attemptLimit

/-- The running recalls stand in the start order, each once (R63). -/
def recallsLawful (s : State) : Prop :=
  s.rct.startOrder.Nodup ∧ ∀ k, k ∈ s.rct.startOrder ↔ (recallAt k s).isSome

/-- Each list of resources holds a resource at most once (R9). -/
def listsLawful (s : State) : Prop := s.dir.deferred.Nodup ∧ s.rct.startList.Nodup

/-- Every node record's parameters and revocation count lie in their ranges (R79), and a BARRED node is ABSENT
(R81). -/
def nodesLawful (s : State) : Prop :=
  ∀ n, 1 ≤ (node n s).leaseTerm ∧ (node n s).leaseTerm ≤ 255 ∧ 1 ≤ (node n s).quota ∧ (node n s).quota ≤ 32
    ∧ (node n s).revocationCount ≤ Config.revocationCeiling
    ∧ ((node n s).admission = .barred → (node n s).session = .absent)

/-- While the part is not halted, an OPEN entry's head wait that could be granted stands on the deferred-grant list
(R54). -/
def headsServed (s : State) : Prop :=
  s.svp.halted = false →
    ∀ i e, slot i s = some e → e.life = .opened → headGrantable e = true → isDeferred i s = true

/-! ### What a command leaves alone -/

/-- The clocks, timing parameters, directory epoch and bit period, and the supervisor's registers, enables and halted
flag are unchanged; flags are at most set. -/
def keepsSettings (s t : State) : Prop :=
  t.dlu = s.dlu ∧ t.dir.epoch = s.dir.epoch ∧ t.lif.bitPeriod = s.lif.bitPeriod
    ∧ t.svp = { s.svp with flags := t.svp.flags } ∧ s.svp.flags &&& t.svp.flags = s.svp.flags
    ∧ t.pending = s.pending

/-- No slot comes into use, and an entry that stays keeps its id, life state, share limit and recallable flag (R1,
R4). -/
def keepsEntries (s t : State) : Prop :=
  ∀ i e', slot i t = some e' →
    ∃ e, slot i s = some e ∧ e'.id = e.id ∧ e'.life = e.life ∧ e'.shareLimit = e.shareLimit
      ∧ e'.recallable = e.recallable

/-- A node record keeps its parameters, session, epoch, reply memory and revocation count; the counts of holdings and
waits and the notice sequence may follow what becomes of them. -/
def keepsRecord (a b : NodeRecord) : Prop :=
  b.admission = a.admission ∧ b.session = a.session ∧ b.epoch = a.epoch ∧ b.leaseTerm = a.leaseTerm
    ∧ b.quota = a.quota ∧ b.reply = a.reply ∧ b.revocationCount = a.revocationCount

/-! ### Commands that find what they need -/

/-- The frame of this request reaches its end of data now, and the reply memory of its node holds no reply to it
(R111, R113). -/
def arrivesFresh (kind : BitVec 4) (r : Request) (s : State) : Prop :=
  r.wellFormed = true ∧ frameArrives (requestBits kind r) s = true
    ∧ repeatReply kind r (node r.src s).reply = none

/-- The command with this code is RUNNING with these arguments (R152). -/
def running (code : Word) (a0 a1 a2 a3 : Word) (s : State) : Prop :=
  s.svp.cmdState = .running ∧ s.svp.command = code ∧ s.svp.captured = #v[a0, a1, a2, a3]

/-- No resource is deferred, none waits for a recall slot, and no recall target waits for a notice entry: nothing follows
when a holding record, a notice entry or a recall slot is freed (R56, R68, R69). -/
def noOneServed (s : State) : Prop :=
  s.dir.deferred = [] ∧ s.rct.startList = [] ∧ firstPending s = none

/-- The command of each request kind. -/
def requestCommand : RequestKind → Request → Instr
  | .join, r => .join r
  | .leave, r => .leave r
  | .claim, r => .claim r
  | .release, r => .release r
  | .downgrade, r => .downgrade r
  | .renew, r => .renew r
  | .check, r => .check r
  | .query, r => .query r
  | .cancel, r => .cancel r

/-- The body has the length and the field values that its kind asks for (R116, section 11.2). -/
def bodyFits : RequestKind → List Byte → Bool
  | .join, b | .leave, b | .renew, b => b.isEmpty
  | .claim, b => (readClaim b).isSome
  | .release, b | .downgrade, b => (readTokenArgs b).isSome
  | .check, b => (readCheck b).isSome
  | .query, b | .cancel, b => (readIdOnly b).isSome

/-- A claim of this mode fits beside the holders of an entry: for EXCLUSIVE there is none; for SHARED all are SHARED and
fewer than the share limit (R25, R50). -/
def claimFits (m : Mode) (e : Entry) : Prop :=
  match m with
  | .exclusive => e.holders = []
  | .shared => (∀ h ∈ e.holders, h.mode = .shared) ∧ e.holders.length < e.shareLimit

/-! ### States after a command, written out -/

/-- A session that a lease renewal at this lease-clock value meets (R86). -/
def renewedSession (leaseClock : Millis) (r : NodeRecord) : Session :=
  match r.session with
  | .active _ => .active (leaseClock + BitVec.ofNat 32 (20 * r.leaseTerm))
  | .absent => .absent
  | .lapsed => .lapsed

/-- The state `u` with the Line Interface replying: the reply and its check are on their way (R121, R134). -/
def replyingWith (kind : BitVec 4) (r : Request) (reply : Reply) (u : State) : State :=
  { u with
    lif :=
      { lineState := .replying, bitPeriod := u.lif.bitPeriod, rxBits := []
        txBytes := replyBytes reply ++ [crc8 (requestCheck kind r :: replyBytes reply)], txPos := 0 } }

/-- The state `u` once a request has been answered: the reply memory holds the reply, the lease of a node that was
ACTIVE is renewed, and the reply is on its way (R114, R120, R121). -/
def answered (kind : BitVec 4) (r : Request) (reply : Reply) (wasActive : Bool) (u : State) : State :=
  replyingWith kind r reply
    { u with
      nodes := tset u.nodes r.src
        { node r.src u with
          reply := .stored r.seq kind (recordedId kind r.body) reply
          session := if wasActive then renewedSession u.dlu.leaseClock (node r.src u)
            else (node r.src u).session } }

/-- The state `u` once the running command has completed: OK with these results, or the code of a failure
(R154, section 11.5). -/
def completedWith (state : CmdState) (results : Vector Word 7) (u : State) : State :=
  { u with
    svp := { u.svp with results := results, cmdState := state, flags := u.svp.flags ||| 0x001#11 } }

/-- The state `u` with one event flag set (section 11.5: the bit of a flag). -/
def flagged (bit : BitVec 11) (u : State) : State := { u with svp := { u.svp with flags := u.svp.flags ||| bit } }

/-- The state `u` with the Line Interface in a line state, with no frame being received or sent. -/
def lineIn (l : LineState) (u : State) : State :=
  { u with lif := { lineState := l, bitPeriod := u.lif.bitPeriod, rxBits := [], txBytes := [], txPos := 0 } }

/-- The notice entry that a message to a node becomes when it is queued (R98, R99). -/
def queuedEntry (n : NodeId) (msg : NoticeMsg) (s : State) : NoticeEntry :=
  { notice := .toNode n (node n s).noticeSeq msg, attempts := 0, state := .ready }

end Sys2Proof.Machine
end

