-- ==== Sys2Proof/Certificates/Slice0/Obligations.lean ====
section
/-!
DEFINITION. The statements for the provers: what the commands do, what they leave alone, and the laws every step keeps.
-/

open Sys2Proof Sys2Proof.Machine

/-! ### The queue of commands, reset, and laws that every step keeps -/

/-- Step: the command at the front of the queue is taken, and runs on the state with the queue's rest. On an empty queue
the part idles, by the model's choice (log 1). -/
def Obligations.StepTakesTheFront : Prop :=
  (∀ (c : Instr) (rest : List Instr) (s : State),
      step { s with pending := c :: rest } = exec c { s with pending := rest })
    ∧ ∀ s : State, s.pending = [] → step s = .next s

/-- POR (R18, R79, R109, R127, R132, R142, R147, R163): every block takes its POR values, whatever the state before. The
queue of commands and the count of free choices, which are the model's own, are kept (log 20); the captured arguments
are 0 by the model's choice (log 20). -/
def Obligations.PorGivesEveryBlockItsValues : Prop :=
  ∀ (rateHigh lineDominant : Bool) (s : State),
    exec (.por rateHigh lineDominant) s = .next
      { lif :=
          { lineState := if lineDominant then .held else .trailing
            bitPeriod := if rateHigh then .micros8 else .micros16, rxBits := [], txBytes := [], txPos := 0 }
        nodes := Vector.replicate 30
          { admission := .admitted, session := .absent, epoch := 0, leaseTerm := 50, quota := 8, heldCount := 0
            waitCount := 0, revocationCount := 0, noticeSeq := 0, reply := .empty }
        dir := { slots := Vector.replicate 256 none, nextToken := 1, epoch := 0, deferred := [] }
        freeHoldings := 384
        freeWaits := 64
        rct := { slots := Vector.replicate 8 none, startOrder := [], startList := [] }
        nq := [{ notice := .announce 0, attempts := 0, state := .ready }]
        dlu := { leaseClock := 0, holdClock := 0, noticeClock := 0, recallTimeout := 20, noticeBackoff := 5 }
        svp :=
          { cmdState := .idle, command := 0, args := Vector.replicate 4 0, captured := Vector.replicate 4 0
            results := Vector.replicate 7 0, flags := if lineDominant then 0x040#11 else 0, enables := 0
            halted := true }
        picks := s.picks
        pending := s.pending }

/-- The state after reset meets every law below. -/
def Obligations.ResetIsLawful : Prop :=
  holdersLawful State.reset ∧ membersDistinct State.reset ∧ poolsLawful State.reset ∧ tokensLawful State.reset
    ∧ countsLawful State.reset ∧ retiringEmpty State.reset ∧ noticesLawful State.reset ∧ recallsLawful State.reset
    ∧ listsLawful State.reset ∧ nodesLawful State.reset ∧ idsDistinct State.reset ∧ headsServed State.reset

/-- R5: no step leaves a resource with more holdings than its share limit, or an EXCLUSIVE holding beside another. -/
def Obligations.HoldersStayLawful : Prop := ∀ s t, holdersLawful s → step s = .next t → holdersLawful t

/-- R96, R103: no step overfills the Notice Queue, puts a second frame on the line, or leaves an entry queued at the
third counted failure. -/
def Obligations.NoticeQueueStaysLawful : Prop := ∀ s t, noticesLawful s → step s = .next t → noticesLawful t

/-- R7: no step gives a node a second holding or wait on a resource, or a holding beside a wait. -/
def Obligations.MembersStayDistinct : Prop := ∀ s t, membersDistinct s → step s = .next t → membersDistinct t

/-- R20, R43: no step loses a holding record or a wait record, or makes one. -/
def Obligations.PoolsStayWhole : Prop := ∀ s t, poolsLawful s → step s = .next t → poolsLawful t

/-- R10: no step gives two live holdings one token, or a live holding the token 0. -/
def Obligations.TokensStayDistinct : Prop :=
  ∀ s t, poolsLawful s ∧ membersDistinct s ∧ tokensLawful s → step s = .next t → tokensLawful t

/-- R22, R45: no step lets a node's held count or wait count differ from the holdings and waits that name the node; and
no wait stands on a RETIRING entry. -/
def Obligations.CountsStayTrue : Prop :=
  ∀ s t, countsLawful s ∧ retiringEmpty s → step s = .next t → countsLawful t ∧ retiringEmpty t

/-- R54: no step ends with a grantable head on an OPEN entry that is neither granted nor deferred, unless the part is
halted. -/
def Obligations.HeadsStayServed : Prop := ∀ s t, headsServed s → step s = .next t → headsServed t

/-- R79, R81: no step takes a lease term, a quota or a revocation count out of its range, or gives a BARRED node a
session. -/
def Obligations.NodeRecordsStayLawful : Prop := ∀ s t, nodesLawful s → step s = .next t → nodesLawful t

/-- R3, R9, R63: no step puts an id into two slots, a resource twice onto a list, or a recall twice into the start
order, and the start order names exactly the running recalls. -/
def Obligations.IdsListsAndRecallsStayLawful : Prop :=
  ∀ s t, idsDistinct s ∧ listsLawful s ∧ recallsLawful s → step s = .next t →
    idsDistinct t ∧ listsLawful t ∧ recallsLawful t

/-! ### Frames, checks, tokens, lookup -/

/-- R110, R111, R131, R164: a request frame written out bit by bit from its fields is read back, at its end of data, as
that request, with its kind code, priority, source, sequence and body. -/
def Obligations.RequestFramesParse : Prop :=
  ∀ (kind : BitVec 4) (r : Request), r.wellFormed = true → parseFrame (requestBits kind r) = .request kind r

/-- R131: the CRC-8 over bytes that are followed by their own check byte is 0. -/
def Obligations.CheckedBytesLeaveNoRemainder : Prop := ∀ bytes : List Byte, crc8 (bytes ++ [crc8 bytes]) = 0

/-- R165: a two-byte reply under a good check is ACCEPT or REFUSE when it carries the marker 0101 and echoes the notice's
sequence, a wrong sequence when it carries the marker and another sequence, and no acknowledgement under another
marker; under another check it is a bad check, and any other length is no acknowledgement, in whole bytes or in bits. -/
def Obligations.AcknowledgementsAreClassified : Prop :=
  ∀ (frameCheck : Byte) (marker : BitVec 4) (refuse : Bool) (echo seq : BitVec 3) (check : Byte) (reply : List Byte)
    (bits : List Bool),
    let ack : Byte := marker ++ BitVec.ofBool refuse ++ echo
    (check ≠ crc8 [frameCheck, ack] → classifyAck frameCheck seq [ack, check] = .badCheck)
      ∧ (marker ≠ 0b0101#4 → classifyAck frameCheck seq [ack, crc8 [frameCheck, ack]] = .notAcknowledgement)
      ∧ (marker = 0b0101#4 → echo ≠ seq → classifyAck frameCheck seq [ack, crc8 [frameCheck, ack]] = .wrongSequence)
      ∧ (marker = 0b0101#4 → echo = seq → classifyAck frameCheck seq [ack, crc8 [frameCheck, ack]]
          = if refuse then .refused else .accepted)
      ∧ (reply.length ≠ 2 → classifyAck frameCheck seq reply = .notAcknowledgement)
      ∧ classifyReply frameCheck seq (bytesBits reply) = classifyAck frameCheck seq reply
      ∧ (bits.length ≠ 16 → classifyReply frameCheck seq bits = .notAcknowledgement)

/-- R10: a draw gives the first token from the grant sequence on that no live holding carries: it is not 0, it is live
nowhere, and every token passed over from the grant sequence's next token up to it is live. -/
def Obligations.DrawnTokenIsFresh : Prop :=
  ∀ s : State, poolsLawful s → s.dir.nextToken ≠ 0#24 →
    ∃ skipped : Nat,
      drawnToken s = (tokenAfter^[skipped]) s.dir.nextToken ∧ drawnToken s ≠ 0#24
        ∧ (∀ h ∈ allHoldings s, h.token ≠ drawnToken s)
        ∧ ∀ k < skipped, ∃ h ∈ allHoldings s, h.token = (tokenAfter^[k]) s.dir.nextToken

/-- R3: lookup finds the IN_USE slot with an id, whatever its life state, and fails when no slot has the id. -/
def Obligations.LookupFindsTheId : Prop :=
  ∀ (id : ResourceId) (s : State), idsDistinct s →
    (∀ i e, slot i s = some e → e.id = id → lookup id s = some (i, e))
      ∧ ((∀ i e, slot i s = some e → e.id ≠ id) → lookup id s = none)

/-! ### Time -/

/-- R142, R143: at a millisecond step at which no deadline is still to be taken, each clock that runs advances by one,
with the wrap, and nothing else changes. -/
def Obligations.TimebaseStepAdvancesRunningClocks : Prop :=
  ∀ s : State, (∀ x, expiryReached x s = false) →
    exec .timebaseStep s = .next
      { s with
        dlu :=
          { s.dlu with
            leaseClock := if s.lif.lineState = .held then s.dlu.leaseClock else s.dlu.leaseClock + 1
            holdClock := if s.lif.lineState = .held ∨ s.svp.halted = true then s.dlu.holdClock
              else s.dlu.holdClock + 1
            noticeClock := if s.lif.lineState = .held then s.dlu.noticeClock else s.dlu.noticeClock + 1 } }

/-- R103: when the notice clock reaches a back-off end, the entry returns to READY and keeps its place. -/
def Obligations.BackoffEndsInReady : Prop :=
  ∀ (place : Fin 16) (e : NoticeEntry) (s : State), s.lif.lineState ≠ .held → s.nq[place.val]? = some e →
    e.state = .backoff s.dlu.noticeClock →
    exec (.backoffEnd place) s = .next { s with nq := s.nq.set place.val { e with state := .ready } }

/-- R40, R41, R49, R84, R85, R88, R90: the end of a session by lease expiry, LEAVE, restarting JOIN or EVICT leaves the
node without any holding or wait, and without any notice queued but one IN_FLIGHT that is marked for discard (R106);
other nodes keep their sessions, parameters and counts of revocations; no entry comes into use or changes its
provisioning; and the clocks, the timing parameters and the directory epoch stand. EVICT closes a reply memory that is
not EMPTY (R112). -/
def Obligations.SessionEndStripsTheNode : Prop :=
  ∀ (n : NodeId) (d : Millis) (s : State), membersDistinct s → (node n s).session = .active d →
    let stripped := fun t : State =>
      (∀ i, holds n i t = false ∧ waits n i t = false)
        ∧ (∀ x ∈ t.nq, isAddressedTo n x = true → x.state = .inFlight true)
        ∧ (∀ m, m ≠ n → keepsRecord (node m s) (node m t))
        ∧ keepsEntries s t ∧ t.dlu = s.dlu ∧ t.dir.epoch = s.dir.epoch
    (s.lif.lineState ≠ .held → d = s.dlu.leaseClock →
        ∃ t, exec (.leaseExpiry n) s = .next t ∧ stripped t ∧ (node n t).session = .lapsed
          ∧ (node n t).reply = .closed ∧ flagSet .nodeLapsed t = true)
      ∧ (∀ r : Request, r.src = n → r.body = [] → arrivesFresh (kindCode .leave) r s →
        ∃ t, exec (.leave r) s = .next t ∧ stripped t ∧ (node n t).session = .absent
          ∧ (node n t).reply = .stored r.seq (kindCode .leave) none .left
          ∧ (node n t).revocationCount = (node n s).revocationCount)
      ∧ (∀ r : Request, r.src = n → r.body = [] → arrivesFresh (kindCode .join) r s → s.svp.halted = false →
        ∃ t, exec (.join r) s = .next t ∧ stripped t
          ∧ (node n t).session = .active (s.dlu.leaseClock + BitVec.ofNat 32 (20 * (node n s).leaseTerm))
          ∧ (node n t).epoch = (node n s).epoch + 1 ∧ (node n t).noticeSeq = 0
          ∧ (node n t).revocationCount = (node n s).revocationCount)
      ∧ (∀ a1 a2 a3 : Word, running 0x0005 (BitVec.ofNat 16 (nodeNumber n)) a1 a2 a3 s →
        ∃ t, exec .evict s = .next t ∧ stripped t ∧ (node n t).session = .absent
          ∧ (node n t).admission = .barred ∧ ((node n s).reply ≠ .empty → (node n t).reply = .closed)
          ∧ t.svp.cmdState = .done)

/-- R84, R88, R90: where the node has no holding, no wait and no notice queued, a lease expiry changes the session, the
reply memory and NODE_LAPSED only, and EVICT the session, the admission and the reply memory only. EVICT of a node outside
1 to 30 fails with BAD_ARGUMENT. -/
def Obligations.BareSessionEndChangesTheRecordOnly : Prop :=
  (∀ (a0 a1 a2 a3 : Word) (s : State), running 0x0005 a0 a1 a2 a3 s → a0.toNat = 0 ∨ 30 < a0.toNat →
      exec .evict s = .next (completedWith .failed #v[4, 0, 0, 0, 0, 0, 0] s))
    ∧ ∀ (n : NodeId) (s : State), (∀ i, holds n i s = false ∧ waits n i s = false) →
    s.nq.all (fun e => !isAddressedTo n e) = true →
    (s.lif.lineState ≠ .held → (node n s).session = .active s.dlu.leaseClock →
        exec (.leaseExpiry n) s = .next
          (flagged 0x004#11
            { s with nodes := tset s.nodes n { node n s with session := .lapsed, reply := .closed } }))
      ∧ (∀ a1 a2 a3 : Word, running 0x0005 (BitVec.ofNat 16 (nodeNumber n)) a1 a2 a3 s →
        ((node n s).reply ≠ .empty ∨ isActive (node n s).session = false) →
        exec .evict s = .next
          (completedWith .done (Vector.replicate 7 0)
            { s with
              nodes := tset s.nodes n
                { node n s with
                  session := .absent, admission := .barred
                  reply := if (node n s).reply = .empty then .empty else .closed } }))

/-- R46, R48: a wait leaves its queue at its deadline, and its record returns to the Wait Pool; WAIT_ENDED with the reason
TIMEOUT is queued when 5 or more entries are free, and otherwise dropped with NOTICE_DROPPED set. Nothing else changes
for a wait that is not the head. When the only wait leaves, the recall that runs for it is abandoned (R74): its slot is
free, no holding keeps its mark, and the entry stands on neither list (where no RECALL notice of it is queued and no
resource waits for the slot). When a head leaves, the pass grants the next wait that fits. -/
def Obligations.WaitBehindTheHeadTimesOut : Prop :=
  ∀ (i : SlotId) (e : Entry) (w : Wait) (s : State),
    s.lif.lineState ≠ .held → s.svp.halted = false → slot i s = some e → w.deadline = s.dlu.holdClock →
    let timesOut := fun u : State =>
      exec (.waitDeadlineExpiry i w.node) s = .next
        (if 5 ≤ 16 - s.nq.length then
          { u with
            nodes := tset s.nodes w.node
              { node w.node s with
                waitCount := (node w.node s).waitCount - 1, noticeSeq := (node w.node s).noticeSeq + 1 }
            nq := s.nq ++ [queuedEntry w.node (.waitEnded e.id .timeout) s] }
        else
          flagged 0x020#11
            { u with
              nodes := tset s.nodes w.node { node w.node s with waitCount := (node w.node s).waitCount - 1 } })
    (∀ head before after, e.queue = head :: before ++ w :: after → (∀ x ∈ head :: before, x.node ≠ w.node) →
        timesOut
          { s with
            freeWaits := s.freeWaits + 1
            dir := { s.dir with slots := tset s.dir.slots i (some { e with queue := head :: before ++ after }) } })
      ∧ (∀ k q, e.queue = [w] → e.recallSlot = some k → recallAt k s = some q → s.rct.startList = [] →
        (∀ x ∈ s.nq, isRecallFor e.id x = false) →
        timesOut
          { s with
            freeWaits := s.freeWaits + 1
            rct :=
              { slots := tset s.rct.slots k none, startOrder := s.rct.startOrder.filter (· ≠ k), startList := [] }
            dir :=
              { s.dir with
                deferred := s.dir.deferred.filter (· ≠ i)
                slots := tset s.dir.slots i
                  (some { e with
                    queue := [], recallSlot := none
                    holders := e.holders.map fun h => { h with recallTarget := false } }) } })
      ∧ ∀ x : Wait, e.queue = [w, x] → x.node ≠ w.node → e.life = .opened → e.recallSlot = none → claimFits x.mode e →
        (node x.node s).heldCount ≠ (node x.node s).quota → s.freeHoldings ≠ 0 → s.nq.length ≤ 11 →
        let token := drawnToken
          { s with dir := { s.dir with slots := tset s.dir.slots i (some { e with queue := [x] }) } }
        exec (.waitDeadlineExpiry i w.node) s = .next
          { s with
            freeWaits := s.freeWaits + 1 + 1
            freeHoldings := s.freeHoldings - 1
            nodes :=
              tset
                (tset s.nodes w.node
                  { node w.node s with
                    waitCount := (node w.node s).waitCount - 1, noticeSeq := (node w.node s).noticeSeq + 1 })
                x.node
                { node x.node s with
                  heldCount := (node x.node s).heldCount + 1, waitCount := (node x.node s).waitCount - 1
                  noticeSeq := (node x.node s).noticeSeq + 1 }
            nq := s.nq ++ [queuedEntry w.node (.waitEnded e.id .timeout) s]
              ++ [queuedEntry x.node (.granted e.id token) s]
            rct := { s.rct with startList := s.rct.startList.filter (· ≠ i) }
            dir :=
              { s.dir with
                nextToken := tokenAfter token
                deferred := s.dir.deferred.filter (· ≠ i)
                slots := tset s.dir.slots i
                  (some { e with
                    queue := []
                    holders := e.holders
                      ++ [{ node := x.node, mode := x.mode, token := token, slot := i
                            recallTarget := false }] }) } }

/-- R37, R73: at a recall's deadline every target that is not GONE loses the resource by revocation: it holds it no
longer, its revocation count has gone up by one to at most 255, and REVOCATION is set. No other node's count of
revocations changes, no node's session, epoch, parameters or reply memory, and no entry's provisioning. -/
def Obligations.RecallDeadlineRevokesTheTargets : Prop :=
  ∀ (k : RecallId) (r : Recall) (s : State), membersDistinct s → s.lif.lineState ≠ .held → s.svp.halted = false →
    recallAt k s = some r → r.deadline = s.dlu.holdClock → (r.targets.map (·.node)).Nodup →
    (∀ x ∈ r.targets, x.status ≠ .gone → holds x.node r.slot s = true) →
    ∃ t, exec (.recallDeadline k) s = .next t
      ∧ (∀ x ∈ r.targets, x.status ≠ .gone → holds x.node r.slot t = false
          ∧ (node x.node t).revocationCount = min ((node x.node s).revocationCount + 1) 255
          ∧ flagSet .revocation t = true)
      ∧ (∀ n, (∀ x ∈ r.targets, x.status ≠ .gone → x.node ≠ n) →
          (node n t).revocationCount = (node n s).revocationCount)
      ∧ (∀ n, keepsRecord { node n s with revocationCount := (node n t).revocationCount } (node n t))
      ∧ keepsEntries s t ∧ t.dlu = s.dlu ∧ t.dir.epoch = s.dir.epoch ∧ t.svp.halted = false

/-! ### Requests -/

/-- R113, R120, R121: a repeat of the request that the reply memory holds is answered with the stored reply. Nothing but
the Line Interface and the lease of an ACTIVE sender changes. The reply and its check go out bit by bit with no SOF before
them: 0.25T dominant and 0.75T recessive for a ONE, 0.75T and 0.25T for a ZERO (R128, R130). -/
def Obligations.RepeatsReplayTheStoredReply : Prop :=
  ∀ (r : Request) (reply : Reply) (s : State), r.wellFormed = true →
    let replayed := fun kind : BitVec 4 =>
      replyingWith kind r reply
        { s with
          nodes := tset s.nodes r.src
            { node r.src s with session := renewedSession s.dlu.leaseClock (node r.src s) } }
    (∀ k : RequestKind, frameArrives (requestBits (kindCode k) r) s = true →
        (node r.src s).reply = .stored r.seq (kindCode k) (recordedId (kindCode k) r.body) reply →
        exec (requestCommand k r) s = .next (replayed (kindCode k)))
      ∧ (∀ kind : BitVec 4, isRequestKind kind = false → frameArrives (requestBits kind r) s = true →
        (node r.src s).reply = .stored r.seq kind (recordedId kind r.body) reply →
        exec (.badKind kind r) s = .next (replayed kind))
      ∧ ∀ kind : BitVec 4, drivenPulses (replayed kind)
          = (bytesBits (replyBytes reply ++ [crc8 (requestCheck kind r :: replyBytes reply)])).map fun bit =>
            if bit = true then (250, 750) else (750, 250)

/-- R115, R116: a kind code that is none of the nine is answered BAD_KIND, and a body that does not fit its kind
BAD_REQUEST, from a sender in any session state, halted or not. Nothing but the answer comes of it. -/
def Obligations.UnfitRequestsAreAnswered : Prop :=
  ∀ (r : Request) (s : State),
    (∀ kind : BitVec 4, isRequestKind kind = false → arrivesFresh kind r s →
        exec (.badKind kind r) s = .next (answered kind r .badKind (isActive (node r.src s).session) s))
      ∧ (∀ k : RequestKind, arrivesFresh (kindCode k) r s → bodyFits k r.body = false →
        exec (requestCommand k r) s
          = .next (answered (kindCode k) r .badRequest (isActive (node r.src s).session) s))

/-- Section 11.2: the bodies of CLAIM, RELEASE and DOWNGRADE, CHECK, QUERY and CANCEL are read field by field, and a
field out of its range, or another length, does not fit (R116, R164). -/
def Obligations.RequestBodiesAreRead : Prop :=
  ∀ (id : ResourceId) (token : Token) (limit : BitVec 4) (mode zeros : BitVec 2) (holder : Byte) (b : List Byte),
    let hi := id.extractLsb' 8 8
    let lo := id.extractLsb' 0 8
    let idGood := id ≠ 0x0000#16 ∧ id ≠ 0xFFFF#16
    (b.length ≠ 3 → readClaim b = none) ∧ (b.length ≠ 5 → readTokenArgs b = none)
      ∧ (b.length ≠ 6 → readCheck b = none) ∧ (b.length ≠ 2 → readIdOnly b = none)
      ∧ (readIdOnly [hi, lo] = if idGood then some id else none)
      ∧ (readTokenArgs (hi :: lo :: tokenBytes token)
          = if idGood ∧ token ≠ 0#24 then some ⟨id, token⟩ else none)
      ∧ (readClaim [hi, lo, zeros ++ mode ++ limit]
          = if idGood ∧ zeros = 0#2 ∧ mode = 1#2 then some ⟨id, .shared, limit.toNat⟩
            else if idGood ∧ zeros = 0#2 ∧ mode = 2#2 then some ⟨id, .exclusive, limit.toNat⟩ else none)
      ∧ (∀ n : NodeId, holder.toNat = nodeNumber n → readCheck (hi :: lo :: holder :: tokenBytes token)
          = if idGood ∧ token ≠ 0#24 then some ⟨id, n, token⟩ else none)
      ∧ (holder.toNat = 0 ∨ 30 < holder.toNat → readCheck (hi :: lo :: holder :: tokenBytes token) = none)

/-- R117, R118: what the sender's session, its admission and the halted flag refuse, and with which reply. Nothing but
the answer comes of it. -/
def Obligations.GatesRefuse : Prop :=
  ∀ (k : RequestKind) (r : Request) (s : State), arrivesFresh (kindCode k) r s → bodyFits k r.body = true →
    let refused := fun reply : Reply =>
      exec (requestCommand k r) s = .next (answered (kindCode k) r reply (isActive (node r.src s).session) s)
    ((node r.src s).session = .absent → k ∈ [.leave, .claim, .release, .downgrade, .cancel, .renew] →
        refused .notJoined)
      ∧ ((node r.src s).session = .lapsed → k ∈ [.claim, .release, .downgrade, .cancel, .renew] → refused .lapsed)
      ∧ ((node r.src s).session = .absent → (node r.src s).admission = .barred → k = .join → refused .notAdmitted)
      ∧ (s.svp.halted = true → k = .join →
          ((node r.src s).session = .absent → (node r.src s).admission = .admitted) → refused .halted)
      ∧ (s.svp.halted = true → k ∈ [.claim, .downgrade] → isActive (node r.src s).session = true → refused .halted)

/-- R82: a JOIN from an ADMITTED node that is ABSENT or LAPSED starts a session: the epoch goes up by one, the notice
sequence starts at 0, the lease runs one term from now, and the reply is JOINED with the new epoch, the directory
epoch, the lease term and the quota. Nothing else changes but the reply memory and the Line Interface. -/
def Obligations.JoinStartsASession : Prop :=
  ∀ (r : Request) (s : State), arrivesFresh (kindCode .join) r s → r.body = [] →
    (node r.src s).admission = .admitted → isActive (node r.src s).session = false → s.svp.halted = false →
    exec (.join r) s = .next
      (answered (kindCode .join) r
        (.joined ((node r.src s).epoch + 1) s.dir.epoch (node r.src s).leaseTerm (node r.src s).quota) false
        { s with
          nodes := tset s.nodes r.src
            { node r.src s with
              epoch := (node r.src s).epoch + 1, noticeSeq := 0
              session := .active (s.dlu.leaseClock + BitVec.ofNat 32 (20 * (node r.src s).leaseTerm)) } })

/-- R85: a LEAVE from a LAPSED node, and from an ACTIVE one without holdings, waits and queued notices, makes the node
ABSENT and is answered LEFT, halted or not. Nothing else changes but the reply memory and the Line Interface. -/
def Obligations.LeaveEndsABareSession : Prop :=
  ∀ (r : Request) (s : State), arrivesFresh (kindCode .leave) r s → r.body = [] →
    ((node r.src s).session = .lapsed ∨
      (isActive (node r.src s).session = true ∧ (∀ i, holds r.src i s = false ∧ waits r.src i s = false)
        ∧ s.nq.all (fun e => !isAddressedTo r.src e) = true)) →
    exec (.leave r) s = .next
      (answered (kindCode .leave) r .left false
        { s with nodes := tset s.nodes r.src { node r.src s with session := .absent } })

/-- R25, R26: a CLAIM that finds no wait and fits beside the holders is granted at once, while the node is below its
quota and a holding record is free: the holding joins the tail of the holder list under the token drawn, and the reply
is GRANTED. No notice is queued, no other entry and no other node's record changes. -/
def Obligations.ClaimIsGrantedAtOnce : Prop :=
  ∀ (r : Request) (a : ClaimArgs) (i : SlotId) (e : Entry) (s : State), arrivesFresh (kindCode .claim) r s →
    readClaim r.body = some a → isActive (node r.src s).session = true → s.svp.halted = false →
    lookup a.id s = some (i, e) → e.life = .opened → e.queue = [] → holdingOf r.src e = none → claimFits a.mode e →
    (node r.src s).heldCount ≠ (node r.src s).quota → s.freeHoldings ≠ 0 →
    exec (.claim r) s = .next
      (answered (kindCode .claim) r (.granted (drawnToken s) a.mode) true
        { s with
          freeHoldings := s.freeHoldings - 1
          nodes := tset s.nodes r.src { node r.src s with heldCount := (node r.src s).heldCount + 1 }
          dir :=
            { s.dir with
              nextToken := tokenAfter (drawnToken s)
              slots := tset s.dir.slots i
                (some { e with
                  holders := e.holders
                    ++ [{ node := r.src, mode := a.mode, token := drawnToken s, slot := i
                          recallTarget := false }] }) } })

/-- R27, R44: a CLAIM with a wait limit that is not grantable now is queued, while the node has fewer than 4 waits, the
queue fewer than 16 and the Wait Pool a free record: the wait joins the tail with a deadline of the hold clock plus the
limit times 100 ms, and the reply is QUEUED with its position. Behind another wait nothing else changes. At the head of an
entry that may not be recalled, or whose share limit alone blocks a SHARED wait (R61, R62), the entry stands on neither
list. At the head of one that qualifies for a recall while all eight recall slots are taken, it joins the tail of the
recall-start list unless it stands there, and leaves the deferred-grant list (R65, R67). -/
def Obligations.ClaimIsQueued : Prop :=
  ∀ (r : Request) (a : ClaimArgs) (i : SlotId) (e : Entry) (s : State), arrivesFresh (kindCode .claim) r s →
    readClaim r.body = some a → isActive (node r.src s).session = true → s.svp.halted = false →
    lookup a.id s = some (i, e) → e.life = .opened → holdingOf r.src e = none → waitOf r.src e = none →
    ¬ (e.queue = [] ∧ claimFits a.mode e) → a.limit ≠ 0 → (node r.src s).waitCount ≠ 4 → e.queue.length ≠ 16 →
    s.freeWaits ≠ 0 →
    let queued := fun (deferred startList : List SlotId) =>
      exec (.claim r) s = .next
        (answered (kindCode .claim) r (.queued (e.queue.length + 1)) true
          { s with
            freeWaits := s.freeWaits - 1
            nodes := tset s.nodes r.src { node r.src s with waitCount := (node r.src s).waitCount + 1 }
            rct := { s.rct with startList := startList }
            dir :=
              { s.dir with
                deferred := deferred
                slots := tset s.dir.slots i
                  (some { e with
                    queue := e.queue
                      ++ [{ node := r.src, mode := a.mode, slot := i
                            deadline := s.dlu.holdClock + BitVec.ofNat 32 (100 * a.limit) }] }) } })
    (e.queue ≠ [] → queued s.dir.deferred s.rct.startList)
      ∧ (e.queue = [] → e.recallable = false ∨ (a.mode = .shared ∧ ∀ h ∈ e.holders, h.mode = .shared) →
        queued (s.dir.deferred.filter (· ≠ i)) (s.rct.startList.filter (· ≠ i)))
      ∧ (e.queue = [] → e.recallable = true → e.recallSlot = none →
        (∃ h ∈ e.holders, a.mode = .exclusive ∨ h.mode = .exclusive) → (∀ k, (recallAt k s).isSome = true) →
        queued (s.dir.deferred.filter (· ≠ i))
          (if i ∈ s.rct.startList then s.rct.startList else s.rct.startList ++ [i]))

/-- R27, R62, R64, R66: a CLAIM that becomes the head of a recallable entry, whose holders block it, starts a recall
when a recall slot is free: the recall stands in the lowest free slot and last in the start order, with the wait as
its waiter, the blockers as its targets in holder-list order and a deadline of the hold clock plus the recall
timeout; the blockers are marked; and each target in turn is NOTIFIED with a RECALL notice while a notice entry is
free, and PENDING after that. -/
def Obligations.QueuedHeadStartsARecall : Prop :=
  ∀ (r : Request) (a : ClaimArgs) (i : SlotId) (e : Entry) (k : RecallId) (s : State),
    arrivesFresh (kindCode .claim) r s → readClaim r.body = some a → isActive (node r.src s).session = true →
    s.svp.halted = false → lookup a.id s = some (i, e) → e.life = .opened → e.queue = [] → e.recallable = true →
    e.recallSlot = none → holdingOf r.src e = none → (e.holders.map (·.node)).Nodup →
    (∃ h ∈ e.holders, a.mode = .exclusive ∨ h.mode = .exclusive) → a.limit ≠ 0 →
    (node r.src s).waitCount ≠ 4 → s.freeWaits ≠ 0 →
    recallAt k s = none → (∀ j < k, (recallAt j s).isSome) →
    let w : Wait :=
      { node := r.src, mode := a.mode, slot := i, deadline := s.dlu.holdClock + BitVec.ofNat 32 (100 * a.limit) }
    let blockers := e.holders.filter fun h => a.mode = .exclusive || h.mode = .exclusive
    let free := 16 - s.nq.length
    ∃ t, exec (.claim r) s = .next t
      ∧ (node r.src t).reply = .stored r.seq (kindCode .claim) (some a.id) (.queued 1)
      ∧ recallAt k t = some
          { slot := i, waiter := w
            targets := blockers.mapIdx fun j h =>
              { node := h.node, token := h.token, status := if j < free then .notified else .pending }
            deadline := s.dlu.holdClock + BitVec.ofNat 32 (10 * s.dlu.recallTimeout) }
      ∧ t.rct.startOrder = s.rct.startOrder ++ [k] ∧ (∀ j, j ≠ k → recallAt j t = recallAt j s)
      ∧ slot i t = some { e with
          queue := [w], recallSlot := some k
          holders := e.holders.map fun h =>
            if a.mode = .exclusive ∨ h.mode = .exclusive then { h with recallTarget := true } else h }
      ∧ (∀ j, j ≠ i → slot j t = slot j s)
      ∧ t.nq = s.nq ++ ((blockers.take free).map fun h => queuedEntry h.node (.askBack a.id h.token) s)
      ∧ isDeferred i t = false ∧ isRecallPending i t = false
      ∧ t.freeWaits = s.freeWaits - 1 ∧ t.freeHoldings = s.freeHoldings ∧ t.dlu = s.dlu ∧ t.svp = s.svp

/-- R23 to R28: what a CLAIM that neither is granted nor waits is answered, by the first check that applies; no entry,
list, pool or notice changes, and POOL_REFUSAL is set with NO_ROOM and QUEUE_FULL. -/
def Obligations.ClaimIsTurnedDown : Prop :=
  ∀ (r : Request) (a : ClaimArgs) (s : State), arrivesFresh (kindCode .claim) r s → readClaim r.body = some a →
    isActive (node r.src s).session = true → s.svp.halted = false →
    let turnedDown := fun (reply : Reply) (u : State) =>
      exec (.claim r) s = .next (answered (kindCode .claim) r reply true u)
    (lookup a.id s = none → turnedDown .noResource s)
      ∧ ∀ i e, lookup a.id s = some (i, e) →
        (e.life = .retiring → turnedDown .retiring s)
          ∧ (∀ h, e.life = .opened → holdingOf r.src e = some h → turnedDown (.alreadyHeld h.token h.mode) s)
          ∧ (∀ p, e.life = .opened → holdingOf r.src e = none → waitPosition r.src e = some p →
              turnedDown (.alreadyWaiting p) s)
          ∧ (e.life = .opened → holdingOf r.src e = none → waitOf r.src e = none →
              (e.queue = [] ∧ claimFits a.mode e →
                ((node r.src s).heldCount = (node r.src s).quota → turnedDown .quota s)
                  ∧ ((node r.src s).heldCount ≠ (node r.src s).quota → s.freeHoldings = 0 →
                      turnedDown .noRoom (flagged 0x200#11 s)))
                ∧ (¬ (e.queue = [] ∧ claimFits a.mode e) →
                  (a.limit = 0 → turnedDown .denied s)
                    ∧ (a.limit ≠ 0 → (node r.src s).waitCount = 4 → turnedDown .quota s)
                    ∧ (a.limit ≠ 0 → (node r.src s).waitCount ≠ 4 → e.queue.length = 16 →
                        turnedDown .queueFull (flagged 0x200#11 s))
                    ∧ (a.limit ≠ 0 → (node r.src s).waitCount ≠ 4 → e.queue.length ≠ 16 → s.freeWaits = 0 →
                        turnedDown .noRoom (flagged 0x200#11 s))))

/-- R15, R30, R31: a RELEASE under the token of the node's holding ends it: an OPEN entry that no one waits for keeps its
other holders, a RETIRING one whose last holder leaves becomes UNUSED with RESOURCE_FREED set. The record returns to
its pool and the held count falls by one. A RELEASE that finds no such holding is answered NOT_HELD or NO_RESOURCE and
changes nothing. It is served halted or not. -/
def Obligations.ReleaseEndsAHolding : Prop :=
  ∀ (r : Request) (a : TokenArgs) (s : State), arrivesFresh (kindCode .release) r s →
    readTokenArgs r.body = some a → isActive (node r.src s).session = true →
    let ended : State :=
      { s with
        freeHoldings := s.freeHoldings + 1
        nodes := tset s.nodes r.src { node r.src s with heldCount := (node r.src s).heldCount - 1 } }
    (∀ i e h before after, lookup a.id s = some (i, e) → e.life = .opened → e.queue = [] → e.recallSlot = none →
        s.dir.deferred = [] → i ∉ s.rct.startList → e.holders = before ++ h :: after →
        (∀ x ∈ before, x.node ≠ r.src) → h.node = r.src → h.token = a.token →
        exec (.release r) s = .next
          (answered (kindCode .release) r .released true
            { ended with
              dir := { s.dir with slots := tset s.dir.slots i (some { e with holders := before ++ after }) } }))
      ∧ (∀ i e h, lookup a.id s = some (i, e) → e.life = .retiring → e.queue = [] → e.recallSlot = none →
        s.dir.deferred = [] → i ∉ s.rct.startList → e.holders = [h] → h.node = r.src → h.token = a.token →
        exec (.release r) s = .next
          (answered (kindCode .release) r .released true
            (flagged 0x100#11
              { ended with dir := { s.dir with slots := tset s.dir.slots i none } })))
      ∧ (∀ i e, lookup a.id s = some (i, e) → (∀ h ∈ e.holders, h.node = r.src → h.token ≠ a.token) →
        exec (.release r) s = .next (answered (kindCode .release) r .notHeld true s))
      ∧ (lookup a.id s = none →
        exec (.release r) s = .next (answered (kindCode .release) r .noResource true s))

/-- R30, R50, R51: the RELEASE of the only holding grants the one wait of the entry in the same event: its node holds the
resource under the token drawn, its wait is gone, and a GRANTED notice with that token is queued for it. A recall that
runs for that wait completes when the holder is its last target that is not GONE (R70, R71, R72): its slot is free, and
the RECALL notices to the holder that are not IN_FLIGHT are taken back (where what is freed is wanted by no one). Where
all recall slots were taken and a resource that qualifies heads the recall-start list, the freed slot is handed to it,
and its recall starts (R66, R68). -/
def Obligations.ReleaseServesTheWaiter : Prop :=
  ∀ (r : Request) (a : TokenArgs) (i : SlotId) (e : Entry) (h : Holding) (w : Wait) (s : State),
    arrivesFresh (kindCode .release) r s → readTokenArgs r.body = some a →
    isActive (node r.src s).session = true → s.svp.halted = false → lookup a.id s = some (i, e) → e.life = .opened →
    s.dir.deferred = [] → i ∉ s.rct.startList → e.holders = [h] → h.node = r.src →
    h.token = a.token → e.queue = [w] → w.node ≠ r.src → 1 ≤ e.shareLimit →
    (node w.node s).heldCount ≠ (node w.node s).quota → s.nq.length < 16 →
    let emptied : Entry := { e with holders := [], recallSlot := none }
    let token := drawnToken { s with dir := { s.dir with slots := tset s.dir.slots i (some emptied) } }
    let granted : Entry :=
      { emptied with
        queue := []
        holders := [{ node := w.node, mode := w.mode, token := token, slot := i, recallTarget := false }] }
    let serves := fun (rct : Rct) (nq : List NoticeEntry) =>
      exec (.release r) s = .next
        (answered (kindCode .release) r .released true
          { s with
            freeWaits := s.freeWaits + 1
            nodes :=
              tset (tset s.nodes r.src { node r.src s with heldCount := (node r.src s).heldCount - 1 }) w.node
                { node w.node s with
                  heldCount := (node w.node s).heldCount + 1, waitCount := (node w.node s).waitCount - 1
                  noticeSeq := (node w.node s).noticeSeq + 1 }
            nq := nq ++ [queuedEntry w.node (.granted e.id token) s]
            rct := rct
            dir :=
              { s.dir with nextToken := tokenAfter token, slots := tset s.dir.slots i (some granted) } })
    let lastTarget := fun q : Recall =>
      (∃ x ∈ q.targets, x.node = r.src ∧ x.status ≠ .gone) ∧ ∀ x ∈ q.targets, x.node = r.src ∨ x.status = .gone
    let itsRecalls := fun x : NoticeEntry => isRecallFor e.id x && isAddressedTo r.src x
    (e.recallSlot = none → serves s.rct s.nq)
      ∧ (∀ k q, e.recallSlot = some k → recallAt k s = some q → lastTarget q → noOneServed s →
        (∀ x ∈ s.nq, itsRecalls x = true → isInFlight x = false) →
        serves
          { slots := tset s.rct.slots k none, startOrder := s.rct.startOrder.filter (· ≠ k), startList := [] }
          (s.nq.filter fun x => !itsRecalls x))
      ∧ ∀ k q j f x more, e.recallSlot = some k → recallAt k s = some q → lastTarget q →
        (∀ y ∈ s.nq, itsRecalls y = false) → (∀ m, m ≠ k → (recallAt m s).isSome = true) →
        s.rct.startList.head? = some j → slot j s = some f → f.life = .opened → f.recallable = true →
        f.recallSlot = none → f.queue = x :: more → (f.holders.map (·.node)).Nodup →
        (∃ y ∈ f.holders, x.mode = .exclusive ∨ y.mode = .exclusive) →
        let blockers := f.holders.filter fun y => x.mode = .exclusive || y.mode = .exclusive
        ∃ t, exec (.release r) s = .next t
          ∧ recallAt k t = some
              { slot := j, waiter := x
                targets := blockers.mapIdx fun p y =>
                  { node := y.node, token := y.token
                    status := if p < 16 - s.nq.length then .notified else .pending }
                deadline := s.dlu.holdClock + BitVec.ofNat 32 (10 * s.dlu.recallTimeout) }
          ∧ (∀ m, m ≠ k → recallAt m t = recallAt m s)
          ∧ t.rct.startOrder = s.rct.startOrder.filter (· ≠ k) ++ [k]
          ∧ t.rct.startList = s.rct.startList.filter (· ≠ j)
          ∧ slot j t = some
              { f with
                recallSlot := some k
                holders := f.holders.map fun y =>
                  if x.mode = .exclusive ∨ y.mode = .exclusive then { y with recallTarget := true } else y }
          ∧ (∀ m, m ≠ i → m ≠ j → slot m t = slot m s)

/-- R34: DOWNGRADE of a holding that is already SHARED, under its current token, is answered DOWNGRADED with that token;
the holding, the entry, the grant sequence and the Recall Tracker are unchanged. -/
def Obligations.DowngradeOfASharedHoldingChangesNothing : Prop :=
  ∀ (r : Request) (a : TokenArgs) (i : SlotId) (e : Entry) (h : Holding) (s : State),
    arrivesFresh (kindCode .downgrade) r s → readTokenArgs r.body = some a →
    isActive (node r.src s).session = true → s.svp.halted = false → lookup a.id s = some (i, e) →
    holdingOf r.src e = some h → h.token = a.token → h.mode = .shared →
    exec (.downgrade r) s = .next (answered (kindCode .downgrade) r (.downgraded h.token) true s)

/-- R33: DOWNGRADE of an EXCLUSIVE holding that no one waits for makes it SHARED under a new token, in its place, and is
answered DOWNGRADED with that token; under another token, or without a holding, it is answered NOT_HELD, and without a
resource NO_RESOURCE, and changes nothing. -/
def Obligations.DowngradeSharesAnExclusiveHolding : Prop :=
  ∀ (r : Request) (a : TokenArgs) (s : State), arrivesFresh (kindCode .downgrade) r s →
    readTokenArgs r.body = some a → isActive (node r.src s).session = true → s.svp.halted = false →
    (∀ i e h, lookup a.id s = some (i, e) → e.queue = [] → e.recallSlot = none → i ∉ s.dir.deferred →
        i ∉ s.rct.startList → e.holders = [h] → h.node = r.src → h.token = a.token → h.mode = .exclusive →
        exec (.downgrade r) s = .next
          (answered (kindCode .downgrade) r (.downgraded (drawnToken s)) true
            { s with
              dir :=
                { s.dir with
                  nextToken := tokenAfter (drawnToken s)
                  slots := tset s.dir.slots i
                    (some { e with holders := [{ h with mode := .shared, token := drawnToken s }] }) } }))
      ∧ (∀ i e, lookup a.id s = some (i, e) → (∀ h, holdingOf r.src e = some h → h.token ≠ a.token) →
        exec (.downgrade r) s = .next (answered (kindCode .downgrade) r .notHeld true s))
      ∧ (lookup a.id s = none →
        exec (.downgrade r) s = .next (answered (kindCode .downgrade) r .noResource true s))

/-- R35: CHECK is answered, for a sender in any session state and halted or not: NO_RESOURCE when the lookup fails, VALID
with the current mode when the holder named holds the resource under the token given, and STALE otherwise, on OPEN and
RETIRING entries alike. Nothing in the directory changes, and an ACTIVE sender's lease is renewed. -/
def Obligations.CheckTellsValidFromStale : Prop :=
  ∀ (r : Request) (a : CheckArgs) (s : State), arrivesFresh (kindCode .check) r s → readCheck r.body = some a →
    let checked := fun reply : Reply =>
      exec (.check r) s = .next (answered (kindCode .check) r reply (isActive (node r.src s).session) s)
    (lookup a.id s = none → checked .noResource)
      ∧ (∀ i e h, lookup a.id s = some (i, e) → h ∈ e.holders → h.node = a.holder → h.token = a.token →
          (∀ x ∈ e.holders, x.node = a.holder → x = h) → checked (.valid h.mode))
      ∧ (∀ i e, lookup a.id s = some (i, e) → (∀ h ∈ e.holders, h.node = a.holder → h.token ≠ a.token) →
          checked .stale)

/-- R12: QUERY is answered, for a sender in any session state and halted or not, with INFO read from the entry, OPEN or
RETIRING, or with NO_RESOURCE. Nothing but the answer comes of it. -/
def Obligations.QueryReportsTheEntry : Prop :=
  ∀ (r : Request) (id : ResourceId) (s : State), arrivesFresh (kindCode .query) r s → readIdOnly r.body = some id →
    let told := fun reply : Reply =>
      exec (.query r) s = .next (answered (kindCode .query) r reply (isActive (node r.src s).session) s)
    (lookup id s = none → told .noResource)
      ∧ ∀ i e, lookup id s = some (i, e) →
          told (.info
            { life := e.life
              claimState := if e.holders = [] then .free
                else if e.holders.all (fun h => h.mode = .shared) then .shared else .exclusive
              recallRunning := e.recallSlot.isSome, shareLimit := e.shareLimit, holders := e.holders.length
              waits := e.queue.length })

/-- R87: RENEW from an ACTIVE node is answered RENEWED with the lease term, and the lease is renewed; from a LAPSED node
it is answered LAPSED and from an ABSENT one NOT_JOINED. It is served halted or not, and changes nothing else. -/
def Obligations.RenewRenewsTheLease : Prop :=
  ∀ (r : Request) (s : State), arrivesFresh (kindCode .renew) r s → r.body = [] →
    exec (.renew r) s = .next
      (match (node r.src s).session with
        | .active _ => answered (kindCode .renew) r (.renewed (node r.src s).leaseTerm) true s
        | .lapsed => answered (kindCode .renew) r .lapsed false s
        | .absent => answered (kindCode .renew) r .notJoined false s)

/-- R46, R47: CANCEL removes the node's wait: one behind the head, and the only wait of an entry. The record returns to
the Wait Pool, the wait count falls by one, no notice is queued, and the reply is CANCELLED. A recall that runs for the
only wait is abandoned (R74): its slot is free, no holding keeps its mark, and the RECALL notices of the resource that
are not IN_FLIGHT are taken back (where what is freed is wanted by no one). When a head leaves and the next wait of a
recallable entry is blocked, the recall of the first is abandoned and one starts for the second (R74, R68, R66). Without
a wait CANCEL is answered NOT_WAITING, and without a resource NO_RESOURCE, and changes nothing. -/
def Obligations.CancelRemovesTheWait : Prop :=
  ∀ (r : Request) (id : ResourceId) (s : State), arrivesFresh (kindCode .cancel) r s → readIdOnly r.body = some id →
    isActive (node r.src s).session = true →
    let cancelled := fun (u : State) =>
      exec (.cancel r) s = .next
        (answered (kindCode .cancel) r .cancelled true
          { u with
            freeWaits := s.freeWaits + 1
            nodes := tset s.nodes r.src { node r.src s with waitCount := (node r.src s).waitCount - 1 } })
    let leaving := fun (i : SlotId) (e : Entry) => { s.dir with slots := tset s.dir.slots i (some e) }
    (∀ i e head w before after, lookup id s = some (i, e) → e.queue = head :: before ++ w :: after →
        (∀ x ∈ head :: before, x.node ≠ r.src) → w.node = r.src →
        cancelled { s with dir := leaving i { e with queue := head :: before ++ after } })
      ∧ (∀ i e w, lookup id s = some (i, e) → e.queue = [w] → w.node = r.src → e.recallSlot = none →
        i ∉ s.dir.deferred → i ∉ s.rct.startList → cancelled { s with dir := leaving i { e with queue := [] } })
      ∧ (∀ i e w k q, lookup id s = some (i, e) → e.queue = [w] → w.node = r.src → e.recallSlot = some k →
        recallAt k s = some q → noOneServed s →
        (∀ x ∈ s.nq, isRecallFor e.id x = true → isInFlight x = false) →
        cancelled
          { s with
            nq := s.nq.filter fun x => !isRecallFor e.id x
            rct :=
              { slots := tset s.rct.slots k none, startOrder := s.rct.startOrder.filter (· ≠ k), startList := [] }
            dir := leaving i
              { e with
                queue := [], recallSlot := none
                holders := e.holders.map fun h => { h with recallTarget := false } } })
      ∧ (∀ i e w k q x more, lookup id s = some (i, e) → e.queue = w :: x :: more → w.node = r.src →
        e.recallSlot = some k → recallAt k s = some q → s.svp.halted = false → s.dir.deferred = [] →
        s.rct.startList = [] → (∀ y ∈ s.nq, isRecallFor e.id y = false) → (∀ j < k, (recallAt j s).isSome = true) →
        e.life = .opened → e.recallable = true → (e.holders.map (·.node)).Nodup →
        (∃ h ∈ e.holders, x.mode = .exclusive ∨ h.mode = .exclusive) →
        let blockers := e.holders.filter fun h => x.mode = .exclusive || h.mode = .exclusive
        let free := 16 - s.nq.length
        ∃ t, exec (.cancel r) s = .next t
          ∧ (node r.src t).reply = .stored r.seq (kindCode .cancel) (some id) .cancelled
          ∧ (node r.src t).waitCount = (node r.src s).waitCount - 1
          ∧ recallAt k t = some
              { slot := i, waiter := x
                targets := blockers.mapIdx fun p h =>
                  { node := h.node, token := h.token, status := if p < free then .notified else .pending }
                deadline := s.dlu.holdClock + BitVec.ofNat 32 (10 * s.dlu.recallTimeout) }
          ∧ (∀ j, j ≠ k → recallAt j t = recallAt j s)
          ∧ t.rct.startOrder = s.rct.startOrder.filter (· ≠ k) ++ [k]
          ∧ slot i t = some { e with
              queue := x :: more
              holders := e.holders.map fun h =>
                { h with recallTarget := x.mode = .exclusive || h.mode = .exclusive } }
          ∧ (∀ j, j ≠ i → slot j t = slot j s)
          ∧ t.nq = s.nq ++ ((blockers.take free).map fun h => queuedEntry h.node (.askBack e.id h.token) s)
          ∧ t.dir.deferred = [] ∧ t.rct.startList = []
          ∧ t.freeWaits = s.freeWaits + 1 ∧ t.freeHoldings = s.freeHoldings ∧ t.dlu = s.dlu ∧ t.svp = s.svp)
      ∧ (∀ i e, lookup id s = some (i, e) → waitOf r.src e = none →
        exec (.cancel r) s = .next (answered (kindCode .cancel) r .notWaiting true s))
      ∧ (lookup id s = none → exec (.cancel r) s = .next (answered (kindCode .cancel) r .noResource true s))

/-! ### The line and the notices -/

/-- R111, R129, R130, R132, R133, R134: what the line brings that the part does not take moves the line state only: a
SOF in IDLE, a destination other than 0, a frame dropped for its source or version, the end of a reply, and end of
frame. A receive error also sets FRAME_ERROR. (An edge later than 1.5T and before 3T is one by R129 and R130 where a
data bit came before it; after a SOF that no data bit follows R130 gives no end of data, and that such an edge comes before
the end of data is the model's choice: log 27.) -/
def Obligations.FramesNotTakenMoveTheLineOnly : Prop :=
  ∀ s : State,
    let moved := fun (c : Instr) (l : LineState) => exec c s = .next (lineIn l s)
    let failed := fun f : ReceiveFault => exec (.receiveError f) s = .next (flagged 0x400#11 (lineIn .trailing s))
    (∀ d, 1500 ≤ d → d ≤ 3000 → s.lif.lineState = .idle → moved (.sofReceived d) .receiving)
      ∧ (∀ dest, dest ≠ 0#5 → s.lif.lineState = .receiving → moved (.frameIgnored dest) .ignoring)
      ∧ (∀ f : DroppedFrame, f.body.length ≤ 7 → f.src = 0#5 ∨ f.src = 31#5 ∨ f.version ≠ 1#2 →
          frameArrives (droppedBits f) s = true → moved (.frameDropped f) .trailing)
      ∧ (s.lif.lineState = .replying → moved .replySent .trailing ∧ moved .replyLost .trailing)
      ∧ (s.lif.lineState = .ignoring → moved .endOfFrame .idle)
      ∧ (s.lif.lineState = .trailing → (∀ e ∈ s.nq, isInFlight e = false) → moved .endOfFrame .idle)
      ∧ (∀ d, (125 ≤ d ∧ d < 1500) ∨ (3000 < d ∧ d < 8000) → s.lif.lineState = .idle → failed (.startPulse d))
      ∧ (∀ d, 1250 < d → d < 8000 → s.lif.lineState = .receiving → failed (.dataPulse d))
      ∧ (∀ g, g < 875 ∨ (1500 < g ∧ g < 3000) → s.lif.lineState = .receiving → failed (.edge g))
      ∧ (∀ bits, parseFrame bits = .receiveError → frameArrives bits s = true → failed (.badFrame bits))

/-- R101, R132, R135, R136, R138: in IDLE the oldest READY entry is sent and becomes IN_FLIGHT; a ONE of its arbitration
field that reads back as ZERO returns it to READY with its attempts unchanged, and the bits read so far, the losing one
included, begin the frame received; after its last bit a NOTICE waits for its acknowledgement, and an ANNOUNCE for its
end of data. The frame goes out as a SOF of 2T dominant and 1T recessive and then its bits: 0.25T dominant and 0.75T
recessive for a ONE, 0.75T and 0.25T for a ZERO (R128). -/
def Obligations.NoticeFramesAreSentOrLoseArbitration : Prop :=
  ∀ (before after : List NoticeEntry) (e : NoticeEntry) (s : State), s.nq = before ++ e :: after →
    (s.lif.lineState = .idle → (∀ x ∈ s.nq, isInFlight x = false) → (∀ x ∈ before, x.state ≠ .ready) →
        e.state = .ready →
        let sent : State :=
          { s with
            nq := before ++ { e with state := .inFlight false } :: after
            lif :=
              { lineState := .sending, bitPeriod := s.lif.bitPeriod, rxBits := []
                txBytes := noticeFrame e.notice, txPos := 0 } }
        exec .sendNotice s = .next sent
          ∧ drivenPulses sent = (2000, 1000) :: (bytesBits (noticeFrame e.notice)).map fun bit =>
            if bit = true then (250, 750) else (750, 250))
      ∧ (∀ pos : Fin 11, s.lif.lineState = .sending → (∀ x ∈ before, isInFlight x = false) →
        e.state = .inFlight false → (bytesBits s.lif.txBytes)[pos.val]? = some true →
        exec (.arbitrationLoss pos) s = .next
          { s with
            nq := before ++ { e with state := .ready } :: after
            lif :=
              { lineState := .receiving, bitPeriod := s.lif.bitPeriod
                rxBits := (bytesBits s.lif.txBytes).take pos.val ++ [false], txBytes := [], txPos := 0 } })
      ∧ (s.lif.lineState = .sending → (∀ x ∈ before, isInFlight x = false) → isInFlight e = true →
        ∀ n seq msg, e.notice = .toNode n seq msg →
        exec .noticeFrameSent s = .next
          { s with lif := { s.lif with lineState := .awaitAck, txPos := 8 * s.lif.txBytes.length } })
      ∧ (s.lif.lineState = .sending → (∀ x ∈ before, isInFlight x = false) → isInFlight e = true →
        ∀ epoch, e.notice = .announce epoch → exec .noticeFrameSent s = .next (lineIn .trailing s))

/-- R102, R103, R137, R138, R165: a bit error other than arbitration loss, the close of the reply window, a reply that is
no acknowledgement (other than sixteen bits, or another marker), one under a bad check and one with a wrong sequence
each count one failure: the entry backs off for the notice back-off, and at the third it is removed with NOTICE_FAILED
set. The holding, the recall target and the addressee's lease stand. (Where the entry that the third frees is wanted by
no one.) -/
def Obligations.FailedAttemptsAreCounted : Prop :=
  ∀ (before after : List NoticeEntry) (e : NoticeEntry) (s : State), s.nq = before ++ e :: after →
    (∀ x ∈ before, isInFlight x = false) → e.state = .inFlight false → e.attempts + 1 < 3 ∨ noOneServed s →
    let failed := fun c : Instr =>
      exec c s = .next
        (if e.attempts + 1 < 3 then
          { lineIn .trailing s with
            nq := before
              ++ { e with
                    attempts := e.attempts + 1
                    state := .backoff (s.dlu.noticeClock + BitVec.ofNat 32 s.dlu.noticeBackoff) } :: after }
        else flagged 0x010#11 { lineIn .trailing s with nq := before ++ after })
    (s.lif.lineState = .sending →
        failed (.bitError .badSymbol)
          ∧ ∀ pos bit, (bytesBits s.lif.txBytes)[pos]? = some bit → bit = false ∨ 11 ≤ pos →
            failed (.bitError (.inverted pos)))
      ∧ (s.lif.lineState = .awaitAck →
        failed .noReply ∧ failed (.notAnAcknowledgement .earlyEdge) ∧ failed (.notAnAcknowledgement .brokenBits))
      ∧ ∀ n seq msg frameCheck, s.lif.lineState = .awaitAck → e.notice = .toNode n seq msg →
        s.lif.txBytes.getLast? = some frameCheck →
        (∀ first rest, (first :: rest).length ≠ 16 → failed (.notAnAcknowledgement (.bits first rest)))
          ∧ (∀ (marker : BitVec 4) (low : BitVec 4) (first : Bool) (rest : List Bool), marker ≠ 0b0101#4 →
              first :: rest = bytesBits [marker ++ low, crc8 [frameCheck, marker ++ low]] →
              failed (.notAnAcknowledgement (.bits first rest)))
          ∧ (∀ ack check : Byte, check ≠ crc8 [frameCheck, ack] → failed (.badCheckByte ⟨ack, check⟩))
          ∧ (∀ a : AckReply, ∀ (refuse : Bool) (echo : BitVec 3), echo ≠ seq → a = goodAck frameCheck refuse echo →
              failed (.ackWrongSequence a))

/-- R42, R104, R105, R138: an acknowledgement of a notice renews its addressee's lease and removes the entry, and the
end of data of an ANNOUNCE removes its entry and renews no lease. A REFUSE of GRANTED also hands the holding back, where
the addressee still holds the resource under the token of the notice. (Where what is freed is wanted by no one.) That
ANNOUNCE_DELIVERED is taken in SENDING as well as in TRAILING is the model's choice (log 14). Where no resource is
deferred, the freed entry goes to the first PENDING target of the oldest running recall that has one: a RECALL notice is
queued for it, and it is NOTIFIED (R69, R100). -/
def Obligations.AcknowledgedNoticesAreDelivered : Prop :=
  ∀ (before after : List NoticeEntry) (e : NoticeEntry) (s : State), s.nq = before ++ e :: after →
    (∀ x ∈ before, isInFlight x = false) → e.state = .inFlight false →
    let delivered := fun n : NodeId =>
      { lineIn .trailing s with
        nq := before ++ after
        nodes := tset s.nodes n { node n s with session := renewedSession s.dlu.leaseClock (node n s) } }
    (∀ epoch, noOneServed s → e.notice = .announce epoch → s.lif.lineState = .sending ∨ s.lif.lineState = .trailing →
        exec .announceDelivered s = .next { lineIn .trailing s with nq := before ++ after })
      ∧ (∀ n seq msg frameCheck k q id older newer left x right, e.notice = .toNode n seq msg →
        s.lif.lineState = .awaitAck → s.lif.txBytes.getLast? = some frameCheck → s.dir.deferred = [] →
        s.nq.length ≤ 16 → s.rct.startOrder = older ++ k :: newer →
        (∀ j ∈ older, ∀ p, recallAt j s = some p → ∀ y ∈ p.targets, y.status ≠ .pending) →
        recallAt k s = some q → q.targets = left ++ x :: right → (∀ y ∈ left, y.status ≠ .pending) →
        x.status = .pending → (∀ y ∈ left ++ right, y.node ≠ x.node) → slotId q.slot s = some id →
        exec (.accept (goodAck frameCheck false seq)) s = .next
          { delivered n with
            nq := before ++ after ++ [queuedEntry x.node (.askBack id x.token) s]
            rct :=
              { s.rct with
                slots := tset s.rct.slots k
                  (some { q with targets := left ++ { x with status := .notified } :: right }) }
            nodes := tset (delivered n).nodes x.node
              { node x.node (delivered n) with noticeSeq := (node x.node s).noticeSeq + 1 } })
      ∧ ∀ n seq msg frameCheck, noOneServed s → e.notice = .toNode n seq msg → s.lif.lineState = .awaitAck →
        s.lif.txBytes.getLast? = some frameCheck →
        let delivered := delivered n
        exec (.accept (goodAck frameCheck false seq)) s = .next delivered
          ∧ ((∀ id token, msg ≠ .granted id token) →
              exec (.refuse (goodAck frameCheck true seq)) s = .next delivered)
          ∧ ∀ id token, msg = .granted id token →
            ((lookup id s = none ∨ (∃ i x, lookup id s = some (i, x) ∧ ∀ h ∈ x.holders, h.node = n → h.token ≠ token)) →
                exec (.refuse (goodAck frameCheck true seq)) s = .next delivered)
              ∧ ∀ i x h left right, lookup id s = some (i, x) → x.holders = left ++ h :: right → h.node = n →
                h.token = token → (∀ y ∈ left, y.node ≠ n) → x.life = .opened → x.queue = [] →
                x.recallSlot = none →
                exec (.refuse (goodAck frameCheck true seq)) s = .next
                  { delivered with
                    freeHoldings := s.freeHoldings + 1
                    dir := { s.dir with slots := tset s.dir.slots i (some { x with holders := left ++ right }) }
                    nodes := tset s.nodes n
                      { node n s with
                        session := renewedSession s.dlu.leaseClock (node n s)
                        heldCount := (node n s).heldCount - 1 } }

/-- R106: an entry marked for discard is removed when its attempt ends, whatever the outcome: arbitration loss, a bit
error, no reply, a reply that is no acknowledgement, one under a bad check, one with a wrong sequence, ACCEPT, REFUSE, the
end of data of an ANNOUNCE, or a line hold. No attempt is counted, no lease is renewed, no holding is handed back and no
flag but that of a line hold is set. (Where the entry freed is wanted by no one; a line hold, where no expiry of the
present step is still to be taken: log 5.) -/
def Obligations.DiscardedEntriesLeaveNoTrace : Prop :=
  ∀ (before after : List NoticeEntry) (e : NoticeEntry) (s : State), s.nq = before ++ e :: after →
    (∀ x ∈ before, isInFlight x = false) → e.state = .inFlight true → noOneServed s →
    let removed := fun c : Instr => exec c s = .next { lineIn .trailing s with nq := before ++ after }
    (s.lif.lineState = .sending →
        removed (.bitError .badSymbol)
          ∧ ∀ pos bit, (bytesBits s.lif.txBytes)[pos]? = some bit → bit = false ∨ 11 ≤ pos →
            removed (.bitError (.inverted pos)))
      ∧ (∀ pos : Fin 11, s.lif.lineState = .sending → (bytesBits s.lif.txBytes)[pos.val]? = some true →
        exec (.arbitrationLoss pos) s = .next
          { lineIn .receiving s with
            nq := before ++ after
            lif :=
              { lineState := .receiving, bitPeriod := s.lif.bitPeriod
                rxBits := (bytesBits s.lif.txBytes).take pos.val ++ [false], txBytes := [], txPos := 0 } })
      ∧ (s.lif.lineState = .awaitAck →
        removed .noReply ∧ removed (.notAnAcknowledgement .earlyEdge) ∧ removed (.notAnAcknowledgement .brokenBits))
      ∧ (∀ n seq msg frameCheck, s.lif.lineState = .awaitAck → e.notice = .toNode n seq msg →
        s.lif.txBytes.getLast? = some frameCheck →
        removed (.accept (goodAck frameCheck false seq)) ∧ removed (.refuse (goodAck frameCheck true seq))
          ∧ (∀ first rest, (first :: rest).length ≠ 16 → removed (.notAnAcknowledgement (.bits first rest)))
          ∧ (∀ (marker : BitVec 4) (low : BitVec 4) (first : Bool) (rest : List Bool), marker ≠ 0b0101#4 →
              first :: rest = bytesBits [marker ++ low, crc8 [frameCheck, marker ++ low]] →
              removed (.notAnAcknowledgement (.bits first rest)))
          ∧ (∀ ack check : Byte, check ≠ crc8 [frameCheck, ack] → removed (.badCheckByte ⟨ack, check⟩))
          ∧ ∀ (refuse : Bool) (echo : BitVec 3), echo ≠ seq →
            removed (.ackWrongSequence (goodAck frameCheck refuse echo)))
      ∧ (∀ epoch, e.notice = .announce epoch → s.lif.lineState = .trailing → removed .announceDelivered)
      ∧ ((∀ x, expiryReached x s = false) →
        exec .lineHold s = .next (flagged 0x040#11 { lineIn .held s with nq := before ++ after }))

/-- R86, R139, R140, R146: a line hold makes the line state HELD and sets LINE_HELD, and an entry IN_FLIGHT returns to
READY with its attempts unchanged; the release makes the line state IDLE, sets LINE_RELEASED, and gives every ACTIVE
lease with less than 100 ms remaining a deadline 100 ms ahead. Nothing else changes. (At a hold, where no expiry of the
present step is still to be taken: log 5. That a hold taken while HELD sets LINE_HELD again is the model's reading:
log 13.) -/
def Obligations.LineHoldAndReleaseKeepTheRest : Prop :=
  ∀ s : State,
    ((∀ x, expiryReached x s = false) → (∀ e ∈ s.nq, isInFlight e = false) →
        exec .lineHold s = .next (flagged 0x040#11 (lineIn .held s)))
      ∧ (∀ before after e, (∀ x, expiryReached x s = false) → s.nq = before ++ e :: after →
        (∀ x ∈ before, isInFlight x = false) → e.state = .inFlight false →
        exec .lineHold s = .next
          (flagged 0x040#11 { lineIn .held s with nq := before ++ { e with state := .ready } :: after }))
      ∧ (s.lif.lineState = .held →
        ∃ nodes, exec .lineRelease s = .next (flagged 0x080#11 { lineIn .idle s with nodes := nodes })
          ∧ ∀ n, tget nodes n =
            { node n s with
              session := match (node n s).session with
                | .active d =>
                  if (d - s.dlu.leaseClock).toNat < 100 then .active (s.dlu.leaseClock + 100) else .active d
                | .absent => .absent
                | .lapsed => .lapsed })

/-! ### The supervisor -/

/-- R13: PROVISION fails with BAD_ARGUMENT, DUPLICATE or DIRECTORY_FULL, by the first check that applies, and changes
nothing else; otherwise the lowest-numbered UNUSED slot becomes OPEN with the values given, and its number is the
result. -/
def Obligations.ProvisionOpensTheLowestSlot : Prop :=
  ∀ (a0 a1 a2 a3 : Word) (s : State), running 0x0001 a0 a1 a2 a3 s →
    let fails := fun code : Word =>
      exec .provision s = .next (completedWith .failed #v[code, 0, 0, 0, 0, 0, 0] s)
    let good := a0 ≠ 0x0000#16 ∧ a0 ≠ 0xFFFF#16 ∧ 1 ≤ a1.toNat ∧ a1.toNat ≤ 8 ∧ (a2 = 1#16 ∨ a2 = 2#16)
    (¬ good → fails 4)
      ∧ (good → lookup a0 s ≠ none → fails 1)
      ∧ (good → lookup a0 s = none → (∀ i, slot i s ≠ none) → fails 2)
      ∧ ∀ i, good → lookup a0 s = none → slot i s = none → (∀ j < i, slot j s ≠ none) →
        exec .provision s = .next
          (completedWith .done #v[0, BitVec.ofNat 16 i.val, 0, 0, 0, 0, 0]
            { s with
              dir :=
                { s.dir with
                  slots := tset s.dir.slots i
                    (some
                      { id := a0, life := .opened, shareLimit := a1.toNat, recallable := decide (a2 = 2#16)
                        holders := [], queue := [], recallSlot := none }) } })

/-- R91: SET_NODE fails with BAD_ARGUMENT or NODE_BUSY, by the first check that applies, and changes nothing else;
otherwise it writes the admission, the lease term and the quota of the node, and nothing else of it. -/
def Obligations.SetNodeWritesTheParameters : Prop :=
  ∀ (a0 a1 a2 a3 : Word) (s : State), running 0x0004 a0 a1 a2 a3 s →
    let fails := fun code : Word =>
      exec .setNode s = .next (completedWith .failed #v[code, 0, 0, 0, 0, 0, 0] s)
    let good := 1 ≤ a0.toNat ∧ a0.toNat ≤ 30 ∧ (a1 = 1#16 ∨ a1 = 2#16) ∧ 1 ≤ a2.toNat ∧ a2.toNat ≤ 255
      ∧ 1 ≤ a3.toNat ∧ a3.toNat ≤ 32
    (¬ good → fails 4)
      ∧ ∀ n, good → a0.toNat = nodeNumber n →
        ((node n s).session ≠ .absent → fails 5)
          ∧ ((node n s).session = .absent →
            exec .setNode s = .next
              (completedWith .done (Vector.replicate 7 0)
                { s with
                  nodes := tset s.nodes n
                    { node n s with
                      admission := if a1 = 1#16 then .admitted else .barred
                      leaseTerm := a2.toNat, quota := a3.toNat } }))

/-- R148: SET_TIMING with a value outside 1 to 255 fails with BAD_ARGUMENT and changes neither parameter; otherwise both
are written. It is taken halted or not, held or not; no deadline moves, no clock stops and no notice is queued. A recall
that starts and a failure that is counted after it use the new values. -/
def Obligations.SetTimingWritesBothParameters : Prop :=
  ∀ (a0 a1 a2 a3 : Word) (s : State), running 0x000B a0 a1 a2 a3 s →
    let good := 1 ≤ a0.toNat ∧ a0.toNat ≤ 255 ∧ 1 ≤ a1.toNat ∧ a1.toNat ≤ 255
    let written : State :=
      completedWith .done (Vector.replicate 7 0)
        { s with dlu := { s.dlu with recallTimeout := a0.toNat, noticeBackoff := a1.toNat } }
    (¬ good → exec .setTiming s = .next (completedWith .failed #v[4, 0, 0, 0, 0, 0, 0] s))
      ∧ (good → exec .setTiming s = .next written)
      ∧ (∀ i e w, (newRecall i e w written).deadline = s.dlu.holdClock + BitVec.ofNat 32 (10 * a0.toNat))
      ∧ (∀ place e, e.attempts + 1 < 3 →
          (countFailure place e written).nq = s.nq.set place
            { e with
              attempts := e.attempts + 1
              state := .backoff (s.dlu.noticeClock + BitVec.ofNat 32 a1.toNat) })

/-- R14: RETIRE of an OPEN entry makes it RETIRING, without waits, recall or place on either list, and with its holdings,
their modes and their tokens, or frees the slot at once with RESOURCE_FREED set when there are none. Other entries stay
as they were provisioned, and no node's record changes but for its counts and its notice sequence. Of a RETIRING entry
it changes nothing; it fails with BAD_ARGUMENT or NO_RESOURCE. -/
def Obligations.RetireKeepsTheHoldings : Prop :=
  ∀ (a0 a1 a2 a3 : Word) (s : State), running 0x0002 a0 a1 a2 a3 s →
    let fails := fun code : Word =>
      exec .retire s = .next (completedWith .failed #v[code, 0, 0, 0, 0, 0, 0] s)
    (a0 = 0x0000#16 ∨ a0 = 0xFFFF#16 → fails 4)
      ∧ (a0 ≠ 0x0000#16 → a0 ≠ 0xFFFF#16 → lookup a0 s = none → fails 3)
      ∧ ∀ i e, a0 ≠ 0x0000#16 → a0 ≠ 0xFFFF#16 → lookup a0 s = some (i, e) →
        (e.life = .retiring → exec .retire s = .next (completedWith .done (Vector.replicate 7 0) s))
          ∧ (e.life = .opened → ∃ t, exec .retire s = .next t
            ∧ (e.holders = [] → slot i t = none ∧ flagSet .resourceFreed t = true)
            ∧ (e.holders ≠ [] → ∃ e', slot i t = some e' ∧ e'.id = e.id ∧ e'.life = .retiring ∧ e'.queue = []
                ∧ e'.recallSlot = none ∧ e'.shareLimit = e.shareLimit ∧ e'.recallable = e.recallable
                ∧ e'.holders.map (fun h => (h.node, h.mode, h.token))
                  = e.holders.map (fun h => (h.node, h.mode, h.token)))
            ∧ isDeferred i t = false ∧ isRecallPending i t = false
            ∧ (∀ j, j ≠ i → (slot j s = none → slot j t = none)
                ∧ ∀ x, slot j s = some x → ∃ x', slot j t = some x' ∧ x'.id = x.id ∧ x'.life = x.life
                  ∧ x'.shareLimit = x.shareLimit ∧ x'.recallable = x.recallable)
            ∧ (∀ n, keepsRecord (node n s) (node n t)) ∧ t.dlu = s.dlu ∧ t.dir.epoch = s.dir.epoch
            ∧ t.lif = s.lif ∧ t.svp.halted = s.svp.halted ∧ t.svp.cmdState = .done
            ∧ t.svp.results = Vector.replicate 7 0 ∧ flagSet .cmdDone t = true)
          ∧ (e.life = .opened → e.queue = [] → e.recallSlot = none → i ∉ s.dir.deferred → i ∉ s.rct.startList →
            e.holders ≠ [] →
            exec .retire s = .next
              (completedWith .done (Vector.replicate 7 0)
                { s with dir := { s.dir with slots := tset s.dir.slots i (some { e with life := .retiring }) } }))

/-- R16: WITHDRAW of an entry, OPEN or RETIRING, frees its slot with RESOURCE_FREED set and takes it off both lists. Every
holding is revoked: its node's revocation count goes up by one, to at most 255, and REVOCATION is set. The count of a
node that neither holds nor awaits the resource stands. Sessions, epochs, parameters and reply memories stand, and other
entries stay as they were provisioned. It fails with BAD_ARGUMENT or NO_RESOURCE. -/
def Obligations.WithdrawRevokesTheHoldings : Prop :=
  ∀ (a0 a1 a2 a3 : Word) (s : State), membersDistinct s → running 0x0003 a0 a1 a2 a3 s →
    let fails := fun code : Word =>
      exec .withdraw s = .next (completedWith .failed #v[code, 0, 0, 0, 0, 0, 0] s)
    (a0 = 0x0000#16 ∨ a0 = 0xFFFF#16 → fails 4)
      ∧ (a0 ≠ 0x0000#16 → a0 ≠ 0xFFFF#16 → lookup a0 s = none → fails 3)
      ∧ ∀ i e, a0 ≠ 0x0000#16 → a0 ≠ 0xFFFF#16 → lookup a0 s = some (i, e) →
        ∃ t, exec .withdraw s = .next t ∧ slot i t = none ∧ isDeferred i t = false ∧ isRecallPending i t = false
          ∧ flagSet .resourceFreed t = true
          ∧ (∀ n, holds n i s = true →
              (node n t).revocationCount = min ((node n s).revocationCount + 1) 255 ∧ flagSet .revocation t = true)
          ∧ (∀ n, holds n i s = false → waits n i s = false →
              (node n t).revocationCount = (node n s).revocationCount)
          ∧ (∀ n, keepsRecord { node n s with revocationCount := (node n t).revocationCount } (node n t))
          ∧ (∀ j, j ≠ i → (slot j s = none → slot j t = none)
              ∧ ∀ x, slot j s = some x → ∃ x', slot j t = some x' ∧ x'.id = x.id ∧ x'.life = x.life
                ∧ x'.shareLimit = x.shareLimit ∧ x'.recallable = x.recallable)
          ∧ t.dlu = s.dlu ∧ t.dir.epoch = s.dir.epoch ∧ t.lif = s.lif ∧ t.svp.halted = s.svp.halted
          ∧ t.svp.cmdState = .done ∧ t.svp.results = Vector.replicate 7 0 ∧ flagSet .cmdDone t = true

/-- R19, R95, R156, R157: the five reads give the results that section 11.5 lays out, or fail with BAD_ARGUMENT or
NO_RESOURCE, the resource id being checked before the index; a read changes nothing but the mailbox. (A deadline that the
clock has reached and whose expiry is still to be taken reads as 1 ms: log 7.) R150, R151, R161, R166: a register read
returns IDENT, STATUS with the command state, the halted flag and the line state, the code last started, the arguments,
the results, the flags and the enables; on a read SDO carries the register's 16 bits, most significant first, then 0, and
0 throughout when the control byte is not good; and ATTN is asserted exactly while a flag is set whose enable is set. -/
def Obligations.ReadsReportTheState : Prop :=
  ∀ (a0 a1 a2 a3 : Word) (s : State),
    let fails := fun (c : Instr) (code : Word) =>
      exec c s = .next (completedWith .failed #v[code, 0, 0, 0, 0, 0, 0] s)
    let gives := fun (c : Instr) (results : Vector Word 7) => exec c s = .next (completedWith .done results s)
    let mode := fun m : Mode => if m = .shared then 1#16 else 2#16
    (running 0x0006 a0 a1 a2 a3 s →
        (a0 = 0x0000#16 ∨ a0 = 0xFFFF#16 → fails .readResource 4)
          ∧ (a0 ≠ 0x0000#16 → a0 ≠ 0xFFFF#16 → lookup a0 s = none → fails .readResource 3)
          ∧ ∀ i e, a0 ≠ 0x0000#16 → a0 ≠ 0xFFFF#16 → lookup a0 s = some (i, e) →
            gives .readResource
              #v[0, BitVec.ofNat 16 i.val,
                BitVec.ofNat 16
                  (e.shareLimit % 16
                    + 16 * (if e.holders = [] then 0
                      else if e.holders.all (fun h => h.mode = .shared) then 1 else 2)
                    + (if e.life = .retiring then 64 else 0) + (if e.recallable = true then 128 else 0)
                    + (if e.recallSlot.isSome = true then 256 else 0) + (if isDeferred i s = true then 512 else 0)
                    + (if isRecallPending i s = true then 1024 else 0)),
                (match e.recallSlot with
                  | none => 0
                  | some k => BitVec.ofNat 16 k.val),
                BitVec.ofNat 16 e.holders.length, BitVec.ofNat 16 e.queue.length, 0])
      ∧ (running 0x0007 a0 a1 a2 a3 s →
        (a0 = 0x0000#16 ∨ a0 = 0xFFFF#16 → fails .readHolder 4)
          ∧ (a0 ≠ 0x0000#16 → a0 ≠ 0xFFFF#16 → lookup a0 s = none → fails .readHolder 3)
          ∧ ∀ i e, a0 ≠ 0x0000#16 → a0 ≠ 0xFFFF#16 → lookup a0 s = some (i, e) →
            (a1.toNat = 0 ∨ e.holders.length < a1.toNat → fails .readHolder 4)
              ∧ ∀ h before after, e.holders = before ++ h :: after → a1.toNat = before.length + 1 →
                gives .readHolder
                  #v[0, BitVec.ofNat 16 (nodeNumber h.node), mode h.mode, (h.token.extractLsb' 16 8).setWidth 16,
                    h.token.extractLsb' 0 16, if h.recallTarget = true then 1 else 0, 0])
      ∧ (running 0x0008 a0 a1 a2 a3 s →
        (a0 = 0x0000#16 ∨ a0 = 0xFFFF#16 → fails .readWait 4)
          ∧ (a0 ≠ 0x0000#16 → a0 ≠ 0xFFFF#16 → lookup a0 s = none → fails .readWait 3)
          ∧ ∀ i e, a0 ≠ 0x0000#16 → a0 ≠ 0xFFFF#16 → lookup a0 s = some (i, e) →
            (a1.toNat = 0 ∨ e.queue.length < a1.toNat → fails .readWait 4)
              ∧ ∀ w before after, e.queue = before ++ w :: after → a1.toNat = before.length + 1 →
                gives .readWait
                  #v[0, BitVec.ofNat 16 (nodeNumber w.node), mode w.mode,
                    if w.deadline = s.dlu.holdClock then 1 else (w.deadline - s.dlu.holdClock).setWidth 16, 0, 0, 0])
      ∧ (running 0x0009 a0 a1 a2 a3 s →
        (a0.toNat = 0 ∨ 30 < a0.toNat → fails .readNode 4)
          ∧ ∀ n, a0.toNat = nodeNumber n →
            gives .readNode
              #v[0,
                BitVec.ofNat 16
                  ((match (node n s).session with
                      | .absent => 0
                      | .active _ => 1
                      | .lapsed => 2)
                    + (if (node n s).admission = .barred then 4 else 0)
                    + 8 * (match (node n s).reply with
                      | .empty => 0
                      | .stored _ _ _ _ => 1
                      | .closed => 2)
                    + 256 * (node n s).noticeSeq.toNat + 4096 * (node n s).epoch.toNat),
                BitVec.ofNat 16 ((node n s).leaseTerm + 256 * (node n s).quota),
                BitVec.ofNat 16 ((node n s).heldCount + 256 * (node n s).waitCount),
                BitVec.ofNat 16 (node n s).revocationCount,
                (match (node n s).session with
                  | .active d => if d = s.dlu.leaseClock then 1 else (d - s.dlu.leaseClock).setWidth 16
                  | .absent => 0
                  | .lapsed => 0), 0])
      ∧ (running 0x000A a0 a1 a2 a3 s →
        gives .readPools
          #v[0, BitVec.ofNat 16 s.freeHoldings, BitVec.ofNat 16 s.freeWaits, BitVec.ofNat 16 (16 - s.nq.length),
            BitVec.ofNat 16 ((List.finRange 8).countP fun k => (recallAt k s).isNone),
            BitVec.ofNat 16 s.dir.deferred.length, BitVec.ofNat 16 s.rct.startList.length])
      ∧ (readRegister 0x0 s = 0xC321#16
        ∧ (readRegister 0x1 s).extractLsb' 0 2
            = (match s.svp.cmdState with
              | .idle => 0
              | .running => 1
              | .done => 2
              | .failed => 3)
        ∧ (readRegister 0x1 s).getLsbD 2 = s.svp.halted
        ∧ (readRegister 0x1 s).extractLsb' 3 3
            = (match s.lif.lineState with
              | .idle => 0
              | .receiving => 1
              | .ignoring => 2
              | .replying => 3
              | .sending => 4
              | .awaitAck => 5
              | .trailing => 6
              | .held => 7)
        ∧ (readRegister 0x1 s).extractLsb' 6 10 = 0#10
        ∧ readRegister 0x2 s = s.svp.command
        ∧ (∀ (k : Fin 4) (address : BitVec 4), address.toNat = 3 + k.val → readRegister address s = tget s.svp.args k)
        ∧ (∀ (k : Fin 7) (address : BitVec 4), address.toNat = 7 + k.val →
            readRegister address s = tget s.svp.results k)
        ∧ (∀ k, (readRegister 0xE s).getLsbD k = s.svp.flags.getLsbD k)
        ∧ (∀ k, (readRegister 0xF s).getLsbD k = s.svp.enables.getLsbD k))
      ∧ (∀ (access : Nat) (address : BitVec 4) (z2 z1 z0 : Bool) (rest : List Bool) (k : Nat), k < rest.length →
        (sdoBits access
            ([false, z2, z1, z0, address.getLsbD 3, address.getLsbD 2, address.getLsbD 1, address.getLsbD 0] ++ rest)
            s)[8 + k]?
          = some (!(z2 || z1 || z0) && decide (k < 16) && (readRegister address s).getLsbD (15 - k)))
      ∧ (attn s = true ↔ ∃ f : Flag, flagSet f s = true ∧ s.svp.enables.getLsbD (flagBit f) = true)

/-- R17, R75, R94, R109, R162: CLEAR_CLAIMS leaves every OPEN entry with its provisioning and without claims, frees every
RETIRING one, with RESOURCE_FREED set if there was one, returns every record to its pool, frees every recall slot,
empties both lists, makes every node ABSENT with its CLEAR_CLAIMS values, raises the directory epoch by one, and leaves
in the Notice Queue an IN_FLIGHT entry marked for discard and the ANNOUNCE of the new epoch. All else is kept. -/
def Obligations.ClearClaimsKeepsProvisioning : Prop :=
  ∀ (a0 a1 a2 a3 : Word) (s : State), running 0x000C a0 a1 a2 a3 s →
    ∃ (slots : Vector (Option Entry) 256) (nodes : Vector NodeRecord 30),
      (∀ i, tget slots i = (slot i s).bind fun e =>
          if e.life = .opened then some { e with holders := [], queue := [], recallSlot := none } else none)
        ∧ (∀ n, tget nodes n =
            { node n s with
              session := .absent, heldCount := 0, waitCount := 0, revocationCount := 0, noticeSeq := 0
              reply := .empty })
        ∧ let cleared : State :=
            { s with
              nodes := nodes
              dir := { s.dir with slots := slots, deferred := [], epoch := s.dir.epoch + 1 }
              freeHoldings := 384
              freeWaits := 64
              rct := { slots := Vector.replicate 8 none, startOrder := [], startList := [] }
              nq := ((s.nq.filter isInFlight).map fun e => { e with state := .inFlight true })
                ++ [{ notice := .announce (s.dir.epoch + 1), attempts := 0, state := .ready }] }
          ((∃ i e, slot i s = some e ∧ e.life = .retiring) →
              exec .clearClaims s
                = .next (completedWith .done (Vector.replicate 7 0) (flagged 0x100#11 cleared)))
            ∧ ((∀ i e, slot i s = some e → e.life = .opened) →
              exec .clearClaims s = .next (completedWith .done (Vector.replicate 7 0) cleared))

/-- R158, R159: HALT sets the halted flag, and RESUME clears it and serves every queue: no OPEN entry is left with a
grantable head that is neither granted nor deferred. HALT of a halted part and RESUME of a running one change nothing,
and a RESUME that finds no queue changes the flag alone. (HALT, where no expiry of the present step is still to be
taken: log 5.) -/
def Obligations.HaltAndResume : Prop :=
  ∀ (a0 a1 a2 a3 : Word) (s : State),
    let doneIn := fun (c : Instr) (u : State) => exec c s = .next (completedWith .done (Vector.replicate 7 0) u)
    (running 0x000D a0 a1 a2 a3 s → s.svp.halted = true → doneIn .halt s)
      ∧ (running 0x000D a0 a1 a2 a3 s → s.svp.halted = false → (∀ x, expiryReached x s = false) →
        doneIn .halt { s with svp := { s.svp with halted := true } })
      ∧ (running 0x000E a0 a1 a2 a3 s → s.svp.halted = false → doneIn .resume s)
      ∧ (running 0x000E a0 a1 a2 a3 s → s.svp.halted = true → s.dir.deferred = [] → s.rct.startList = [] →
        (∀ i e, slot i s = some e → e.queue = []) →
        doneIn .resume { s with svp := { s.svp with halted := false } })
      ∧ (running 0x000E a0 a1 a2 a3 s → s.svp.halted = true →
        ∃ t, exec .resume s = .next t ∧ t.svp.halted = false ∧ headsServed t ∧ keepsEntries s t
          ∧ (∀ n, keepsRecord (node n s) (node n t)) ∧ t.dlu = s.dlu ∧ t.dir.epoch = s.dir.epoch ∧ t.lif = s.lif
          ∧ t.svp.cmdState = .done ∧ t.svp.results = Vector.replicate 7 0 ∧ flagSet .cmdDone t = true)

/-- R153: a write to COMMAND while a command is RUNNING sets CMD_REFUSED and changes nothing else, whatever the code; once
the command has completed, a write of one of the fourteen codes starts a command with the arguments as they stand. -/
def Obligations.CommandWritesWhileRunningAreRefused : Prop :=
  ∀ (code : Word) (s : State),
    (s.svp.cmdState = .running →
        exec (.commandWrite code) s = .next (flagged 0x002#11 s)
          ∧ exec (.cmdRefused code) s = .next (flagged 0x002#11 s))
      ∧ (s.svp.cmdState ≠ .running → 1 ≤ code.toNat → code.toNat ≤ 14 →
        let started : State :=
          { s with svp := { s.svp with cmdState := .running, command := code, captured := s.svp.args } }
        exec (.commandWrite code) s = .next started)

/-- R155, R166: the write to COMMAND of a code that names no command starts a command that completes at once, with FAILED,
the result code BAD_COMMAND and CMD_DONE set; COMMAND reads the code back. While another command is RUNNING the write is
refused as any other. (That the row BAD_COMMAND is this write is the model's reading: log 9.) -/
def Obligations.UnknownCommandsFail : Prop :=
  ∀ (code : Word) (s : State), code.toNat = 0 ∨ 14 < code.toNat →
    (s.svp.cmdState ≠ .running →
        let failed := completedWith .failed #v[6, 0, 0, 0, 0, 0, 0]
          { s with svp := { s.svp with command := code, captured := s.svp.args } }
        exec (.badCommand code) s = .next failed ∧ exec (.commandWrite code) s = .next failed
          ∧ readRegister 0x2 failed = code)
      ∧ (s.svp.cmdState = .running → exec (.badCommand code) s = .next (flagged 0x002#11 s))

/-- R150, R151, R160, R161: an SPI access of 24 bits or more that writes a register acts as that register's write;
FLAGS is cleared bit by bit where 1 is written, ENABLE is replaced, ARG0 to ARG3 are replaced, and a read-only register
ignores the write. A shorter access, a control byte with a must-be-zero bit set, and a read change nothing. -/
def Obligations.RegisterWritesReachTheirRegister : Prop :=
  ∀ (address : BitVec 4) (data : Word) (extra : List Bool) (s : State),
    let bits := fun (write z2 z1 z0 : Bool) =>
      [write, z2, z1, z0, address.getLsbD 3, address.getLsbD 2, address.getLsbD 1, address.getLsbD 0]
        ++ (List.range 16).map fun k => data.getLsbD (15 - k)
    let makes := fun (b : List Bool) (o : Host.Outcome State Fault Refusal) => exec (.registerWrite ⟨b⟩) s = o
    exec (.flagsWrite data) s = .next { s with svp := { s.svp with flags := s.svp.flags &&& ~~~data.setWidth 11 } }
      ∧ exec (.enableWrite data) s = .next { s with svp := { s.svp with enables := data.setWidth 11 } }
      ∧ (address = 0x2#4 → makes (bits true false false false ++ extra) (exec (.commandWrite data) s))
      ∧ (∀ k : Fin 4, address.toNat = 3 + k.val →
          makes (bits true false false false ++ extra)
            (.next { s with svp := { s.svp with args := tset s.svp.args k data } }))
      ∧ (address = 0xE#4 → makes (bits true false false false ++ extra) (exec (.flagsWrite data) s))
      ∧ (address = 0xF#4 → makes (bits true false false false ++ extra) (exec (.enableWrite data) s))
      ∧ (address.toNat < 2 ∨ (7 ≤ address.toNat ∧ address.toNat ≤ 13) →
          makes (bits true false false false ++ extra) (.next s))
      ∧ (∀ k, k < 24 → makes ((bits true false false false).take k) (.next s))
      ∧ (∀ z2 z1 z0, (z2 || z1 || z0) = true → makes (bits true z2 z1 z0 ++ extra) (.next s))
      ∧ (∀ z2 z1 z0, makes (bits false z2 z1 z0 ++ extra) (.next s))

/-! ### Rules over every command -/

/-- R11, R142, R148, R151, R158, R160, R161: only POR and the commands named change the halted flag, the clocks, the
timing parameters, the directory epoch, the bit period, the enables, the argument registers and the command register,
and clear event flags. -/
def Obligations.SettingsChangeByTheirCommandsOnly : Prop :=
  ∀ (c : Instr) (s t : State), (∀ r l, c ≠ .por r l) → exec c s = .next t →
    (c ≠ .halt → c ≠ .resume → t.svp.halted = s.svp.halted)
      ∧ (c ≠ .timebaseStep → t.dlu.leaseClock = s.dlu.leaseClock ∧ t.dlu.holdClock = s.dlu.holdClock
          ∧ t.dlu.noticeClock = s.dlu.noticeClock)
      ∧ (c ≠ .setTiming → t.dlu.recallTimeout = s.dlu.recallTimeout ∧ t.dlu.noticeBackoff = s.dlu.noticeBackoff)
      ∧ (c ≠ .clearClaims → t.dir.epoch = s.dir.epoch)
      ∧ t.lif.bitPeriod = s.lif.bitPeriod
      ∧ ((∀ d, c ≠ .enableWrite d) → (∀ a, c ≠ .registerWrite a) → t.svp.enables = s.svp.enables)
      ∧ ((∀ d, c ≠ .flagsWrite d) → (∀ a, c ≠ .registerWrite a) → s.svp.flags &&& t.svp.flags = s.svp.flags)
      ∧ ((∀ a, c ≠ .registerWrite a) → t.svp.args = s.svp.args)
      ∧ ((∀ k, c ≠ .commandWrite k) → (∀ k, c ≠ .cmdRefused k) → (∀ k, c ≠ .badCommand k) →
          (∀ a, c ≠ .registerWrite a) → t.svp.command = s.svp.command ∧ t.svp.captured = s.svp.captured)

/-- R38, R81, R82, R90, R91, R117: a node's admission changes by POR, SET_NODE and EVICT only, its lease term and quota by
POR and SET_NODE only, and its epoch by POR and its own JOIN only; a request of one node changes no other node's
session, epoch, parameters, reply memory or count of revocations. -/
def Obligations.NodeRecordsChangeByTheirCommandsOnly : Prop :=
  ∀ (c : Instr) (n : NodeId) (s t : State), (∀ r l, c ≠ .por r l) → exec c s = .next t →
    (c ≠ .setNode → c ≠ .evict → (node n t).admission = (node n s).admission)
      ∧ (c ≠ .setNode → (node n t).leaseTerm = (node n s).leaseTerm ∧ (node n t).quota = (node n s).quota)
      ∧ ((∀ r, c = .join r → r.src ≠ n) → (node n t).epoch = (node n s).epoch)
      ∧ (∀ r : Request, r.src ≠ n → (∃ k : RequestKind, c = requestCommand k r) ∨ (∃ kind, c = .badKind kind r) →
          keepsRecord (node n s) (node n t))
end

