-- ==== Sys2Proof/Laws/State.lean ====
section
/-!
SUPPORT. What each named update of the state leaves alone, one lemma per field, true by definition; and what the
updated field becomes where later proofs need it.
-/

namespace Sys2Proof.Machine

variable (s : State)

/-! ### setFlag -/

@[simp] theorem setFlag_lif (f : Flag) : (setFlag f s).lif = s.lif := rfl
@[simp] theorem setFlag_nodes (f : Flag) : (setFlag f s).nodes = s.nodes := rfl
@[simp] theorem setFlag_dir (f : Flag) : (setFlag f s).dir = s.dir := rfl
@[simp] theorem setFlag_freeHoldings (f : Flag) : (setFlag f s).freeHoldings = s.freeHoldings := rfl
@[simp] theorem setFlag_freeWaits (f : Flag) : (setFlag f s).freeWaits = s.freeWaits := rfl
@[simp] theorem setFlag_rct (f : Flag) : (setFlag f s).rct = s.rct := rfl
@[simp] theorem setFlag_nq (f : Flag) : (setFlag f s).nq = s.nq := rfl
@[simp] theorem setFlag_dlu (f : Flag) : (setFlag f s).dlu = s.dlu := rfl
@[simp] theorem setFlag_picks (f : Flag) : (setFlag f s).picks = s.picks := rfl
@[simp] theorem setFlag_pending (f : Flag) : (setFlag f s).pending = s.pending := rfl

/-! ### clearFlags -/

@[simp] theorem clearFlags_lif (d : Word) : (clearFlags d s).lif = s.lif := rfl
@[simp] theorem clearFlags_nodes (d : Word) : (clearFlags d s).nodes = s.nodes := rfl
@[simp] theorem clearFlags_dir (d : Word) : (clearFlags d s).dir = s.dir := rfl
@[simp] theorem clearFlags_freeHoldings (d : Word) : (clearFlags d s).freeHoldings = s.freeHoldings := rfl
@[simp] theorem clearFlags_freeWaits (d : Word) : (clearFlags d s).freeWaits = s.freeWaits := rfl
@[simp] theorem clearFlags_rct (d : Word) : (clearFlags d s).rct = s.rct := rfl
@[simp] theorem clearFlags_nq (d : Word) : (clearFlags d s).nq = s.nq := rfl
@[simp] theorem clearFlags_dlu (d : Word) : (clearFlags d s).dlu = s.dlu := rfl
@[simp] theorem clearFlags_picks (d : Word) : (clearFlags d s).picks = s.picks := rfl
@[simp] theorem clearFlags_pending (d : Word) : (clearFlags d s).pending = s.pending := rfl

/-! ### writeEnables -/

@[simp] theorem writeEnables_lif (d : Word) : (writeEnables d s).lif = s.lif := rfl
@[simp] theorem writeEnables_nodes (d : Word) : (writeEnables d s).nodes = s.nodes := rfl
@[simp] theorem writeEnables_dir (d : Word) : (writeEnables d s).dir = s.dir := rfl
@[simp] theorem writeEnables_freeHoldings (d : Word) : (writeEnables d s).freeHoldings = s.freeHoldings := rfl
@[simp] theorem writeEnables_freeWaits (d : Word) : (writeEnables d s).freeWaits = s.freeWaits := rfl
@[simp] theorem writeEnables_rct (d : Word) : (writeEnables d s).rct = s.rct := rfl
@[simp] theorem writeEnables_nq (d : Word) : (writeEnables d s).nq = s.nq := rfl
@[simp] theorem writeEnables_dlu (d : Word) : (writeEnables d s).dlu = s.dlu := rfl
@[simp] theorem writeEnables_picks (d : Word) : (writeEnables d s).picks = s.picks := rfl
@[simp] theorem writeEnables_pending (d : Word) : (writeEnables d s).pending = s.pending := rfl

/-! ### modNode -/

@[simp] theorem modNode_lif (n : NodeId) (f : NodeRecord → NodeRecord) : (modNode n f s).lif = s.lif := rfl
@[simp] theorem modNode_dir (n : NodeId) (f : NodeRecord → NodeRecord) : (modNode n f s).dir = s.dir := rfl
@[simp] theorem modNode_freeHoldings (n : NodeId) (f : NodeRecord → NodeRecord) : (modNode n f s).freeHoldings = s.freeHoldings := rfl
@[simp] theorem modNode_freeWaits (n : NodeId) (f : NodeRecord → NodeRecord) : (modNode n f s).freeWaits = s.freeWaits := rfl
@[simp] theorem modNode_rct (n : NodeId) (f : NodeRecord → NodeRecord) : (modNode n f s).rct = s.rct := rfl
@[simp] theorem modNode_nq (n : NodeId) (f : NodeRecord → NodeRecord) : (modNode n f s).nq = s.nq := rfl
@[simp] theorem modNode_dlu (n : NodeId) (f : NodeRecord → NodeRecord) : (modNode n f s).dlu = s.dlu := rfl
@[simp] theorem modNode_svp (n : NodeId) (f : NodeRecord → NodeRecord) : (modNode n f s).svp = s.svp := rfl
@[simp] theorem modNode_picks (n : NodeId) (f : NodeRecord → NodeRecord) : (modNode n f s).picks = s.picks := rfl
@[simp] theorem modNode_pending (n : NodeId) (f : NodeRecord → NodeRecord) : (modNode n f s).pending = s.pending := rfl

/-! ### setSlot -/

@[simp] theorem setSlot_lif (i : SlotId) (e : Option Entry) : (setSlot i e s).lif = s.lif := rfl
@[simp] theorem setSlot_nodes (i : SlotId) (e : Option Entry) : (setSlot i e s).nodes = s.nodes := rfl
@[simp] theorem setSlot_freeHoldings (i : SlotId) (e : Option Entry) : (setSlot i e s).freeHoldings = s.freeHoldings := rfl
@[simp] theorem setSlot_freeWaits (i : SlotId) (e : Option Entry) : (setSlot i e s).freeWaits = s.freeWaits := rfl
@[simp] theorem setSlot_rct (i : SlotId) (e : Option Entry) : (setSlot i e s).rct = s.rct := rfl
@[simp] theorem setSlot_nq (i : SlotId) (e : Option Entry) : (setSlot i e s).nq = s.nq := rfl
@[simp] theorem setSlot_dlu (i : SlotId) (e : Option Entry) : (setSlot i e s).dlu = s.dlu := rfl
@[simp] theorem setSlot_svp (i : SlotId) (e : Option Entry) : (setSlot i e s).svp = s.svp := rfl
@[simp] theorem setSlot_picks (i : SlotId) (e : Option Entry) : (setSlot i e s).picks = s.picks := rfl
@[simp] theorem setSlot_pending (i : SlotId) (e : Option Entry) : (setSlot i e s).pending = s.pending := rfl

/-! ### setRecall -/

@[simp] theorem setRecall_lif (k : RecallId) (r : Option Recall) : (setRecall k r s).lif = s.lif := rfl
@[simp] theorem setRecall_nodes (k : RecallId) (r : Option Recall) : (setRecall k r s).nodes = s.nodes := rfl
@[simp] theorem setRecall_dir (k : RecallId) (r : Option Recall) : (setRecall k r s).dir = s.dir := rfl
@[simp] theorem setRecall_freeHoldings (k : RecallId) (r : Option Recall) : (setRecall k r s).freeHoldings = s.freeHoldings := rfl
@[simp] theorem setRecall_freeWaits (k : RecallId) (r : Option Recall) : (setRecall k r s).freeWaits = s.freeWaits := rfl
@[simp] theorem setRecall_nq (k : RecallId) (r : Option Recall) : (setRecall k r s).nq = s.nq := rfl
@[simp] theorem setRecall_dlu (k : RecallId) (r : Option Recall) : (setRecall k r s).dlu = s.dlu := rfl
@[simp] theorem setRecall_svp (k : RecallId) (r : Option Recall) : (setRecall k r s).svp = s.svp := rfl
@[simp] theorem setRecall_picks (k : RecallId) (r : Option Recall) : (setRecall k r s).picks = s.picks := rfl
@[simp] theorem setRecall_pending (k : RecallId) (r : Option Recall) : (setRecall k r s).pending = s.pending := rfl

/-! ### joinDeferred -/

@[simp] theorem joinDeferred_lif (i : SlotId) : (joinDeferred i s).lif = s.lif := rfl
@[simp] theorem joinDeferred_nodes (i : SlotId) : (joinDeferred i s).nodes = s.nodes := rfl
@[simp] theorem joinDeferred_freeHoldings (i : SlotId) : (joinDeferred i s).freeHoldings = s.freeHoldings := rfl
@[simp] theorem joinDeferred_freeWaits (i : SlotId) : (joinDeferred i s).freeWaits = s.freeWaits := rfl
@[simp] theorem joinDeferred_rct (i : SlotId) : (joinDeferred i s).rct = s.rct := rfl
@[simp] theorem joinDeferred_nq (i : SlotId) : (joinDeferred i s).nq = s.nq := rfl
@[simp] theorem joinDeferred_dlu (i : SlotId) : (joinDeferred i s).dlu = s.dlu := rfl
@[simp] theorem joinDeferred_svp (i : SlotId) : (joinDeferred i s).svp = s.svp := rfl
@[simp] theorem joinDeferred_picks (i : SlotId) : (joinDeferred i s).picks = s.picks := rfl
@[simp] theorem joinDeferred_pending (i : SlotId) : (joinDeferred i s).pending = s.pending := rfl

/-! ### leaveDeferred -/

@[simp] theorem leaveDeferred_lif (i : SlotId) : (leaveDeferred i s).lif = s.lif := rfl
@[simp] theorem leaveDeferred_nodes (i : SlotId) : (leaveDeferred i s).nodes = s.nodes := rfl
@[simp] theorem leaveDeferred_freeHoldings (i : SlotId) : (leaveDeferred i s).freeHoldings = s.freeHoldings := rfl
@[simp] theorem leaveDeferred_freeWaits (i : SlotId) : (leaveDeferred i s).freeWaits = s.freeWaits := rfl
@[simp] theorem leaveDeferred_rct (i : SlotId) : (leaveDeferred i s).rct = s.rct := rfl
@[simp] theorem leaveDeferred_nq (i : SlotId) : (leaveDeferred i s).nq = s.nq := rfl
@[simp] theorem leaveDeferred_dlu (i : SlotId) : (leaveDeferred i s).dlu = s.dlu := rfl
@[simp] theorem leaveDeferred_svp (i : SlotId) : (leaveDeferred i s).svp = s.svp := rfl
@[simp] theorem leaveDeferred_picks (i : SlotId) : (leaveDeferred i s).picks = s.picks := rfl
@[simp] theorem leaveDeferred_pending (i : SlotId) : (leaveDeferred i s).pending = s.pending := rfl

/-! ### joinStartList -/

@[simp] theorem joinStartList_lif (i : SlotId) : (joinStartList i s).lif = s.lif := rfl
@[simp] theorem joinStartList_nodes (i : SlotId) : (joinStartList i s).nodes = s.nodes := rfl
@[simp] theorem joinStartList_dir (i : SlotId) : (joinStartList i s).dir = s.dir := rfl
@[simp] theorem joinStartList_freeHoldings (i : SlotId) : (joinStartList i s).freeHoldings = s.freeHoldings := rfl
@[simp] theorem joinStartList_freeWaits (i : SlotId) : (joinStartList i s).freeWaits = s.freeWaits := rfl
@[simp] theorem joinStartList_nq (i : SlotId) : (joinStartList i s).nq = s.nq := rfl
@[simp] theorem joinStartList_dlu (i : SlotId) : (joinStartList i s).dlu = s.dlu := rfl
@[simp] theorem joinStartList_svp (i : SlotId) : (joinStartList i s).svp = s.svp := rfl
@[simp] theorem joinStartList_picks (i : SlotId) : (joinStartList i s).picks = s.picks := rfl
@[simp] theorem joinStartList_pending (i : SlotId) : (joinStartList i s).pending = s.pending := rfl

/-! ### leaveStartList -/

@[simp] theorem leaveStartList_lif (i : SlotId) : (leaveStartList i s).lif = s.lif := rfl
@[simp] theorem leaveStartList_nodes (i : SlotId) : (leaveStartList i s).nodes = s.nodes := rfl
@[simp] theorem leaveStartList_dir (i : SlotId) : (leaveStartList i s).dir = s.dir := rfl
@[simp] theorem leaveStartList_freeHoldings (i : SlotId) : (leaveStartList i s).freeHoldings = s.freeHoldings := rfl
@[simp] theorem leaveStartList_freeWaits (i : SlotId) : (leaveStartList i s).freeWaits = s.freeWaits := rfl
@[simp] theorem leaveStartList_nq (i : SlotId) : (leaveStartList i s).nq = s.nq := rfl
@[simp] theorem leaveStartList_dlu (i : SlotId) : (leaveStartList i s).dlu = s.dlu := rfl
@[simp] theorem leaveStartList_svp (i : SlotId) : (leaveStartList i s).svp = s.svp := rfl
@[simp] theorem leaveStartList_picks (i : SlotId) : (leaveStartList i s).picks = s.picks := rfl
@[simp] theorem leaveStartList_pending (i : SlotId) : (leaveStartList i s).pending = s.pending := rfl

/-! ### afterDraw -/

@[simp] theorem afterDraw_lif (t : Token) : (afterDraw t s).lif = s.lif := rfl
@[simp] theorem afterDraw_nodes (t : Token) : (afterDraw t s).nodes = s.nodes := rfl
@[simp] theorem afterDraw_freeHoldings (t : Token) : (afterDraw t s).freeHoldings = s.freeHoldings := rfl
@[simp] theorem afterDraw_freeWaits (t : Token) : (afterDraw t s).freeWaits = s.freeWaits := rfl
@[simp] theorem afterDraw_rct (t : Token) : (afterDraw t s).rct = s.rct := rfl
@[simp] theorem afterDraw_nq (t : Token) : (afterDraw t s).nq = s.nq := rfl
@[simp] theorem afterDraw_dlu (t : Token) : (afterDraw t s).dlu = s.dlu := rfl
@[simp] theorem afterDraw_svp (t : Token) : (afterDraw t s).svp = s.svp := rfl
@[simp] theorem afterDraw_picks (t : Token) : (afterDraw t s).picks = s.picks := rfl
@[simp] theorem afterDraw_pending (t : Token) : (afterDraw t s).pending = s.pending := rfl

/-! ### queueNotice -/

@[simp] theorem queueNotice_lif (n : NodeId) (m : NoticeMsg) : (queueNotice n m s).lif = s.lif := rfl
@[simp] theorem queueNotice_dir (n : NodeId) (m : NoticeMsg) : (queueNotice n m s).dir = s.dir := rfl
@[simp] theorem queueNotice_freeHoldings (n : NodeId) (m : NoticeMsg) : (queueNotice n m s).freeHoldings = s.freeHoldings := rfl
@[simp] theorem queueNotice_freeWaits (n : NodeId) (m : NoticeMsg) : (queueNotice n m s).freeWaits = s.freeWaits := rfl
@[simp] theorem queueNotice_rct (n : NodeId) (m : NoticeMsg) : (queueNotice n m s).rct = s.rct := rfl
@[simp] theorem queueNotice_dlu (n : NodeId) (m : NoticeMsg) : (queueNotice n m s).dlu = s.dlu := rfl
@[simp] theorem queueNotice_svp (n : NodeId) (m : NoticeMsg) : (queueNotice n m s).svp = s.svp := rfl
@[simp] theorem queueNotice_picks (n : NodeId) (m : NoticeMsg) : (queueNotice n m s).picks = s.picks := rfl
@[simp] theorem queueNotice_pending (n : NodeId) (m : NoticeMsg) : (queueNotice n m s).pending = s.pending := rfl

/-! ### returnWait -/

@[simp] theorem returnWait_lif (n : NodeId) : (returnWait n s).lif = s.lif := rfl
@[simp] theorem returnWait_dir (n : NodeId) : (returnWait n s).dir = s.dir := rfl
@[simp] theorem returnWait_freeHoldings (n : NodeId) : (returnWait n s).freeHoldings = s.freeHoldings := rfl
@[simp] theorem returnWait_rct (n : NodeId) : (returnWait n s).rct = s.rct := rfl
@[simp] theorem returnWait_nq (n : NodeId) : (returnWait n s).nq = s.nq := rfl
@[simp] theorem returnWait_dlu (n : NodeId) : (returnWait n s).dlu = s.dlu := rfl
@[simp] theorem returnWait_svp (n : NodeId) : (returnWait n s).svp = s.svp := rfl
@[simp] theorem returnWait_picks (n : NodeId) : (returnWait n s).picks = s.picks := rfl
@[simp] theorem returnWait_pending (n : NodeId) : (returnWait n s).pending = s.pending := rfl

/-! ### setEntry -/

@[simp] theorem setEntry_lif (p : Nat) (x : NoticeEntry) : (setEntry p x s).lif = s.lif := rfl
@[simp] theorem setEntry_nodes (p : Nat) (x : NoticeEntry) : (setEntry p x s).nodes = s.nodes := rfl
@[simp] theorem setEntry_dir (p : Nat) (x : NoticeEntry) : (setEntry p x s).dir = s.dir := rfl
@[simp] theorem setEntry_freeHoldings (p : Nat) (x : NoticeEntry) : (setEntry p x s).freeHoldings = s.freeHoldings := rfl
@[simp] theorem setEntry_freeWaits (p : Nat) (x : NoticeEntry) : (setEntry p x s).freeWaits = s.freeWaits := rfl
@[simp] theorem setEntry_rct (p : Nat) (x : NoticeEntry) : (setEntry p x s).rct = s.rct := rfl
@[simp] theorem setEntry_dlu (p : Nat) (x : NoticeEntry) : (setEntry p x s).dlu = s.dlu := rfl
@[simp] theorem setEntry_svp (p : Nat) (x : NoticeEntry) : (setEntry p x s).svp = s.svp := rfl
@[simp] theorem setEntry_picks (p : Nat) (x : NoticeEntry) : (setEntry p x s).picks = s.picks := rfl
@[simp] theorem setEntry_pending (p : Nat) (x : NoticeEntry) : (setEntry p x s).pending = s.pending := rfl

/-! ### setLine -/

@[simp] theorem setLine_nodes (l : LineState) : (setLine l s).nodes = s.nodes := rfl
@[simp] theorem setLine_dir (l : LineState) : (setLine l s).dir = s.dir := rfl
@[simp] theorem setLine_freeHoldings (l : LineState) : (setLine l s).freeHoldings = s.freeHoldings := rfl
@[simp] theorem setLine_freeWaits (l : LineState) : (setLine l s).freeWaits = s.freeWaits := rfl
@[simp] theorem setLine_rct (l : LineState) : (setLine l s).rct = s.rct := rfl
@[simp] theorem setLine_nq (l : LineState) : (setLine l s).nq = s.nq := rfl
@[simp] theorem setLine_dlu (l : LineState) : (setLine l s).dlu = s.dlu := rfl
@[simp] theorem setLine_svp (l : LineState) : (setLine l s).svp = s.svp := rfl
@[simp] theorem setLine_picks (l : LineState) : (setLine l s).picks = s.picks := rfl
@[simp] theorem setLine_pending (l : LineState) : (setLine l s).pending = s.pending := rfl

/-! ### recordReply -/

@[simp] theorem recordReply_lif (k : BitVec 4) (r : Request) (y : Reply) : (recordReply k r y s).lif = s.lif := rfl
@[simp] theorem recordReply_dir (k : BitVec 4) (r : Request) (y : Reply) : (recordReply k r y s).dir = s.dir := rfl
@[simp] theorem recordReply_freeHoldings (k : BitVec 4) (r : Request) (y : Reply) : (recordReply k r y s).freeHoldings = s.freeHoldings := rfl
@[simp] theorem recordReply_freeWaits (k : BitVec 4) (r : Request) (y : Reply) : (recordReply k r y s).freeWaits = s.freeWaits := rfl
@[simp] theorem recordReply_rct (k : BitVec 4) (r : Request) (y : Reply) : (recordReply k r y s).rct = s.rct := rfl
@[simp] theorem recordReply_nq (k : BitVec 4) (r : Request) (y : Reply) : (recordReply k r y s).nq = s.nq := rfl
@[simp] theorem recordReply_dlu (k : BitVec 4) (r : Request) (y : Reply) : (recordReply k r y s).dlu = s.dlu := rfl
@[simp] theorem recordReply_svp (k : BitVec 4) (r : Request) (y : Reply) : (recordReply k r y s).svp = s.svp := rfl
@[simp] theorem recordReply_picks (k : BitVec 4) (r : Request) (y : Reply) : (recordReply k r y s).picks = s.picks := rfl
@[simp] theorem recordReply_pending (k : BitVec 4) (r : Request) (y : Reply) : (recordReply k r y s).pending = s.pending := rfl

/-! ### beginReply -/

@[simp] theorem beginReply_nodes (k : BitVec 4) (r : Request) (y : Reply) : (beginReply k r y s).nodes = s.nodes := rfl
@[simp] theorem beginReply_dir (k : BitVec 4) (r : Request) (y : Reply) : (beginReply k r y s).dir = s.dir := rfl
@[simp] theorem beginReply_freeHoldings (k : BitVec 4) (r : Request) (y : Reply) : (beginReply k r y s).freeHoldings = s.freeHoldings := rfl
@[simp] theorem beginReply_freeWaits (k : BitVec 4) (r : Request) (y : Reply) : (beginReply k r y s).freeWaits = s.freeWaits := rfl
@[simp] theorem beginReply_rct (k : BitVec 4) (r : Request) (y : Reply) : (beginReply k r y s).rct = s.rct := rfl
@[simp] theorem beginReply_nq (k : BitVec 4) (r : Request) (y : Reply) : (beginReply k r y s).nq = s.nq := rfl
@[simp] theorem beginReply_dlu (k : BitVec 4) (r : Request) (y : Reply) : (beginReply k r y s).dlu = s.dlu := rfl
@[simp] theorem beginReply_svp (k : BitVec 4) (r : Request) (y : Reply) : (beginReply k r y s).svp = s.svp := rfl
@[simp] theorem beginReply_picks (k : BitVec 4) (r : Request) (y : Reply) : (beginReply k r y s).picks = s.picks := rfl
@[simp] theorem beginReply_pending (k : BitVec 4) (r : Request) (y : Reply) : (beginReply k r y s).pending = s.pending := rfl

/-! ### complete -/

@[simp] theorem complete_lif (c : Completion) : (complete c s).lif = s.lif := rfl
@[simp] theorem complete_nodes (c : Completion) : (complete c s).nodes = s.nodes := rfl
@[simp] theorem complete_dir (c : Completion) : (complete c s).dir = s.dir := rfl
@[simp] theorem complete_freeHoldings (c : Completion) : (complete c s).freeHoldings = s.freeHoldings := rfl
@[simp] theorem complete_freeWaits (c : Completion) : (complete c s).freeWaits = s.freeWaits := rfl
@[simp] theorem complete_rct (c : Completion) : (complete c s).rct = s.rct := rfl
@[simp] theorem complete_nq (c : Completion) : (complete c s).nq = s.nq := rfl
@[simp] theorem complete_dlu (c : Completion) : (complete c s).dlu = s.dlu := rfl
@[simp] theorem complete_picks (c : Completion) : (complete c s).picks = s.picks := rfl
@[simp] theorem complete_pending (c : Completion) : (complete c s).pending = s.pending := rfl

/-! ### startCommand -/

@[simp] theorem startCommand_lif (c : Word) : (startCommand c s).lif = s.lif := rfl
@[simp] theorem startCommand_nodes (c : Word) : (startCommand c s).nodes = s.nodes := rfl
@[simp] theorem startCommand_dir (c : Word) : (startCommand c s).dir = s.dir := rfl
@[simp] theorem startCommand_freeHoldings (c : Word) : (startCommand c s).freeHoldings = s.freeHoldings := rfl
@[simp] theorem startCommand_freeWaits (c : Word) : (startCommand c s).freeWaits = s.freeWaits := rfl
@[simp] theorem startCommand_rct (c : Word) : (startCommand c s).rct = s.rct := rfl
@[simp] theorem startCommand_nq (c : Word) : (startCommand c s).nq = s.nq := rfl
@[simp] theorem startCommand_dlu (c : Word) : (startCommand c s).dlu = s.dlu := rfl
@[simp] theorem startCommand_picks (c : Word) : (startCommand c s).picks = s.picks := rfl
@[simp] theorem startCommand_pending (c : Word) : (startCommand c s).pending = s.pending := rfl

/-! ### writeArg -/

@[simp] theorem writeArg_lif (j : Fin 4) (d : Word) : (writeArg j d s).lif = s.lif := rfl
@[simp] theorem writeArg_nodes (j : Fin 4) (d : Word) : (writeArg j d s).nodes = s.nodes := rfl
@[simp] theorem writeArg_dir (j : Fin 4) (d : Word) : (writeArg j d s).dir = s.dir := rfl
@[simp] theorem writeArg_freeHoldings (j : Fin 4) (d : Word) : (writeArg j d s).freeHoldings = s.freeHoldings := rfl
@[simp] theorem writeArg_freeWaits (j : Fin 4) (d : Word) : (writeArg j d s).freeWaits = s.freeWaits := rfl
@[simp] theorem writeArg_rct (j : Fin 4) (d : Word) : (writeArg j d s).rct = s.rct := rfl
@[simp] theorem writeArg_nq (j : Fin 4) (d : Word) : (writeArg j d s).nq = s.nq := rfl
@[simp] theorem writeArg_dlu (j : Fin 4) (d : Word) : (writeArg j d s).dlu = s.dlu := rfl
@[simp] theorem writeArg_picks (j : Fin 4) (d : Word) : (writeArg j d s).picks = s.picks := rfl
@[simp] theorem writeArg_pending (j : Fin 4) (d : Word) : (writeArg j d s).pending = s.pending := rfl

/-! ### advanceClocks -/

@[simp] theorem advanceClocks_lif : (advanceClocks s).lif = s.lif := rfl
@[simp] theorem advanceClocks_nodes : (advanceClocks s).nodes = s.nodes := rfl
@[simp] theorem advanceClocks_dir : (advanceClocks s).dir = s.dir := rfl
@[simp] theorem advanceClocks_freeHoldings : (advanceClocks s).freeHoldings = s.freeHoldings := rfl
@[simp] theorem advanceClocks_freeWaits : (advanceClocks s).freeWaits = s.freeWaits := rfl
@[simp] theorem advanceClocks_rct : (advanceClocks s).rct = s.rct := rfl
@[simp] theorem advanceClocks_nq : (advanceClocks s).nq = s.nq := rfl
@[simp] theorem advanceClocks_svp : (advanceClocks s).svp = s.svp := rfl
@[simp] theorem advanceClocks_picks : (advanceClocks s).picks = s.picks := rfl
@[simp] theorem advanceClocks_pending : (advanceClocks s).pending = s.pending := rfl

/-! ### Parts of the changed block that stay -/

@[simp] theorem setSlot_dir_nextToken (i : SlotId) (e : Option Entry) : (setSlot i e s).dir.nextToken = s.dir.nextToken := rfl
@[simp] theorem setSlot_dir_epoch (i : SlotId) (e : Option Entry) : (setSlot i e s).dir.epoch = s.dir.epoch := rfl
@[simp] theorem setSlot_dir_deferred (i : SlotId) (e : Option Entry) : (setSlot i e s).dir.deferred = s.dir.deferred := rfl

@[simp] theorem joinDeferred_dir_nextToken (i : SlotId) : (joinDeferred i s).dir.nextToken = s.dir.nextToken := rfl
@[simp] theorem joinDeferred_dir_epoch (i : SlotId) : (joinDeferred i s).dir.epoch = s.dir.epoch := rfl
@[simp] theorem joinDeferred_dir_slots (i : SlotId) : (joinDeferred i s).dir.slots = s.dir.slots := rfl

@[simp] theorem leaveDeferred_dir_nextToken (i : SlotId) : (leaveDeferred i s).dir.nextToken = s.dir.nextToken := rfl
@[simp] theorem leaveDeferred_dir_epoch (i : SlotId) : (leaveDeferred i s).dir.epoch = s.dir.epoch := rfl
@[simp] theorem leaveDeferred_dir_slots (i : SlotId) : (leaveDeferred i s).dir.slots = s.dir.slots := rfl

@[simp] theorem afterDraw_dir_epoch (t : Token) : (afterDraw t s).dir.epoch = s.dir.epoch := rfl
@[simp] theorem afterDraw_dir_deferred (t : Token) : (afterDraw t s).dir.deferred = s.dir.deferred := rfl
@[simp] theorem afterDraw_dir_slots (t : Token) : (afterDraw t s).dir.slots = s.dir.slots := rfl

@[simp] theorem setRecall_rct_startOrder (k : RecallId) (r : Option Recall) : (setRecall k r s).rct.startOrder = s.rct.startOrder := rfl
@[simp] theorem setRecall_rct_startList (k : RecallId) (r : Option Recall) : (setRecall k r s).rct.startList = s.rct.startList := rfl

@[simp] theorem joinStartList_rct_startOrder (i : SlotId) : (joinStartList i s).rct.startOrder = s.rct.startOrder := rfl
@[simp] theorem joinStartList_rct_slots (i : SlotId) : (joinStartList i s).rct.slots = s.rct.slots := rfl

@[simp] theorem leaveStartList_rct_startOrder (i : SlotId) : (leaveStartList i s).rct.startOrder = s.rct.startOrder := rfl
@[simp] theorem leaveStartList_rct_slots (i : SlotId) : (leaveStartList i s).rct.slots = s.rct.slots := rfl

@[simp] theorem setFlag_svp_cmdState (f : Flag) : (setFlag f s).svp.cmdState = s.svp.cmdState := rfl
@[simp] theorem setFlag_svp_command (f : Flag) : (setFlag f s).svp.command = s.svp.command := rfl
@[simp] theorem setFlag_svp_args (f : Flag) : (setFlag f s).svp.args = s.svp.args := rfl
@[simp] theorem setFlag_svp_captured (f : Flag) : (setFlag f s).svp.captured = s.svp.captured := rfl
@[simp] theorem setFlag_svp_results (f : Flag) : (setFlag f s).svp.results = s.svp.results := rfl
@[simp] theorem setFlag_svp_enables (f : Flag) : (setFlag f s).svp.enables = s.svp.enables := rfl
@[simp] theorem setFlag_svp_halted (f : Flag) : (setFlag f s).svp.halted = s.svp.halted := rfl

@[simp] theorem clearFlags_svp_cmdState (d : Word) : (clearFlags d s).svp.cmdState = s.svp.cmdState := rfl
@[simp] theorem clearFlags_svp_command (d : Word) : (clearFlags d s).svp.command = s.svp.command := rfl
@[simp] theorem clearFlags_svp_args (d : Word) : (clearFlags d s).svp.args = s.svp.args := rfl
@[simp] theorem clearFlags_svp_captured (d : Word) : (clearFlags d s).svp.captured = s.svp.captured := rfl
@[simp] theorem clearFlags_svp_results (d : Word) : (clearFlags d s).svp.results = s.svp.results := rfl
@[simp] theorem clearFlags_svp_enables (d : Word) : (clearFlags d s).svp.enables = s.svp.enables := rfl
@[simp] theorem clearFlags_svp_halted (d : Word) : (clearFlags d s).svp.halted = s.svp.halted := rfl

@[simp] theorem writeEnables_svp_cmdState (d : Word) : (writeEnables d s).svp.cmdState = s.svp.cmdState := rfl
@[simp] theorem writeEnables_svp_command (d : Word) : (writeEnables d s).svp.command = s.svp.command := rfl
@[simp] theorem writeEnables_svp_args (d : Word) : (writeEnables d s).svp.args = s.svp.args := rfl
@[simp] theorem writeEnables_svp_captured (d : Word) : (writeEnables d s).svp.captured = s.svp.captured := rfl
@[simp] theorem writeEnables_svp_results (d : Word) : (writeEnables d s).svp.results = s.svp.results := rfl
@[simp] theorem writeEnables_svp_flags (d : Word) : (writeEnables d s).svp.flags = s.svp.flags := rfl
@[simp] theorem writeEnables_svp_halted (d : Word) : (writeEnables d s).svp.halted = s.svp.halted := rfl

@[simp] theorem complete_svp_command (c : Completion) : (complete c s).svp.command = s.svp.command := rfl
@[simp] theorem complete_svp_args (c : Completion) : (complete c s).svp.args = s.svp.args := rfl
@[simp] theorem complete_svp_captured (c : Completion) : (complete c s).svp.captured = s.svp.captured := rfl
@[simp] theorem complete_svp_enables (c : Completion) : (complete c s).svp.enables = s.svp.enables := rfl
@[simp] theorem complete_svp_halted (c : Completion) : (complete c s).svp.halted = s.svp.halted := rfl

@[simp] theorem startCommand_svp_args (c : Word) : (startCommand c s).svp.args = s.svp.args := rfl
@[simp] theorem startCommand_svp_results (c : Word) : (startCommand c s).svp.results = s.svp.results := rfl
@[simp] theorem startCommand_svp_flags (c : Word) : (startCommand c s).svp.flags = s.svp.flags := rfl
@[simp] theorem startCommand_svp_enables (c : Word) : (startCommand c s).svp.enables = s.svp.enables := rfl
@[simp] theorem startCommand_svp_halted (c : Word) : (startCommand c s).svp.halted = s.svp.halted := rfl

@[simp] theorem writeArg_svp_cmdState (j : Fin 4) (d : Word) : (writeArg j d s).svp.cmdState = s.svp.cmdState := rfl
@[simp] theorem writeArg_svp_command (j : Fin 4) (d : Word) : (writeArg j d s).svp.command = s.svp.command := rfl
@[simp] theorem writeArg_svp_captured (j : Fin 4) (d : Word) : (writeArg j d s).svp.captured = s.svp.captured := rfl
@[simp] theorem writeArg_svp_results (j : Fin 4) (d : Word) : (writeArg j d s).svp.results = s.svp.results := rfl
@[simp] theorem writeArg_svp_flags (j : Fin 4) (d : Word) : (writeArg j d s).svp.flags = s.svp.flags := rfl
@[simp] theorem writeArg_svp_enables (j : Fin 4) (d : Word) : (writeArg j d s).svp.enables = s.svp.enables := rfl
@[simp] theorem writeArg_svp_halted (j : Fin 4) (d : Word) : (writeArg j d s).svp.halted = s.svp.halted := rfl

@[simp] theorem setLine_lif_bitPeriod (l : LineState) : (setLine l s).lif.bitPeriod = s.lif.bitPeriod := rfl

@[simp] theorem beginReply_lif_bitPeriod (k : BitVec 4) (r : Request) (y : Reply) : (beginReply k r y s).lif.bitPeriod = s.lif.bitPeriod := rfl

@[simp] theorem advanceClocks_dlu_recallTimeout : (advanceClocks s).dlu.recallTimeout = s.dlu.recallTimeout := rfl
@[simp] theorem advanceClocks_dlu_noticeBackoff : (advanceClocks s).dlu.noticeBackoff = s.dlu.noticeBackoff := rfl

end Sys2Proof.Machine
end

