-- ==== Sys2Proof/Laws/Table.lean ====
section
/-!
SUPPORT. Tables: what a read gives after a write, and what the searches find.
-/

namespace Sys2Proof.Machine

variable {α β : Type} {n : Nat}

@[simp] theorem tget_tset_same (v : Vector α n) (i : Fin n) (x : α) : tget (tset v i x) i = x := by
  simp [tget, tset]

theorem tget_tset_ne (v : Vector α n) (i j : Fin n) (x : α) (h : j ≠ i) : tget (tset v i x) j = tget v j := by
  have : i.val ≠ j.val := fun e => h (Fin.ext e.symm)
  simp [tget, tset, Vector.getElem_set_ne _ _ this]

theorem tget_tset (v : Vector α n) (i j : Fin n) (x : α) :
    tget (tset v i x) j = if j = i then x else tget v j := by
  split
  · next h => subst h; simp
  · next h => exact tget_tset_ne v i j x h

@[simp] theorem tset_tget (v : Vector α n) (i : Fin n) : tset v i (tget v i) = v := by
  simp [tget, tset]

theorem tset_tset (v : Vector α n) (i : Fin n) (x y : α) : tset (tset v i x) i y = tset v i y := by
  ext k hk
  simp only [tset, Vector.getElem_set]
  split <;> rfl

@[simp] theorem tget_tmap (f : α → β) (v : Vector α n) (i : Fin n) : tget (tmap f v) i = f (tget v i) := by
  simp [tget, tmap]

@[simp] theorem tget_replicate (x : α) (i : Fin n) : tget (Vector.replicate n x) i = x := by
  simp [tget]

theorem table_ext {v w : Vector α n} (h : ∀ i, tget v i = tget w i) : v = w := by
  ext k hk
  exact h ⟨k, hk⟩

theorem mem_twhere {p : α → Bool} {v : Vector α n} {i : Fin n} : i ∈ twhere p v ↔ p (tget v i) = true := by
  simp [twhere]

theorem twhere_nodup (p : α → Bool) (v : Vector α n) : (twhere p v).Nodup :=
  (List.nodup_finRange n).filter _

theorem tfind_some {p : α → Bool} {v : Vector α n} {i : Fin n} (h : tfind p v = some i) : p (tget v i) = true :=
  by simpa using List.find?_some h

theorem tfind_none {p : α → Bool} {v : Vector α n} (h : tfind p v = none) (i : Fin n) : p (tget v i) = false := by
  have := List.find?_eq_none.mp h i (List.mem_finRange i)
  simpa using this

/-- The record found is the first that meets the test. -/
theorem tfind_least {p : α → Bool} {v : Vector α n} {i j : Fin n} (h : tfind p v = some i) (hj : j < i) :
    p (tget v j) = false := by
  unfold tfind at h
  obtain ⟨_, as, bs, hl, has⟩ := List.find?_eq_some_iff_append.mp h
  have hmem : j ∈ as ++ i :: bs := hl ▸ List.mem_finRange j
  have hs : (List.finRange n).Pairwise (· < ·) := List.pairwise_lt_finRange n
  rw [hl] at hs
  rcases List.mem_append.mp hmem with h1 | h1
  · simpa using has j h1
  · rcases List.mem_cons.mp h1 with h2 | h2
    · exact absurd h2 (Fin.ne_of_lt hj)
    · have := (List.pairwise_append.mp hs).2.1
      have := (List.pairwise_cons.mp this).1 j h2
      exact absurd this (not_lt.mpr hj.le)

theorem toList_tset (v : Vector α n) (i : Fin n) (x : α) : (tset v i x).toList = v.toList.set i.val x := by
  simp [tset, Vector.toList, Vector.toArray_set]

theorem getElem?_toList (v : Vector α n) (i : Fin n) : v.toList[i.val]? = some (tget v i) := by
  simp [tget]

theorem toList_tmap (f : α → β) (v : Vector α n) : (tmap f v).toList = v.toList.map f := by
  simp [tmap, Vector.toList]

theorem mem_toList {v : Vector α n} {x : α} : x ∈ v.toList ↔ ∃ i, tget v i = x := by
  constructor
  · intro h
    obtain ⟨k, hk, rfl⟩ := List.getElem_of_mem h
    exact ⟨⟨k, by simpa using hk⟩, by simp [tget]⟩
  · rintro ⟨i, rfl⟩
    exact List.mem_of_getElem? (getElem?_toList v i)

end Sys2Proof.Machine
end

