-- ==== Sys2Proof/Laws/Records.lean ====
section
/-!
SUPPORT. What each named update does to a node record, a directory slot, a recall slot, the two lists and the number
of free notice entries.
-/

namespace Sys2Proof.Machine

variable (s : State)

/-! ### node -/

@[simp] theorem node_setFlag (f : Flag) (m : NodeId) : node m (setFlag f s) = node m s := rfl
@[simp] theorem node_clearFlags (d : Word) (m : NodeId) : node m (clearFlags d s) = node m s := rfl
@[simp] theorem node_writeEnables (d : Word) (m : NodeId) : node m (writeEnables d s) = node m s := rfl
@[simp] theorem node_setSlot (i : SlotId) (e : Option Entry) (m : NodeId) : node m (setSlot i e s) = node m s := rfl
@[simp] theorem node_setRecall (k : RecallId) (r : Option Recall) (m : NodeId) : node m (setRecall k r s) = node m s := rfl
@[simp] theorem node_joinDeferred (i : SlotId) (m : NodeId) : node m (joinDeferred i s) = node m s := rfl
@[simp] theorem node_leaveDeferred (i : SlotId) (m : NodeId) : node m (leaveDeferred i s) = node m s := rfl
@[simp] theorem node_joinStartList (i : SlotId) (m : NodeId) : node m (joinStartList i s) = node m s := rfl
@[simp] theorem node_leaveStartList (i : SlotId) (m : NodeId) : node m (leaveStartList i s) = node m s := rfl
@[simp] theorem node_leaveBothLists (i : SlotId) (m : NodeId) : node m (leaveBothLists i s) = node m s := rfl
@[simp] theorem node_afterDraw (t : Token) (m : NodeId) : node m (afterDraw t s) = node m s := rfl
@[simp] theorem node_setEntry (p : Nat) (x : NoticeEntry) (m : NodeId) : node m (setEntry p x s) = node m s := rfl
@[simp] theorem node_setLine (l : LineState) (m : NodeId) : node m (setLine l s) = node m s := rfl
@[simp] theorem node_beginReply (k : BitVec 4) (r : Request) (y : Reply) (m : NodeId) : node m (beginReply k r y s) = node m s := rfl
@[simp] theorem node_complete (c : Completion) (m : NodeId) : node m (complete c s) = node m s := rfl
@[simp] theorem node_startCommand (c : Word) (m : NodeId) : node m (startCommand c s) = node m s := rfl
@[simp] theorem node_writeArg (a : Fin 4) (d : Word) (m : NodeId) : node m (writeArg a d s) = node m s := rfl
@[simp] theorem node_advanceClocks (m : NodeId) : node m (advanceClocks s) = node m s := rfl

/-! ### slot -/

@[simp] theorem slot_setFlag (f : Flag) (j : SlotId) : slot j (setFlag f s) = slot j s := rfl
@[simp] theorem slot_clearFlags (d : Word) (j : SlotId) : slot j (clearFlags d s) = slot j s := rfl
@[simp] theorem slot_writeEnables (d : Word) (j : SlotId) : slot j (writeEnables d s) = slot j s := rfl
@[simp] theorem slot_modNode (n : NodeId) (f : NodeRecord → NodeRecord) (j : SlotId) : slot j (modNode n f s) = slot j s := rfl
@[simp] theorem slot_setRecall (k : RecallId) (r : Option Recall) (j : SlotId) : slot j (setRecall k r s) = slot j s := rfl
@[simp] theorem slot_joinDeferred (i : SlotId) (j : SlotId) : slot j (joinDeferred i s) = slot j s := rfl
@[simp] theorem slot_leaveDeferred (i : SlotId) (j : SlotId) : slot j (leaveDeferred i s) = slot j s := rfl
@[simp] theorem slot_joinStartList (i : SlotId) (j : SlotId) : slot j (joinStartList i s) = slot j s := rfl
@[simp] theorem slot_leaveStartList (i : SlotId) (j : SlotId) : slot j (leaveStartList i s) = slot j s := rfl
@[simp] theorem slot_leaveBothLists (i : SlotId) (j : SlotId) : slot j (leaveBothLists i s) = slot j s := rfl
@[simp] theorem slot_afterDraw (t : Token) (j : SlotId) : slot j (afterDraw t s) = slot j s := rfl
@[simp] theorem slot_queueNotice (n : NodeId) (m : NoticeMsg) (j : SlotId) : slot j (queueNotice n m s) = slot j s := rfl
@[simp] theorem slot_returnWait (n : NodeId) (j : SlotId) : slot j (returnWait n s) = slot j s := rfl
@[simp] theorem slot_setEntry (p : Nat) (x : NoticeEntry) (j : SlotId) : slot j (setEntry p x s) = slot j s := rfl
@[simp] theorem slot_setLine (l : LineState) (j : SlotId) : slot j (setLine l s) = slot j s := rfl
@[simp] theorem slot_recordReply (k : BitVec 4) (r : Request) (y : Reply) (j : SlotId) : slot j (recordReply k r y s) = slot j s := rfl
@[simp] theorem slot_beginReply (k : BitVec 4) (r : Request) (y : Reply) (j : SlotId) : slot j (beginReply k r y s) = slot j s := rfl
@[simp] theorem slot_complete (c : Completion) (j : SlotId) : slot j (complete c s) = slot j s := rfl
@[simp] theorem slot_startCommand (c : Word) (j : SlotId) : slot j (startCommand c s) = slot j s := rfl
@[simp] theorem slot_writeArg (a : Fin 4) (d : Word) (j : SlotId) : slot j (writeArg a d s) = slot j s := rfl
@[simp] theorem slot_advanceClocks (j : SlotId) : slot j (advanceClocks s) = slot j s := rfl

/-! ### recallAt -/

@[simp] theorem recallAt_setFlag (f : Flag) (q : RecallId) : recallAt q (setFlag f s) = recallAt q s := rfl
@[simp] theorem recallAt_clearFlags (d : Word) (q : RecallId) : recallAt q (clearFlags d s) = recallAt q s := rfl
@[simp] theorem recallAt_writeEnables (d : Word) (q : RecallId) : recallAt q (writeEnables d s) = recallAt q s := rfl
@[simp] theorem recallAt_modNode (n : NodeId) (f : NodeRecord → NodeRecord) (q : RecallId) : recallAt q (modNode n f s) = recallAt q s := rfl
@[simp] theorem recallAt_setSlot (i : SlotId) (e : Option Entry) (q : RecallId) : recallAt q (setSlot i e s) = recallAt q s := rfl
@[simp] theorem recallAt_joinDeferred (i : SlotId) (q : RecallId) : recallAt q (joinDeferred i s) = recallAt q s := rfl
@[simp] theorem recallAt_leaveDeferred (i : SlotId) (q : RecallId) : recallAt q (leaveDeferred i s) = recallAt q s := rfl
@[simp] theorem recallAt_joinStartList (i : SlotId) (q : RecallId) : recallAt q (joinStartList i s) = recallAt q s := rfl
@[simp] theorem recallAt_leaveStartList (i : SlotId) (q : RecallId) : recallAt q (leaveStartList i s) = recallAt q s := rfl
@[simp] theorem recallAt_leaveBothLists (i : SlotId) (q : RecallId) : recallAt q (leaveBothLists i s) = recallAt q s := rfl
@[simp] theorem recallAt_afterDraw (t : Token) (q : RecallId) : recallAt q (afterDraw t s) = recallAt q s := rfl
@[simp] theorem recallAt_queueNotice (n : NodeId) (m : NoticeMsg) (q : RecallId) : recallAt q (queueNotice n m s) = recallAt q s := rfl
@[simp] theorem recallAt_returnWait (n : NodeId) (q : RecallId) : recallAt q (returnWait n s) = recallAt q s := rfl
@[simp] theorem recallAt_setEntry (p : Nat) (x : NoticeEntry) (q : RecallId) : recallAt q (setEntry p x s) = recallAt q s := rfl
@[simp] theorem recallAt_setLine (l : LineState) (q : RecallId) : recallAt q (setLine l s) = recallAt q s := rfl
@[simp] theorem recallAt_recordReply (k : BitVec 4) (r : Request) (y : Reply) (q : RecallId) : recallAt q (recordReply k r y s) = recallAt q s := rfl
@[simp] theorem recallAt_beginReply (k : BitVec 4) (r : Request) (y : Reply) (q : RecallId) : recallAt q (beginReply k r y s) = recallAt q s := rfl
@[simp] theorem recallAt_complete (c : Completion) (q : RecallId) : recallAt q (complete c s) = recallAt q s := rfl
@[simp] theorem recallAt_startCommand (c : Word) (q : RecallId) : recallAt q (startCommand c s) = recallAt q s := rfl
@[simp] theorem recallAt_writeArg (a : Fin 4) (d : Word) (q : RecallId) : recallAt q (writeArg a d s) = recallAt q s := rfl
@[simp] theorem recallAt_advanceClocks (q : RecallId) : recallAt q (advanceClocks s) = recallAt q s := rfl

/-! ### isDeferred -/

@[simp] theorem isDeferred_setFlag (f : Flag) (j : SlotId) : isDeferred j (setFlag f s) = isDeferred j s := rfl
@[simp] theorem isDeferred_clearFlags (d : Word) (j : SlotId) : isDeferred j (clearFlags d s) = isDeferred j s := rfl
@[simp] theorem isDeferred_writeEnables (d : Word) (j : SlotId) : isDeferred j (writeEnables d s) = isDeferred j s := rfl
@[simp] theorem isDeferred_modNode (n : NodeId) (f : NodeRecord → NodeRecord) (j : SlotId) : isDeferred j (modNode n f s) = isDeferred j s := rfl
@[simp] theorem isDeferred_setSlot (i : SlotId) (e : Option Entry) (j : SlotId) : isDeferred j (setSlot i e s) = isDeferred j s := rfl
@[simp] theorem isDeferred_setRecall (k : RecallId) (r : Option Recall) (j : SlotId) : isDeferred j (setRecall k r s) = isDeferred j s := rfl
@[simp] theorem isDeferred_joinStartList (i : SlotId) (j : SlotId) : isDeferred j (joinStartList i s) = isDeferred j s := rfl
@[simp] theorem isDeferred_leaveStartList (i : SlotId) (j : SlotId) : isDeferred j (leaveStartList i s) = isDeferred j s := rfl
@[simp] theorem isDeferred_afterDraw (t : Token) (j : SlotId) : isDeferred j (afterDraw t s) = isDeferred j s := rfl
@[simp] theorem isDeferred_queueNotice (n : NodeId) (m : NoticeMsg) (j : SlotId) : isDeferred j (queueNotice n m s) = isDeferred j s := rfl
@[simp] theorem isDeferred_returnWait (n : NodeId) (j : SlotId) : isDeferred j (returnWait n s) = isDeferred j s := rfl
@[simp] theorem isDeferred_setEntry (p : Nat) (x : NoticeEntry) (j : SlotId) : isDeferred j (setEntry p x s) = isDeferred j s := rfl
@[simp] theorem isDeferred_setLine (l : LineState) (j : SlotId) : isDeferred j (setLine l s) = isDeferred j s := rfl
@[simp] theorem isDeferred_recordReply (k : BitVec 4) (r : Request) (y : Reply) (j : SlotId) : isDeferred j (recordReply k r y s) = isDeferred j s := rfl
@[simp] theorem isDeferred_beginReply (k : BitVec 4) (r : Request) (y : Reply) (j : SlotId) : isDeferred j (beginReply k r y s) = isDeferred j s := rfl
@[simp] theorem isDeferred_complete (c : Completion) (j : SlotId) : isDeferred j (complete c s) = isDeferred j s := rfl
@[simp] theorem isDeferred_startCommand (c : Word) (j : SlotId) : isDeferred j (startCommand c s) = isDeferred j s := rfl
@[simp] theorem isDeferred_writeArg (a : Fin 4) (d : Word) (j : SlotId) : isDeferred j (writeArg a d s) = isDeferred j s := rfl
@[simp] theorem isDeferred_advanceClocks (j : SlotId) : isDeferred j (advanceClocks s) = isDeferred j s := rfl

/-! ### isRecallPending -/

@[simp] theorem isRecallPending_setFlag (f : Flag) (j : SlotId) : isRecallPending j (setFlag f s) = isRecallPending j s := rfl
@[simp] theorem isRecallPending_clearFlags (d : Word) (j : SlotId) : isRecallPending j (clearFlags d s) = isRecallPending j s := rfl
@[simp] theorem isRecallPending_writeEnables (d : Word) (j : SlotId) : isRecallPending j (writeEnables d s) = isRecallPending j s := rfl
@[simp] theorem isRecallPending_modNode (n : NodeId) (f : NodeRecord → NodeRecord) (j : SlotId) : isRecallPending j (modNode n f s) = isRecallPending j s := rfl
@[simp] theorem isRecallPending_setSlot (i : SlotId) (e : Option Entry) (j : SlotId) : isRecallPending j (setSlot i e s) = isRecallPending j s := rfl
@[simp] theorem isRecallPending_setRecall (k : RecallId) (r : Option Recall) (j : SlotId) : isRecallPending j (setRecall k r s) = isRecallPending j s := rfl
@[simp] theorem isRecallPending_joinDeferred (i : SlotId) (j : SlotId) : isRecallPending j (joinDeferred i s) = isRecallPending j s := rfl
@[simp] theorem isRecallPending_leaveDeferred (i : SlotId) (j : SlotId) : isRecallPending j (leaveDeferred i s) = isRecallPending j s := rfl
@[simp] theorem isRecallPending_afterDraw (t : Token) (j : SlotId) : isRecallPending j (afterDraw t s) = isRecallPending j s := rfl
@[simp] theorem isRecallPending_queueNotice (n : NodeId) (m : NoticeMsg) (j : SlotId) : isRecallPending j (queueNotice n m s) = isRecallPending j s := rfl
@[simp] theorem isRecallPending_returnWait (n : NodeId) (j : SlotId) : isRecallPending j (returnWait n s) = isRecallPending j s := rfl
@[simp] theorem isRecallPending_setEntry (p : Nat) (x : NoticeEntry) (j : SlotId) : isRecallPending j (setEntry p x s) = isRecallPending j s := rfl
@[simp] theorem isRecallPending_setLine (l : LineState) (j : SlotId) : isRecallPending j (setLine l s) = isRecallPending j s := rfl
@[simp] theorem isRecallPending_recordReply (k : BitVec 4) (r : Request) (y : Reply) (j : SlotId) : isRecallPending j (recordReply k r y s) = isRecallPending j s := rfl
@[simp] theorem isRecallPending_beginReply (k : BitVec 4) (r : Request) (y : Reply) (j : SlotId) : isRecallPending j (beginReply k r y s) = isRecallPending j s := rfl
@[simp] theorem isRecallPending_complete (c : Completion) (j : SlotId) : isRecallPending j (complete c s) = isRecallPending j s := rfl
@[simp] theorem isRecallPending_startCommand (c : Word) (j : SlotId) : isRecallPending j (startCommand c s) = isRecallPending j s := rfl
@[simp] theorem isRecallPending_writeArg (a : Fin 4) (d : Word) (j : SlotId) : isRecallPending j (writeArg a d s) = isRecallPending j s := rfl
@[simp] theorem isRecallPending_advanceClocks (j : SlotId) : isRecallPending j (advanceClocks s) = isRecallPending j s := rfl

/-! ### freeEntries -/

@[simp] theorem freeEntries_setFlag (f : Flag) : freeEntries (setFlag f s) = freeEntries s := rfl
@[simp] theorem freeEntries_clearFlags (d : Word) : freeEntries (clearFlags d s) = freeEntries s := rfl
@[simp] theorem freeEntries_writeEnables (d : Word) : freeEntries (writeEnables d s) = freeEntries s := rfl
@[simp] theorem freeEntries_modNode (n : NodeId) (f : NodeRecord → NodeRecord) : freeEntries (modNode n f s) = freeEntries s := rfl
@[simp] theorem freeEntries_setSlot (i : SlotId) (e : Option Entry) : freeEntries (setSlot i e s) = freeEntries s := rfl
@[simp] theorem freeEntries_setRecall (k : RecallId) (r : Option Recall) : freeEntries (setRecall k r s) = freeEntries s := rfl
@[simp] theorem freeEntries_joinDeferred (i : SlotId) : freeEntries (joinDeferred i s) = freeEntries s := rfl
@[simp] theorem freeEntries_leaveDeferred (i : SlotId) : freeEntries (leaveDeferred i s) = freeEntries s := rfl
@[simp] theorem freeEntries_joinStartList (i : SlotId) : freeEntries (joinStartList i s) = freeEntries s := rfl
@[simp] theorem freeEntries_leaveStartList (i : SlotId) : freeEntries (leaveStartList i s) = freeEntries s := rfl
@[simp] theorem freeEntries_leaveBothLists (i : SlotId) : freeEntries (leaveBothLists i s) = freeEntries s := rfl
@[simp] theorem freeEntries_afterDraw (t : Token) : freeEntries (afterDraw t s) = freeEntries s := rfl
@[simp] theorem freeEntries_returnWait (n : NodeId) : freeEntries (returnWait n s) = freeEntries s := rfl
@[simp] theorem freeEntries_setLine (l : LineState) : freeEntries (setLine l s) = freeEntries s := rfl
@[simp] theorem freeEntries_recordReply (k : BitVec 4) (r : Request) (y : Reply) : freeEntries (recordReply k r y s) = freeEntries s := rfl
@[simp] theorem freeEntries_beginReply (k : BitVec 4) (r : Request) (y : Reply) : freeEntries (beginReply k r y s) = freeEntries s := rfl
@[simp] theorem freeEntries_complete (c : Completion) : freeEntries (complete c s) = freeEntries s := rfl
@[simp] theorem freeEntries_startCommand (c : Word) : freeEntries (startCommand c s) = freeEntries s := rfl
@[simp] theorem freeEntries_writeArg (a : Fin 4) (d : Word) : freeEntries (writeArg a d s) = freeEntries s := rfl
@[simp] theorem freeEntries_advanceClocks : freeEntries (advanceClocks s) = freeEntries s := rfl

/-! ### What the updated record becomes -/

theorem node_modNode (n m : NodeId) (f : NodeRecord → NodeRecord) :
    node m (modNode n f s) = if m = n then f (node m s) else node m s := by
  simp only [node, modNode, tget_tset]
  split
  · next h => rw [h]
  · rfl

@[simp] theorem node_modNode_same (n : NodeId) (f : NodeRecord → NodeRecord) :
    node n (modNode n f s) = f (node n s) := by
  simp [node_modNode]

theorem slot_setSlot (i j : SlotId) (e : Option Entry) :
    slot j (setSlot i e s) = if j = i then e else slot j s := by
  simp only [slot, setSlot, tget_tset]

@[simp] theorem slot_setSlot_same (i : SlotId) (e : Option Entry) : slot i (setSlot i e s) = e := by
  simp [slot_setSlot]

theorem recallAt_setRecall (k q : RecallId) (r : Option Recall) :
    recallAt q (setRecall k r s) = if q = k then r else recallAt q s := by
  simp only [recallAt, setRecall, tget_tset]

@[simp] theorem recallAt_setRecall_same (k : RecallId) (r : Option Recall) : recallAt k (setRecall k r s) = r := by
  simp [recallAt_setRecall]

theorem isDeferred_iff (i : SlotId) : isDeferred i s = true ↔ i ∈ s.dir.deferred := by
  simp [isDeferred]

theorem mem_appendOnce {i j : SlotId} {l : List SlotId} : j ∈ appendOnce i l ↔ j = i ∨ j ∈ l := by
  unfold appendOnce
  split
  · next h =>
    have : i ∈ l := by simpa using h
    constructor
    · exact Or.inr
    · rintro (rfl | h) <;> assumption
  · simp [or_comm]

theorem appendOnce_nodup {i : SlotId} {l : List SlotId} (h : l.Nodup) : (appendOnce i l).Nodup := by
  unfold appendOnce
  split
  · exact h
  · next hc =>
    have : i ∉ l := by simpa using hc
    exact List.nodup_append.mpr ⟨h, by simp, by
      intro a ha b hb
      rw [List.mem_singleton.mp hb]
      rintro rfl
      exact this ha⟩

@[simp] theorem isDeferred_joinDeferred_same (i : SlotId) : isDeferred i (joinDeferred i s) = true := by
  rw [isDeferred_iff]
  exact mem_appendOnce.mpr (Or.inl rfl)

theorem isDeferred_joinDeferred (i j : SlotId) :
    isDeferred j (joinDeferred i s) = (decide (j = i) || isDeferred j s) := by
  rw [Bool.eq_iff_iff, isDeferred_iff]
  simp only [joinDeferred, mem_appendOnce, isDeferred_iff, Bool.or_eq_true, decide_eq_true_eq]

theorem isDeferred_leaveDeferred (i j : SlotId) :
    isDeferred j (leaveDeferred i s) = (!decide (j = i) && isDeferred j s) := by
  rw [Bool.eq_iff_iff, isDeferred_iff]
  simp [leaveDeferred, isDeferred, and_comm]

theorem isDeferred_leaveBothLists (i j : SlotId) :
    isDeferred j (leaveBothLists i s) = (!decide (j = i) && isDeferred j s) :=
  isDeferred_leaveDeferred s i j

@[simp] theorem freeEntries_queueNotice (n : NodeId) (m : NoticeMsg) :
    freeEntries (queueNotice n m s) = freeEntries s - 1 := by
  simp [freeEntries, queueNotice, Nat.sub_sub]

@[simp] theorem freeEntries_setEntry (p : Nat) (x : NoticeEntry) : freeEntries (setEntry p x s) = freeEntries s := by
  simp [freeEntries, setEntry]

theorem queueNotice_nq (n : NodeId) (m : NoticeMsg) :
    (queueNotice n m s).nq = s.nq ++ [{ notice := .toNode n (node n s).noticeSeq m, attempts := 0, state := .ready }] :=
  rfl

theorem node_queueNotice (n m : NodeId) (msg : NoticeMsg) :
    node m (queueNotice n msg s)
      = if m = n then { node m s with noticeSeq := (node m s).noticeSeq + 1 } else node m s := by
  unfold queueNotice
  rw [node_modNode]
  rfl

theorem node_returnWait (n m : NodeId) :
    node m (returnWait n s) = if m = n then { node m s with waitCount := (node m s).waitCount - 1 } else node m s := by
  unfold returnWait
  rw [node_modNode]
  rfl

theorem node_recordReply (k : BitVec 4) (r : Request) (y : Reply) (m : NodeId) :
    node m (recordReply k r y s)
      = if m = r.src then { node m s with reply := .stored r.seq k (recordedId k r.body) y } else node m s := by
  unfold recordReply
  rw [node_modNode]

end Sys2Proof.Machine
end

