-- ==== Sys2Proof/Laws/Acts.lean ====
section
/-!
SUPPORT. The vocabulary in which this folder says once what each operation can do: the elementary acts of the part, each
under the conditions in which it happens and with its kind, and runs of acts of given kinds.
-/

namespace Sys2Proof.Machine

/-- The kinds of acts, by what they touch. -/
inductive Kind where
  /-- Waits, holdings, recalls, lists and notices as passes, removals and departures change them. -/
  | claims
  /-- A slot becomes UNUSED. -/
  | freed
  /-- A CLAIM's or a DOWNGRADE's own effect. -/
  | claimed
  /-- A node's revocation count. -/
  | revoke (n : NodeId)
  /-- A slot comes into use. -/
  | provision
  /-- An entry's life state becomes RETIRING. -/
  | retire
  /-- A notice entry becomes IN_FLIGHT. -/
  | send
  | lease (n : NodeId)
  | memory (n : NodeId)
  | session (n : NodeId)
  /-- A session starts. -/
  | start (n : NodeId)
  | evict (n : NodeId)
  | params (n : NodeId)
  | grace
  | line
  | clocks
  | timing
  | halted
  | mailbox
  | flagClear
  | enables
  | picks
  | clear
  | por
  deriving DecidableEq, Repr

/-- Two lists of holdings that differ in recall-target marks only. -/
def sameHoldings (a b : List Holding) : Prop :=
  a.map (fun h => { h with recallTarget := false }) = b.map (fun h => { h with recallTarget := false })

/-- The wait of a node leaves the queue of an entry, and its record leaves use (R46 steps 1 and 2). -/
def dropWait (i : SlotId) (e : Entry) (n : NodeId) (s : State) : State :=
  returnWait n (setSlot i (some { e with queue := e.queue.eraseP fun w => w.node = n }) s)

/-- The holding of a node leaves the holder list of an entry, and its record leaves use (R30 steps 1 and 2). -/
def dropHolding (i : SlotId) (e : Entry) (n : NodeId) (s : State) : State :=
  let s := setSlot i (some { e with holders := e.holders.eraseP fun h => h.node = n }) s
  modNode n (fun r => { r with heldCount := r.heldCount - 1 }) { s with freeHoldings := s.freeHoldings + 1 }

/-- The elementary acts. -/
inductive Act : Kind → State → State → Prop where
  | flag (f : Flag) (s : State) : Act .claims s (setFlag f s)
  | queue (n : NodeId) (m : NoticeMsg) (s : State) (h : freeEntries s ≠ 0) : Act .claims s (queueNotice n m s)
  | eraseNotice (place : Nat) (s : State) : Act .claims s { s with nq := s.nq.eraseIdx place }
  | discard (p : NoticeEntry → Bool) (s : State) :
    Act .claims s { s with nq := s.nq.map fun e => if p e then markDiscard e else e }
  | entryState (place : Nat) (e e' : NoticeEntry) (s : State) (h : s.nq[place]? = some e)
    (hn : e'.notice = e.notice) (ha : e'.attempts = e.attempts ∨ e'.attempts < Config.attemptLimit)
    (hf : isInFlight e' = false) : Act .claims s (setEntry place e' s)
  | joinDeferred (i : SlotId) (s : State) : Act .claims s (joinDeferred i s)
  | leaveDeferred (i : SlotId) (s : State) : Act .claims s (leaveDeferred i s)
  | joinStartList (i : SlotId) (s : State) : Act .claims s (joinStartList i s)
  | leaveStartList (i : SlotId) (s : State) : Act .claims s (leaveStartList i s)
  | retarget (k : RecallId) (r r' : Recall) (s : State) (h : recallAt k s = some r) (hs : r'.slot = r.slot)
    (hw : r'.waiter = r.waiter) (hd : r'.deadline = r.deadline) : Act .claims s (setRecall k (some r') s)
  | openRecall (k : RecallId) (r : Recall) (s : State) (h : recallAt k s = none) (hh : s.svp.halted = false) :
    Act .claims s (openRecall k r s)
  | closeRecall (k : RecallId) (s : State) :
    Act .claims s
      { setRecall k none s with
        rct := { (setRecall k none s).rct with startOrder := s.rct.startOrder.filter (· ≠ k) } }
  | relink (i : SlotId) (e e' : Entry) (s : State) (h : slot i s = some e) (hid : e'.id = e.id)
    (hl : e'.life = e.life) (hs : e'.shareLimit = e.shareLimit) (hr : e'.recallable = e.recallable)
    (hq : e'.queue = e.queue) (hh : sameHoldings e'.holders e.holders) : Act .claims s (setSlot i (some e') s)
  | grant (i : SlotId) (e : Entry) (w : Wait) (rest : List Wait) (s : State) (h : slot i s = some e)
    (hq : e.queue = w :: rest) (hl : e.life = .opened) (hh : s.svp.halted = false) (hf : fits w.mode e = true)
    (hc : (node w.node s).heldCount ≠ (node w.node s).quota) (hp : s.freeHoldings ≠ 0) :
    Act .claims s (returnWait w.node (addHolding i { e with queue := rest } w.node w.mode s))
  | dropWait (i : SlotId) (e : Entry) (n : NodeId) (w : Wait) (s : State) (h : slot i s = some e)
    (hw : waitOf n e = some w) : Act .claims s (dropWait i e n s)
  | dropHolding (i : SlotId) (e : Entry) (n : NodeId) (h : Holding) (s : State) (hs : slot i s = some e)
    (hh : holdingOf n e = some h) : Act .claims s (dropHolding i e n s)
  | freeSlot (i : SlotId) (e : Entry) (s : State) (h : slot i s = some e) (hh : e.holders = [])
    (hq : e.life = .retiring ∨ e.queue = []) : Act .freed s (freeSlot i s)
  | grantNow (i : SlotId) (e : Entry) (n : NodeId) (m : Mode) (s : State) (h : slot i s = some e)
    (hl : e.life = .opened) (hq : e.queue = []) (hf : fits m e = true) (hn : holdingOf n e = none)
    (hc : (node n s).heldCount ≠ (node n s).quota) (hp : s.freeHoldings ≠ 0) :
    Act .claimed s (addHolding i e n m s)
  | addWait (i : SlotId) (e : Entry) (n : NodeId) (m : Mode) (limit : Nat) (s : State) (h : slot i s = some e)
    (hl : e.life = .opened) (hn : holdingOf n e = none) (hw : waitOf n e = none)
    (hq : e.queue.length ≠ Config.waitsPerQueue) (hc : (node n s).waitCount ≠ Config.waitsPerNode)
    (hp : s.freeWaits ≠ 0) : Act .claimed s (addWait i e n m limit s)
  | downgrade (i : SlotId) (e : Entry) (n : NodeId) (h : Holding) (s : State) (hs : slot i s = some e)
    (hh : holdingOf n e = some h) (hm : h.mode = .exclusive) :
    Act .claimed s (afterDraw (drawnToken s) (setSlot i (some (downgradeHolding n (drawnToken s) e)) s))
  | revoke (n : NodeId) (s : State) :
    Act (.revoke n) s
      (modNode n (fun r => { r with revocationCount := min (r.revocationCount + 1) Config.revocationCeiling }) s)
  | provision (i : SlotId) (id : ResourceId) (share : Nat) (recallable : Bool) (s : State) (hl : lookup id s = none)
    (hi : slot i s = none) (h1 : 1 ≤ share) (h8 : share ≤ 8) :
    Act .provision s (setSlot i (some (openEntry id share recallable)) s)
  | retire (i : SlotId) (e : Entry) (s : State) (h : slot i s = some e) :
    Act .retire s (setSlot i (some { e with life := .retiring }) s)
  | send (place : Nat) (e : NoticeEntry) (s : State) (h : s.nq[place]? = some e) (hn : s.nq.any isInFlight = false) :
    Act .send s (setEntry place { e with state := .inFlight false } s)
  | lease (n : NodeId) (s : State) : Act (.lease n) s (renewLease n s)
  | memory (n : NodeId) (m : ReplyMemory) (s : State) : Act (.memory n) s (modNode n (fun r => { r with reply := m }) s)
  | endSession (n : NodeId) (why : SessionEnd) (s : State) (h : isActive (node n s).session = true) :
    Act (.session n) s (modNode n (endSession why) s)
  | leaveLapsed (n : NodeId) (s : State) : Act (.session n) s (modNode n (fun r => { r with session := .absent }) s)
  | startSession (n : NodeId) (s : State) : Act (.start n) s (startSession n s)
  | evict (n : NodeId) (s : State) :
    Act (.evict n) s
      (modNode n
        (fun r => { r with session := .absent, admission := .barred, reply := closeMemory r.reply }) s)
  | params (n : NodeId) (adm : Admission) (term quota : Nat) (s : State) (h : (node n s).session = .absent)
    (h1 : 1 ≤ term) (h2 : term ≤ 255) (h3 : 1 ≤ quota) (h4 : quota ≤ 32) :
    Act (.params n) s (modNode n (fun r => { r with admission := adm, leaseTerm := term, quota := quota }) s)
  | grace (s : State) : Act .grace s { s with nodes := tmap (graceRecord s.dlu.leaseClock) s.nodes }
  | line (l : Lif) (s : State) (h : l.bitPeriod = s.lif.bitPeriod) : Act .line s { s with lif := l }
  | clocks (s : State) : Act .clocks s (advanceClocks s)
  | timing (a b : Nat) (s : State) :
    Act .timing s { s with dlu := { s.dlu with recallTimeout := a, noticeBackoff := b } }
  | halt (s : State) : Act .halted s { s with svp := { s.svp with halted := true } }
  | resume (s : State) : Act .halted s { s with svp := { s.svp with halted := false } }
  | mailbox (c : CmdState) (code : Word) (a b : Vector Word 4) (r : Vector Word 7) (s : State) :
    Act .mailbox s
      { s with svp := { s.svp with cmdState := c, command := code, args := a, captured := b, results := r } }
  | flagClear (d : Word) (s : State) : Act .flagClear s (clearFlags d s)
  | enables (d : Word) (s : State) : Act .enables s (writeEnables d s)
  | picks (k : Nat) (s : State) : Act .picks s { s with picks := k }
  | clear (s : State) :
    Act .clear s (clearQueue { clearDirectory s with nodes := tmap clearRecord (clearDirectory s).nodes })
  | por (r l : Bool) (s : State) :
    Act .por s { State.afterPor r l with picks := s.picks, pending := s.pending }

/-- A run of acts whose kinds are all allowed. -/
inductive Acts (K : Kind → Prop) (s : State) : State → Prop where
  | refl : Acts K s s
  | tail {k : Kind} {t u : State} (h : Acts K s t) (hk : K k) (a : Act k t u) : Acts K s u

namespace Acts

variable {K L : Kind → Prop} {s t u : State}

theorem one {k : Kind} (hk : K k) (a : Act k s t) : Acts K s t := .tail .refl hk a

theorem trans (h : Acts K s t) (g : Acts K t u) : Acts K s u := by
  induction g with
  | refl => exact h
  | tail _ hk a ih => exact .tail ih hk a

theorem mono (h : Acts K s t) (hKL : ∀ k, K k → L k) : Acts L s t := by
  induction h with
  | refl => exact .refl
  | tail _ hk a ih => exact .tail ih (hKL _ hk) a

/-- A property that every allowed act keeps is kept by a run of them. -/
theorem keeps {P : State → Prop} (h : Acts K s t) (hP : ∀ k s t, K k → Act k s t → P s → P t) (h0 : P s) : P t := by
  induction h with
  | refl => exact h0
  | tail _ hk a ih => exact hP _ _ _ hk a ih

/-- A view that every allowed act leaves alone is left alone by a run of them. -/
theorem same {α : Type} {f : State → α} (h : Acts K s t) (hf : ∀ k s t, K k → Act k s t → f t = f s) : f t = f s := by
  induction h with
  | refl => rfl
  | tail _ hk a ih => rw [hf _ _ _ hk a, ih]

/-- A reflexive and transitive relation that every allowed act meets holds along a run of them. -/
theorem rel {R : State → State → Prop} (h : Acts K s t) (hr : ∀ s, R s s) (ht : ∀ a b c, R a b → R b c → R a c)
    (hR : ∀ k s t, K k → Act k s t → R s t) : R s t := by
  induction h with
  | refl => exact hr s
  | tail _ hk a ih => exact ht _ _ _ ih (hR _ _ _ hk a)

end Acts

/-- The kinds of acts that leave every node record as it is, but for what becomes of its holdings, waits and notices. -/
def Kind.plain : Kind → Bool
  | .claims | .freed | .claimed | .provision | .retire | .send | .line | .clocks | .timing | .halted | .mailbox
  | .flagClear | .enables | .picks => true
  | .revoke _ | .lease _ | .memory _ | .session _ | .start _ | .evict _ | .params _ | .grace | .clear | .por => false

theorem keepsRecord_refl (a : NodeRecord) : keepsRecord a a := ⟨rfl, rfl, rfl, rfl, rfl, rfl, rfl⟩

theorem keepsRecord_trans {a b c : NodeRecord} (h : keepsRecord a b) (g : keepsRecord b c) : keepsRecord a c := by
  obtain ⟨h1, h2, h3, h4, h5, h6, h7⟩ := h
  obtain ⟨g1, g2, g3, g4, g5, g6, g7⟩ := g
  exact ⟨g1.trans h1, g2.trans h2, g3.trans h3, g4.trans h4, g5.trans h5, g6.trans h6, g7.trans h7⟩

theorem modNode_keepsRecord (n m : NodeId) (f : NodeRecord → NodeRecord) (s : State)
    (h : ∀ r, keepsRecord r (f r)) : keepsRecord (node m s) (node m (modNode n f s)) := by
  rw [node_modNode]
  split
  · exact h _
  · exact keepsRecord_refl _

theorem freeSlot_node (i : SlotId) (m : NodeId) (s : State) : node m (freeSlot i s) = node m s := by
  unfold freeSlot
  split <;> rfl

theorem Act.record {k : Kind} {s t : State} (a : Act k s t) (hk : k.plain = true) (m : NodeId) :
    keepsRecord (node m s) (node m t) := by
  cases a with
  | queue n => exact modNode_keepsRecord n m _ _ fun _ => ⟨rfl, rfl, rfl, rfl, rfl, rfl, rfl⟩
  | grant i e w rest =>
    refine keepsRecord_trans (b := node m (addHolding i { e with queue := rest } w.node w.mode s)) ?_ ?_
    · exact modNode_keepsRecord w.node m _ _ fun _ => ⟨rfl, rfl, rfl, rfl, rfl, rfl, rfl⟩
    · exact modNode_keepsRecord w.node m _ _ fun _ => ⟨rfl, rfl, rfl, rfl, rfl, rfl, rfl⟩
  | dropWait i e n => exact modNode_keepsRecord n m _ _ fun _ => ⟨rfl, rfl, rfl, rfl, rfl, rfl, rfl⟩
  | dropHolding i e n => exact modNode_keepsRecord n m _ _ fun _ => ⟨rfl, rfl, rfl, rfl, rfl, rfl, rfl⟩
  | freeSlot i => exact freeSlot_node i m s ▸ keepsRecord_refl _
  | grantNow i e n => exact modNode_keepsRecord n m _ _ fun _ => ⟨rfl, rfl, rfl, rfl, rfl, rfl, rfl⟩
  | addWait i e n => exact modNode_keepsRecord n m _ _ fun _ => ⟨rfl, rfl, rfl, rfl, rfl, rfl, rfl⟩
  | revoke | lease | memory | endSession | leaveLapsed | startSession | evict | params | grace | clear | por =>
    cases hk
  | _ => exact keepsRecord_refl _

/-- A run of passes, removals and departures without revocation: acts of kind `claims` only. -/
abbrev Ripples (s t : State) : Prop := Acts (· = .claims) s t

end Sys2Proof.Machine
end

