-- ==== Sys2Proof/Laws/Keeps.lean ====
section
/-!
SUPPORT. What every elementary act keeps of the laws of Safety.lean, act by act.
-/

namespace Sys2Proof.Machine

/-! ### Laws of each entry -/

theorem entries_of_set {P : Entry → Prop} {s t : State} {j : SlotId} {o : Option Entry}
    (ht : t.dir.slots = tset s.dir.slots j o) (ho : ∀ e, o = some e → P e) (h : ∀ i e, slot i s = some e → P e) :
    ∀ i e, slot i t = some e → P e := by
  intro i e he
  rw [slot, ht, tget_tset] at he
  split at he
  · exact ho e he
  · exact h i e he

theorem entries_of_same {P : Entry → Prop} {s t : State} (ht : t.dir.slots = s.dir.slots)
    (h : ∀ i e, slot i s = some e → P e) : ∀ i e, slot i t = some e → P e := by
  intro i e he
  exact h i e (by rwa [slot, ht] at he)

theorem freeSlot_slots {i : SlotId} {s : State} {e : Entry} (h : slot i s = some e) :
    (freeSlot i s).dir.slots = tset s.dir.slots i none := by
  simp [freeSlot, h, leaveBothLists, leaveDeferred, leaveStartList, setSlot, setFlag]

theorem renewLease_slots (n : NodeId) (s : State) : (renewLease n s).dir = s.dir := by
  unfold renewLease
  split <;> rfl

theorem clear_slots (s : State) :
    (clearQueue { clearDirectory s with nodes := tmap clearRecord (clearDirectory s).nodes }).dir.slots
      = tmap clearSlot s.dir.slots := by
  unfold clearQueue clearDirectory
  dsimp only
  split <;> rfl

/-- A law of entries that the changes an act makes to one entry keep, and that an entry without holdings and waits has. -/
structure EntryLaw (P : Entry → Prop) : Prop where
  relink : ∀ e e' : Entry, e'.life = e.life → e'.shareLimit = e.shareLimit → e'.queue = e.queue →
    sameHoldings e'.holders e.holders → P e → P e'
  grant : ∀ (e : Entry) (w : Wait) (rest : List Wait) (h : Holding), e.queue = w :: rest → e.life = .opened →
    fits w.mode e = true → h.node = w.node → h.mode = w.mode → P e →
    P { e with queue := rest, holders := e.holders ++ [h] }
  dropWait : ∀ (e : Entry) (n : NodeId), P e → P { e with queue := e.queue.eraseP fun w => w.node = n }
  dropHolding : ∀ (e : Entry) (n : NodeId), P e → P { e with holders := e.holders.eraseP fun h => h.node = n }
  grantNow : ∀ (e : Entry) (h : Holding), e.queue = [] → e.life = .opened → fits h.mode e = true →
    holdingOf h.node e = none → P e → P { e with holders := e.holders ++ [h] }
  addWait : ∀ (e : Entry) (w : Wait), e.life = .opened → holdingOf w.node e = none → waitOf w.node e = none → P e →
    P { e with queue := e.queue ++ [w] }
  downgrade : ∀ (e : Entry) (n : NodeId) (h : Holding) (t : Token), holdingOf n e = some h → h.mode = .exclusive → P e →
    P (downgradeHolding n t e)
  retire : ∀ e : Entry, P e → P { e with life := .retiring }
  opened : ∀ id share recallable, 1 ≤ share → share ≤ 8 → P (openEntry id share recallable)
  clear : ∀ e : Entry, P e → P { e with holders := [], queue := [], recallSlot := none }

theorem EntryLaw.act {P : Entry → Prop} (L : EntryLaw P) {k : Kind} {s t : State} (a : Act k s t)
    (h : ∀ i e, slot i s = some e → P e) : ∀ i e, slot i t = some e → P e := by
  cases a with
  | relink i e e' _ hi hid hl hs hr hq hh =>
    refine entries_of_set (j := i) (o := some e') rfl (fun f hf => ?_) h
    cases hf
    exact L.relink e e' hl hs hq hh (h i e hi)
  | grant i e w rest _ hi hq hl hh hf hc hp =>
    refine entries_of_set (j := i) (o := some _) rfl (fun f hf' => ?_) h
    cases hf'
    exact L.grant e w rest _ hq hl hf rfl rfl (h i e hi)
  | dropWait i e n w _ hi hw =>
    refine entries_of_set (j := i) (o := some _) rfl (fun f hf' => ?_) h
    cases hf'
    exact L.dropWait e n (h i e hi)
  | dropHolding i e n x _ hi hx =>
    refine entries_of_set (j := i) (o := some _) rfl (fun f hf' => ?_) h
    cases hf'
    exact L.dropHolding e n (h i e hi)
  | freeSlot i e _ hi hh hq =>
    refine entries_of_set (j := i) (o := none) (freeSlot_slots hi) (fun f hf' => ?_) h
    cases hf'
  | grantNow i e n m _ hi hl hq hf hn hc hp =>
    refine entries_of_set (j := i) (o := some _) rfl (fun f hf' => ?_) h
    cases hf'
    exact L.grantNow e _ hq hl hf hn (h i e hi)
  | addWait i e n m limit _ hi hl hn hw hq hc hp =>
    refine entries_of_set (j := i) (o := some _) rfl (fun f hf' => ?_) h
    cases hf'
    exact L.addWait e _ hl hn hw (h i e hi)
  | downgrade i e n x _ hi hx hm =>
    refine entries_of_set (j := i) (o := some _) rfl (fun f hf' => ?_) h
    cases hf'
    exact L.downgrade e n x _ hx hm (h i e hi)
  | provision i id share recallable _ hl hi h1 h8 =>
    refine entries_of_set (j := i) (o := some _) rfl (fun f hf' => ?_) h
    cases hf'
    exact L.opened id share recallable h1 h8
  | retire i e _ hi =>
    refine entries_of_set (j := i) (o := some _) rfl (fun f hf' => ?_) h
    cases hf'
    exact L.retire e (h i e hi)
  | lease n => exact entries_of_same (by rw [renewLease_slots]) h
  | clear =>
    intro i e he
    rw [slot, clear_slots, tget_tmap] at he
    cases hs : tget s.dir.slots i with
    | none => rw [hs] at he; cases he
    | some f =>
      rw [hs] at he
      simp only [clearSlot] at he
      split at he
      · cases he
        exact L.clear f (h i f hs)
      · cases he
  | por r l =>
    intro i e he
    simp [slot, State.afterPor] at he
  | _ => exact entries_of_same rfl h

theorem sameHoldings_length {a b : List Holding} (h : sameHoldings a b) : a.length = b.length := by
  simpa using congrArg List.length h

theorem sameHoldings_modes {a b : List Holding} (h : sameHoldings a b) : a.map (·.mode) = b.map (·.mode) := by
  have := congrArg (List.map (·.mode)) h
  simpa [List.map_map, Function.comp_def] using this

theorem sameHoldings_tokens {a b : List Holding} (h : sameHoldings a b) : a.map (·.token) = b.map (·.token) := by
  have := congrArg (List.map (·.token)) h
  simpa [List.map_map, Function.comp_def] using this

/-- The law of R5 said of the modes alone. -/
theorem lawful_iff (e : Entry) :
    e.lawful ↔ 1 ≤ e.shareLimit ∧ e.shareLimit ≤ 8 ∧ e.holders.length ≤ e.shareLimit
      ∧ (Mode.exclusive ∈ e.holders.map (·.mode) → e.holders.length = 1) := by
  unfold Entry.lawful
  refine and_congr_right fun _ => and_congr_right fun _ => and_congr_right fun _ => ?_
  constructor
  · intro h hm
    obtain ⟨x, hx, hxm⟩ := List.mem_map.mp hm
    simp [h x hx hxm]
  · intro h x hx hm
    have h1 := h (List.mem_map.mpr ⟨x, hx, hm⟩)
    obtain ⟨y, hy⟩ := List.length_eq_one_iff.mp h1
    rw [hy] at hx ⊢
    rw [List.mem_singleton.mp hx]

theorem lawful_law : EntryLaw Entry.lawful where
  relink e e' hl hs hq hh h := by
    rw [lawful_iff] at h ⊢
    rwa [hs, sameHoldings_length hh, sameHoldings_modes hh]
  grant e w rest x hq hl hf hn hm h := by
    rw [lawful_iff] at h ⊢
    obtain ⟨h1, h2, h3, h4⟩ := h
    refine ⟨h1, h2, ?_, ?_⟩
    · simp only [List.length_append, List.length_singleton]
      cases hw : w.mode <;> simp [fits, hw] at hf
      · have := hf.2; omega
      · simp [hf]; omega
    · simp only [List.map_append, List.map_cons, List.map_nil, List.mem_append, List.mem_singleton,
        List.length_append, List.length_singleton]
      cases hw : w.mode <;> simp [fits, hw] at hf
      · rintro (h | h)
        · obtain ⟨y, hy, hym⟩ := List.mem_map.mp h
          rw [hf.1 y hy] at hym
          cases hym
        · rw [hm, hw] at h; cases h
      · simp [hf]
  dropWait e n h := h
  dropHolding e n h := by
    rw [lawful_iff] at h ⊢
    obtain ⟨h1, h2, h3, h4⟩ := h
    have hl := (List.eraseP_sublist (p := fun h => decide (h.node = n)) (l := e.holders))
    refine ⟨h1, h2, hl.length_le.trans h3, ?_⟩
    intro hm
    have h5 := h4 ((hl.map _).subset hm)
    have h6 : (e.holders.eraseP fun h => decide (h.node = n)).length ≠ 0 := by
      intro h0
      rw [List.length_eq_zero_iff.mp h0] at hm
      cases hm
    have := hl.length_le
    dsimp only at this ⊢
    omega
  grantNow e x hq hl hf hn h := by
    rw [lawful_iff] at h ⊢
    obtain ⟨h1, h2, h3, h4⟩ := h
    refine ⟨h1, h2, ?_, ?_⟩
    · simp only [List.length_append, List.length_singleton]
      cases hw : x.mode <;> simp [fits, hw] at hf
      · have := hf.2; omega
      · simp [hf]; omega
    · simp only [List.map_append, List.map_cons, List.map_nil, List.mem_append, List.mem_singleton,
        List.length_append, List.length_singleton]
      cases hw : x.mode <;> simp [fits, hw] at hf
      · rintro (h | h)
        · obtain ⟨y, hy, hym⟩ := List.mem_map.mp h
          rw [hf.1 y hy] at hym
          cases hym
        · cases h
      · simp [hf]
  addWait e w hl hn hw h := h
  downgrade e n x t hx hm h := by
    obtain ⟨h1, h2, h3, h4⟩ := h
    have hx' : x ∈ e.holders := List.mem_of_find?_eq_some hx
    have hn : x.node = n := by simpa using List.find?_some hx
    have he := h4 x hx' hm
    refine ⟨h1, h2, by simpa [downgradeHolding] using h3, ?_⟩
    intro y hy
    simp only [downgradeHolding, he, List.map_cons, List.map_nil, hn, if_true, List.mem_singleton] at hy
    subst hy
    intro hc
    cases hc
  retire e h := h
  opened id share recallable h1 h8 := by
    refine ⟨h1, h8, ?_, ?_⟩
    · simp [openEntry]
    · intro h hh
      cases hh
  clear e h := by
    obtain ⟨h1, h2, -, -⟩ := h
    refine ⟨h1, h2, by simp, ?_⟩
    intro x hx
    cases hx

/-- The nodes that hold or wait are all different. -/
abbrev Entry.membersNodup (e : Entry) : Prop := (e.holders.map (·.node) ++ e.queue.map (·.node)).Nodup

theorem members_law : EntryLaw Entry.membersNodup where
  relink e e' hl hs hq hh h := by
    have : e'.holders.map (·.node) = e.holders.map (·.node) := by
      have := congrArg (List.map (·.node)) hh
      simpa [List.map_map, Function.comp_def] using this
    unfold Entry.membersNodup
    rwa [hq, this]
  grant e w rest x hq hl hf hn hm h := by
    unfold Entry.membersNodup at h ⊢
    rw [hq] at h
    simpa [hn] using h
  dropWait e n h := h.sublist ((List.Sublist.refl _).append (List.eraseP_sublist.map _))
  dropHolding e n h := h.sublist ((List.eraseP_sublist.map _).append (List.Sublist.refl _))
  grantNow e x hq hl hf hn h := by
    unfold Entry.membersNodup at h ⊢
    rw [hq, List.map_nil, List.append_nil] at h
    have : x.node ∉ e.holders.map (·.node) := by unfold holdingOf at hn; simpa using hn
    simp only [hq, List.map_append, List.map_cons, List.map_nil, List.append_nil]
    rw [← List.concat_eq_append]
    exact h.concat this
  addWait e w hl hn hw h := by
    unfold Entry.membersNodup at h ⊢
    have h1 : w.node ∉ e.holders.map (·.node) := by unfold holdingOf at hn; simpa using hn
    have h2 : w.node ∉ e.queue.map (·.node) := by unfold waitOf at hw; simpa using hw
    simp only [List.map_append, List.map_cons, List.map_nil, ← List.append_assoc]
    rw [← List.concat_eq_append]
    refine h.concat ?_
    rw [List.mem_append]
    exact fun h => h.elim h1 h2
  downgrade e n x t hx hm h := by
    have : (downgradeHolding n t e).holders.map (·.node) = e.holders.map (·.node) := by
      simp only [downgradeHolding, List.map_map]
      refine List.map_congr_left fun y _ => ?_
      simp only [Function.comp_apply]
      split <;> rfl
    unfold Entry.membersNodup
    rw [this]
    exact h
  retire e h := h
  opened id share recallable h1 h8 := List.nodup_nil
  clear e h := List.nodup_nil

/-! ### The notice queue -/

theorem isInFlight_markDiscard (e : NoticeEntry) : isInFlight (markDiscard e) = isInFlight e := by
  obtain ⟨nt, a, st⟩ := e
  cases st <;> rfl

theorem attempts_markDiscard (e : NoticeEntry) : (markDiscard e).attempts = e.attempts := by
  unfold markDiscard
  split <;> rfl

theorem noticesLawful_of_nq {s t : State} (h : t.nq = s.nq) (hs : noticesLawful s) : noticesLawful t := by
  unfold noticesLawful at hs ⊢
  rwa [h]

theorem freeSlot_nq (i : SlotId) (s : State) : (freeSlot i s).nq = s.nq := by
  unfold freeSlot
  split <;> rfl

theorem renewLease_nq (n : NodeId) (s : State) : (renewLease n s).nq = s.nq := by
  unfold renewLease
  split <;> rfl

theorem clear_nq (s : State) :
    (clearQueue { clearDirectory s with nodes := tmap clearRecord (clearDirectory s).nodes }).nq
      = (s.nq.filter isInFlight).map markDiscard
        ++ [{ notice := .announce (s.dir.epoch + 1), attempts := 0, state := .ready }] := by
  unfold clearQueue clearDirectory
  dsimp only
  split <;> rfl

theorem countP_set_le {α : Type} (p : α → Bool) (l : List α) (k : Nat) (x : α) (h : p x = false) :
    (l.set k x).countP p ≤ l.countP p := by
  induction l generalizing k with
  | nil => simp
  | cons y ys ih =>
    cases k with
    | zero =>
      simp only [List.set_cons_zero, List.countP_cons, h]
      simp
    | succ k =>
      simp only [List.set_cons_succ, List.countP_cons]
      have := ih k
      omega

theorem countP_set_le_succ {α : Type} (p : α → Bool) (l : List α) (k : Nat) (x : α) :
    (l.set k x).countP p ≤ l.countP p + 1 := by
  induction l generalizing k with
  | nil => simp
  | cons y ys ih =>
    cases k with
    | zero =>
      simp only [List.set_cons_zero, List.countP_cons]
      split <;> split <;> omega
    | succ k =>
      simp only [List.set_cons_succ, List.countP_cons]
      have := ih k
      omega

theorem Act.notices {k : Kind} {s t : State} (a : Act k s t) (h : noticesLawful s) : noticesLawful t := by
  have h0 := h
  obtain ⟨h1, h2, h3⟩ := h
  cases a with
  | queue n m _ hf =>
    have hlen : Config.noticeEntries - s.nq.length ≠ 0 := hf
    refine ⟨?_, ?_, ?_⟩
    · simp only [queueNotice_nq, List.length_append, List.length_singleton]
      omega
    · simpa [queueNotice_nq, isInFlight] using h2
    · intro e he
      rw [queueNotice_nq, List.mem_append, List.mem_singleton] at he
      rcases he with he | rfl
      · exact h3 e he
      · show 0 < Config.attemptLimit
        decide
  | eraseNotice place =>
    have hs : (s.nq.eraseIdx place).Sublist s.nq := List.eraseIdx_sublist _ _
    exact ⟨hs.length_le.trans h1, (hs.countP_le).trans h2, fun e he => h3 e (hs.subset he)⟩
  | discard p =>
    refine ⟨by simpa using h1, ?_, ?_⟩
    · rw [List.countP_map]
      refine le_trans (le_of_eq ?_) h2
      congr 1
      funext e
      simp only [Function.comp_apply]
      split
      · exact isInFlight_markDiscard e
      · rfl
    · intro e he
      obtain ⟨f, hf, rfl⟩ := List.mem_map.mp he
      split
      · rw [attempts_markDiscard]
        exact h3 f hf
      · exact h3 f hf
  | entryState place e e' _ he hn ha hf =>
    refine ⟨by simpa [setEntry] using h1, (countP_set_le _ _ _ _ hf).trans h2, ?_⟩
    intro f hf'
    rcases List.mem_or_eq_of_mem_set hf' with hm | rfl
    · exact h3 f hm
    · rcases ha with ha | ha
      · rw [ha]
        exact h3 e (List.mem_of_getElem? he)
      · exact ha
  | send place e _ he hn =>
    refine ⟨by simpa [setEntry] using h1, ?_, ?_⟩
    · refine (countP_set_le_succ _ _ _ _).trans ?_
      have : s.nq.countP isInFlight = 0 := by
        rw [List.countP_eq_zero]
        intro f hf
        simpa using List.any_eq_false.mp hn f hf
      omega
    · intro f hf'
      rcases List.mem_or_eq_of_mem_set hf' with hm | rfl
      · exact h3 f hm
      · exact h3 e (List.mem_of_getElem? he)
  | clear =>
    have h4 : (s.nq.filter isInFlight).length ≤ 1 := by rwa [← List.countP_eq_length_filter]
    unfold noticesLawful
    rw [clear_nq]
    refine ⟨?_, ?_, ?_⟩
    · simp only [List.length_append, List.length_map, List.length_singleton]
      have : Config.noticeEntries = 16 := rfl
      omega
    · rw [List.countP_append]
      have h5 := List.countP_le_length (p := isInFlight) (l := (s.nq.filter isInFlight).map markDiscard)
      rw [List.length_map] at h5
      have h6 : [({ notice := .announce (s.dir.epoch + 1), attempts := 0, state := .ready } : NoticeEntry)].countP
          isInFlight = 0 := rfl
      omega
    · intro e he
      rw [List.mem_append, List.mem_singleton] at he
      rcases he with he | rfl
      · obtain ⟨f, hf, rfl⟩ := List.mem_map.mp he
        rw [attempts_markDiscard]
        exact h3 f (List.mem_filter.mp hf).1
      · show 0 < Config.attemptLimit
        decide
  | por =>
    refine ⟨?_, ?_, ?_⟩
    · show 1 ≤ Config.noticeEntries
      decide
    · show List.countP isInFlight _ ≤ 1
      exact List.countP_le_length
    · intro e he
      have he : e ∈ [({ notice := .announce 0, attempts := 0, state := .ready } : NoticeEntry)] := he
      rw [List.mem_singleton.mp he]
      show 0 < Config.attemptLimit
      decide
  | freeSlot => exact noticesLawful_of_nq (freeSlot_nq _ _) h0
  | lease => exact noticesLawful_of_nq (renewLease_nq _ _) h0
  | _ => exact noticesLawful_of_nq rfl h0

/-! ### The two lists -/

theorem freeSlot_deferred_nodup (i : SlotId) (s : State) (h : listsLawful s) : listsLawful (freeSlot i s) := by
  unfold freeSlot
  split
  · exact h
  · exact ⟨h.1.filter _, h.2.filter _⟩

theorem clear_lists (s : State) :
    (clearQueue { clearDirectory s with nodes := tmap clearRecord (clearDirectory s).nodes }).dir.deferred = []
      ∧ (clearQueue { clearDirectory s with nodes := tmap clearRecord (clearDirectory s).nodes }).rct
        = { slots := Vector.replicate 8 none, startOrder := [], startList := [] } := by
  unfold clearQueue clearDirectory
  dsimp only
  split <;> exact ⟨rfl, rfl⟩

theorem renewLease_rct (n : NodeId) (s : State) : (renewLease n s).rct = s.rct := by
  unfold renewLease
  split <;> rfl

theorem Act.lists {k : Kind} {s t : State} (a : Act k s t) (h : listsLawful s) : listsLawful t := by
  cases a with
  | joinDeferred => exact ⟨appendOnce_nodup h.1, h.2⟩
  | leaveDeferred => exact ⟨h.1.filter _, h.2⟩
  | joinStartList => exact ⟨h.1, appendOnce_nodup h.2⟩
  | leaveStartList => exact ⟨h.1, h.2.filter _⟩
  | freeSlot => exact freeSlot_deferred_nodup _ _ h
  | lease n =>
    unfold listsLawful
    rw [renewLease_slots, renewLease_rct]
    exact h
  | clear =>
    unfold listsLawful
    rw [(clear_lists s).1, (clear_lists s).2]
    exact ⟨List.nodup_nil, List.nodup_nil⟩
  | por => exact ⟨List.nodup_nil, List.nodup_nil⟩
  | _ => exact h

/-! ### The recall slots -/

theorem recallsLawful_of_rct {s t : State} (h : t.rct = s.rct) (hs : recallsLawful s) : recallsLawful t := by
  unfold recallsLawful at hs ⊢
  simp only [recallAt] at hs ⊢
  rwa [h]

theorem freeSlot_recalls (i : SlotId) (s : State) (h : recallsLawful s) : recallsLawful (freeSlot i s) := by
  unfold freeSlot
  split
  · exact h
  · exact h

theorem Act.recalls {k : Kind} {s t : State} (a : Act k s t) (h : recallsLawful s) : recallsLawful t := by
  have h0 := h
  obtain ⟨h1, h2⟩ := h
  cases a with
  | retarget k r r' _ hk =>
    refine ⟨h1, fun q => ?_⟩
    rw [recallAt_setRecall]
    show q ∈ s.rct.startOrder ↔ _
    rw [h2]
    split
    · next hq => rw [hq, hk]; simp
    · rfl
  | openRecall k r _ hk =>
    have hm : k ∉ s.rct.startOrder := by rw [h2, hk]; simp
    refine ⟨?_, fun q => ?_⟩
    · show (s.rct.startOrder ++ [k]).Nodup
      rw [← List.concat_eq_append]
      exact h1.concat hm
    · show q ∈ s.rct.startOrder ++ [k] ↔ (recallAt q (setRecall k (some r) s)).isSome = true
      rw [recallAt_setRecall, List.mem_append, List.mem_singleton, h2]
      split
      · next hq => simp [hq]
      · next hq => simp [hq]
  | closeRecall k =>
    refine ⟨h1.filter _, fun q => ?_⟩
    show q ∈ s.rct.startOrder.filter (· ≠ k) ↔ (recallAt q (setRecall k none s)).isSome = true
    rw [recallAt_setRecall, List.mem_filter, h2]
    split
    · next hq => simp [hq]
    · next hq => simp [hq]
  | freeSlot => exact freeSlot_recalls _ _ h0
  | lease n => exact recallsLawful_of_rct (renewLease_rct n s) h0
  | clear =>
    unfold recallsLawful
    simp only [recallAt]
    rw [(clear_lists s).2]
    simp
  | por => simp [recallsLawful, recallAt, State.afterPor]
  | _ => exact h0

/-! ### Ids -/

/-- Every IN_USE slot had its id before. -/
def idsFrom (s t : State) : Prop := ∀ i e', slot i t = some e' → ∃ e, slot i s = some e ∧ e.id = e'.id

theorem idsDistinct_of_from {s t : State} (h : idsFrom s t) (hs : idsDistinct s) : idsDistinct t := by
  intro i j e f he hf hid
  obtain ⟨e0, he0, h1⟩ := h i e he
  obtain ⟨f0, hf0, h2⟩ := h j f hf
  exact hs i j e0 f0 he0 hf0 (by rw [h1, h2, hid])

theorem idsFrom_set {s t : State} {i : SlotId} {e : Entry} {o : Option Entry} (hi : slot i s = some e)
    (ht : t.dir.slots = tset s.dir.slots i o) (ho : ∀ e', o = some e' → e'.id = e.id) : idsFrom s t := by
  intro j e' he'
  rw [slot, ht, tget_tset] at he'
  split at he'
  · next hj => exact ⟨e, hj ▸ hi, (ho e' he').symm⟩
  · exact ⟨e', he', rfl⟩

theorem idsFrom_same {s t : State} (ht : t.dir.slots = s.dir.slots) : idsFrom s t := by
  intro j e' he'
  exact ⟨e', by rwa [slot, ht] at he', rfl⟩

theorem lookup_none {id : ResourceId} {s : State} (h : lookup id s = none) (i : SlotId) (e : Entry)
    (hi : slot i s = some e) : e.id ≠ id := by
  intro hid
  unfold lookup at h
  cases hf : tfind (fun o => o.any fun e => decide (e.id = id)) s.dir.slots with
  | none =>
    have := tfind_none hf i
    rw [← slot, hi] at this
    simp [hid] at this
  | some j =>
    have := tfind_some hf
    rw [hf, Option.bind_some] at h
    rw [← slot] at this
    cases hj : slot j s with
    | none => rw [hj] at this; cases this
    | some f => rw [hj] at h; cases h

theorem Act.ids {k : Kind} {s t : State} (a : Act k s t) (h : idsDistinct s) : idsDistinct t := by
  cases a with
  | relink i e e' _ hi hid =>
    exact idsDistinct_of_from (idsFrom_set (o := some e') hi rfl fun f hf => by cases hf; exact hid) h
  | grant i e w rest _ hi =>
    exact idsDistinct_of_from (idsFrom_set (o := some _) hi rfl fun f hf => by cases hf; rfl) h
  | dropWait i e n w _ hi =>
    exact idsDistinct_of_from (idsFrom_set (o := some _) hi rfl fun f hf => by cases hf; rfl) h
  | dropHolding i e n x _ hi =>
    exact idsDistinct_of_from (idsFrom_set (o := some _) hi rfl fun f hf => by cases hf; rfl) h
  | freeSlot i e _ hi =>
    exact idsDistinct_of_from (idsFrom_set (o := none) hi (freeSlot_slots hi) fun f hf => by cases hf) h
  | grantNow i e n m _ hi =>
    exact idsDistinct_of_from (idsFrom_set (o := some _) hi rfl fun f hf => by cases hf; rfl) h
  | addWait i e n m limit _ hi =>
    exact idsDistinct_of_from (idsFrom_set (o := some _) hi rfl fun f hf => by cases hf; rfl) h
  | downgrade i e n x _ hi =>
    exact idsDistinct_of_from (idsFrom_set (o := some _) hi rfl fun f hf => by cases hf; rfl) h
  | retire i e _ hi =>
    exact idsDistinct_of_from (idsFrom_set (o := some _) hi rfl fun f hf => by cases hf; rfl) h
  | provision i id share recallable _ hl hi =>
    intro a b e f he hf hid
    rw [slot_setSlot] at he hf
    split at he <;> split at hf
    · next ha hb => rw [ha, hb]
    · cases he
      exact absurd hid.symm (lookup_none hl b f hf)
    · cases hf
      exact absurd hid (lookup_none hl a e he)
    · exact h a b e f he hf hid
  | lease n => exact idsDistinct_of_from (idsFrom_same (by rw [renewLease_slots])) h
  | clear =>
    refine idsDistinct_of_from ?_ h
    intro i e' he'
    rw [slot, clear_slots, tget_tmap] at he'
    cases hs : tget s.dir.slots i with
    | none => rw [hs] at he'; cases he'
    | some f =>
      rw [hs] at he'
      simp only [clearSlot] at he'
      split at he'
      · cases he'
        exact ⟨f, hs, rfl⟩
      · cases he'
  | por =>
    intro i j e f he
    simp [slot, State.afterPor] at he
  | _ => exact idsDistinct_of_from (idsFrom_same rfl) h

/-! ### What an entry keeps -/

theorem keepsEntries_refl (s : State) : keepsEntries s s := fun _ e h => ⟨e, h, rfl, rfl, rfl, rfl⟩

theorem keepsEntries_trans {s t u : State} (h : keepsEntries s t) (g : keepsEntries t u) : keepsEntries s u := by
  intro i e' he'
  obtain ⟨e1, h1, a1, a2, a3, a4⟩ := g i e' he'
  obtain ⟨e, h0, b1, b2, b3, b4⟩ := h i e1 h1
  exact ⟨e, h0, a1.trans b1, a2.trans b2, a3.trans b3, a4.trans b4⟩

theorem keepsEntries_same {s t : State} (h : t.dir.slots = s.dir.slots) : keepsEntries s t :=
  fun i e he => ⟨e, by rwa [slot, h] at he, rfl, rfl, rfl, rfl⟩

theorem keepsEntries_set {s t : State} {i : SlotId} {e : Entry} {o : Option Entry} (hi : slot i s = some e)
    (ht : t.dir.slots = tset s.dir.slots i o)
    (ho : ∀ e', o = some e' → e'.id = e.id ∧ e'.life = e.life ∧ e'.shareLimit = e.shareLimit
      ∧ e'.recallable = e.recallable) : keepsEntries s t := by
  intro j e' he'
  rw [slot, ht, tget_tset] at he'
  split at he'
  · next hj => exact ⟨e, hj ▸ hi, ho e' he'⟩
  · exact ⟨e', he', rfl, rfl, rfl, rfl⟩

/-- No act but PROVISION, RETIRE, CLEAR_CLAIMS and POR changes an entry's provisioning or life state, or brings a slot
into use. -/
theorem Act.entriesKept {k : Kind} {s t : State} (a : Act k s t)
    (hk : k ≠ .provision ∧ k ≠ .retire ∧ k ≠ .clear ∧ k ≠ .por) : keepsEntries s t := by
  obtain ⟨k1, k2, k3, k4⟩ := hk
  cases a with
  | relink i e e' _ hi hid hl hs hr =>
    exact keepsEntries_set (o := some e') hi rfl fun f hf => by cases hf; exact ⟨hid, hl, hs, hr⟩
  | grant i e w rest _ hi =>
    exact keepsEntries_set (o := some _) hi rfl fun f hf => by cases hf; exact ⟨rfl, rfl, rfl, rfl⟩
  | dropWait i e n w _ hi =>
    exact keepsEntries_set (o := some _) hi rfl fun f hf => by cases hf; exact ⟨rfl, rfl, rfl, rfl⟩
  | dropHolding i e n x _ hi =>
    exact keepsEntries_set (o := some _) hi rfl fun f hf => by cases hf; exact ⟨rfl, rfl, rfl, rfl⟩
  | freeSlot i e _ hi => exact keepsEntries_set (o := none) hi (freeSlot_slots hi) fun f hf => by cases hf
  | grantNow i e n m _ hi =>
    exact keepsEntries_set (o := some _) hi rfl fun f hf => by cases hf; exact ⟨rfl, rfl, rfl, rfl⟩
  | addWait i e n m limit _ hi =>
    exact keepsEntries_set (o := some _) hi rfl fun f hf => by cases hf; exact ⟨rfl, rfl, rfl, rfl⟩
  | downgrade i e n x _ hi =>
    exact keepsEntries_set (o := some _) hi rfl fun f hf => by cases hf; exact ⟨rfl, rfl, rfl, rfl⟩
  | provision => exact absurd rfl k1
  | retire => exact absurd rfl k2
  | clear => exact absurd rfl k3
  | por => exact absurd rfl k4
  | lease n => exact keepsEntries_same (by rw [renewLease_slots])
  | _ => exact keepsEntries_same rfl

end Sys2Proof.Machine
end

