-- ==== Sys2Proof/Laws/Counts.lean ====
section
/-!
SUPPORT. What every elementary act keeps of the laws that count over the whole directory: pools, counts, tokens; and
of the node records' laws.
-/

namespace Sys2Proof.Machine

/-! ### Lists gathered over the directory -/

/-- What a slot contributes to a list gathered over the directory. -/
def ofSlot {α : Type} (f : Entry → List α) (o : Option Entry) : List α := o.elim [] f

theorem flatMap_set {α : Type} (f : Entry → List α) (l : List (Option Entry)) (k : Nat) (hk : k < l.length) :
    ∃ R, ((l.filterMap id).flatMap f).Perm (ofSlot f l[k] ++ R)
      ∧ ∀ o, (((l.set k o).filterMap id).flatMap f).Perm (ofSlot f o ++ R) := by
  induction l generalizing k with
  | nil => cases hk
  | cons x xs ih =>
    have hcons : ∀ y : Option Entry, ((y :: xs).filterMap id).flatMap f = ofSlot f y ++ (xs.filterMap id).flatMap f := by
      intro y
      cases y <;> simp [ofSlot]
    cases k with
    | zero => exact ⟨_, by rw [hcons]; rfl, fun o => by rw [List.set_cons_zero, hcons]⟩
    | succ k =>
      obtain ⟨R, h1, h2⟩ := ih k (by simpa using hk)
      have hcons' : ∀ ys : List (Option Entry),
          ((x :: ys).filterMap id).flatMap f = ofSlot f x ++ (ys.filterMap id).flatMap f := by
        intro ys
        cases x <;> simp [ofSlot]
      refine ⟨ofSlot f x ++ R, ?_, fun o => ?_⟩
      · rw [hcons']
        exact (h1.append_left _).trans (List.perm_append_comm_assoc _ _ _)
      · rw [List.set_cons_succ, hcons']
        exact ((h2 o).append_left _).trans (List.perm_append_comm_assoc _ _ _)

/-- A list gathered over the directory is what one slot gives and a rest that writing the slot leaves alone. -/
theorem gather_set {α : Type} (f : Entry → List α) (s : State) (i : SlotId) :
    ∃ R, ((entries s).flatMap f).Perm (ofSlot f (slot i s) ++ R)
      ∧ ∀ t o, t.dir.slots = tset s.dir.slots i o → ((entries t).flatMap f).Perm (ofSlot f o ++ R) := by
  obtain ⟨R, h1, h2⟩ := flatMap_set f s.dir.slots.toList i.val (by simp)
  refine ⟨R, ?_, ?_⟩
  · have : s.dir.slots.toList[i.val]'(by simp) = slot i s := by
      simp [slot, tget]
    rwa [this] at h1
  · intro t o ht
    unfold entries
    rw [ht, toList_tset]
    exact h2 o

theorem gather_same {s t : State} (h : t.dir.slots = s.dir.slots) : entries t = entries s := by
  unfold entries
  rw [h]

theorem gather_nil {α : Type} (f : Entry → List α) (s : State) (h : ∀ i e, slot i s = some e → f e = []) :
    (entries s).flatMap f = [] := by
  rw [List.flatMap_eq_nil_iff]
  intro e he
  simp only [entries, List.mem_filterMap, id] at he
  obtain ⟨o, ho, rfl⟩ := he
  obtain ⟨i, hi⟩ := mem_toList.mp ho
  exact h i e hi

/-! ### Pools -/

theorem clear_empty (s : State) (i : SlotId) (e : Entry)
    (h : slot i (clearQueue { clearDirectory s with nodes := tmap clearRecord (clearDirectory s).nodes }) = some e) :
    e.holders = [] ∧ e.queue = [] ∧ e.life = .opened := by
  rw [slot, clear_slots, tget_tmap] at h
  cases hs : tget s.dir.slots i with
  | none => rw [hs] at h; cases h
  | some f =>
    rw [hs] at h
    simp only [clearSlot] at h
    split at h
    · next hl => cases h; exact ⟨rfl, rfl, hl⟩
    · cases h

theorem por_slot (r l : Bool) (p : Nat) (q : List Instr) (i : SlotId) :
    slot i { State.afterPor r l with picks := p, pending := q } = none := by
  simp [slot, State.afterPor]

/-- How an act changes a slot, as far as holders and waits are counted: the two lists and the pools together. -/
theorem poolsLawful_of_same {s t : State} (h : t.dir.slots = s.dir.slots) (h1 : t.freeHoldings = s.freeHoldings)
    (h2 : t.freeWaits = s.freeWaits) (hs : poolsLawful s) : poolsLawful t := by
  unfold poolsLawful allHoldings waitsQueued at hs ⊢
  rwa [gather_same h, h1, h2]

theorem poolsLawful_of_set {s t : State} {i : SlotId} {e : Entry} {o : Option Entry} (hi : slot i s = some e)
    (ht : t.dir.slots = tset s.dir.slots i o)
    (hh : t.freeHoldings + (ofSlot (·.holders) o).length = s.freeHoldings + e.holders.length)
    (hw : t.freeWaits + (ofSlot (·.queue) o).length = s.freeWaits + e.queue.length) (hs : poolsLawful s) :
    poolsLawful t := by
  obtain ⟨R, r1, r2⟩ := gather_set (fun e => e.holders) s i
  obtain ⟨Q, q1, q2⟩ := gather_set (fun e => e.queue) s i
  obtain ⟨h1, h2⟩ := hs
  have r1 := r1.length_eq
  have r2 := (r2 t o ht).length_eq
  have q1 := q1.length_eq
  have q2 := (q2 t o ht).length_eq
  rw [hi, List.length_append] at r1 q1
  rw [List.length_append] at r2 q2
  simp only [ofSlot, Option.elim_some] at r1 q1
  unfold allHoldings at h1
  unfold waitsQueued at h2
  refine ⟨?_, ?_⟩
  · show t.freeHoldings + ((entries t).flatMap fun e => e.holders).length = _
    simp only [ofSlot] at r2 hh
    omega
  · show t.freeWaits + ((entries t).flatMap fun e => e.queue).length = _
    simp only [ofSlot] at q2 hw
    omega

theorem waitOf_mem {n : NodeId} {e : Entry} {w : Wait} (h : waitOf n e = some w) : w ∈ e.queue ∧ w.node = n :=
  ⟨List.mem_of_find?_eq_some h, by simpa using List.find?_some h⟩

theorem holdingOf_mem {n : NodeId} {e : Entry} {x : Holding} (h : holdingOf n e = some x) :
    x ∈ e.holders ∧ x.node = n :=
  ⟨List.mem_of_find?_eq_some h, by simpa using List.find?_some h⟩

theorem eraseP_length {α : Type} {f : α → NodeId} {n : NodeId} {l : List α} {x : α} (hx : x ∈ l) (hn : f x = n) :
    (l.eraseP fun y => f y = n).length + 1 = l.length := by
  have h : (l.eraseP fun y => decide (f y = n)).length = l.length - 1 :=
    List.length_eraseP_of_mem hx (by simpa using hn)
  have := List.length_pos_of_mem hx
  omega

theorem freeSlot_pools {i : SlotId} {s : State} {e : Entry} (h : slot i s = some e) :
    (freeSlot i s).freeHoldings = s.freeHoldings + e.holders.length
      ∧ (freeSlot i s).freeWaits = s.freeWaits + e.queue.length := by
  simp [freeSlot, h, leaveBothLists, leaveDeferred, leaveStartList, setSlot, setFlag]

theorem renewLease_pools (n : NodeId) (s : State) :
    (renewLease n s).freeHoldings = s.freeHoldings ∧ (renewLease n s).freeWaits = s.freeWaits := by
  unfold renewLease
  split <;> exact ⟨rfl, rfl⟩

theorem clear_pools (s : State) :
    (clearQueue { clearDirectory s with nodes := tmap clearRecord (clearDirectory s).nodes }).freeHoldings
        = Config.holdingRecords
      ∧ (clearQueue { clearDirectory s with nodes := tmap clearRecord (clearDirectory s).nodes }).freeWaits
        = Config.waitRecords := by
  unfold clearQueue clearDirectory
  dsimp only
  split <;> exact ⟨rfl, rfl⟩

theorem Act.pools {k : Kind} {s t : State} (a : Act k s t) (h : poolsLawful s) : poolsLawful t := by
  cases a with
  | relink i e e' _ hi hid hl hs hr hq hh =>
    exact poolsLawful_of_set (o := some e') hi rfl (by simp [ofSlot, sameHoldings_length hh, setSlot])
      (by simp [ofSlot, hq, setSlot]) h
  | grant i e w rest _ hi hq hl hh hf hc hp =>
    refine poolsLawful_of_set (o := some _) hi rfl ?_ ?_ h
    · show s.freeHoldings - 1 + (e.holders ++ [_]).length = _
      rw [List.length_append, List.length_singleton]
      omega
    · show s.freeWaits + 1 + rest.length = _
      rw [hq, List.length_cons]
      omega
  | dropWait i e n w _ hi hw =>
    obtain ⟨hm, hn⟩ := waitOf_mem hw
    refine poolsLawful_of_set (o := some _) hi rfl rfl ?_ h
    show s.freeWaits + 1 + (e.queue.eraseP _).length = _
    have := eraseP_length (f := fun w : Wait => w.node) hm hn
    omega
  | dropHolding i e n x _ hi hx =>
    obtain ⟨hm, hn⟩ := holdingOf_mem hx
    refine poolsLawful_of_set (o := some _) hi rfl ?_ rfl h
    show s.freeHoldings + 1 + (e.holders.eraseP _).length = _
    have := eraseP_length (f := fun h : Holding => h.node) hm hn
    omega
  | freeSlot i e _ hi hh hq =>
    obtain ⟨h1, h2⟩ := freeSlot_pools hi
    exact poolsLawful_of_set (o := none) hi (freeSlot_slots hi) (by rw [h1]; rfl) (by rw [h2]; rfl) h
  | grantNow i e n m _ hi hl hq hf hn hc hp =>
    refine poolsLawful_of_set (o := some _) hi rfl ?_ rfl h
    show s.freeHoldings - 1 + (e.holders ++ [_]).length = _
    rw [List.length_append, List.length_singleton]
    omega
  | addWait i e n m limit _ hi hl hn hw hq hc hp =>
    refine poolsLawful_of_set (o := some _) hi rfl rfl ?_ h
    show s.freeWaits - 1 + (e.queue ++ [_]).length = _
    rw [List.length_append, List.length_singleton]
    omega
  | downgrade i e n x _ hi hx hm =>
    refine poolsLawful_of_set (o := some _) hi rfl ?_ rfl h
    show s.freeHoldings + (e.holders.map _).length = _
    rw [List.length_map]
  | retire i e _ hi => exact poolsLawful_of_set (o := some _) hi rfl rfl rfl h
  | provision i id share recallable _ hl hi =>
    obtain ⟨R, r1, r2⟩ := gather_set (fun e => e.holders) s i
    obtain ⟨Q, q1, q2⟩ := gather_set (fun e => e.queue) s i
    have r2 := r2 (setSlot i (some (openEntry id share recallable)) s) _ rfl
    have q2 := q2 (setSlot i (some (openEntry id share recallable)) s) _ rfl
    rw [hi] at r1 q1
    exact ⟨by rw [← h.1]; exact congrArg _ (r2.trans r1.symm).length_eq,
      by rw [← h.2]; exact congrArg _ (q2.trans q1.symm).length_eq⟩
  | lease n =>
    exact poolsLawful_of_same (by rw [renewLease_slots]) (renewLease_pools n s).1 (renewLease_pools n s).2 h
  | clear =>
    unfold poolsLawful allHoldings waitsQueued
    rw [gather_nil _ _ fun i e he => (clear_empty s i e he).1, gather_nil _ _ fun i e he => (clear_empty s i e he).2.1,
      (clear_pools s).1, (clear_pools s).2]
    exact ⟨rfl, rfl⟩
  | por r l =>
    unfold poolsLawful allHoldings waitsQueued
    rw [gather_nil, gather_nil]
    · exact ⟨rfl, rfl⟩
    · intro i e he; rw [por_slot] at he; cases he
    · intro i e he; rw [por_slot] at he; cases he
  | _ => exact poolsLawful_of_same rfl rfl rfl h

/-! ### Held and wait counts -/

/-- The two counts of a node record. -/
def countsOf (n : NodeId) (s : State) : Nat × Nat := ((node n s).heldCount, (node n s).waitCount)

theorem countsLawful_of_same {s t : State} (h : t.dir.slots = s.dir.slots) (hn : ∀ n, countsOf n t = countsOf n s)
    (hs : countsLawful s) : countsLawful t := by
  intro n
  have h1 := hs n
  have h2 := hn n
  simp only [countsOf, Prod.mk.injEq] at h2
  unfold holdingsOf waitsOf allHoldings waitsQueued at h1 ⊢
  rw [gather_same h, h2.1, h2.2]
  exact h1

theorem countsLawful_of_set {s t : State} {i : SlotId} {e : Entry} {o : Option Entry} (hi : slot i s = some e)
    (ht : t.dir.slots = tset s.dir.slots i o)
    (hh : ∀ n, (node n t).heldCount + e.holders.countP (fun h => h.node = n)
      = (node n s).heldCount + (ofSlot (·.holders) o).countP (fun h => h.node = n))
    (hw : ∀ n, (node n t).waitCount + e.queue.countP (fun w => w.node = n)
      = (node n s).waitCount + (ofSlot (·.queue) o).countP (fun w => w.node = n))
    (hs : countsLawful s) : countsLawful t := by
  intro n
  obtain ⟨R, r1, r2⟩ := gather_set (fun e => e.holders) s i
  obtain ⟨Q, q1, q2⟩ := gather_set (fun e => e.queue) s i
  obtain ⟨h1, h2⟩ := hs n
  have r1 := r1.countP_eq (fun h => decide (h.node = n))
  have r2 := (r2 t o ht).countP_eq (fun h => decide (h.node = n))
  have q1 := q1.countP_eq (fun w => decide (w.node = n))
  have q2 := (q2 t o ht).countP_eq (fun w => decide (w.node = n))
  rw [hi, List.countP_append] at r1 q1
  rw [List.countP_append] at r2 q2
  simp only [ofSlot, Option.elim_some] at r1 q1
  unfold holdingsOf allHoldings at h1 ⊢
  unfold waitsOf waitsQueued at h2 ⊢
  have hh := hh n
  have hw := hw n
  simp only [ofSlot] at r2 q2 hh hw
  constructor <;> omega

theorem countP_eraseP {α : Type} {f : α → NodeId} {n : NodeId} {l : List α} {x : α} (hx : x ∈ l) (hn : f x = n)
    (m : NodeId) :
    (l.eraseP fun y => f y = n).countP (fun y => f y = m) + (if m = n then 1 else 0) = l.countP fun y => f y = m := by
  induction l with
  | nil => cases hx
  | cons y ys ih =>
    by_cases hy : f y = n
    · rw [List.eraseP_cons_of_pos (by simpa using hy), List.countP_cons]
      by_cases hm : m = n
      · subst hm; simp [hy]
      · have : f y ≠ m := fun h => hm (by rw [← h, hy])
        simp [hm, this]
    · rw [List.eraseP_cons_of_neg (by simpa using hy), List.countP_cons, List.countP_cons]
      rcases List.mem_cons.mp hx with rfl | hx
      · exact absurd hn hy
      · have := ih hx
        omega

theorem node_addHolding (i : SlotId) (e : Entry) (n : NodeId) (m : Mode) (s : State) (q : NodeId) :
    node q (addHolding i e n m s)
      = if q = n then { node q s with heldCount := (node q s).heldCount + 1 } else node q s := by
  unfold addHolding
  dsimp only
  rw [node_modNode]
  rfl

theorem sameHoldings_countP {a b : List Holding} (h : sameHoldings a b) (n : NodeId) :
    a.countP (fun h => h.node = n) = b.countP (fun h => h.node = n) := by
  have h1 : a.map (·.node) = b.map (·.node) := by
    have := congrArg (List.map (·.node)) h
    simpa [List.map_map, Function.comp_def] using this
  have h2 : ∀ l : List Holding, l.countP (fun h => h.node = n) = (l.map (·.node)).countP (· = n) := by
    intro l
    rw [List.countP_map]
    rfl
  rw [h2, h2, h1]

theorem downgradeHolding_nodes (n : NodeId) (t : Token) (e : Entry) :
    (downgradeHolding n t e).holders.map (·.node) = e.holders.map (·.node) := by
  simp only [downgradeHolding, List.map_map]
  refine List.map_congr_left fun y _ => ?_
  simp only [Function.comp_apply]
  split <;> rfl

theorem freeSlot_counts (i : SlotId) (m : NodeId) (s : State) : node m (freeSlot i s) = node m s := freeSlot_node i m s

/-- Only a slot that becomes UNUSED with waits on it could upset the counts, and it then has none: see
`Act.retiringEmpty`. -/
theorem Act.counts {k : Kind} {s t : State} (a : Act k s t) (hr : k = .freed → retiringEmpty s)
    (h : countsLawful s) : countsLawful t := by
  cases a with
  | queue n m =>
    refine countsLawful_of_same (s := s) rfl (fun q => ?_) h
    simp only [countsOf, node_queueNotice]
    split <;> rfl
  | relink i e e' _ hi hid hl hs hr hq hh =>
    refine countsLawful_of_set (o := some e') hi rfl (fun n => ?_) (fun n => ?_) h
    · rw [ofSlot, Option.elim_some, sameHoldings_countP hh]
      rfl
    · rw [ofSlot, Option.elim_some, hq]
      rfl
  | grant i e w rest _ hi hq hl hh hf hc hp =>
    refine countsLawful_of_set (o := some _) hi rfl (fun n => ?_) (fun n => ?_) h
    · rw [ofSlot, Option.elim_some, List.countP_append, node_returnWait, node_addHolding]
      by_cases hn : n = w.node
      · subst hn; simp; omega
      · have : w.node ≠ n := fun h => hn h.symm
        simp [hn, this]
    · have hw := (h w.node).2
      rw [ofSlot, Option.elim_some, node_returnWait, node_addHolding, hq, List.countP_cons]
      by_cases hn : n = w.node
      · subst hn
        have hpos : 0 < waitsOf w.node s := by
          obtain ⟨Q, q1, -⟩ := gather_set (fun e => e.queue) s i
          have q1 := q1.countP_eq (fun x => decide (x.node = w.node))
          rw [hi, ofSlot, Option.elim_some, hq, List.countP_append, List.countP_cons] at q1
          unfold waitsOf waitsQueued
          rw [q1]
          simp
        simp
        omega
      · have : w.node ≠ n := fun h => hn h.symm
        simp [hn, this]
  | dropWait i e n w _ hi hw =>
    obtain ⟨hm, hn⟩ := waitOf_mem hw
    refine countsLawful_of_set (o := some _) hi rfl (fun q => ?_) (fun q => ?_) h
    · rw [ofSlot, Option.elim_some]
      show (node q (returnWait n _)).heldCount + _ = _
      rw [node_returnWait]
      split <;> rfl
    · have hq := (h q).2
      have hc := countP_eraseP (f := fun w : Wait => w.node) hm hn q
      rw [ofSlot, Option.elim_some]
      show (node q (returnWait n _)).waitCount + _ = _
      rw [node_returnWait, node_setSlot]
      dsimp only
      split
      · next hqn =>
        subst hqn
        rw [if_pos rfl] at hc
        have hpos : e.queue.countP (fun w => w.node = q) ≤ waitsOf q s := by
          obtain ⟨Q, q1, -⟩ := gather_set (fun e => e.queue) s i
          have q1 := q1.countP_eq (fun x => decide (x.node = q))
          rw [hi, ofSlot, Option.elim_some, List.countP_append] at q1
          unfold waitsOf waitsQueued
          omega
        show (node q s).waitCount - 1 + _ = _
        omega
      · next hqn =>
        rw [if_neg hqn] at hc
        omega
  | dropHolding i e n x _ hi hx =>
    obtain ⟨hm, hn⟩ := holdingOf_mem hx
    refine countsLawful_of_set (o := some _) hi rfl (fun q => ?_) (fun q => ?_) h
    · have hq := (h q).1
      have hc := countP_eraseP (f := fun h : Holding => h.node) hm hn q
      rw [ofSlot, Option.elim_some]
      show (node q (modNode n _ _)).heldCount + _ = _
      rw [node_modNode]
      dsimp only
      split
      · next hqn =>
        subst hqn
        rw [if_pos rfl] at hc
        have hpos : e.holders.countP (fun h => h.node = q) ≤ holdingsOf q s := by
          obtain ⟨Q, q1, -⟩ := gather_set (fun e => e.holders) s i
          have q1 := q1.countP_eq (fun x => decide (x.node = q))
          rw [hi, ofSlot, Option.elim_some, List.countP_append] at q1
          unfold holdingsOf allHoldings
          omega
        show (node q s).heldCount - 1 + _ = _
        omega
      · next hqn =>
        rw [if_neg hqn] at hc
        show (node q s).heldCount + _ = _
        omega
    · rw [ofSlot, Option.elim_some]
      show (node q (modNode n _ _)).waitCount + _ = _
      rw [node_modNode]
      split <;> rfl
  | freeSlot i e _ hi hh hq =>
    have he : e.queue = [] := hq.elim (hr rfl i e hi) id
    refine countsLawful_of_set (o := none) hi (freeSlot_slots hi) (fun n => ?_) (fun n => ?_) h
    · rw [freeSlot_counts, hh]
      rfl
    · rw [freeSlot_counts, he]
      rfl
  | grantNow i e n m _ hi hl hq hf hn hc hp =>
    refine countsLawful_of_set (o := some _) hi rfl (fun q => ?_) (fun q => ?_) h
    · rw [ofSlot, Option.elim_some, List.countP_append, node_addHolding]
      by_cases hqn : q = n
      · subst hqn; simp; omega
      · have : n ≠ q := fun h => hqn h.symm
        simp [hqn, this]
    · rw [ofSlot, Option.elim_some, node_addHolding]
      split <;> rfl
  | addWait i e n m limit _ hi hl hn hw hq hc hp =>
    refine countsLawful_of_set (o := some _) hi rfl (fun q => ?_) (fun q => ?_) h
    · rw [ofSlot, Option.elim_some]
      show (node q (modNode n _ _)).heldCount + _ = _
      rw [node_modNode]
      split <;> rfl
    · rw [ofSlot, Option.elim_some, List.countP_append]
      show (node q (modNode n _ _)).waitCount + _ = _
      rw [node_modNode]
      by_cases hqn : q = n
      · subst hqn
        simp
        show (node q s).waitCount + 1 + _ = _
        omega
      · have : n ≠ q := fun h => hqn h.symm
        simp [hqn, this]
        rfl
  | downgrade i e n x _ hi hx hm =>
    refine countsLawful_of_set (o := some _) hi rfl (fun q => ?_) (fun q => rfl) h
    rw [ofSlot, Option.elim_some]
    have h2 : ∀ l : List Holding, l.countP (fun h => h.node = q) = (l.map (·.node)).countP (· = q) := by
      intro l
      rw [List.countP_map]
      rfl
    rw [h2, h2, downgradeHolding_nodes]
    rfl
  | retire i e _ hi => exact countsLawful_of_set (o := some _) hi rfl (fun _ => rfl) (fun _ => rfl) h
  | provision i id share recallable _ hl hi =>
    intro n
    obtain ⟨R, r1, r2⟩ := gather_set (fun e => e.holders) s i
    obtain ⟨Q, q1, q2⟩ := gather_set (fun e => e.queue) s i
    have r2 := r2 (setSlot i (some (openEntry id share recallable)) s) _ rfl
    have q2 := q2 (setSlot i (some (openEntry id share recallable)) s) _ rfl
    rw [hi] at r1 q1
    exact ⟨(h n).1.trans ((r1.trans r2.symm).countP_eq _), (h n).2.trans ((q1.trans q2.symm).countP_eq _)⟩
  | revoke n =>
    refine countsLawful_of_same (s := s) rfl (fun q => ?_) h
    simp only [countsOf, node_modNode]
    split <;> rfl
  | lease n =>
    refine countsLawful_of_same (s := s) (by rw [renewLease_slots]) (fun q => ?_) h
    unfold renewLease
    split
    · simp only [countsOf, node_modNode]
      split <;> rfl
    · rfl
  | memory n | endSession n | leaveLapsed n | evict n | params n =>
    refine countsLawful_of_same (s := s) rfl (fun q => ?_) h
    simp only [countsOf, node_modNode]
    split
    · try (next why _ _ => cases why <;> rfl)
      try rfl
    · rfl
  | startSession n =>
    refine countsLawful_of_same (s := s) rfl (fun q => ?_) h
    simp only [Machine.startSession, countsOf, node_modNode]
    split <;> rfl
  | grace =>
    refine countsLawful_of_same (s := s) rfl (fun q => ?_) h
    simp only [countsOf, node, tget_tmap, graceRecord]
    split
    · split <;> rfl
    · rfl
    · rfl
  | clear =>
    intro n
    unfold holdingsOf waitsOf allHoldings waitsQueued
    rw [gather_nil _ _ fun i e he => (clear_empty s i e he).1, gather_nil _ _ fun i e he => (clear_empty s i e he).2.1]
    have : (clearQueue { clearDirectory s with nodes := tmap clearRecord (clearDirectory s).nodes }).nodes
        = tmap clearRecord (clearDirectory s).nodes := rfl
    simp [node, this, clearRecord]
  | por r l =>
    intro n
    unfold holdingsOf waitsOf allHoldings waitsQueued
    rw [gather_nil, gather_nil]
    · simp [node, State.afterPor, NodeRecord.afterPor]
    · intro i e he; rw [por_slot] at he; cases he
    · intro i e he; rw [por_slot] at he; cases he
  | _ => exact countsLawful_of_same rfl (fun _ => rfl) h

/-! ### RETIRING entries -/

/-- Only RETIRE makes an entry RETIRING, and no wait joins a RETIRING entry. -/
theorem Act.retiringEmpty {k : Kind} {s t : State} (a : Act k s t) (hk : k ≠ .retire) (h : retiringEmpty s) :
    retiringEmpty t := by
  cases a with
  | relink i e e' _ hi hid hl hs hr hq hh =>
    refine entries_of_set (j := i) (o := some e') rfl (fun f hf hlf => ?_) h
    cases hf
    rw [hq]
    exact h i e hi (hl ▸ hlf)
  | grant i e w rest _ hi hq hl hh hf hc hp =>
    refine entries_of_set (j := i) (o := some _) rfl (fun f hf' hlf => ?_) h
    cases hf'
    rw [show e.life = Life.retiring from hlf] at hl
    cases hl
  | dropWait i e n w _ hi hw =>
    refine entries_of_set (j := i) (o := some _) rfl (fun f hf' hlf => ?_) h
    cases hf'
    show e.queue.eraseP _ = []
    rw [h i e hi hlf]
    rfl
  | dropHolding i e n x _ hi hx =>
    refine entries_of_set (j := i) (o := some _) rfl (fun f hf' hlf => ?_) h
    cases hf'
    exact h i e hi hlf
  | freeSlot i e _ hi hh hq =>
    refine entries_of_set (j := i) (o := none) (freeSlot_slots hi) (fun f hf' => ?_) h
    cases hf'
  | grantNow i e n m _ hi hl hq hf hn hc hp =>
    refine entries_of_set (j := i) (o := some _) rfl (fun f hf' hlf => ?_) h
    cases hf'
    exact hq
  | addWait i e n m limit _ hi hl hn hw hq hc hp =>
    refine entries_of_set (j := i) (o := some _) rfl (fun f hf' hlf => ?_) h
    cases hf'
    rw [show e.life = Life.retiring from hlf] at hl
    cases hl
  | downgrade i e n x _ hi hx hm =>
    refine entries_of_set (j := i) (o := some _) rfl (fun f hf' hlf => ?_) h
    cases hf'
    exact h i e hi hlf
  | provision i id share recallable _ hl hi =>
    refine entries_of_set (j := i) (o := some _) rfl (fun f hf' hlf => ?_) h
    cases hf'
    rfl
  | retire => exact absurd rfl hk
  | lease n => exact entries_of_same (by rw [renewLease_slots]) h
  | clear =>
    intro i e he hl
    exact (clear_empty s i e he).2.1
  | por r l =>
    intro i e he
    rw [por_slot] at he
    cases he
  | _ => exact entries_of_same rfl h

/-! ### Node records -/

/-- What R79 and R81 ask of one node record. -/
abbrev recordLawful (r : NodeRecord) : Prop :=
  1 ≤ r.leaseTerm ∧ r.leaseTerm ≤ 255 ∧ 1 ≤ r.quota ∧ r.quota ≤ 32 ∧ r.revocationCount ≤ Config.revocationCeiling
    ∧ (r.admission = .barred → r.session = .absent)

theorem recordLawful_of_keeps {a b : NodeRecord} (h : keepsRecord a b) (ha : recordLawful a) : recordLawful b := by
  obtain ⟨h1, h2, h3, h4, h5, h6, h7⟩ := h
  unfold recordLawful at ha ⊢
  rw [h1, h2, h4, h5, h7]
  exact ha

theorem nodesLawful_of_mod {s : State} {n : NodeId} {f : NodeRecord → NodeRecord}
    (hf : recordLawful (node n s) → recordLawful (f (node n s))) (h : nodesLawful s) : nodesLawful (modNode n f s) := by
  intro m
  rw [node_modNode]
  split
  · next hm => subst hm; exact hf (h m)
  · exact h m

theorem active_not_absent {x : Session} (h : isActive x = true) : x ≠ .absent := by
  intro hx
  rw [hx] at h
  cases h

/-- Every act but the start of a session keeps the node records' laws; a session starts on a node that is ADMITTED. -/
theorem Act.nodes {k : Kind} {s t : State} (a : Act k s t) (hk : ∀ n, k = .start n → (node n s).admission = .admitted)
    (h : nodesLawful s) : nodesLawful t := by
  by_cases hp : k.plain = true
  · exact fun m => recordLawful_of_keeps (a.record hp m) (h m)
  · cases a with
    | revoke n =>
      refine nodesLawful_of_mod (fun hr => ?_) h
      obtain ⟨h1, h2, h3, h4, h5, h6⟩ := hr
      exact ⟨h1, h2, h3, h4, Nat.min_le_right _ _, h6⟩
    | lease n =>
      unfold renewLease
      split
      · next ha =>
        refine nodesLawful_of_mod (fun hr => ?_) h
        obtain ⟨h1, h2, h3, h4, h5, h6⟩ := hr
        exact ⟨h1, h2, h3, h4, h5, fun hb => absurd (h6 hb) (active_not_absent ha)⟩
      · exact h
    | memory n m => exact nodesLawful_of_mod id h
    | endSession n why _ ha =>
      refine nodesLawful_of_mod (fun hr => ?_) h
      obtain ⟨h1, h2, h3, h4, h5, h6⟩ := hr
      cases why with
      | left => exact ⟨h1, h2, h3, h4, h5, fun _ => rfl⟩
      | restarted => exact ⟨h1, h2, h3, h4, h5, fun _ => rfl⟩
      | lapsed => exact ⟨h1, h2, h3, h4, h5, fun hb => absurd (h6 hb) (active_not_absent ha)⟩
      | evicted => exact ⟨h1, h2, h3, h4, h5, fun _ => rfl⟩
    | leaveLapsed n =>
      refine nodesLawful_of_mod (fun hr => ?_) h
      obtain ⟨h1, h2, h3, h4, h5, h6⟩ := hr
      exact ⟨h1, h2, h3, h4, h5, fun _ => rfl⟩
    | startSession n =>
      refine nodesLawful_of_mod (fun hr => ?_) h
      obtain ⟨h1, h2, h3, h4, h5, h6⟩ := hr
      refine ⟨h1, h2, h3, h4, h5, fun hb => ?_⟩
      have := hk n rfl
      rw [show (node n s).admission = .barred from hb] at this
      cases this
    | evict n =>
      refine nodesLawful_of_mod (fun hr => ?_) h
      obtain ⟨h1, h2, h3, h4, h5, h6⟩ := hr
      exact ⟨h1, h2, h3, h4, h5, fun _ => rfl⟩
    | params n adm term quota _ hs h1 h2 h3 h4 =>
      refine nodesLawful_of_mod (fun hr => ?_) h
      exact ⟨h1, h2, h3, h4, hr.2.2.2.2.1, fun _ => hs⟩
    | grace =>
      intro m
      have hm := h m
      simp only [node, tget_tmap] at hm ⊢
      unfold graceRecord
      split
      · next d hd =>
        split
        · obtain ⟨h1, h2, h3, h4, h5, h6⟩ := hm
          refine ⟨h1, h2, h3, h4, h5, fun hb => ?_⟩
          have := h6 hb
          rw [hd] at this
          cases this
        · exact hm
      · exact hm
      · exact hm
    | clear =>
      intro m
      have hm := h m
      have h0 : (clearQueue { clearDirectory s with nodes := tmap clearRecord (clearDirectory s).nodes }).nodes
          = tmap clearRecord s.nodes := by
        unfold clearQueue clearDirectory
        dsimp only
        split <;> rfl
      simp only [node, h0, tget_tmap] at hm ⊢
      obtain ⟨h1, h2, h3, h4, h5, h6⟩ := hm
      exact ⟨h1, h2, h3, h4, Nat.zero_le _, fun _ => rfl⟩
    | por r l =>
      intro m
      simp [node, State.afterPor, NodeRecord.afterPor]
    | _ => exact absurd rfl hp

end Sys2Proof.Machine
end

