-- ==== Sys2Proof/Laws/Ripples.lean ====
section
/-!
SUPPORT. Each shared operation of the directory, the Recall Tracker and the Notice Queue, said once as a run of
elementary acts.
-/

namespace Sys2Proof.Machine

variable {K : Kind → Prop}

theorem Ripples.of_act {s t : State} (a : Act .claims s t) : Ripples s t := Acts.one rfl a

theorem Ripples.within {s t : State} (h : Ripples s t) (hK : K .claims) : Acts K s t :=
  h.mono fun _ e => e ▸ hK

theorem foldl_acts {α : Type} (f : State → α → State) (hf : ∀ s x, Acts K s (f s x)) (l : List α) (s : State) :
    Acts K s (l.foldl f s) := by
  induction l generalizing s with
  | nil => exact .refl
  | cons x xs ih => exact (hf s x).trans (ih (f s x))

theorem ite_acts {c : Prop} [Decidable c] {s a b : State} (ha : c → Acts K s a) (hb : ¬ c → Acts K s b) :
    Acts K s (if c then a else b) := by
  split
  · exact ha ‹_›
  · exact hb ‹_›

/-! ### Notices -/

theorem offerBestEffort_ripples (n : NodeId) (m : NoticeMsg) (s : State) : Ripples s (offerBestEffort n m s) := by
  unfold offerBestEffort
  split
  · next h =>
    refine .of_act (.queue n m s ?_)
    have : Config.bestEffortMargin = 5 := rfl
    omega
  · exact .of_act (.flag _ s)

theorem setStatus_slot (n : NodeId) (st : TargetStatus) (r : Recall) : (setStatus n st r).slot = r.slot := rfl

theorem notifyTarget_ripples (k : RecallId) (t : Target) (s : State) (h : freeEntries s ≠ 0) :
    Ripples s (notifyTarget k t s) := by
  unfold notifyTarget
  split
  · exact .refl
  · next r hr =>
    split
    · exact .refl
    · have h1 : Ripples s (setRecall k (some (setStatus t.node .notified r)) s) :=
        .of_act (.retarget k r _ s hr rfl rfl rfl)
      exact h1.tail rfl (.queue _ _ _ h)

theorem notifyWhileFree_ripples (k : RecallId) (ts : List Target) (s : State) : Ripples s (notifyWhileFree k ts s) := by
  induction ts generalizing s with
  | nil => exact .refl
  | cons t ts ih =>
    unfold notifyWhileFree
    split
    · exact .refl
    · next h => exact (notifyTarget_ripples k t s h).trans (ih _)

/-! ### Starting a recall, and the recall-start list -/

theorem sameHoldings_refl (a : List Holding) : sameHoldings a a := rfl

theorem sameHoldings_map (a : List Holding) (f : Holding → Holding)
    (hf : ∀ h, { f h with recallTarget := false } = { h with recallTarget := false }) :
    sameHoldings (a.map f) a := by
  unfold sameHoldings
  rw [List.map_map]
  exact List.map_congr_left fun h _ => hf h

theorem markBlockers_same (k : RecallId) (w : Wait) (e : Entry) :
    sameHoldings (markBlockers k w e).holders e.holders := by
  refine sameHoldings_map _ _ ?_
  intro h
  split <;> rfl

theorem startRecall_ripples (k : RecallId) (i : SlotId) (s : State) (hk : recallAt k s = none)
    (hh : s.svp.halted = false) : Ripples s (startRecall k i s) := by
  unfold startRecall
  split
  · exact .refl
  · next e he =>
    split
    · exact .refl
    · next w rest hq =>
      have h1 : Ripples s (openRecall k (newRecall i e w s) s) := .of_act (.openRecall k _ s hk hh)
      have h2 := h1.tail rfl (.relink i e (markBlockers k w e) _ he rfl rfl rfl rfl rfl (markBlockers_same k w e))
      exact h2.trans (notifyWhileFree_ripples k _ _)

theorem leaveStartList_ripples (i : SlotId) (s : State) : Ripples s (leaveStartList i s) :=
  .of_act (.leaveStartList i s)

theorem leaveBothLists_ripples (i : SlotId) (s : State) : Ripples s (leaveBothLists i s) :=
  (Ripples.of_act (.leaveDeferred i s)).trans (leaveStartList_ripples i _)

theorem freeRecallSlot_some {k : RecallId} {s : State} (h : freeRecallSlot s = some k) : recallAt k s = none := by
  simpa [recallAt] using tfind_some h

theorem recallDecision_ripples (i : SlotId) (s : State) : Ripples s (recallDecision i s) := by
  unfold recallDecision
  split
  · exact .refl
  · next hh =>
    split
    · split
      · next k hk =>
        exact (startRecall_ripples k i s (freeRecallSlot_some hk) (by simpa using hh)).trans
          (leaveStartList_ripples i _)
      · exact .of_act (.joinStartList i s)
    · exact leaveStartList_ripples i s

theorem handoutWalk_ripples (fuel : Nat) (s : State) (hh : s.svp.halted = false) :
    Ripples s (handoutWalk fuel s) := by
  induction fuel generalizing s with
  | zero => exact .refl
  | succ fuel ih =>
    unfold handoutWalk
    split
    · next k i _ hk _ =>
      split
      · exact (startRecall_ripples k i s (freeRecallSlot_some hk) hh).trans (leaveStartList_ripples i _)
      · exact (leaveStartList_ripples i s).trans (ih _ hh)
    · exact .refl

theorem handOut_ripples (s : State) : Ripples s (handOut s) := by
  unfold handOut
  split
  · exact .refl
  · next hh => exact handoutWalk_ripples _ s (by simpa using hh)

theorem takeFreeEntry_ripples (s : State) (h : freeEntries s ≠ 0) : Ripples s (takeFreeEntry s) := by
  unfold takeFreeEntry
  split
  · exact .refl
  · exact notifyTarget_ripples _ _ s h

/-! ### The grant pass and its serving -/

theorem eraseP_head_queue (w : Wait) (rest : List Wait) :
    (w :: rest).eraseP (fun x => x.node = w.node) = rest := by
  simp

theorem endByQuota_ripples (i : SlotId) (e : Entry) (w : Wait) (rest : List Wait) (s : State)
    (he : slot i s = some e) (hq : e.queue = w :: rest) : Ripples s (endByQuota i e w rest s) := by
  unfold endByQuota
  have hd : returnWait w.node (setSlot i (some { e with queue := rest }) s) = dropWait i e w.node s := by
    simp [dropWait, hq]
  rw [hd]
  exact (Ripples.of_act (.dropWait i e w.node w s he (by simp [waitOf, hq]))).trans (offerBestEffort_ripples _ _ _)

theorem addHolding_freeEntries (i : SlotId) (e : Entry) (n : NodeId) (m : Mode) (s : State) :
    freeEntries (addHolding i e n m s) = freeEntries s := rfl

theorem grantHead_ripples (i : SlotId) (e : Entry) (w : Wait) (rest : List Wait) (s : State)
    (he : slot i s = some e) (hq : e.queue = w :: rest) (hl : e.life = .opened) (hh : s.svp.halted = false)
    (hf : fits w.mode e = true) (hc : (node w.node s).heldCount ≠ (node w.node s).quota)
    (hp : s.freeHoldings ≠ 0) (hn : freeEntries s ≠ 0) : Ripples s (grantHead i e w rest s) :=
  (Ripples.of_act (.grant i e w rest s he hq hl hh hf hc hp)).trans (Ripples.of_act (.queue _ _ _ hn))

/-- One round of the pass keeps the entry OPEN and the part not halted. -/
theorem endByQuota_slot (i : SlotId) (e : Entry) (w : Wait) (rest : List Wait) (s : State) :
    slot i (endByQuota i e w rest s) = some { e with queue := rest } := by
  unfold endByQuota offerBestEffort
  split <;> simp

theorem endByQuota_halted (i : SlotId) (e : Entry) (w : Wait) (rest : List Wait) (s : State) :
    (endByQuota i e w rest s).svp.halted = s.svp.halted := by
  unfold endByQuota offerBestEffort
  split <;> rfl

theorem grantHead_slot (i : SlotId) (e : Entry) (w : Wait) (rest : List Wait) (s : State) :
    slot i (grantHead i e w rest s)
      = some { e with
          queue := rest
          holders := e.holders
            ++ [{ node := w.node, mode := w.mode, token := drawnToken s, slot := i, recallTarget := false }] } := by
  simp [grantHead, addHolding]

theorem passLoop_ripples (fuel : Nat) (i : SlotId) (s : State) (hh : s.svp.halted = false)
    (hl : ∀ e, slot i s = some e → e.life = .opened) : Ripples s (passLoop fuel i s) := by
  induction fuel generalizing s with
  | zero => exact .refl
  | succ fuel ih =>
    unfold passLoop
    split
    · exact .refl
    · next e he =>
      split
      · exact .refl
      · next w rest hq =>
        split
        · next hf =>
          split
          · refine (endByQuota_ripples i e w rest s he hq).trans (ih _ ?_ ?_)
            · rw [endByQuota_halted, hh]
            · intro e' he'
              rw [endByQuota_slot] at he'
              cases he'
              exact hl e he
          · next hc =>
            split
            · exact .of_act (.joinDeferred i s)
            · next hfree =>
              have hp : s.freeHoldings ≠ 0 := fun h => hfree (Or.inl h)
              have hn : freeEntries s ≠ 0 := fun h => hfree (Or.inr h)
              refine (grantHead_ripples i e w rest s he hq (hl e he) hh hf hc hp hn).trans (ih _ hh ?_)
              intro e' he'
              rw [grantHead_slot] at he'
              cases he'
              exact hl e he
        · exact .refl

theorem endCheck_ripples (i : SlotId) (s : State) : Ripples s (endCheck i s) := by
  unfold endCheck
  split
  · exact .refl
  · split
    · exact leaveBothLists_ripples i s
    · split
      · exact leaveStartList_ripples i s
      · exact (Ripples.of_act (.leaveDeferred i s)).trans (recallDecision_ripples i _)

theorem grantPass_ripples (i : SlotId) (s : State) : Ripples s (grantPass i s) := by
  unfold grantPass
  split
  · exact .refl
  · next hh =>
    split
    · exact .refl
    · next e he =>
      split
      · next hl =>
        refine (passLoop_ripples _ i s (by simpa using hh) ?_).trans (endCheck_ripples i _)
        intro e' he'
        rw [he] at he'
        cases he'
        exact hl
      · exact .refl

theorem serveLoop_ripples (fuel : Nat) (s : State) : Ripples s (serveLoop fuel s) := by
  induction fuel generalizing s with
  | zero => exact .refl
  | succ fuel ih =>
    unfold serveLoop
    split
    · exact .refl
    · next i _ _ =>
      have h := grantPass_ripples i s
      exact ite_acts (fun _ => h) fun _ => h.trans (ih _)

theorem serveDeferred_ripples (s : State) : Ripples s (serveDeferred s) := by
  unfold serveDeferred
  exact ite_acts (fun _ => .refl) fun _ => serveLoop_ripples _ s

theorem arbiter_ripples (s : State) : Ripples s (arbiter s) := by
  unfold arbiter
  have h := serveDeferred_ripples s
  exact ite_acts (fun _ => h) fun hf => h.trans (takeFreeEntry_ripples _ hf)

/-! ### Removing notices -/

theorem removeEntry_ripples (place : Nat) (s : State) : Ripples s (removeEntry place s) :=
  (Ripples.of_act (.eraseNotice place s)).trans (arbiter_ripples _)

theorem removeEntries_ripples (p : NoticeEntry → Bool) (fuel : Nat) (s : State) :
    Ripples s (removeEntries p fuel s) := by
  induction fuel generalizing s with
  | zero => exact .refl
  | succ fuel ih =>
    unfold removeEntries
    split
    · exact .refl
    · exact (removeEntry_ripples _ s).trans (ih _)

theorem takeBack_ripples (p : NoticeEntry → Bool) (s : State) : Ripples s (takeBack p s) :=
  (Ripples.of_act (.discard p s)).trans (removeEntries_ripples _ _ _)

/-! ### The end of a recall -/

theorem freeRecall_ripples (k : RecallId) (i : SlotId) (s : State) : Ripples s (freeRecall k i s) := by
  unfold freeRecall
  have h := Ripples.of_act (Act.closeRecall k s)
  dsimp only
  split
  · exact h
  · next e he => exact h.trans (Ripples.of_act (.relink i e _ _ he rfl rfl rfl rfl rfl (sameHoldings_refl _)))

theorem clearMark_same (n : NodeId) (e : Entry) : sameHoldings (clearMark n e).holders e.holders := by
  refine sameHoldings_map _ _ ?_
  intro h
  split <;> rfl

theorem supersede_ripples (id : ResourceId) (n : NodeId) (s : State) : Ripples s (supersede id n s) :=
  takeBack_ripples _ s

theorem resolveTarget_ripples (i : SlotId) (n : NodeId) (s : State) : Ripples s (resolveTarget i n s) := by
  unfold resolveTarget
  split
  · exact .refl
  · next e he =>
    split
    · exact .refl
    · next k _ =>
      split
      · exact .refl
      · next r hr =>
        split
        · have h1 : Ripples s (setRecall k (some (setStatus n .gone r)) s) :=
            .of_act (.retarget k r _ s hr rfl rfl rfl)
          have h2 := h1.trans (Ripples.of_act (.relink i e (clearMark n e) _ he rfl rfl rfl rfl rfl (clearMark_same n e)))
          have h3 := h2.trans (supersede_ripples e.id n _)
          exact ite_acts (fun _ => (h3.trans (freeRecall_ripples k i _)).trans (handOut_ripples _)) fun _ => h3
        · exact .refl

theorem abandonRecall_ripples (i : SlotId) (left : Bool) (s : State) : Ripples s (abandonRecall i left s) := by
  unfold abandonRecall
  split
  · exact .refl
  · next e _ =>
    split
    · exact .refl
    · next k _ =>
      have h1 := takeBack_ripples (isRecallFor e.id) s
      generalize takeBack (isRecallFor e.id) s = a at h1
      have h2 : Ripples s
          (match slot i a with
            | none => a
            | some e => setSlot i (some { e with holders := e.holders.map fun h => { h with recallTarget := false } }) a) := by
        split
        · exact h1
        · next e' he' =>
          exact h1.trans (Ripples.of_act (.relink i e' _ a he' rfl rfl rfl rfl rfl (sameHoldings_map _ _ fun _ => rfl)))
      have h3 := h2.trans (freeRecall_ripples k i _)
      refine Acts.trans ?_ (handOut_ripples _)
      exact ite_acts (fun _ => h3.trans (Ripples.of_act (.joinStartList i _))) fun _ => h3

/-! ### Departures and removals of waits -/

/-- The kinds of acts of a departure: a revocation counts for the departing node. -/
def departKinds (n : NodeId) (why : Departing) (k : Kind) : Prop :=
  k = .claims ∨ k = .freed ∨ (why ≠ .released ∧ k = .revoke n)

theorem departKinds_claims (n : NodeId) (why : Departing) : departKinds n why .claims := Or.inl rfl

theorem revocationEffects_acts (id : ResourceId) (h : Holding) (why : Departing) (s : State) :
    Acts (departKinds h.node why) s (revocationEffects id h why s) := by
  unfold revocationEffects
  split
  · exact .refl
  · next notify =>
    have h1 : Acts (departKinds h.node (.revoked notify)) s _ :=
      .one (Or.inr (Or.inr ⟨by simp, rfl⟩)) (.revoke h.node s)
    have h2 := h1.tail (departKinds_claims _ _) (.flag .revocation _)
    exact ite_acts (fun _ => h2.trans ((offerBestEffort_ripples _ _ _).within (departKinds_claims _ _))) fun _ => h2

theorem freeIfRetired_acts (i : SlotId) (s : State) : Acts (· = .freed) s (freeIfRetired i s) := by
  unfold freeIfRetired
  split
  · exact .refl
  · next e he =>
    split
    · next h => exact .one rfl (.freeSlot i e s he h.2 (Or.inl h.1))
    · exact .refl

theorem holdingOf_node {n : NodeId} {e : Entry} {h : Holding} (hh : holdingOf n e = some h) : h.node = n := by
  simpa using List.find?_some hh

/-- A departure begins with the holding leaving the entry. -/
theorem depart_rest (i : SlotId) (n : NodeId) (why : Departing) (s : State) (e : Entry) (h : Holding)
    (he : slot i s = some e) (hh : holdingOf n e = some h) :
    Acts (departKinds n why) (dropHolding i e n s) (depart i n why s) := by
  have hc : departKinds n why .claims := departKinds_claims n why
  simp only [depart, he, hh]
  have h2 := holdingOf_node hh ▸ revocationEffects_acts e.id h why (dropHolding i e n s)
  have h3 := h2.trans ((resolveTarget_ripples i n _).within hc)
  have h4 := h3.trans ((freeIfRetired_acts i _).mono fun _ hk => Or.inr (Or.inl hk))
  have h5 := h4.trans ((serveDeferred_ripples _).within hc)
  exact h5.trans ((grantPass_ripples i _).within hc)

theorem depart_acts (i : SlotId) (n : NodeId) (why : Departing) (s : State) :
    Acts (departKinds n why) s (depart i n why s) := by
  cases he : slot i s with
  | none =>
    simp only [depart, he]
    exact .refl
  | some e =>
    cases hh : holdingOf n e with
    | none =>
      simp only [depart, he, hh]
      exact .refl
    | some h =>
      have h1 : Acts (departKinds n why) s (dropHolding i e n s) :=
        .one (departKinds_claims n why) (.dropHolding i e n h s he hh)
      exact h1.trans (depart_rest i n why s e h he hh)

theorem departKinds_released {n : NodeId} {k : Kind} (h : departKinds n .released k) : k = .claims ∨ k = .freed :=
  h.imp_right fun h => h.elim id fun h => absurd rfl h.1

/-- The removal of a wait begins with the wait leaving the queue. -/
theorem removeWait_rest (i : SlotId) (n : NodeId) (why : WaitEnd) (s : State) (e : Entry) (w : Wait)
    (he : slot i s = some e) (hw : waitOf n e = some w) : Ripples (dropWait i e n s) (removeWait i n why s) := by
  simp only [removeWait, he, hw]
  change Ripples (dropWait i e n s) (if _ then grantPass i (if _ then leaveBothLists i _ else _) else _)
  have h2 : Ripples (dropWait i e n s)
      (match waitEndReason why with
        | none => dropWait i e n s
        | some reason => offerBestEffort n (.waitEnded e.id reason) (dropWait i e n s)) := by
    split
    · exact .refl
    · exact offerBestEffort_ripples _ _ _
  have h3 := fun c : Prop => fun [Decidable c] => ite_acts (c := c) (fun _ => h2.trans (abandonRecall_ripples i true _))
    fun _ => h2
  have h4 : ∀ x, Ripples (dropWait i e n s) x →
      Ripples (dropWait i e n s) (if (slot i x).any fun e => e.queue.isEmpty then leaveBothLists i x else x) :=
    fun x hx => ite_acts (fun _ => hx.trans (leaveBothLists_ripples i x)) fun _ => hx
  have h5 : ∀ (b : Bool) x, Ripples (dropWait i e n s) x →
      Ripples (dropWait i e n s) (if b = true then grantPass i x else x) :=
    fun _ x hx => ite_acts (fun _ => hx.trans (grantPass_ripples i x)) fun _ => hx
  exact h5 _ _ (h4 _ (h3 _))

theorem removeWait_ripples (i : SlotId) (n : NodeId) (why : WaitEnd) (s : State) :
    Ripples s (removeWait i n why s) := by
  cases he : slot i s with
  | none =>
    simp only [removeWait, he]
    exact .refl
  | some e =>
    cases hw : waitOf n e with
    | none =>
      simp only [removeWait, he, hw]
      exact .refl
    | some w =>
      exact (Ripples.of_act (.dropWait i e n w s he hw)).trans (removeWait_rest i n why s e w he hw)

theorem sessionDrop_ripples (n : NodeId) (s : State) : Ripples s (sessionDrop n s) :=
  foldl_acts _ (fun s i => removeWait_ripples i n .dropped s) _ s

theorem sessionDepart_acts (n : NodeId) (why : Departing) (s : State) :
    Acts (departKinds n why) s (sessionDepart n why s) :=
  foldl_acts _ (fun s i => depart_acts i n why s) _ s

/-- A departure leaves every session as it is. -/
theorem departKinds_session {n m : NodeId} {why : Departing} {s t : State} (h : Acts (departKinds n why) s t) :
    (node m t).session = (node m s).session := by
  refine h.same (f := fun s => (node m s).session) ?_
  rintro k s t (rfl | rfl | ⟨-, rfl⟩) a
  · exact (a.record rfl m).2.1
  · exact (a.record rfl m).2.1
  · cases a
    show (node m (modNode n _ s)).session = _
    rw [node_modNode]
    split <;> rfl

/-- The end of an ACTIVE node's session: departures, and the record itself closed. -/
theorem sessionEnd_acts (n : NodeId) (why : SessionEnd) (s : State) (h : isActive (node n s).session = true) :
    Acts (fun k => departKinds n (departureOf why) k ∨ k = .session n) s (sessionEnd n why s) := by
  have hc := departKinds_claims n (departureOf why)
  have h1 : Acts (departKinds n (departureOf why)) s _ := (sessionDrop_ripples n s).within hc
  have h2 := h1.trans (sessionDepart_acts n (departureOf why) _)
  have h3 := h2.trans ((takeBack_ripples (isAddressedTo n) _).within hc)
  refine (h3.mono fun _ => Or.inl).tail (Or.inr rfl) (.endSession n why _ ?_)
  rw [departKinds_session h3]
  exact h

end Sys2Proof.Machine
end

