-- ==== Sys2Proof/Laws/Exec.lean ====
section
/-!
SUPPORT. What each command can do, said once: a next state of `exec` is a run of acts of the kinds of that command.
-/

namespace Sys2Proof.Machine

variable {K : Kind → Prop}

theorem Acts.add {k : Kind} {s t u : State} (h : Acts K s t) (a : Act k t u) (hk : K k) : Acts K s u := .tail h hk a

theorem Acts.unit {k : Kind} {s t : State} (a : Act k s t) (hk : K k) : Acts K s t := .one hk a

theorem flag_acts (f : Flag) (s : State) (hK : K .claims) : Acts K s (setFlag f s) := .unit (.flag f s) hK

/-! ### Expiries -/

/-- The kinds of acts of a departure of any node's holding. -/
def leavingKinds (k : Kind) : Prop := k = .claims ∨ k = .freed ∨ ∃ n, k = .revoke n

/-- The kinds of acts of an expiry. -/
def expiryKinds (k : Kind) : Prop := leavingKinds k ∨ k = .picks ∨ ∃ n, k = .session n

theorem leaving_claims : leavingKinds .claims := Or.inl rfl

theorem expiry_claims : expiryKinds .claims := Or.inl leaving_claims

theorem departKinds_leaving {n : NodeId} {why : Departing} {k : Kind} (h : departKinds n why k) : leavingKinds k :=
  h.imp_right (Or.imp_right fun h => ⟨n, h.2⟩)

theorem depart_leaving (i : SlotId) (n : NodeId) (why : Departing) (s : State) :
    Acts leavingKinds s (depart i n why s) :=
  (depart_acts i n why s).mono fun _ => departKinds_leaving

theorem lapse_acts (n : NodeId) (s : State) (h : isActive (node n s).session = true) :
    Acts (fun k => departKinds n (.revoked false) k ∨ k = .session n) s (lapse n s) :=
  (sessionEnd_acts n .lapsed s h).add (.flag .nodeLapsed _) (Or.inl (departKinds_claims _ _))

theorem recallTimeout_acts (k : RecallId) (s : State) : Acts leavingKinds s (recallTimeout k s) := by
  unfold recallTimeout
  split
  · exact .refl
  · exact foldl_acts _ (fun s (x : Target) => depart_leaving _ x.node _ s) _ s

theorem setReady_ripples (place : Nat) (e : NoticeEntry) (s : State) (h : s.nq[place]? = some e) :
    Ripples s (setEntry place { e with state := .ready } s) :=
  .of_act (.entryState place e _ s h rfl (Or.inl rfl) rfl)

theorem backoffOver_ripples (place : Nat) (s : State) : Ripples s (backoffOver place s) := by
  unfold backoffOver
  split
  · exact .refl
  · next e h => exact setReady_ripples place e s h

theorem leaseReached_active {n : NodeId} {s : State} (h : leaseReached n s = true) :
    isActive (node n s).session = true := by
  simp only [leaseReached, Bool.and_eq_true, decide_eq_true_eq] at h
  rw [h.2]
  rfl

theorem takeExpiry_acts (x : Expiry) (s : State) (hx : expiryReached x s = true) :
    Acts expiryKinds s (takeExpiry x s) := by
  cases x with
  | lease n =>
    exact (lapse_acts n s (leaseReached_active hx)).mono fun _ h =>
      h.elim (fun h => Or.inl (departKinds_leaving h)) fun h => Or.inr (Or.inr ⟨n, h⟩)
  | wait i n => exact (removeWait_ripples i n .timedOut s).within expiry_claims
  | recallEnd k => exact (recallTimeout_acts k s).mono fun _ => Or.inl
  | backoff place => exact (backoffOver_ripples place s).within expiry_claims

theorem mem_holdExpiries {x : Expiry} {s : State} (h : x ∈ holdExpiries s) : expiryReached x s = true := by
  unfold holdExpiries at h
  split at h
  · rcases List.mem_append.mp h with h | h <;> exact (List.mem_filter.mp h).2
  · cases h

theorem mem_reachedExpiries {x : Expiry} {s : State} (h : x ∈ reachedExpiries s) : expiryReached x s = true := by
  unfold reachedExpiries at h
  rcases List.mem_append.mp h with h | h
  · rcases List.mem_append.mp h with h | h
    · exact (List.mem_filter.mp h).2
    · exact mem_holdExpiries h
  · exact (List.mem_filter.mp h).2

theorem takeExpiries_acts (due : State → List Expiry) (hd : ∀ s x, x ∈ due s → expiryReached x s = true) (fuel : Nat)
    (s : State) : Acts expiryKinds s (takeExpiries due fuel s) := by
  induction fuel generalizing s with
  | zero => exact .refl
  | succ fuel ih =>
    unfold takeExpiries
    split
    · exact .refl
    · next x xs hs =>
      refine ((Acts.unit (.picks (s.picks + 1) s) (Or.inr (Or.inl rfl))).trans (takeExpiry_acts _ _ ?_)).trans (ih _)
      refine hd s _ ?_
      rw [hs]
      generalize Config.expiryPick s.picks % (xs.length + 1) = k
      cases hk : (x :: xs)[k]? with
      | none => simp
      | some y => exact List.mem_of_getElem? hk

theorem settleReached_acts (s : State) : Acts expiryKinds s (settleExpiries reachedExpiries s) :=
  takeExpiries_acts reachedExpiries (fun _ _ => mem_reachedExpiries) _ s

theorem settleHold_acts (s : State) : Acts expiryKinds s (settleExpiries holdExpiries s) :=
  takeExpiries_acts holdExpiries (fun _ _ => mem_holdExpiries) _ s

/-! ### Attempts -/

theorem setLine_acts (l : LineState) (s : State) (hK : K .line) : Acts K s (setLine l s) :=
  .unit (.line _ s rfl) hK

/-- The kinds of acts at the end of an attempt. -/
def attemptKinds (how : Attempt) (k : Kind) : Prop :=
  k = .claims ∨ (how = .refusal ∧ k = .freed) ∨ ((how = .delivered ∨ how = .refusal) ∧ ∃ n, k = .lease n)

theorem countFailure_ripples (place : Nat) (e : NoticeEntry) (s : State) (h : s.nq[place]? = some e) :
    Ripples s (countFailure place e s) := by
  unfold countFailure
  split
  · next ha => exact .of_act (.entryState place e _ s h rfl (Or.inr ha) rfl)
  · exact (Ripples.of_act (.flag .noticeFailed s)).trans (removeEntry_ripples place _)

theorem renewAddressee_acts (nt : Notice) (s : State) (hK : ∀ n, K (.lease n)) : Acts K s (renewAddressee nt s) := by
  unfold renewAddressee
  split
  · exact .unit (.lease _ s) (hK _)
  · exact .refl

theorem refuseGrant_acts (nt : Notice) (s : State) : Acts (fun k => k = .claims ∨ k = .freed) s (refuseGrant nt s) := by
  unfold refuseGrant
  split
  · split
    · exact .refl
    · split
      · exact (depart_acts _ _ .released s).mono fun _ => departKinds_released
      · exact .refl
  · exact .refl

theorem endAttemptOf_acts (place : Nat) (e : NoticeEntry) (how : Attempt) (s : State) (h : s.nq[place]? = some e) :
    Acts (attemptKinds how) s (endAttemptOf place e how s) := by
  have hc : attemptKinds how .claims := Or.inl rfl
  unfold endAttemptOf
  split
  · exact (removeEntry_ripples place s).within hc
  · cases how with
    | interrupted => exact (setReady_ripples place e s h).within hc
    | failure => exact (countFailure_ripples place e s h).within hc
    | delivered =>
      exact (renewAddressee_acts e.notice s fun n => Or.inr (Or.inr ⟨Or.inl rfl, n, rfl⟩)).trans
        ((removeEntry_ripples place _).within hc)
    | refusal =>
      refine ((renewAddressee_acts e.notice s fun n => Or.inr (Or.inr ⟨Or.inr rfl, n, rfl⟩)).trans
        ((removeEntry_ripples place _).within hc)).trans ((refuseGrant_acts e.notice _).mono ?_)
      intro k hk
      exact hk.imp_right fun h => Or.inl ⟨rfl, h⟩

theorem entryInFlight_some {s : State} {p : Nat × NoticeEntry} (h : entryInFlight s = some p) :
    s.nq[p.1]? = some p.2 ∧ isInFlight p.2 = true := by
  unfold entryInFlight at h
  cases hf : s.nq.findIdx? isInFlight with
  | none => simp [hf] at h
  | some place =>
    simp only [hf, Option.bind_some, Option.map_eq_some_iff] at h
    obtain ⟨e, he, rfl⟩ := h
    obtain ⟨hlt, hp, -⟩ := List.findIdx?_eq_some_iff_getElem.mp hf
    rw [List.getElem?_eq_getElem hlt] at he
    cases he
    exact ⟨List.getElem?_eq_getElem hlt, hp⟩

theorem endAttempt_acts (how : Attempt) (s : State) : Acts (attemptKinds how) s (endAttempt how s) := by
  unfold endAttempt
  split
  · exact .refl
  · next place e h => exact endAttemptOf_acts place e how s (entryInFlight_some h).1

/-- The kinds of acts of an event on the line that ends an attempt. -/
def outcomeKinds (how : Attempt) (k : Kind) : Prop := k = .line ∨ attemptKinds how k

theorem fixOutcome_acts (how : Attempt) (s : State) : Acts (outcomeKinds how) s (fixOutcome how s) :=
  (setLine_acts _ s (Or.inl rfl)).trans ((endAttempt_acts how _).mono fun _ => Or.inr)

/-! ### Decisions on requests -/

/-- The kinds of acts by which a request from a node is answered. -/
def replyKinds (n : NodeId) (k : Kind) : Prop := k = .line ∨ k = .memory n ∨ k = .lease n

theorem claimNow_acts (i : SlotId) (e : Entry) (n : NodeId) (m : Mode) (s : State) (he : slot i s = some e)
    (hl : e.life = .opened) (hn : holdingOf n e = none) (hg : grantableNow m e = true) :
    Acts (fun k => k = .claims ∨ k = .claimed) s (claimNow i e n m s).1 := by
  unfold claimNow
  split
  · exact .refl
  · split
    · exact flag_acts _ s (Or.inl rfl)
    · next hq hp =>
      simp only [grantableNow, Bool.and_eq_true, List.isEmpty_iff] at hg
      exact .unit (.grantNow i e n m s he hl hg.1 hg.2 hn hq hp) (Or.inr rfl)

theorem claimLater_acts (i : SlotId) (e : Entry) (n : NodeId) (m : Mode) (limit : Nat) (s : State)
    (he : slot i s = some e) (hl : e.life = .opened) (hn : holdingOf n e = none) (hw : waitOf n e = none) :
    Acts (fun k => k = .claims ∨ k = .claimed) s (claimLater i e n m limit s).1 := by
  unfold claimLater
  split
  · exact .refl
  · split
    · exact .refl
    · split
      · exact flag_acts _ s (Or.inl rfl)
      · split
        · exact flag_acts _ s (Or.inl rfl)
        · next hc hq hp =>
          have h : Acts (fun k => k = Kind.claims ∨ k = .claimed) s (addWait i e n m limit s) :=
            .unit (.addWait i e n m limit s he hl hn hw hq hc hp) (Or.inr rfl)
          exact ite_acts (fun _ => h.trans ((endCheck_ripples i _).within (Or.inl rfl))) fun _ => h

theorem lookup_some {id : ResourceId} {s : State} {i : SlotId} {e : Entry} (h : lookup id s = some (i, e)) :
    slot i s = some e ∧ e.id = id := by
  unfold lookup at h
  cases hf : tfind (fun o => o.any fun e => decide (e.id = id)) s.dir.slots with
  | none => simp [hf] at h
  | some j =>
    simp only [hf, Option.bind_some, Option.map_eq_some_iff, Prod.mk.injEq] at h
    obtain ⟨f, hs, rfl, rfl⟩ := h
    have := tfind_some hf
    simp only [slot] at hs
    simp only [hs, Option.any_some, decide_eq_true_eq] at this
    exact ⟨hs, this⟩

theorem waitPosition_none {n : NodeId} {e : Entry} (h : waitPosition n e = none) : waitOf n e = none := by
  unfold waitPosition at h
  unfold waitOf
  simp only [Option.map_eq_none_iff, List.findIdx?_eq_none_iff] at h
  exact List.find?_eq_none.mpr fun w hw => by simpa using h w hw

theorem decideClaim_acts (n : NodeId) (a : ClaimArgs) (s : State) :
    Acts (fun k => k = .claims ∨ k = .claimed) s (decideClaim n a s).1 := by
  unfold decideClaim
  split
  · exact .refl
  · next i e h =>
    obtain ⟨he, -⟩ := lookup_some h
    split
    · exact .refl
    · next hl =>
      have hl : e.life = .opened := by
        cases h : e.life
        · rfl
        · exact absurd h hl
      split
      · exact .refl
      · exact .refl
      · next hn hw =>
        split
        · next hg => exact claimNow_acts i e n a.mode s he hl hn hg
        · exact claimLater_acts i e n a.mode a.limit s he hl hn (waitPosition_none hw)

theorem decideRelease_acts (n : NodeId) (a : TokenArgs) (s : State) :
    Acts (fun k => k = .claims ∨ k = .freed) s (decideRelease n a s).1 := by
  unfold decideRelease
  split
  · exact .refl
  · split
    · exact .refl
    · split
      · exact (depart_acts _ n .released s).mono fun _ => departKinds_released
      · exact .refl

theorem tellDowngrade_ripples (i : SlotId) (n : NodeId) (t : Token) (s : State) :
    Ripples s (tellDowngrade i n t s) := by
  unfold tellDowngrade
  split
  · exact .refl
  · split
    · exact .refl
    · next r hr =>
      split
      · exact resolveTarget_ripples i n s
      · split
        · exact .of_act (.retarget _ r _ s hr rfl rfl rfl)
        · exact .refl

theorem decideDowngrade_acts (n : NodeId) (a : TokenArgs) (s : State) :
    Acts (fun k => k = .claims ∨ k = .claimed) s (decideDowngrade n a s).1 := by
  unfold decideDowngrade
  split
  · exact .refl
  · next i e h =>
    split
    · exact .refl
    · next hd hh =>
      split
      · exact .refl
      · split
        · exact .refl
        · next hm =>
          have h1 : Acts (fun k => k = Kind.claims ∨ k = .claimed) s _ :=
            .unit (.downgrade i e n hd s (lookup_some h).1 hh hm) (Or.inr rfl)
          exact (h1.trans ((tellDowngrade_ripples i n _ _).within (Or.inl rfl))).trans
            ((grantPass_ripples i _).within (Or.inl rfl))

theorem decideCancel_ripples (n : NodeId) (id : ResourceId) (s : State) : Ripples s (decideCancel n id s).1 := by
  unfold decideCancel
  split
  · exact .refl
  · split
    · exact .refl
    · exact removeWait_ripples _ n .cancelled s

theorem decideCheck_state (a : CheckArgs) (s : State) : (decideCheck a s).1 = s := by
  unfold decideCheck
  split
  · rfl
  · split <;> rfl

theorem decideQuery_state (id : ResourceId) (s : State) : (decideQuery id s).1 = s := by
  unfold decideQuery
  split <;> rfl

/-- The kinds of acts of the end of a session by a JOIN or LEAVE. -/
def sessionKinds (n : NodeId) (k : Kind) : Prop := k = .claims ∨ k = .freed ∨ k = .session n

theorem sessionEnd_released_acts (n : NodeId) (why : SessionEnd) (s : State) (h : departureOf why = .released)
    (ha : isActive (node n s).session = true) : Acts (sessionKinds n) s (sessionEnd n why s) := by
  refine (sessionEnd_acts n why s ha).mono fun k hk => ?_
  rw [h] at hk
  exact hk.elim (fun h => (departKinds_released h).imp_right Or.inl) fun h => Or.inr (Or.inr h)

/-- What a JOIN does before the session starts. -/
theorem restart_acts (n : NodeId) (s : State) :
    Acts (sessionKinds n) s (if isActive (node n s).session then sessionEnd n .restarted s else s) :=
  ite_acts (fun h => sessionEnd_released_acts n .restarted s rfl h) fun _ => .refl

theorem decideJoin_acts (n : NodeId) (s : State) :
    Acts (fun k => sessionKinds n k ∨ k = .start n) s (decideJoin n s).1 :=
  ((restart_acts n s).mono fun _ => Or.inl).add (.startSession n _) (Or.inr rfl)

theorem decideLeave_acts (n : NodeId) (s : State) : Acts (sessionKinds n) s (decideLeave n s).1 := by
  unfold decideLeave
  exact ite_acts (fun h => sessionEnd_released_acts n .left s rfl h) fun _ =>
    .unit (.leaveLapsed n s) (Or.inr (Or.inr rfl))

theorem decideRequest_acts {α : Type} (k : RequestKind) (n : NodeId) (args : Option α)
    (owner : α → State → State × Reply) (s : State) (h : ∀ a, Acts K s (owner a s).1) :
    Acts K s (decideRequest k n args owner s).1 := by
  unfold decideRequest
  split
  · exact .refl
  · split
    · exact .refl
    · exact h _

theorem beginReply_acts (kind : BitVec 4) (r : Request) (reply : Reply) (s : State) (hK : K .line) :
    Acts K s (beginReply kind r reply s) :=
  .unit (.line _ s rfl) hK

theorem renewAfter_acts (active : Bool) (n : NodeId) (s : State) (hK : K (.lease n)) :
    Acts K s (renewAfter active n s) := by
  unfold renewAfter
  exact ite_acts (fun _ => .unit (.lease n s) hK) fun _ => .refl

theorem takeRequest_acts (kind : BitVec 4) (r : Request) (decide : State → State × Reply) (s : State)
    (h : Acts K s (decide s).1) (hK : ∀ k, replyKinds r.src k → K k) : Acts K s (takeRequest kind r decide s) := by
  have hl : K .line := hK _ (Or.inl rfl)
  have hm : K (.memory r.src) := hK _ (Or.inr (Or.inl rfl))
  have hr : K (.lease r.src) := hK _ (Or.inr (Or.inr rfl))
  unfold takeRequest
  split
  · exact (renewAfter_acts _ r.src s hr).trans (beginReply_acts kind r _ _ hl)
  · have h1 : Acts K (decide s).1 (recordReply kind r (decide s).2 (decide s).1) :=
      .unit (.memory r.src (.stored r.seq kind (recordedId kind r.body) (decide s).2) _) hm
    exact ((h.trans h1).trans (renewAfter_acts _ r.src _ hr)).trans (beginReply_acts kind r _ _ hl)

theorem onRequest_acts {kind : BitVec 4} {r : Request} {decide : State → State × Reply} {s t : State}
    (ht : onRequest kind r decide s = .next t) (h : Acts K s (decide s).1) (hK : ∀ k, replyKinds r.src k → K k) :
    Acts K s t := by
  unfold onRequest at ht
  split at ht
  · cases ht
    exact ite_acts (fun _ => takeRequest_acts kind r decide s h hK) fun _ => .refl
  · cases ht

/-! ### The supervisor's commands -/

theorem complete_acts (c : Completion) (s : State) (hm : K .mailbox) (hc : K .claims) : Acts K s (complete c s) :=
  (Acts.unit (.mailbox _ s.svp.command s.svp.args s.svp.captured (resultRegisters c) s) hm).add (.flag .cmdDone _) hc

theorem runCommand_acts (code : Word) (owner : Owner) (s : State) (h : Acts K s (owner s.svp.captured s).1)
    (hm : K .mailbox) (hc : K .claims) : Acts K s (runCommand code owner s) := by
  unfold runCommand
  exact ite_acts (fun _ => h.trans (complete_acts _ _ hm hc)) fun _ => .refl

theorem argIn_some {lo hi k : Nat} {w : Word} (h : argIn lo hi w = some k) : lo ≤ k ∧ k ≤ hi := by
  unfold argIn at h
  split at h
  · cases h
    assumption
  · cases h

theorem ownProvision_acts (a : Vector Word 4) (s : State) : Acts (· = .provision) s (ownProvision a s).1 := by
  unfold ownProvision
  split
  · next hs _ =>
    split
    · exact .refl
    · next hl =>
      split
      · exact .refl
      · next i hi =>
        have hi : slot i s = none := by simpa [slot] using tfind_some hi
        exact .unit (.provision i _ _ _ s hl hi (argIn_some hs).1 (argIn_some hs).2) rfl
  · exact .refl

/-- The queue of a slot loses waits only, and while it is empty its holders only leave. -/
def Shrinks (i : SlotId) (s t : State) : Prop :=
  ∀ e', slot i t = some e' → ∃ e, slot i s = some e
    ∧ (e'.queue.map (·.node)).Sublist (e.queue.map (·.node))
    ∧ (e.queue = [] → (e'.holders.map (·.node)).Sublist (e.holders.map (·.node)))

theorem Shrinks.refl (i : SlotId) (s : State) : Shrinks i s s :=
  fun e h => ⟨e, h, .refl _, fun _ => .refl _⟩

theorem Shrinks.of_slot {i : SlotId} {s t : State} (h : slot i t = slot i s) : Shrinks i s t :=
  fun e he => ⟨e, h ▸ he, .refl _, fun _ => .refl _⟩

theorem Shrinks.trans {i : SlotId} {s t u : State} (h : Shrinks i s t) (g : Shrinks i t u) : Shrinks i s u := by
  intro e' he'
  obtain ⟨e1, h1, q1, k1⟩ := g e' he'
  obtain ⟨e, h0, q0, k0⟩ := h e1 h1
  refine ⟨e, h0, q1.trans q0, fun hq => ?_⟩
  rw [hq, List.map_nil, List.sublist_nil, List.map_eq_nil_iff] at q0
  exact (k1 q0).trans (k0 hq)

theorem Shrinks.of_set {i j : SlotId} {s t : State} {e e' : Entry} (hs : slot j s = some e)
    (hq : (e'.queue.map (·.node)).Sublist (e.queue.map (·.node)))
    (hh : e.queue = [] → (e'.holders.map (·.node)).Sublist (e.holders.map (·.node)))
    (ht : t.dir.slots = tset s.dir.slots j (some e')) : Shrinks i s t := by
  intro f hf
  rw [slot, ht, tget_tset] at hf
  by_cases hij : i = j
  · subst hij
    simp only [if_true, Option.some.injEq] at hf
    subst hf
    exact ⟨e, hs, hq, hh⟩
  · rw [if_neg hij] at hf
    exact ⟨f, hf, .refl _, fun _ => .refl _⟩

theorem sameHoldings_nodes {a b : List Holding} (h : sameHoldings a b) : a.map (·.node) = b.map (·.node) := by
  have := congrArg (List.map (·.node)) h
  simpa [List.map_map, Function.comp_def] using this

theorem slot_dropWait (i j : SlotId) (e : Entry) (n : NodeId) (s : State) :
    slot j (dropWait i e n s)
      = if j = i then some { e with queue := e.queue.eraseP fun w => w.node = n } else slot j s := by
  simp [dropWait, slot_setSlot]

theorem slot_dropHolding (i j : SlotId) (e : Entry) (n : NodeId) (s : State) :
    slot j (dropHolding i e n s)
      = if j = i then some { e with holders := e.holders.eraseP fun h => h.node = n } else slot j s :=
  slot_setSlot s i j _

theorem act_shrinks {k : Kind} {s t : State} (a : Act k s t) (hk : leavingKinds k) (i : SlotId) : Shrinks i s t := by
  cases a with
  | relink j e e' _ h hid hl hs hr hq hh =>
    exact .of_set h (hq ▸ .refl _) (fun _ => sameHoldings_nodes hh ▸ .refl _) rfl
  | grant j e w rest _ h hq hl hh hf hc hp =>
    refine .of_set (e' := _) h ?_ (fun he => ?_) rfl
    · rw [hq]
      exact List.Sublist.cons _ (.refl _)
    · rw [hq] at he
      cases he
  | dropWait j e n w _ h hw =>
    exact .of_set (e' := { e with queue := e.queue.eraseP fun w => w.node = n }) h (List.eraseP_sublist.map _)
      (fun _ => .refl _) rfl
  | dropHolding j e n h _ hs hh =>
    exact .of_set (e' := { e with holders := e.holders.eraseP fun h => h.node = n }) hs (.refl _)
      (fun _ => List.eraseP_sublist.map _) rfl
  | freeSlot j e _ h hh hq =>
    intro f hf
    have : (freeSlot j s).dir.slots = tset s.dir.slots j none := by
      simp [freeSlot, h, leaveBothLists, leaveDeferred, leaveStartList, setSlot, setFlag]
    rw [slot, this, tget_tset] at hf
    split at hf
    · cases hf
    · exact ⟨f, hf, .refl _, fun _ => .refl _⟩
  | flag | queue | eraseNotice | discard | entryState | joinDeferred | leaveDeferred | joinStartList
  | leaveStartList | retarget | openRecall | closeRecall | revoke => exact .of_slot rfl
  | _ => simp [leavingKinds] at hk

theorem shrinks_of_leaving {s t : State} (h : Acts leavingKinds s t) (i : SlotId) : Shrinks i s t :=
  h.rel (Shrinks.refl i) (fun _ _ _ => Shrinks.trans) fun _ _ _ hk a => act_shrinks a hk i

theorem removeWait_leaving (i : SlotId) (n : NodeId) (why : WaitEnd) (s : State) :
    Acts leavingKinds s (removeWait i n why s) :=
  (removeWait_ripples i n why s).within leaving_claims

theorem map_eraseP_node {α : Type} (f : α → NodeId) (n : NodeId) (l : List α) :
    (l.eraseP fun x => f x = n).map f = (l.map f).erase n := by
  rw [List.erase_eq_eraseP, List.eraseP_map]
  congr 2
  funext x
  simp only [Function.comp_apply, beq_eq_decide]
  exact decide_eq_decide.mpr eq_comm

theorem waitOf_none {n : NodeId} {e : Entry} (h : waitOf n e = none) : n ∉ e.queue.map (·.node) := by
  unfold waitOf at h
  simpa using h

theorem holdingOf_none {n : NodeId} {e : Entry} (h : holdingOf n e = none) : n ∉ e.holders.map (·.node) := by
  unfold holdingOf at h
  simpa using h

/-- After the removal of a node's wait, at least that wait has left the queue. -/
theorem removeWait_drops (i : SlotId) (n : NodeId) (why : WaitEnd) (s : State) (e' : Entry)
    (h : slot i (removeWait i n why s) = some e') :
    ∃ e, slot i s = some e ∧ (e'.queue.map (·.node)).Sublist ((e.queue.map (·.node)).erase n) := by
  cases he : slot i s with
  | none =>
    simp only [removeWait, he] at h
    cases h
  | some e =>
    cases hw : waitOf n e with
    | none =>
      simp only [removeWait, he, hw] at h
      cases h
      exact ⟨e', rfl, by rw [List.erase_of_not_mem (waitOf_none hw)]⟩
    | some w =>
      obtain ⟨f, hf, hq, -⟩ :=
        shrinks_of_leaving ((removeWait_rest i n why s e w he hw).within leaving_claims) i e' h
      rw [slot_dropWait, if_pos rfl] at hf
      cases hf
      exact ⟨e, rfl, by rwa [map_eraseP_node (fun w : Wait => w.node)] at hq⟩

/-- After the departure of a node's holding from an entry with an empty queue, at least that holding has left. -/
theorem depart_drops (i : SlotId) (n : NodeId) (why : Departing) (s : State) (e' : Entry)
    (h : slot i (depart i n why s) = some e') :
    ∃ e, slot i s = some e ∧ (e'.queue.map (·.node)).Sublist (e.queue.map (·.node))
      ∧ (e.queue = [] → (e'.holders.map (·.node)).Sublist ((e.holders.map (·.node)).erase n)) := by
  cases he : slot i s with
  | none =>
    simp only [depart, he] at h
    cases h
  | some e =>
    cases hh : holdingOf n e with
    | none =>
      simp only [depart, he, hh] at h
      cases h
      exact ⟨e', rfl, .refl _, fun _ => by rw [List.erase_of_not_mem (holdingOf_none hh)]⟩
    | some w =>
      obtain ⟨f, hf, hq, hs⟩ := shrinks_of_leaving
        ((depart_rest i n why s e w he hh).mono fun _ => departKinds_leaving) i e' h
      rw [slot_dropHolding, if_pos rfl] at hf
      cases hf
      exact ⟨e, rfl, hq, fun h0 => by have := hs h0; rwa [map_eraseP_node (fun h : Holding => h.node)] at this⟩

theorem endWaits_leaving (i : SlotId) (why : WaitEnd) (s : State) : Acts leavingKinds s (endWaits i why s) := by
  unfold endWaits
  split
  · exact .refl
  · exact foldl_acts _ (fun s (w : Wait) => removeWait_leaving i w.node why s) _ s

theorem revokeHolders_leaving (i : SlotId) (s : State) : Acts leavingKinds s (revokeHolders i s) := by
  unfold revokeHolders
  split
  · exact .refl
  · exact foldl_acts _ (fun s (h : Holding) => depart_leaving i h.node (.revoked true) s) _ s

/-- A list each of whose entries counts no more often than in another is empty when the other is. -/
theorem endWaits_fold (i : SlotId) (why : WaitEnd) (ws : List Wait) (s : State)
    (h : ∀ e, slot i s = some e → (e.queue.map (·.node)).Subperm (ws.map (·.node))) :
    ∀ e, slot i (ws.foldl (fun s w => removeWait i w.node why s) s) = some e → e.queue = [] := by
  induction ws generalizing s with
  | nil =>
    intro e he
    have := h e he
    simpa using this
  | cons w ws ih =>
    refine ih (removeWait i w.node why s) ?_
    intro e' he'
    obtain ⟨e, he, hq⟩ := removeWait_drops i w.node why s e' he'
    have := (h e he).erase w.node
    rw [List.map_cons, List.erase_cons_head] at this
    exact hq.subperm.trans this

theorem endWaits_queue (i : SlotId) (why : WaitEnd) (s : State) (e : Entry)
    (h : slot i (endWaits i why s) = some e) : e.queue = [] := by
  cases he : slot i s with
  | none =>
    simp only [endWaits, he] at h
    cases h
  | some e0 =>
    simp only [endWaits, he] at h
    refine endWaits_fold i why e0.queue s ?_ e h
    intro e1 h1
    rw [he] at h1
    cases h1
    exact .refl _

theorem revokeHolders_fold (i : SlotId) (hs : List Holding) (s : State)
    (h : ∀ e, slot i s = some e → e.queue = [] ∧ (e.holders.map (·.node)).Subperm (hs.map (·.node))) :
    ∀ e, slot i (hs.foldl (fun s h => depart i h.node (.revoked true) s) s) = some e →
      e.queue = [] ∧ e.holders = [] := by
  induction hs generalizing s with
  | nil =>
    intro e he
    have := h e he
    simpa using this
  | cons x xs ih =>
    refine ih (depart i x.node (.revoked true) s) ?_
    intro e' he'
    obtain ⟨e, he, hq, hh⟩ := depart_drops i x.node (.revoked true) s e' he'
    obtain ⟨h0, h1⟩ := h e he
    have := h1.erase x.node
    rw [List.map_cons, List.erase_cons_head] at this
    rw [h0, List.map_nil, List.sublist_nil, List.map_eq_nil_iff] at hq
    exact ⟨hq, (hh h0).subperm.trans this⟩

theorem revokeHolders_empty (i : SlotId) (s : State) (h : ∀ e, slot i s = some e → e.queue = []) (e : Entry)
    (he : slot i (revokeHolders i s) = some e) : e.queue = [] ∧ e.holders = [] := by
  cases h0 : slot i s with
  | none =>
    simp only [revokeHolders, h0] at he
    cases he
  | some e0 =>
    simp only [revokeHolders, h0] at he
    refine revokeHolders_fold i e0.holders s ?_ e he
    intro e1 h1
    rw [h0] at h1
    cases h1
    exact ⟨h e0 h0, .refl _⟩

theorem withdrawEntry_acts (i : SlotId) (s : State) : Acts leavingKinds s (withdrawEntry i s) := by
  unfold withdrawEntry
  have h1 : Acts leavingKinds s _ := (abandonRecall_ripples i false s).within leaving_claims
  have h2 := h1.trans (endWaits_leaving i .withdrawn _)
  have hq := endWaits_queue i .withdrawn (abandonRecall i false s)
  have h3 := h2.trans (revokeHolders_leaving i _)
  have he := revokeHolders_empty i _ hq
  have h4 := h3.trans ((leaveBothLists_ripples i _).within leaving_claims)
  dsimp only
  cases hs : slot i (leaveBothLists i (revokeHolders i (endWaits i .withdrawn (abandonRecall i false s)))) with
  | none =>
    have : freeSlot i (leaveBothLists i (revokeHolders i (endWaits i .withdrawn (abandonRecall i false s))))
        = leaveBothLists i (revokeHolders i (endWaits i .withdrawn (abandonRecall i false s))) := by
      unfold freeSlot
      rw [hs]
    rw [this]
    exact h4
  | some e =>
    obtain ⟨h5, h6⟩ := he e (by rwa [slot_leaveBothLists] at hs)
    exact h4.add (.freeSlot i e _ hs h6 (Or.inr h5)) (Or.inr (Or.inl rfl))

theorem retireEntry_acts (i : SlotId) (e : Entry) (s : State) (h : slot i s = some e) :
    Acts (fun k => k = .retire ∨ k = .claims ∨ k = .freed) s (retireEntry i e s) := by
  have hc : (fun k => k = Kind.retire ∨ k = .claims ∨ k = .freed) Kind.claims := Or.inr (Or.inl rfl)
  unfold retireEntry
  have h1 : Acts (fun k => k = Kind.retire ∨ k = .claims ∨ k = .freed) s _ := .unit (.retire i e s h) (Or.inl rfl)
  have h2 := h1.trans ((abandonRecall_ripples i false _).within hc)
  have h3 : ∀ x, Ripples x (endWaits i .retired x) := by
    intro x
    unfold endWaits
    split
    · exact .refl
    · exact foldl_acts _ (fun s (w : Wait) => removeWait_ripples i w.node .retired s) _ x
  have h4 := h2.trans ((h3 _).within hc)
  have h5 := h4.trans ((leaveBothLists_ripples i _).within hc)
  exact h5.trans ((freeIfRetired_acts i _).mono fun _ hk => Or.inr (Or.inr hk))

theorem ownRetire_acts (a : Vector Word 4) (s : State) :
    Acts (fun k => k = .retire ∨ k = .claims ∨ k = .freed) s (ownRetire a s).1 := by
  unfold ownRetire
  split
  · exact .refl
  · split
    · exact .refl
    · next h =>
      split
      · exact .refl
      · exact retireEntry_acts _ _ s (lookup_some h).1

theorem ownWithdraw_acts (a : Vector Word 4) (s : State) : Acts leavingKinds s (ownWithdraw a s).1 := by
  unfold ownWithdraw
  split
  · exact .refl
  · split
    · exact .refl
    · exact withdrawEntry_acts _ s

theorem ownSetNode_acts (a : Vector Word 4) (s : State) : Acts (fun k => ∃ n, k = .params n) s (ownSetNode a s).1 := by
  unfold ownSetNode
  split
  · next n _ _ _ _ _ ht hq =>
    split
    · next hs =>
      exact .unit (.params n _ _ _ s hs (argIn_some ht).1 (argIn_some ht).2 (argIn_some hq).1 (argIn_some hq).2)
        ⟨n, rfl⟩
    · exact .refl
    · exact .refl
  · exact .refl

/-- The kinds of acts of an EVICT. -/
def evictKinds (k : Kind) : Prop := leavingKinds k ∨ ∃ n, k = .session n ∨ k = .evict n

theorem ownEvict_acts (a : Vector Word 4) (s : State) : Acts evictKinds s (ownEvict a s).1 := by
  unfold ownEvict
  split
  · exact .refl
  · next n _ =>
    refine Acts.add (ite_acts (fun h => (sessionEnd_acts n .evicted s h).mono fun k hk => ?_) fun _ => .refl)
      (.evict n _) (Or.inr ⟨n, Or.inr rfl⟩)
    exact hk.elim (fun h => Or.inl (departKinds_leaving h)) fun h => Or.inr ⟨n, Or.inl h⟩

theorem ownReadResource_state (a : Vector Word 4) (s : State) : (ownReadResource a s).1 = s := by
  unfold ownReadResource
  split
  · rfl
  · split <;> rfl

theorem ownReadHolder_state (a : Vector Word 4) (s : State) : (ownReadHolder a s).1 = s := by
  unfold ownReadHolder
  split
  · rfl
  · split
    · rfl
    · split <;> rfl

theorem ownReadWait_state (a : Vector Word 4) (s : State) : (ownReadWait a s).1 = s := by
  unfold ownReadWait
  split
  · rfl
  · split
    · rfl
    · split <;> rfl

theorem ownReadNode_state (a : Vector Word 4) (s : State) : (ownReadNode a s).1 = s := by
  unfold ownReadNode
  split <;> rfl

theorem ownSetTiming_acts (a : Vector Word 4) (s : State) : Acts (· = .timing) s (ownSetTiming a s).1 := by
  unfold ownSetTiming
  split
  · exact .unit (.timing _ _ s) rfl
  · exact .refl

theorem ownHalt_acts (a : Vector Word 4) (s : State) :
    Acts (fun k => expiryKinds k ∨ k = .halted) s (ownHalt a s).1 := by
  unfold ownHalt
  split
  · exact .refl
  · exact ((settleHold_acts s).mono fun _ => Or.inl).add (.halt _) (Or.inr rfl)

theorem handOutAll_ripples (fuel : Nat) (s : State) : Ripples s (handOutAll fuel s) := by
  induction fuel generalizing s with
  | zero => exact .refl
  | succ fuel ih => exact (handOut_ripples s).trans (ih _)

theorem resumeVisit_ripples (s : State) (i : SlotId) : Ripples s (resumeVisit s i) :=
  ite_acts (fun _ => grantPass_ripples i s) fun _ => .refl

theorem resumePasses_ripples (s : State) : Ripples s (resumePasses s) :=
  foldl_acts resumeVisit resumeVisit_ripples _ s

theorem ownResume_acts (a : Vector Word 4) (s : State) :
    Acts (fun k => k = .claims ∨ k = .halted) s (ownResume a s).1 := by
  have hc : (fun k => k = Kind.claims ∨ k = .halted) Kind.claims := Or.inl rfl
  unfold ownResume
  split
  · dsimp only
    have h1 : Acts (fun k => k = Kind.claims ∨ k = .halted) s _ := .unit (.resume s) (Or.inr rfl)
    have h2 := h1.trans ((serveDeferred_ripples _).within hc)
    have h3 := h2.trans ((handOutAll_ripples 8 _).within hc)
    exact h3.trans ((resumePasses_ripples _).within hc)
  · exact .refl

/-! ### The window -/

theorem writeCommand_acts (code : Word) (s : State) (hm : K .mailbox) (hc : K .claims) :
    Acts K s (writeCommand code s) := by
  have hs : Acts K s (startCommand code s) := .unit (.mailbox .running code s.svp.args s.svp.args s.svp.results s) hm
  exact ite_acts (fun _ => flag_acts _ s hc) fun _ =>
    ite_acts (fun _ => hs) fun _ => hs.trans (complete_acts _ _ hm hc)

/-- The kinds of acts of a write to a register of the window. -/
def windowKinds (k : Kind) : Prop := k = .claims ∨ k = .mailbox ∨ k = .flagClear ∨ k = .enables

theorem writeRegister_acts (address : BitVec 4) (data : Word) (s : State) :
    Acts windowKinds s (writeRegister address data s) := by
  have hm : windowKinds .mailbox := Or.inr (Or.inl rfl)
  unfold writeRegister
  split
  · exact writeCommand_acts data s hm (Or.inl rfl)
  · exact .unit (.mailbox s.svp.cmdState s.svp.command _ s.svp.captured s.svp.results s) hm
  · exact .unit (.mailbox s.svp.cmdState s.svp.command _ s.svp.captured s.svp.results s) hm
  · exact .unit (.mailbox s.svp.cmdState s.svp.command _ s.svp.captured s.svp.results s) hm
  · exact .unit (.mailbox s.svp.cmdState s.svp.command _ s.svp.captured s.svp.results s) hm
  · exact .unit (.flagClear data s) (Or.inr (Or.inr (Or.inl rfl)))
  · exact .unit (.enables data s) (Or.inr (Or.inr (Or.inr rfl)))
  · exact .refl

/-! ### Every command -/

/-- The kinds of acts of each command. -/
def kindsOf (c : Instr) (k : Kind) : Prop :=
  match c with
  | .por _ _ => k = .por
  | .timebaseStep => expiryKinds k ∨ k = .clocks
  | .leaseExpiry n => departKinds n (.revoked false) k ∨ k = .session n
  | .waitDeadlineExpiry _ _ => k = .claims
  | .recallDeadline _ => leavingKinds k
  | .backoffEnd _ => k = .claims
  | .join r => replyKinds r.src k ∨ sessionKinds r.src k ∨ k = .start r.src
  | .leave r => replyKinds r.src k ∨ sessionKinds r.src k
  | .claim r | .downgrade r => replyKinds r.src k ∨ k = .claims ∨ k = .claimed
  | .release r => replyKinds r.src k ∨ k = .claims ∨ k = .freed
  | .cancel r => replyKinds r.src k ∨ k = .claims
  | .renew r | .check r | .query r | .badKind _ r => replyKinds r.src k
  | .frameDropped _ | .frameIgnored _ | .noticeFrameSent | .replySent | .replyLost | .endOfFrame | .sofReceived _ =>
    k = .line
  | .receiveError _ => k = .line ∨ k = .claims
  | .sendNotice => k = .line ∨ k = .send
  | .arbitrationLoss _ => outcomeKinds .interrupted k
  | .bitError _ | .ackWrongSequence _ | .badCheckByte _ | .notAnAcknowledgement _ | .noReply =>
    outcomeKinds .failure k
  | .accept _ | .announceDelivered => outcomeKinds .delivered k
  | .refuse _ => outcomeKinds .refusal k
  | .lineHold => expiryKinds k ∨ outcomeKinds .interrupted k
  | .lineRelease => k = .line ∨ k = .claims ∨ k = .grace
  | .provision => k = .mailbox ∨ k = .claims ∨ k = .provision
  | .retire => k = .mailbox ∨ k = .retire ∨ k = .claims ∨ k = .freed
  | .withdraw => k = .mailbox ∨ leavingKinds k
  | .setNode => k = .mailbox ∨ k = .claims ∨ ∃ n, k = .params n
  | .evict => k = .mailbox ∨ evictKinds k
  | .readResource | .readHolder | .readWait | .readNode | .readPools => k = .mailbox ∨ k = .claims
  | .setTiming => k = .mailbox ∨ k = .claims ∨ k = .timing
  | .clearClaims => k = .mailbox ∨ k = .claims ∨ k = .clear
  | .halt => k = .mailbox ∨ expiryKinds k ∨ k = .halted
  | .resume => k = .mailbox ∨ k = .claims ∨ k = .halted
  | .cmdRefused _ | .commandWrite _ | .badCommand _ => k = .mailbox ∨ k = .claims
  | .flagsWrite _ => k = .flagClear
  | .enableWrite _ => k = .enables
  | .registerWrite _ => windowKinds k

theorem startNotice_acts (place : Nat) (e : NoticeEntry) (s : State) (h : s.nq[place]? = some e)
    (hn : s.nq.any isInFlight = false) : Acts (fun k => k = .line ∨ k = .send) s (startNotice place e s) :=
  (Acts.unit (.send place e s h hn) (Or.inr rfl)).add (.line _ _ rfl) (Or.inl rfl)

theorem offeredEntry_some {s : State} {place : Nat} (h : offeredEntry s = some place) :
    s.nq.any isInFlight = false ∧ s.nq.findIdx? (fun e => e.state = .ready) = some place := by
  unfold offeredEntry at h
  split at h
  · cases h
  · next hn => exact ⟨by simpa using hn, h⟩

theorem frameSent_acts (nt : Notice) (s : State) : Acts (· = .line) s (frameSent nt s) := by
  unfold frameSent
  split
  · exact .unit (.line _ s rfl) rfl
  · exact setLine_acts _ s rfl

theorem holdLine_acts (s : State) : Acts (outcomeKinds .interrupted) s (holdLine s) :=
  ((setLine_acts .held s (Or.inl rfl)).trans ((endAttempt_acts .interrupted _).mono fun _ => Or.inr)).add
    (.flag .lineHeld _) (Or.inr (Or.inl rfl))

theorem releaseLine_acts (s : State) : Acts (fun k => k = .line ∨ k = .claims ∨ k = .grace) s (releaseLine s) :=
  ((setLine_acts .idle s (Or.inl rfl)).add (.flag .lineReleased _) (Or.inr (Or.inl rfl))).add (.grace _)
    (Or.inr (Or.inr rfl))

theorem failure_acts {c : Prop} [Decidable c] {s t : State}
    (h : Host.Outcome.next (φ := Fault) (ρ := Refusal) (if c then fixOutcome .failure s else s) = .next t) :
    Acts (outcomeKinds .failure) s t := by
  cases h
  exact ite_acts (fun _ => fixOutcome_acts .failure s) fun _ => .refl

theorem owner_acts {code : Word} {owner : Owner} {s t : State}
    (h : Host.Outcome.next (φ := Fault) (ρ := Refusal) (runCommand code owner s) = .next t) (hm : K .mailbox)
    (hc : K .claims) (ho : Acts K s (owner s.svp.captured s).1) : Acts K s t := by
  cases h
  exact runCommand_acts code owner s ho hm hc

theorem same_acts {s t : State} (h : t = s) : Acts K s t := h ▸ .refl

/-- A next state of a command is reached from its state by acts of the command's kinds. -/
theorem exec_acts {c : Instr} {s t : State} (h : exec c s = .next t) : Acts (kindsOf c) s t := by
  cases c with
  | por r l => cases h; exact .unit (.por r l s) rfl
  | timebaseStep =>
    cases h
    exact ((settleReached_acts s).mono fun _ => Or.inl).add (.clocks _) (Or.inr rfl)
  | leaseExpiry n => cases h; exact ite_acts (fun h => lapse_acts n s (leaseReached_active h)) fun _ => .refl
  | waitDeadlineExpiry i n => cases h; exact ite_acts (fun _ => removeWait_ripples i n .timedOut s) fun _ => .refl
  | recallDeadline k => cases h; exact ite_acts (fun _ => recallTimeout_acts k s) fun _ => .refl
  | backoffEnd p => cases h; exact ite_acts (fun _ => backoffOver_ripples p.val s) fun _ => .refl
  | join r =>
    exact onRequest_acts h
      (decideRequest_acts .join r.src _ _ s fun _ => (decideJoin_acts r.src s).mono fun _ => Or.inr) fun _ => Or.inl
  | leave r =>
    exact onRequest_acts h
      (decideRequest_acts .leave r.src _ _ s fun _ => (decideLeave_acts r.src s).mono fun _ => Or.inr) fun _ => Or.inl
  | claim r =>
    exact onRequest_acts h
      (decideRequest_acts .claim r.src _ _ s fun a => (decideClaim_acts r.src a s).mono fun _ => Or.inr)
      fun _ => Or.inl
  | release r =>
    exact onRequest_acts h
      (decideRequest_acts .release r.src _ _ s fun a => (decideRelease_acts r.src a s).mono fun _ => Or.inr)
      fun _ => Or.inl
  | downgrade r =>
    exact onRequest_acts h
      (decideRequest_acts .downgrade r.src _ _ s fun a => (decideDowngrade_acts r.src a s).mono fun _ => Or.inr)
      fun _ => Or.inl
  | cancel r =>
    exact onRequest_acts h
      (decideRequest_acts .cancel r.src _ _ s fun a => (decideCancel_ripples r.src a s).mono fun _ => Or.inr)
      fun _ => Or.inl
  | renew r =>
    exact onRequest_acts h (decideRequest_acts .renew r.src _ _ s fun _ => .refl) fun _ => id
  | check r =>
    exact onRequest_acts h (decideRequest_acts .check r.src _ _ s fun a => same_acts (decideCheck_state a s)) fun _ => id
  | query r =>
    exact onRequest_acts h (decideRequest_acts .query r.src _ _ s fun a => same_acts (decideQuery_state a s)) fun _ => id
  | badKind kind r =>
    simp only [exec, execBadKind] at h
    split at h
    · cases h
    · exact onRequest_acts h .refl fun _ => id
  | frameDropped f =>
    simp only [exec, execFrameDropped] at h
    split at h
    · cases h; exact ite_acts (fun _ => setLine_acts _ s rfl) fun _ => .refl
    · cases h
  | frameIgnored d =>
    simp only [exec, execFrameIgnored] at h
    split at h
    · cases h; exact ite_acts (fun _ => setLine_acts _ s rfl) fun _ => .refl
    · cases h
  | sofReceived d =>
    simp only [exec, execSofReceived] at h
    split at h
    · cases h; exact ite_acts (fun _ => setLine_acts _ s rfl) fun _ => .refl
    · cases h
  | receiveError f =>
    simp only [exec, execReceiveError] at h
    split at h
    · cases h
      exact ite_acts (fun _ => (setLine_acts _ s (Or.inl rfl)).add (.flag .frameError _) (Or.inr rfl)) fun _ => .refl
    · cases h
  | sendNotice =>
    cases h
    refine ite_acts (fun _ => ?_) fun _ => .refl
    split
    · exact .refl
    · next place e hp =>
      simp only [Option.bind_eq_some_iff, Option.map_eq_some_iff, Prod.mk.injEq] at hp
      obtain ⟨q, hq, f, hf, rfl, rfl⟩ := hp
      exact startNotice_acts q f s hf (offeredEntry_some hq).1
  | arbitrationLoss pos =>
    cases h
    refine ite_acts (fun _ => ?_) fun _ => .refl
    exact ((setLine_acts .receiving s (Or.inl rfl)).trans
      ((endAttempt_acts .interrupted _).mono fun _ => Or.inr)).add (.line _ _ rfl) (Or.inl rfl)
  | bitError f => exact failure_acts h
  | ackWrongSequence a => exact failure_acts h
  | badCheckByte a => exact failure_acts h
  | notAnAcknowledgement b => exact failure_acts h
  | noReply => exact failure_acts h
  | noticeFrameSent =>
    cases h
    refine ite_acts (fun _ => ?_) fun _ => .refl
    split
    · exact .refl
    · exact frameSent_acts _ s
  | accept a => cases h; exact ite_acts (fun _ => fixOutcome_acts .delivered s) fun _ => .refl
  | refuse a => cases h; exact ite_acts (fun _ => fixOutcome_acts .refusal s) fun _ => .refl
  | announceDelivered => cases h; exact ite_acts (fun _ => fixOutcome_acts .delivered s) fun _ => .refl
  | replySent => cases h; exact ite_acts (fun _ => setLine_acts _ s rfl) fun _ => .refl
  | replyLost => cases h; exact ite_acts (fun _ => setLine_acts _ s rfl) fun _ => .refl
  | endOfFrame => cases h; exact ite_acts (fun _ => setLine_acts _ s rfl) fun _ => .refl
  | lineHold =>
    cases h
    exact ((settleReached_acts s).mono fun _ => Or.inl).trans
      ((holdLine_acts _).mono fun _ => Or.inr)
  | lineRelease => cases h; exact ite_acts (fun _ => releaseLine_acts s) fun _ => .refl
  | provision =>
    exact owner_acts h (Or.inl rfl) (Or.inr (Or.inl rfl)) ((ownProvision_acts _ s).mono fun _ h => Or.inr (Or.inr h))
  | retire =>
    exact owner_acts h (Or.inl rfl) (Or.inr (Or.inr (Or.inl rfl))) ((ownRetire_acts _ s).mono fun _ => Or.inr)
  | withdraw => exact owner_acts h (Or.inl rfl) (Or.inr leaving_claims) ((ownWithdraw_acts _ s).mono fun _ => Or.inr)
  | setNode =>
    exact owner_acts h (Or.inl rfl) (Or.inr (Or.inl rfl)) ((ownSetNode_acts _ s).mono fun _ h => Or.inr (Or.inr h))
  | evict =>
    exact owner_acts h (Or.inl rfl) (Or.inr (Or.inl leaving_claims)) ((ownEvict_acts _ s).mono fun _ => Or.inr)
  | readResource => exact owner_acts h (Or.inl rfl) (Or.inr rfl) (same_acts (ownReadResource_state _ s))
  | readHolder => exact owner_acts h (Or.inl rfl) (Or.inr rfl) (same_acts (ownReadHolder_state _ s))
  | readPools => exact owner_acts h (Or.inl rfl) (Or.inr rfl) .refl
  | readWait => exact owner_acts h (Or.inl rfl) (Or.inr rfl) (same_acts (ownReadWait_state _ s))
  | readNode => exact owner_acts h (Or.inl rfl) (Or.inr rfl) (same_acts (ownReadNode_state _ s))
  | setTiming =>
    exact owner_acts h (Or.inl rfl) (Or.inr (Or.inl rfl)) ((ownSetTiming_acts _ s).mono fun _ h => Or.inr (Or.inr h))
  | clearClaims =>
    exact owner_acts h (Or.inl rfl) (Or.inr (Or.inl rfl)) (.unit (.clear s) (Or.inr (Or.inr rfl)))
  | halt =>
    exact owner_acts h (Or.inl rfl) (Or.inr (Or.inl expiry_claims)) ((ownHalt_acts _ s).mono fun _ => Or.inr)
  | resume =>
    exact owner_acts h (Or.inl rfl) (Or.inr (Or.inl rfl)) ((ownResume_acts _ s).mono fun _ => Or.inr)
  | badCommand code =>
    simp only [exec, execBadCommand] at h
    split at h
    · cases h
    · cases h; exact writeCommand_acts code s (Or.inl rfl) (Or.inr rfl)
  | cmdRefused code => cases h; exact writeCommand_acts code s (Or.inl rfl) (Or.inr rfl)
  | commandWrite code => cases h; exact writeCommand_acts code s (Or.inl rfl) (Or.inr rfl)
  | flagsWrite d => cases h; exact .unit (.flagClear d s) rfl
  | enableWrite d => cases h; exact .unit (.enables d s) rfl
  | registerWrite a =>
    cases h
    split
    · exact writeRegister_acts _ _ s
    · exact .refl

end Sys2Proof.Machine
end

