-- ==== Sys2Proof/Laws/Frames.lean ====
section
/-!
SUPPORT. Bytes and bits on the line: bytes written out as bits are read back, and what a reply of whole bytes is.
-/

namespace Sys2Proof.Machine

@[simp] theorem byteOfBits_getLsbD (b : Byte) :
    byteOfBits (b.getLsbD 7) (b.getLsbD 6) (b.getLsbD 5) (b.getLsbD 4) (b.getLsbD 3) (b.getLsbD 2) (b.getLsbD 1)
      (b.getLsbD 0) = b := by
  revert b
  decide +kernel

/-- Bytes written out bit by bit are read back as those bytes. -/
@[simp] theorem bytesOfBits_bytesBits (bs : List Byte) : bytesOfBits (bytesBits bs) = some bs := by
  induction bs with
  | nil => rfl
  | cons b bs ih =>
    simp only [bytesBits, List.flatMap_cons, byteBits, List.cons_append, List.nil_append, bytesOfBits,
      byteOfBits_getLsbD]
    rw [show List.flatMap byteBits bs = bytesBits bs from rfl, ih]
    rfl

/-- A reply of whole bytes is what the tests of R165 make of its bytes. -/
@[simp] theorem classifyReply_bytesBits (check : Byte) (seq : BitVec 3) (reply : List Byte) :
    classifyReply check seq (bytesBits reply) = classifyAck check seq reply := by
  simp [classifyReply]

/-- The whole bytes of some bits are an eighth of them. -/
theorem bytesOfBits_length {bits : List Bool} {bs : List Byte} (h : bytesOfBits bits = some bs) :
    bits.length = 8 * bs.length := by
  induction bits using bytesOfBits.induct generalizing bs with
  | case1 => cases h; rfl
  | case2 a b c d e f g x rest ih =>
    simp only [bytesOfBits, Option.map_eq_some_iff] at h
    obtain ⟨cs, hc, rfl⟩ := h
    simp [ih hc]
    omega
  | case3 bits h0 h1 =>
    rw [bytesOfBits.eq_3 _ h0 h1] at h
    cases h

/-- R165, test 1: a reply whose bits are not sixteen is no acknowledgement. -/
theorem classifyReply_length (check : Byte) (seq : BitVec 3) (bits : List Bool) (h : bits.length ≠ 16) :
    classifyReply check seq bits = .notAcknowledgement := by
  unfold classifyReply
  split
  · rfl
  · next reply hr =>
    have hl := bytesOfBits_length hr
    match reply with
    | [] | [_] | _ :: _ :: _ :: _ => rfl
    | [_, _] => exact absurd hl h

end Sys2Proof.Machine
end

