-- ==== Sys2Proof/Laws/Served.lean ====
section
/-!
SUPPORT. What each operation keeps of the law that no grantable head stands unserved (R54), slot by slot.
-/

namespace Sys2Proof.Machine

/-- The slot holds an OPEN entry whose head wait is grantable. -/
def headOpen (j : SlotId) (s : State) : Bool :=
  (slot j s).any fun e => decide (e.life = .opened) && headGrantable e

/-- The law of R54 for one slot. -/
def Served (j : SlotId) (s : State) : Prop :=
  s.svp.halted = false → headOpen j s = true → isDeferred j s = true

theorem headsServed_iff (s : State) : headsServed s ↔ ∀ j, Served j s := by
  unfold headsServed Served headOpen
  constructor
  · intro h j hh ho
    cases hs : slot j s with
    | none => rw [hs] at ho; cases ho
    | some e =>
      rw [hs] at ho
      simp only [Option.any_some, Bool.and_eq_true, decide_eq_true_eq] at ho
      exact h hh j e hs ho.1 ho.2
  · intro h hh j e hs hl hg
    refine h j hh ?_
    rw [hs]
    simp [hl, hg]

variable {j : SlotId} {s t : State}

theorem Served.of (h1 : t.svp.halted = s.svp.halted) (h2 : headOpen j t = true → headOpen j s = true)
    (h3 : isDeferred j s = true → isDeferred j t = true) (h : Served j s) : Served j t :=
  fun hh ho => h3 (h (h1 ▸ hh) (h2 ho))

theorem Served.same (h1 : t.svp.halted = s.svp.halted) (h2 : t.dir = s.dir) (h : Served j s) : Served j t := by
  refine h.of h1 ?_ ?_
  · unfold headOpen slot; rw [h2]; exact id
  · unfold isDeferred; rw [h2]; exact id

theorem Served.modNode (n : NodeId) (f : NodeRecord → NodeRecord) (h : Served j s) : Served j (modNode n f s) :=
  h.same rfl rfl

/-- No pass, removal or departure changes the halted flag. -/
theorem Act.halted {k : Kind} (a : Act k s t) (h1 : k ≠ .halted) (h2 : k ≠ .por) : t.svp.halted = s.svp.halted := by
  cases a with
  | halt | resume => exact absurd rfl h1
  | por => exact absurd rfl h2
  | freeSlot =>
    unfold Machine.freeSlot
    split <;> rfl
  | lease n =>
    unfold renewLease
    split <;> rfl
  | clear =>
    unfold clearQueue clearDirectory
    dsimp only
    split <;> rfl
  | _ => rfl

theorem leaving_halted (h : Acts leavingKinds s t) : t.svp.halted = s.svp.halted := by
  refine h.same (f := fun s => s.svp.halted) ?_
  rintro k s t (rfl | rfl | ⟨n, rfl⟩) a <;> exact a.halted (by simp) (by simp)

theorem ripples_halted (h : Ripples s t) : t.svp.halted = s.svp.halted :=
  leaving_halted (h.within leaving_claims)

/-! ### One entry written -/

theorem headGrantable_congr {e e' : Entry} (hq : e'.queue = e.queue) (hs : e'.shareLimit = e.shareLimit)
    (hh : sameHoldings e'.holders e.holders) : headGrantable e' = headGrantable e := by
  have hlen := sameHoldings_length hh
  have hm := sameHoldings_modes hh
  have hall : ∀ l : List Holding, (l.all fun h => decide (h.mode = .shared)) = (l.map (·.mode)).all (· = .shared) := by
    intro l
    rw [List.all_map]
    rfl
  have hemp : e'.holders.isEmpty = e.holders.isEmpty := by
    rw [Bool.eq_iff_iff, List.isEmpty_iff_length_eq_zero, List.isEmpty_iff_length_eq_zero, hlen]
  unfold headGrantable
  rw [hq]
  congr 1
  funext w
  cases hw : w.mode
  · simp only [fits]
    rw [hall, hall, hm, hlen, hs]
  · simp only [fits]
    exact hemp

theorem headOpen_setSlot_ne (i : SlotId) (o : Option Entry) (h : j ≠ i) : headOpen j (setSlot i o s) = headOpen j s := by
  unfold headOpen
  rw [slot_setSlot, if_neg h]

theorem headOpen_setSlot_same (i : SlotId) (e : Entry) :
    headOpen i (setSlot i (some e) s) = (decide (e.life = .opened) && headGrantable e) := by
  unfold headOpen
  rw [slot_setSlot_same]
  rfl

theorem headOpen_some {i : SlotId} {e : Entry} (h : slot i s = some e) :
    headOpen i s = (decide (e.life = .opened) && headGrantable e) := by
  unfold headOpen
  rw [h]
  rfl

/-- An entry is written with its head, holders' modes and life as before. -/
theorem Served.relink {i : SlotId} {e e' : Entry} (hi : slot i s = some e) (hl : e'.life = e.life)
    (hq : e'.queue = e.queue) (hs : e'.shareLimit = e.shareLimit) (hh : sameHoldings e'.holders e.holders)
    (h : Served j s) : Served j (setSlot i (some e') s) := by
  refine Served.of (s := s) rfl ?_ id h
  by_cases hj : j = i
  · subst hj
    rw [headOpen_setSlot_same, headOpen_some hi, hl, headGrantable_congr hq hs hh]
    exact id
  · rw [headOpen_setSlot_ne _ _ hj]
    exact id

/-! ### Operations that serve nobody -/

theorem offerBestEffort_dir (n : NodeId) (m : NoticeMsg) (s : State) : (offerBestEffort n m s).dir = s.dir := by
  unfold offerBestEffort
  split <;> rfl

theorem Served.offerBestEffort (n : NodeId) (m : NoticeMsg) (h : Served j s) : Served j (offerBestEffort n m s) :=
  h.same (ripples_halted (offerBestEffort_ripples n m s)) (offerBestEffort_dir n m s)

theorem notifyTarget_dir (k : RecallId) (x : Target) (s : State) : (notifyTarget k x s).dir = s.dir := by
  unfold notifyTarget
  split
  · rfl
  · split <;> rfl

theorem notifyTarget_halted (k : RecallId) (x : Target) (s : State) :
    (notifyTarget k x s).svp.halted = s.svp.halted := by
  unfold notifyTarget
  split
  · rfl
  · split <;> rfl

theorem notifyWhileFree_dir (k : RecallId) (xs : List Target) (s : State) :
    (notifyWhileFree k xs s).dir = s.dir := by
  induction xs generalizing s with
  | nil => rfl
  | cons x xs ih =>
    unfold notifyWhileFree
    split
    · rfl
    · rw [ih, notifyTarget_dir]

theorem Served.startRecall (k : RecallId) (i : SlotId) (h : Served j s) : Served j (startRecall k i s) := by
  unfold Machine.startRecall
  split
  · exact h
  · next e he =>
    split
    · exact h
    · next w rest hq =>
      dsimp only
      refine Served.same (ripples_halted (notifyWhileFree_ripples _ _ _)) (notifyWhileFree_dir _ _ _) ?_
      exact Served.relink (s := openRecall k _ s) he rfl rfl rfl (markBlockers_same k w e) (h.same rfl rfl)

theorem Served.recallDecision (i : SlotId) (h : Served j s) : Served j (recallDecision i s) := by
  unfold Machine.recallDecision
  split
  · exact h
  · split
    · split
      · exact (h.startRecall _ i).same rfl rfl
      · exact h.same rfl rfl
    · exact h.same rfl rfl

theorem Served.handoutWalk (fuel : Nat) (h : Served j s) : Served j (handoutWalk fuel s) := by
  induction fuel generalizing s with
  | zero => exact h
  | succ fuel ih =>
    unfold Machine.handoutWalk
    split
    · split
      · exact (h.startRecall _ _).same rfl rfl
      · exact ih (h.same rfl rfl)
    · exact h

theorem Served.handOut (h : Served j s) : Served j (handOut s) := by
  unfold Machine.handOut
  split
  · exact h
  · exact h.handoutWalk _

theorem Served.takeFreeEntry (h : Served j s) : Served j (takeFreeEntry s) := by
  unfold Machine.takeFreeEntry
  split
  · exact h
  · exact h.same (notifyTarget_halted _ _ _) (notifyTarget_dir _ _ _)

theorem Served.freeRecall (k : RecallId) (i : SlotId) (h : Served j s) : Served j (freeRecall k i s) := by
  unfold Machine.freeRecall
  dsimp only
  split
  · exact h.same rfl rfl
  · next e he => exact Served.relink he rfl rfl rfl (sameHoldings_refl _) (h.same rfl rfl)

theorem Served.leaveBothLists {i : SlotId} (h : Served j s) (hi : j = i → headOpen i s = false) :
    Served j (leaveBothLists i s) := by
  intro hh ho
  rw [isDeferred_leaveBothLists]
  by_cases hj : j = i
  · subst hj
    rw [show headOpen j (Machine.leaveBothLists j s) = headOpen j s from rfl, hi rfl] at ho
    cases ho
  · simp only [hj, decide_false, Bool.not_false, Bool.true_and]
    exact h hh ho

/-! ### The grant pass -/

theorem headOpen_returnWait (n : NodeId) : headOpen j (returnWait n s) = headOpen j s := rfl

theorem endByQuota_served {i : SlotId} (e : Entry) (w : Wait) (rest : List Wait) (hj : j ≠ i) (h : Served j s) :
    Served j (endByQuota i e w rest s) := by
  unfold endByQuota
  refine Served.offerBestEffort _ _ ?_
  refine Served.of (s := s) rfl ?_ id h
  show headOpen j (setSlot i _ s) = true → _
  rw [headOpen_setSlot_ne _ _ hj]
  exact id

theorem grantHead_served {i : SlotId} (e : Entry) (w : Wait) (rest : List Wait) (hj : j ≠ i) (h : Served j s) :
    Served j (grantHead i e w rest s) := by
  refine Served.of (s := s) rfl ?_ id h
  show headOpen j (setSlot i _ s) = true → _
  rw [headOpen_setSlot_ne _ _ hj]
  exact id

theorem passLoop_served_ne {i : SlotId} (fuel : Nat) (hj : j ≠ i) (h : Served j s) : Served j (passLoop fuel i s) := by
  induction fuel generalizing s with
  | zero => exact h
  | succ fuel ih =>
    unfold passLoop
    split
    · exact h
    · split
      · exact h
      · split
        · split
          · exact ih (endByQuota_served _ _ _ hj h)
          · split
            · refine Served.of (s := s) rfl id ?_ h
              rw [isDeferred_joinDeferred]
              intro hd
              rw [hd, Bool.or_true]
            · exact ih (grantHead_served _ _ _ hj h)
        · exact h

/-- The loop of the pass ends with the head taken care of: none, not grantable, or on the deferred-grant list. -/
theorem passLoop_done {i : SlotId} (fuel : Nat) (s : State) (e : Entry) (he : slot i s = some e)
    (hf : e.queue.length ≤ fuel) :
    ∃ e', slot i (passLoop fuel i s) = some e' ∧ e'.life = e.life
      ∧ (headGrantable e' = false ∨ isDeferred i (passLoop fuel i s) = true) := by
  induction fuel generalizing s e with
  | zero =>
    refine ⟨e, he, rfl, Or.inl ?_⟩
    have : e.queue = [] := List.length_eq_zero_iff.mp (Nat.le_zero.mp hf)
    simp [headGrantable, this]
  | succ fuel ih =>
    unfold passLoop
    rw [he]
    dsimp only
    split
    · next hq => exact ⟨e, he, rfl, Or.inl (by simp [headGrantable, hq])⟩
    · next w rest hq =>
      rw [hq, List.length_cons] at hf
      split
      · next hfit =>
        split
        · exact ih _ { e with queue := rest } (endByQuota_slot i e w rest s) (by simpa using hf)
        · split
          · exact ⟨e, he, rfl, Or.inr (isDeferred_joinDeferred_same _ _)⟩
          · exact ih _ { e with queue := rest, holders := _ } (grantHead_slot i e w rest s) (by simpa using hf)
      · next hfit => exact ⟨e, he, rfl, Or.inl (by simpa [headGrantable, hq] using hfit)⟩

theorem endCheck_served_ne {i : SlotId} (hj : j ≠ i) (h : Served j s) : Served j (endCheck i s) := by
  unfold endCheck
  split
  · exact h
  · split
    · exact h.leaveBothLists fun h' => absurd h' hj
    · split
      · exact h.same rfl rfl
      · refine Served.recallDecision i (Served.of (s := s) rfl id ?_ h)
        rw [isDeferred_leaveDeferred]
        intro hd
        simp [hj, hd]

theorem endCheck_served_same {i : SlotId} (h : Served i s) : Served i (endCheck i s) := by
  unfold endCheck
  split
  · exact h
  · next e he =>
    split
    · next hq =>
      refine h.leaveBothLists fun _ => ?_
      rw [headOpen_some he]
      rw [List.isEmpty_iff] at hq
      simp [headGrantable, hq]
    · split
      · exact h.same rfl rfl
      · next hg =>
        refine Served.recallDecision i ?_
        intro hh ho
        rw [show headOpen i (leaveDeferred i s) = headOpen i s from rfl, headOpen_some he] at ho
        simp [hg] at ho

theorem grantPass_served_ne {i : SlotId} (hj : j ≠ i) (h : Served j s) : Served j (grantPass i s) := by
  unfold grantPass
  split
  · exact h
  · split
    · exact h
    · split
      · exact endCheck_served_ne hj (passLoop_served_ne _ hj h)
      · exact h

/-- After the pass the head of an OPEN entry is served (R54). -/
theorem grantPass_serves (i : SlotId) (s : State) : Served i (grantPass i s) := by
  unfold grantPass
  split
  · next hh => exact fun h => absurd (hh.symm.trans h) (by simp)
  · next hh =>
    split
    · next he =>
      intro _ ho
      simp [headOpen, he] at ho
    · next e he =>
      split
      · obtain ⟨e', he', -, hd⟩ := passLoop_done e.queue.length s e he le_rfl
        refine endCheck_served_same ?_
        intro _ ho
        rw [headOpen_some he'] at ho
        rcases hd with hd | hd
        · simp [hd] at ho
        · exact hd
      · next hl =>
        intro _ ho
        rw [headOpen_some he] at ho
        simp [hl] at ho

theorem Served.grantPass (i : SlotId) (h : Served j s) : Served j (grantPass i s) := by
  by_cases hj : j = i
  · subst hj
    exact grantPass_serves j s
  · exact grantPass_served_ne hj h

theorem Served.serveLoop (fuel : Nat) (h : Served j s) : Served j (serveLoop fuel s) := by
  induction fuel generalizing s with
  | zero => exact h
  | succ fuel ih =>
    unfold Machine.serveLoop
    split
    · exact h
    · next i _ _ =>
      have h1 := h.grantPass i
      dsimp only
      split
      · exact h1
      · exact ih h1

theorem Served.serveDeferred (h : Served j s) : Served j (serveDeferred s) := by
  unfold Machine.serveDeferred
  split
  · exact h
  · exact h.serveLoop _

theorem Served.arbiter (h : Served j s) : Served j (arbiter s) := by
  unfold Machine.arbiter
  have h1 := h.serveDeferred
  dsimp only
  split
  · exact h1
  · exact h1.takeFreeEntry

theorem Served.removeEntry (place : Nat) (h : Served j s) : Served j (removeEntry place s) :=
  Served.arbiter (h.same rfl rfl)

theorem Served.removeEntries (p : NoticeEntry → Bool) (fuel : Nat) (h : Served j s) :
    Served j (removeEntries p fuel s) := by
  induction fuel generalizing s with
  | zero => exact h
  | succ fuel ih =>
    unfold Machine.removeEntries
    split
    · exact h
    · exact ih (h.removeEntry _)

theorem Served.takeBack (p : NoticeEntry → Bool) (h : Served j s) : Served j (takeBack p s) :=
  Served.removeEntries _ _ (h.same rfl rfl)

/-! ### Recalls, departures, removals of waits -/

theorem Served.resolveTarget (i : SlotId) (n : NodeId) (h : Served j s) : Served j (resolveTarget i n s) := by
  unfold Machine.resolveTarget
  split
  · exact h
  · next e he =>
    split
    · exact h
    · next k _ =>
      split
      · exact h
      · next r _ =>
        split
        · have h1 : Served j (supersede e.id n
              (setSlot i (some (clearMark n e)) (setRecall k (some (setStatus n .gone r)) s))) :=
            Served.takeBack _ (Served.relink (s := setRecall k _ s) he rfl rfl rfl (clearMark_same n e) (h.same rfl rfl))
          dsimp only
          split
          · exact (h1.freeRecall _ _).handOut
          · exact h1
        · exact h

theorem Served.abandonRecall (i : SlotId) (left : Bool) (h : Served j s) : Served j (abandonRecall i left s) := by
  unfold Machine.abandonRecall
  split
  · exact h
  · next e _ =>
    split
    · exact h
    · next k _ =>
      dsimp only
      have h1 := h.takeBack (isRecallFor e.id)
      generalize Machine.takeBack (isRecallFor e.id) s = a at h1
      have h2 : Served j
          (match slot i a with
            | none => a
            | some e => setSlot i (some { e with holders := e.holders.map fun h => { h with recallTarget := false } }) a) := by
        split
        · exact h1
        · next e' he' => exact h1.relink he' rfl rfl rfl (sameHoldings_map _ _ fun _ => rfl)
      have h3 : ∀ x, Served j x → Served j (if (left && qualifies i x) = true then joinStartList i x else x) := by
        intro x hx
        split
        · exact hx.same rfl rfl
        · exact hx
      exact Served.handOut (h3 _ (h2.freeRecall k i))

theorem Served.revocationEffects (id : ResourceId) (x : Holding) (why : Departing) (h : Served j s) :
    Served j (revocationEffects id x why s) := by
  unfold Machine.revocationEffects
  split
  · exact h
  · dsimp only
    split
    · exact Served.offerBestEffort _ _ (h.same rfl rfl)
    · exact h.same rfl rfl

theorem Served.freeSlot {i : SlotId} (h : Served j s) : Served j (freeSlot i s) := by
  unfold Machine.freeSlot
  split
  · exact h
  · by_cases hj : j = i
    · subst hj
      intro _ ho
      have ho : headOpen j (setSlot j none s) = true := ho
      simp [headOpen] at ho
    · refine Served.same (s := Machine.leaveBothLists i (setSlot i none s)) rfl rfl ?_
      refine Served.leaveBothLists (Served.of (s := s) rfl ?_ id h) fun h' => absurd h' hj
      rw [headOpen_setSlot_ne _ _ hj]
      exact id

theorem Served.freeIfRetired {i : SlotId} (h : Served j s) : Served j (freeIfRetired i s) := by
  unfold Machine.freeIfRetired
  split
  · exact h
  · split
    · exact h.freeSlot
    · exact h

/-- A departure leaves every head served. -/
theorem Served.depart (i : SlotId) (n : NodeId) (why : Departing) (h : Served j s) : Served j (depart i n why s) := by
  unfold Machine.depart
  split
  · exact h
  · next e he =>
    split
    · exact h
    · dsimp only
      by_cases hj : j = i
      · subst hj
        exact grantPass_serves j _
      · refine grantPass_served_ne hj (Served.serveDeferred (Served.freeIfRetired (Served.resolveTarget _ _
          (Served.revocationEffects _ _ _ ?_))))
        refine Served.of (s := s) rfl ?_ id h
        show headOpen j (setSlot i _ s) = true → _
        rw [headOpen_setSlot_ne _ _ hj]
        exact id

/-- The removal of a wait leaves the other heads served. -/
theorem removeWait_served_ne {i : SlotId} (n : NodeId) (why : WaitEnd) (hj : j ≠ i) (h : Served j s) :
    Served j (removeWait i n why s) := by
  unfold removeWait
  split
  · exact h
  · next e he =>
    split
    · exact h
    · have h1 : ∀ q, Served j (returnWait n (setSlot i (some { e with queue := q }) s)) := by
        intro q
        refine Served.of (s := s) rfl ?_ id h
        show headOpen j (setSlot i _ s) = true → _
        rw [headOpen_setSlot_ne _ _ hj]
        exact id
      have h2 : ∀ q, Served j
          (match waitEndReason why with
            | none => returnWait n (setSlot i (some { e with queue := q }) s)
            | some reason => offerBestEffort n (.waitEnded e.id reason)
                (returnWait n (setSlot i (some { e with queue := q }) s))) := by
        intro q
        split
        · exact h1 q
        · exact (h1 q).offerBestEffort _ _
      have h3 : ∀ (b : Bool) x, Served j x → Served j (if b = true then abandonRecall i true x else x) := by
        intro b x hx
        split
        · exact hx.abandonRecall i true
        · exact hx
      have h4 : ∀ x, Served j x →
          Served j (if (slot i x).any fun e => e.queue.isEmpty then leaveBothLists i x else x) := by
        intro x hx
        split
        · exact hx.leaveBothLists fun h' => absurd h' hj
        · exact hx
      have h5 : ∀ (b : Bool) x, Served j x → Served j (if b = true then Machine.grantPass i x else x) := by
        intro b x hx
        split
        · exact hx.grantPass i
        · exact hx
      exact h5 _ _ (h4 _ (h3 _ _ (h2 _)))

theorem eraseP_head_ne {w : Wait} {rest : List Wait} {n : NodeId} (h : w.node ≠ n) :
    (w :: rest).eraseP (fun x => x.node = n) = w :: rest.eraseP (fun x => x.node = n) := by
  rw [List.eraseP_cons_of_neg (by simpa using h)]

/-- The removal of a wait that the pass follows leaves every head served. -/
theorem removeWait_served_same {i : SlotId} (n : NodeId) (why : WaitEnd) (hp : passAfter why = true)
    (h : Served i s) : Served i (removeWait i n why s) := by
  unfold removeWait
  split
  · exact h
  · next e he =>
    split
    · exact h
    · next w hw =>
      dsimp only
      cases hb : (e.queue.head?.any fun w => decide (w.node = n)) with
      | true =>
        simp only [hp, Bool.and_self, if_true]
        exact grantPass_serves i _
      | false =>
        simp only [Bool.false_and, Bool.false_eq_true, if_false]
        have h1 : Served i (returnWait n (setSlot i (some { e with queue := e.queue.eraseP fun w => w.node = n }) s)) := by
          refine Served.of (s := s) rfl ?_ id h
          show headOpen i (setSlot i _ s) = true → _
          rw [headOpen_setSlot_same, headOpen_some he]
          cases hq : e.queue with
          | nil => simp [headGrantable]
          | cons v rest =>
            rw [hq] at hb
            have hv : v.node ≠ n := by simpa using hb
            rw [eraseP_head_ne hv]
            simp [headGrantable, hq, fits]
        have h2 : Served i
            (match waitEndReason why with
              | none => returnWait n (setSlot i (some { e with queue := e.queue.eraseP fun w => w.node = n }) s)
              | some reason => offerBestEffort n (.waitEnded e.id reason)
                  (returnWait n (setSlot i (some { e with queue := e.queue.eraseP fun w => w.node = n }) s))) := by
          split
          · exact h1
          · exact h1.offerBestEffort _ _
        have h4 : ∀ x, Served i x →
            Served i (if (slot i x).any fun e => e.queue.isEmpty then leaveBothLists i x else x) := by
          intro x hx
          split
          · next hc =>
            refine hx.leaveBothLists fun _ => ?_
            cases hs : slot i x with
            | none => simp [headOpen, hs]
            | some f =>
              rw [hs] at hc
              have : f.queue = [] := by simpa using hc
              rw [headOpen_some hs]
              simp [headGrantable, this]
          · exact hx
        exact h4 _ h2

theorem Served.removeWait (i : SlotId) (n : NodeId) (why : WaitEnd) (hp : passAfter why = true) (h : Served j s) :
    Served j (removeWait i n why s) := by
  by_cases hj : j = i
  · subst hj
    exact removeWait_served_same n why hp h
  · exact removeWait_served_ne n why hj h

theorem Served.foldl {α : Type} (f : State → α → State) (hf : ∀ s x, Served j s → Served j (f s x)) (l : List α)
    (h : Served j s) : Served j (l.foldl f s) := by
  induction l generalizing s with
  | nil => exact h
  | cons x xs ih => exact ih (hf s x h)

theorem Served.sessionEnd (n : NodeId) (why : SessionEnd) (h : Served j s) : Served j (sessionEnd n why s) := by
  have h1 : Served j (sessionDepart n (departureOf why) (sessionDrop n s)) :=
    Served.foldl _ (fun s i hs => hs.depart i n _) _
      (Served.foldl _ (fun s i hs => hs.removeWait i n .dropped rfl) _ h)
  unfold Machine.sessionEnd
  exact (h1.takeBack (isAddressedTo n)).modNode n (endSession why)

end Sys2Proof.Machine
end

