-- ==== Sys2Proof/Laws/TakeBack.lean ====
section
/-!
SUPPORT. Taking back the notices of a node that has no holdings and no waits: passes, the arbiter and the Recall Tracker
offer such a node nothing new, so the removals come to an end and leave it only IN_FLIGHT entries marked for discard
(R84 step 3, R106; log 11).
-/

namespace Sys2Proof.Machine

/-- The node has no holding and no wait. -/
def stripped (n : NodeId) (s : State) : Prop :=
  ∀ i e, slot i s = some e → (∀ h ∈ e.holders, h.node ≠ n) ∧ ∀ w ∈ e.queue, w.node ≠ n

/-- The entries addressed to the node that are not IN_FLIGHT. -/
def idleNotices (n : NodeId) (s : State) : Nat := s.nq.countP fun e => isAddressedTo n e && !isInFlight e

/-- The PENDING targets of the node in a recall slot. -/
def pendingIn (n : NodeId) (o : Option Recall) : Nat :=
  (o.elim [] Recall.targets).countP fun t => t.node = n && t.status = .pending

/-- The PENDING targets of the node. -/
def pendingOf (n : NodeId) (s : State) : Nat := ∑ k, pendingIn n (recallAt k s)

/-- From a state in which the node is stripped: it stays so, its notices and PENDING targets together do not increase, and
what is IN_FLIGHT to it was there before. -/
def Sparing (n : NodeId) (s t : State) : Prop :=
  stripped n s →
    stripped n t ∧ idleNotices n t + pendingOf n t ≤ idleNotices n s + pendingOf n s
      ∧ ∀ x ∈ t.nq, isAddressedTo n x = true → isInFlight x = true → x ∈ s.nq

variable {n : NodeId} {s t u : State}

namespace Sparing

theorem refl (n : NodeId) (s : State) : Sparing n s s := fun h => ⟨h, le_refl _, fun _ hx _ _ => hx⟩

theorem trans (h : Sparing n s t) (g : Sparing n t u) : Sparing n s u := fun hs =>
  let ⟨h1, h2, h3⟩ := h hs
  let ⟨g1, g2, g3⟩ := g h1
  ⟨g1, g2.trans h2, fun x hx ha hf => h3 x (g3 x hx ha hf) ha hf⟩

theorem same (hd : t.dir.slots = s.dir.slots) (hr : t.rct.slots = s.rct.slots) (hn : t.nq = s.nq) : Sparing n s t := by
  intro hs
  refine ⟨fun i e he => hs i e (by simpa only [slot, hd] using he), le_of_eq ?_, fun x hx _ _ => hn ▸ hx⟩
  simp only [idleNotices, pendingOf, recallAt, hn, hr]

theorem setSlot (i : SlotId) (e : Entry) (s : State)
    (h : stripped n s → (∀ h ∈ e.holders, h.node ≠ n) ∧ ∀ w ∈ e.queue, w.node ≠ n) :
    Sparing n s (setSlot i (some e) s) := by
  intro hs
  refine ⟨fun j f hf => ?_, le_refl _, fun _ hx _ _ => hx⟩
  rw [slot_setSlot] at hf
  split at hf
  · cases hf
    exact h hs
  · exact hs j f hf

theorem setRecall (k : RecallId) (r : Option Recall) (s : State) (h : pendingIn n r ≤ pendingIn n (recallAt k s)) :
    Sparing n s (setRecall k r s) := by
  intro hs
  refine ⟨hs, Nat.add_le_add_left (Finset.sum_le_sum fun j _ => ?_) _, fun _ hx _ _ => hx⟩
  rw [recallAt_setRecall]
  split
  · next hj => exact hj ▸ h
  · exact le_refl _

theorem queueNotice (m : NodeId) (msg : NoticeMsg) (s : State) (hm : m ≠ n) : Sparing n s (queueNotice m msg s) := by
  intro hs
  refine ⟨hs, le_of_eq ?_, fun x hx ha _ => ?_⟩
  · simp [idleNotices, pendingOf, Machine.queueNotice, modNode, isAddressedTo, hm, recallAt]
  · rcases List.mem_append.mp hx with h | h
    · exact h
    · cases List.mem_singleton.mp h
      simp [isAddressedTo, hm] at ha

theorem offerBestEffort (m : NodeId) (msg : NoticeMsg) (s : State) (hm : m ≠ n) :
    Sparing n s (offerBestEffort m msg s) := by
  unfold Machine.offerBestEffort
  split
  · exact queueNotice m msg s hm
  · exact same rfl rfl rfl

end Sparing

/-! ### The Recall Tracker -/

theorem pendingIn_setStatus (n m : NodeId) (st : TargetStatus) (hst : st ≠ .pending) (r : Recall) :
    pendingIn n (some (setStatus m st r)) ≤ pendingIn n (some r) := by
  simp only [pendingIn, setStatus, Option.elim, List.countP_map]
  refine List.countP_mono_left fun t _ ht => ?_
  simp only [Function.comp] at ht
  split at ht
  · simp [hst] at ht
  · exact ht

/-- A PENDING target that is made something else is counted no more. -/
theorem pendingIn_setStatus_lt (n : NodeId) (st : TargetStatus) (hst : st ≠ .pending) (r : Recall)
    (h : ∃ t ∈ r.targets, t.node = n ∧ t.status = .pending) :
    pendingIn n (some (setStatus n st r)) + 1 ≤ pendingIn n (some r) := by
  obtain ⟨t, ht, hn, hp⟩ := h
  have h0 : pendingIn n (some (setStatus n st r)) = 0 := by
    simp only [pendingIn, setStatus, Option.elim, List.countP_map, List.countP_eq_zero]
    intro t _
    simp only [Function.comp]
    split <;> simp_all
  rw [h0]
  exact List.countP_pos_iff.mpr ⟨t, ht, by simp [hn, hp]⟩

/-- A target's notice: for another node nothing changes, and for this node the PENDING target becomes an entry. -/
theorem notifyTarget_sparing (k : RecallId) (t : Target) (s : State)
    (h : t.node = n → ∀ r, recallAt k s = some r → ∃ x ∈ r.targets, x.node = n ∧ x.status = .pending) :
    Sparing n s (notifyTarget k t s) := by
  unfold notifyTarget
  split
  · exact .refl n s
  · next r hr =>
    split
    · exact .refl n s
    · next id _ =>
      by_cases hm : t.node = n
      · intro hs
        refine ⟨hs, ?_, fun x hx ha hf => ?_⟩
        · have hlt := pendingIn_setStatus_lt n .notified (by decide) r (h hm r hr)
          have hsum : (∑ j, pendingIn n (recallAt j (setRecall k (some (setStatus t.node .notified r)) s)))
              < ∑ j, pendingIn n (recallAt j s) := by
            refine Finset.sum_lt_sum (fun j _ => ?_) ⟨k, Finset.mem_univ k, ?_⟩
            · rw [recallAt_setRecall]
              split
              · next hj => rw [hj, hr]; exact pendingIn_setStatus n _ _ (by decide) r
              · exact le_refl _
            · rw [recallAt_setRecall, if_pos rfl, hr, hm]
              omega
          have hq : idleNotices n
              (queueNotice t.node (.askBack id t.token) (setRecall k (some (setStatus t.node .notified r)) s))
              = idleNotices n s + 1 := by
            simp [idleNotices, queueNotice, modNode, isAddressedTo, hm, isInFlight, setRecall]
          rw [hq]
          change idleNotices n s + 1
            + (∑ j, pendingIn n (recallAt j (setRecall k (some (setStatus t.node .notified r)) s))) ≤ _
          unfold pendingOf
          omega
        · rcases List.mem_append.mp hx with h | h
          · exact h
          · cases List.mem_singleton.mp h
            simp [isInFlight] at hf
      · refine (Sparing.setRecall k _ s ?_).trans (.queueNotice _ _ _ hm)
        rw [hr]
        exact pendingIn_setStatus n _ _ (by decide) r

theorem notifyWhileFree_sparing (k : RecallId) (ts : List Target) (s : State) (h : ∀ t ∈ ts, t.node ≠ n) :
    Sparing n s (notifyWhileFree k ts s) := by
  induction ts generalizing s with
  | nil => exact .refl n s
  | cons t ts ih =>
    unfold notifyWhileFree
    split
    · exact .refl n s
    · exact (notifyTarget_sparing k t s fun e => absurd e (h t (List.mem_cons_self ..))).trans
        (ih _ fun x hx => h x (List.mem_cons_of_mem _ hx))

theorem startRecall_sparing (k : RecallId) (i : SlotId) (s : State) : Sparing n s (startRecall k i s) := by
  intro hs
  refine (show Sparing n s (startRecall k i s) from ?_) hs
  unfold startRecall
  split
  · exact .refl n s
  · next e he =>
    split
    · exact .refl n s
    · next w rest hq =>
      have ht : ∀ t ∈ (newRecall i e w s).targets, t.node ≠ n := by
        intro t ht
        obtain ⟨h, hh, rfl⟩ := List.mem_map.mp ht
        exact (hs i e he).1 h (List.mem_filter.mp hh).1
      have h0 : pendingIn n (some (newRecall i e w s)) = 0 := by
        simp only [pendingIn, Option.elim, List.countP_eq_zero]
        intro t h
        simp [ht t h]
      refine (Sparing.trans ?_ (.setSlot i _ _ fun hs' => ?_)).trans (notifyWhileFree_sparing k _ _ ht)
      · exact (Sparing.setRecall k (some (newRecall i e w s)) s (by rw [h0]; exact Nat.zero_le _)).trans
          (.same rfl rfl rfl)
      · refine ⟨fun x hx => ?_, fun x hx => (hs i e he).2 x hx⟩
        obtain ⟨h, hh, rfl⟩ := List.mem_map.mp hx
        have := (hs i e he).1 h hh
        split <;> exact this

theorem recallDecision_sparing (i : SlotId) (s : State) : Sparing n s (recallDecision i s) := by
  unfold recallDecision
  split
  · exact .refl n s
  · split
    · split
      · exact (startRecall_sparing _ i s).trans (.same rfl rfl rfl)
      · exact .same rfl rfl rfl
    · exact .same rfl rfl rfl

theorem takeFreeEntry_sparing (s : State) : Sparing n s (takeFreeEntry s) := by
  unfold takeFreeEntry
  split
  · exact .refl n s
  · next k t h =>
    refine notifyTarget_sparing k t s fun hn r hr => ?_
    obtain ⟨j, -, hj⟩ := List.exists_of_findSome?_eq_some h
    obtain ⟨r', hr', hj⟩ := Option.bind_eq_some_iff.mp hj
    obtain ⟨x, hx, hj⟩ := Option.map_eq_some_iff.mp hj
    cases hj
    rw [hr'] at hr
    cases hr
    exact ⟨t, List.mem_of_find?_eq_some hx, hn, by simpa using List.find?_some hx⟩

/-! ### Passes and the arbiter -/

theorem returnWait_sparing (m : NodeId) (s : State) : Sparing n s (returnWait m s) := .same rfl rfl rfl

theorem endByQuota_sparing (i : SlotId) (e : Entry) (w : Wait) (rest : List Wait) (s : State) (he : slot i s = some e)
    (hq : e.queue = w :: rest) : Sparing n s (endByQuota i e w rest s) := by
  intro hs
  obtain ⟨h1, h2⟩ := hs i e he
  rw [hq] at h2
  exact ((Sparing.setSlot i { e with queue := rest } s fun _ => ⟨h1, fun x hx => h2 x (List.mem_cons_of_mem _ hx)⟩).trans
    ((returnWait_sparing _ _).trans (.offerBestEffort _ _ _ (h2 w (List.mem_cons_self ..))))) hs

theorem grantHead_sparing (i : SlotId) (e : Entry) (w : Wait) (rest : List Wait) (s : State) (he : slot i s = some e)
    (hq : e.queue = w :: rest) : Sparing n s (grantHead i e w rest s) := by
  intro hs
  obtain ⟨h1, h2⟩ := hs i e he
  rw [hq] at h2
  have hw := h2 w (List.mem_cons_self ..)
  refine (show Sparing n s (grantHead i e w rest s) from ?_) hs
  unfold grantHead addHolding
  refine Sparing.trans ?_ (.queueNotice _ _ _ hw)
  refine Sparing.trans ?_ (returnWait_sparing _ _)
  refine Sparing.trans ?_ (.same rfl rfl rfl)
  refine Sparing.trans (.same rfl rfl rfl) (.setSlot i _ _ fun _ => ⟨fun x hx => ?_, fun x hx => ?_⟩)
  · rcases List.mem_append.mp hx with h | h
    · exact h1 x h
    · cases List.mem_singleton.mp h
      exact hw
  · exact h2 x (List.mem_cons_of_mem _ (by simpa using hx))

theorem passLoop_sparing (fuel : Nat) (i : SlotId) (s : State) : Sparing n s (passLoop fuel i s) := by
  induction fuel generalizing s with
  | zero => exact .refl n s
  | succ fuel ih =>
    unfold passLoop
    split
    · exact .refl n s
    · next e he =>
      split
      · exact .refl n s
      · next w rest hq =>
        split
        · split
          · exact (endByQuota_sparing i e w rest s he hq).trans (ih _)
          · split
            · exact .same rfl rfl rfl
            · exact (grantHead_sparing i e w rest s he hq).trans (ih _)
        · exact .refl n s

theorem endCheck_sparing (i : SlotId) (s : State) : Sparing n s (endCheck i s) := by
  unfold endCheck
  split
  · exact .refl n s
  · split
    · exact .same rfl rfl rfl
    · split
      · exact .same rfl rfl rfl
      · exact (Sparing.same (t := leaveDeferred i s) rfl rfl rfl).trans (recallDecision_sparing i _)

theorem grantPass_sparing (i : SlotId) (s : State) : Sparing n s (grantPass i s) := by
  unfold grantPass
  split
  · exact .refl n s
  · split
    · exact .refl n s
    · split
      · exact (passLoop_sparing _ i s).trans (endCheck_sparing i _)
      · exact .refl n s

theorem serveLoop_sparing (fuel : Nat) (s : State) : Sparing n s (serveLoop fuel s) := by
  induction fuel generalizing s with
  | zero => exact .refl n s
  | succ fuel ih =>
    unfold serveLoop
    split
    · exact .refl n s
    · next i _ _ =>
      dsimp only
      split
      · exact grantPass_sparing i s
      · exact (grantPass_sparing i s).trans (ih _)

theorem arbiter_sparing (s : State) : Sparing n s (arbiter s) := by
  have h : Sparing n s (serveDeferred s) := by
    unfold serveDeferred
    split
    · exact .refl n s
    · exact serveLoop_sparing _ s
  unfold arbiter
  dsimp only
  split
  · exact h
  · exact h.trans (takeFreeEntry_sparing _)

/-! ### Taking back -/

/-- An entry addressed to the node that leaves lowers the count, whatever the arbiter does with the freed entry. -/
theorem removeEntry_sparing (place : Nat) (s : State) (e : NoticeEntry) (he : s.nq[place]? = some e)
    (ha : (isAddressedTo n e && !isInFlight e) = true) (hs : stripped n s) :
    stripped n (removeEntry place s)
      ∧ idleNotices n (removeEntry place s) + pendingOf n (removeEntry place s) + 1 ≤ idleNotices n s + pendingOf n s
      ∧ ∀ x ∈ (removeEntry place s).nq, isAddressedTo n x = true → isInFlight x = true → x ∈ s.nq := by
  obtain ⟨h1, h2, h3⟩ := arbiter_sparing (n := n) { s with nq := s.nq.eraseIdx place } hs
  obtain ⟨hp, he⟩ := List.getElem?_eq_some_iff.mp he
  have hc : idleNotices n { s with nq := s.nq.eraseIdx place } + 1 = idleNotices n s := by
    have h := (List.getElem_cons_eraseIdx_perm hp).countP_eq fun e => isAddressedTo n e && !isInFlight e
    rw [List.countP_cons, he, if_pos ha] at h
    exact h
  refine ⟨h1, ?_, fun x hx a f => List.mem_of_mem_eraseIdx (h3 x hx a f)⟩
  have hb : pendingOf n { s with nq := s.nq.eraseIdx place } = pendingOf n s := rfl
  change idleNotices n (arbiter { s with nq := s.nq.eraseIdx place })
    + pendingOf n (arbiter { s with nq := s.nq.eraseIdx place }) + 1 ≤ _
  omega

theorem removeEntries_clears (fuel : Nat) (s : State) (hs : stripped n s)
    (hf : idleNotices n s + pendingOf n s ≤ fuel) :
    let t := removeEntries (fun e => isAddressedTo n e && !isInFlight e) fuel s
    stripped n t ∧ ∀ x ∈ t.nq, isAddressedTo n x = true → isInFlight x = true ∧ x ∈ s.nq := by
  have done : ∀ s : State, (∀ x ∈ s.nq, (isAddressedTo n x && !isInFlight x) = false) →
      ∀ x ∈ s.nq, isAddressedTo n x = true → isInFlight x = true ∧ x ∈ s.nq := fun s h x hx ha =>
    ⟨by simpa [ha] using h x hx, hx⟩
  induction fuel generalizing s with
  | zero =>
    refine ⟨hs, done s fun x hx => ?_⟩
    have : idleNotices n s = 0 := by omega
    simpa using List.countP_eq_zero.mp this x hx
  | succ fuel ih =>
    unfold removeEntries
    split
    · next h => exact ⟨hs, done s fun x hx => by simpa using List.findIdx?_eq_none_iff.mp h x hx⟩
    · next place h =>
      obtain ⟨hp, ha, -⟩ := List.findIdx?_eq_some_iff_getElem.mp h
      obtain ⟨h1, h2, h3⟩ := removeEntry_sparing place s _ (List.getElem?_eq_getElem hp) ha hs
      obtain ⟨g1, g2⟩ := ih (removeEntry place s) h1 (by omega)
      exact ⟨g1, fun x hx a => ⟨(g2 x hx a).1, h3 x (g2 x hx a).2 a (g2 x hx a).1⟩⟩

theorem pendingOf_le (n : NodeId) (s : State) : pendingOf n s ≤ pendingTargets s := by
  have h : pendingTargets s
      = ∑ k, ((recallAt k s).elim [] Recall.targets).countP fun t => t.status = .pending := by
    unfold pendingTargets
    rw [show s.rct.slots.toList = List.ofFn fun k => recallAt k s from ?_, List.map_ofFn, List.sum_ofFn]
    · rfl
    · apply List.ext_getElem
      · simp
      · intro j h1 h2
        simp only [List.getElem_ofFn, recallAt, tget]
        rfl
  rw [h]
  refine Finset.sum_le_sum fun k _ => List.countP_mono_left fun t _ ht => ?_
  simp only [Bool.and_eq_true, decide_eq_true_eq] at ht
  simpa using ht.2

/-- Taking back the notices of a stripped node leaves of them only IN_FLIGHT entries, marked for discard. -/
theorem takeBack_clears (n : NodeId) (s : State) (hs : stripped n s) :
    ∀ x ∈ (takeBack (isAddressedTo n) s).nq, isAddressedTo n x = true → x.state = .inFlight true := by
  have hm : ∀ e, (isAddressedTo n (if isAddressedTo n e then markDiscard e else e)
      && !isInFlight (if isAddressedTo n e then markDiscard e else e)) = (isAddressedTo n e && !isInFlight e) := by
    intro e
    split
    · unfold markDiscard
      split <;> simp [isAddressedTo, isInFlight, *]
    · rfl
  have hb : idleNotices n s + pendingOf n s ≤ s.nq.length + pendingTargets s :=
    Nat.add_le_add List.countP_le_length (pendingOf_le n s)
  intro x hx ha
  obtain ⟨-, h⟩ := removeEntries_clears (n := n) (s.nq.length + pendingTargets s)
    { s with nq := s.nq.map fun e => if isAddressedTo n e then markDiscard e else e } hs (by
      refine le_trans (le_of_eq ?_) hb
      show idleNotices n _ + pendingOf n s = _
      simp only [idleNotices, List.countP_map]
      congr 2
      funext e
      exact hm e)
  obtain ⟨hf, hx⟩ := h x hx ha
  obtain ⟨e, -, rfl⟩ := List.mem_map.mp hx
  split at ha
  · next h =>
    rw [if_pos h] at hf ⊢
    unfold markDiscard at hf ⊢
    split at hf <;> simp_all [isInFlight]
  · contradiction

end Sys2Proof.Machine
end

