-- ==== Sys2Proof/Laws/Tokens.lean ====
section
/-!
SUPPORT. The token draw: the token drawn is live nowhere (R10), and what every elementary act keeps of the law of tokens.
-/

namespace Sys2Proof.Machine

/-! ### The grant sequence -/

/-- The place of a token in the grant sequence, which starts at 1. -/
def tokenPlace (t : Token) : Nat := t.toNat - 1

theorem tokenAfter_place (t : Token) (h : t ≠ 0#24) :
    tokenAfter t ≠ 0#24 ∧ tokenPlace (tokenAfter t) = (tokenPlace t + 1) % (2 ^ 24 - 1) := by
  unfold tokenAfter tokenPlace
  have h0 : t.toNat ≠ 0 := fun h' => h (BitVec.eq_of_toNat_eq (by simpa using h'))
  have hlt := t.isLt
  split
  · next hm => subst hm; decide
  · next hm =>
    have hm' : t.toNat ≠ 2 ^ 24 - 1 := fun h' => hm (BitVec.eq_of_toNat_eq (by simpa using h'))
    have hadd : (t + 1#24).toNat = t.toNat + 1 := by
      rw [BitVec.toNat_add]
      have : (1#24).toNat = 1 := rfl
      rw [this]
      omega
    refine ⟨fun h' => ?_, ?_⟩
    · have := congrArg BitVec.toNat h'
      rw [hadd] at this
      simp at this
    · rw [hadd, Nat.mod_eq_of_lt (by omega)]
      omega

/-- The token `k` places further on. -/
def tokenFrom (t : Token) : Nat → Token
  | 0 => t
  | k + 1 => tokenFrom (tokenAfter t) k

theorem tokenFrom_place (t : Token) (h : t ≠ 0#24) (k : Nat) :
    tokenFrom t k ≠ 0#24 ∧ tokenPlace (tokenFrom t k) = (tokenPlace t + k) % (2 ^ 24 - 1) := by
  induction k generalizing t with
  | zero =>
    refine ⟨h, ?_⟩
    have h0 : t.toNat ≠ 0 := fun h' => h (BitVec.eq_of_toNat_eq (by simpa using h'))
    have hlt := t.isLt
    simp only [tokenFrom, tokenPlace, Nat.add_zero]
    rw [Nat.mod_eq_of_lt (by omega)]
  | succ k ih =>
    obtain ⟨h1, h2⟩ := tokenAfter_place t h
    obtain ⟨h3, h4⟩ := ih _ h1
    refine ⟨h3, ?_⟩
    rw [tokenFrom, h4, h2]
    omega

theorem tokenFrom_inj (t : Token) (h : t ≠ 0#24) {a b : Nat} (ha : a < 2 ^ 24 - 1) (hb : b < 2 ^ 24 - 1)
    (he : tokenFrom t a = tokenFrom t b) : a = b := by
  have h1 := (tokenFrom_place t h a).2
  have h2 := (tokenFrom_place t h b).2
  rw [he, h2] at h1
  omega

/-- The draw gives a token that is not live, or all the candidates it tried are. -/
theorem firstFree_cases (live : List Token) (tries : Nat) (t : Token) :
    ∃ k ≤ tries, firstFree live tries t = tokenFrom t k
      ∧ (tokenFrom t k ∉ live ∨ ∀ j ≤ tries, tokenFrom t j ∈ live) := by
  induction tries generalizing t with
  | zero =>
    refine ⟨0, le_rfl, rfl, ?_⟩
    by_cases h : t ∈ live
    · exact Or.inr fun j hj => by rw [Nat.le_zero.mp hj]; exact h
    · exact Or.inl h
  | succ tries ih =>
    unfold firstFree
    split
    · next h =>
      obtain ⟨k, hk, he, hc⟩ := ih (tokenAfter t)
      refine ⟨k + 1, by omega, he, hc.imp id fun hall j hj => ?_⟩
      cases j with
      | zero => simpa [tokenFrom] using h
      | succ j => exact hall j (by omega)
    · next h => exact ⟨0, by omega, rfl, Or.inl (by simpa [tokenFrom] using h)⟩

theorem firstFree_fresh (live : List Token) (t : Token) (h : t ≠ 0#24) (hl : live.length < 2 ^ 24 - 1) :
    firstFree live live.length t ∉ live ∧ firstFree live live.length t ≠ 0#24 := by
  obtain ⟨k, hk, he, hc⟩ := firstFree_cases live live.length t
  rw [he]
  refine ⟨hc.elim id fun hall => ?_, (tokenFrom_place t h k).1⟩
  exfalso
  have hnd : ((List.range (live.length + 1)).map (tokenFrom t)).Nodup := by
    refine List.Nodup.map_on (fun a ha b hb => ?_) List.nodup_range
    rw [List.mem_range] at ha hb
    exact tokenFrom_inj t h (by omega) (by omega)
  have hsub : (List.range (live.length + 1)).map (tokenFrom t) ⊆ live := by
    intro x hx
    obtain ⟨j, hj, rfl⟩ := List.mem_map.mp hx
    rw [List.mem_range] at hj
    exact hall j (by omega)
  have := (hnd.subperm hsub).length_le
  rw [List.length_map, List.length_range] at this
  omega

theorem liveTokens_eq (s : State) : liveTokens s = (allHoldings s).map (·.token) := by
  unfold liveTokens allHoldings entries
  induction s.dir.slots.toList with
  | nil => rfl
  | cons o os ih =>
    cases o with
    | none => simpa using ih
    | some e => simp [ih]

theorem drawnToken_fresh {s : State} (hn : s.dir.nextToken ≠ 0#24) (hl : (allHoldings s).length < 2 ^ 24 - 1) :
    drawnToken s ∉ (allHoldings s).map (·.token) ∧ drawnToken s ≠ 0#24 := by
  unfold drawnToken
  rw [← liveTokens_eq]
  refine firstFree_fresh _ _ hn ?_
  rw [liveTokens_eq, List.length_map]
  exact hl

/-! ### What acts do to the tokens -/

/-- The law of tokens, said of the tokens alone. -/
theorem tokensLawful_iff (s : State) :
    tokensLawful s ↔ ((allHoldings s).map (·.token)).Nodup ∧ 0#24 ∉ (allHoldings s).map (·.token)
      ∧ s.dir.nextToken ≠ 0#24 := by
  unfold tokensLawful
  refine and_congr_right fun _ => and_congr_left fun _ => ?_
  simp only [List.mem_map, not_exists, not_and]

theorem tokensLawful_of_same {s t : State} (h : t.dir.slots = s.dir.slots) (hn : t.dir.nextToken = s.dir.nextToken)
    (hs : tokensLawful s) : tokensLawful t := by
  unfold tokensLawful allHoldings at hs ⊢
  rwa [gather_same h, hn]

/-- The tokens of an entry. -/
def entryTokens (e : Entry) : List Token := e.holders.map (·.token)

theorem tokens_gather (s : State) : (allHoldings s).map (·.token) = (entries s).flatMap entryTokens := by
  unfold allHoldings entryTokens
  rw [List.map_flatMap]

/-- An entry's tokens change to fewer, or to fewer with a token that is live nowhere added. -/
theorem tokensLawful_of_set {s t : State} {i : SlotId} {e : Entry} {o : Option Entry} (hi : slot i s = some e)
    (ht : t.dir.slots = tset s.dir.slots i o) (hn : t.dir.nextToken ≠ 0#24)
    (ho : (ofSlot entryTokens o).Subperm (entryTokens e)
      ∨ ∃ x, x ∉ (allHoldings s).map (·.token) ∧ x ≠ 0#24
        ∧ (ofSlot entryTokens o).Subperm (x :: entryTokens e)) (hs : tokensLawful s) : tokensLawful t := by
  rw [tokensLawful_iff] at hs ⊢
  obtain ⟨h1, h2, h3⟩ := hs
  obtain ⟨R, r1, r2⟩ := gather_set entryTokens s i
  have r2 := r2 t o ht
  rw [hi, ofSlot, Option.elim_some] at r1
  rw [tokens_gather] at h1 h2 ho
  rw [tokens_gather]
  rcases ho with ho | ⟨x, hx, hx0, ho⟩
  · have hsub : ((entries t).flatMap entryTokens).Subperm ((entries s).flatMap entryTokens) :=
      r2.subperm.trans ((ho.append (List.Subperm.refl R)).trans r1.symm.subperm)
    obtain ⟨l, hl, hs⟩ := hsub
    refine ⟨hl.nodup_iff.mp (hs.nodup h1), fun h0 => h2 (hs.subset (hl.mem_iff.mpr h0)), hn⟩
  · have hsub : ((entries t).flatMap entryTokens).Subperm (x :: (entries s).flatMap entryTokens) :=
      r2.subperm.trans ((ho.append (List.Subperm.refl R)).trans (r1.symm.cons x).subperm)
    obtain ⟨l, hl, hs⟩ := hsub
    have hnd : (x :: (entries s).flatMap entryTokens).Nodup := List.nodup_cons.mpr ⟨hx, h1⟩
    refine ⟨hl.nodup_iff.mp (hs.nodup hnd), fun h0 => ?_, hn⟩
    rcases List.mem_cons.mp (hs.subset (hl.mem_iff.mpr h0)) with h | h
    · exact hx0 h.symm
    · exact h2 h

theorem freeSlot_nextToken (i : SlotId) (s : State) : (freeSlot i s).dir.nextToken = s.dir.nextToken := by
  unfold freeSlot
  split <;> rfl

/-- A DOWNGRADE changes the token of one holding. -/
theorem downgrade_tokens {n : NodeId} {e : Entry} {h : Holding} (t : Token) (hh : holdingOf n e = some h)
    (hd : e.membersNodup) : (entryTokens (downgradeHolding n t e)).Subperm (t :: entryTokens e) := by
  unfold holdingOf at hh
  obtain ⟨hn, as, bs, he, has⟩ := List.find?_eq_some_iff_append.mp hh
  have hn : h.node = n := by simpa using hn
  unfold Entry.membersNodup at hd
  have hd1 := (List.nodup_append.mp hd).1
  rw [he, List.map_append, List.map_cons] at hd1
  have hbs : ∀ x ∈ bs, x.node ≠ n := by
    intro x hx hxn
    have h1 := (List.nodup_append.mp hd1).2.1
    have h2 := (List.nodup_cons.mp h1).1
    exact h2 (List.mem_map.mpr ⟨x, hx, by rw [hxn, hn]⟩)
  have hf : ∀ l : List Holding, (∀ x ∈ l, x.node ≠ n) →
      (l.map fun h => if h.node = n then { h with mode := .shared, token := t } else h) = l := by
    intro l hl
    conv_rhs => rw [← List.map_id l]
    refine List.map_congr_left fun x hx => ?_
    rw [if_neg (hl x hx)]
    rfl
  unfold entryTokens downgradeHolding
  dsimp only
  rw [he, List.map_append, List.map_cons, hf as fun x hx => by simpa using has x hx, hf bs hbs, hn]
  simp only [if_true, List.map_append, List.map_cons]
  refine List.perm_middle.subperm.trans ?_
  exact (List.subperm_cons t).mpr ((List.sublist_cons_self _ _).append_left _).subperm

/-- Every act keeps the law of tokens, while the pools bound the live ones and no node holds a resource twice. -/
theorem Act.tokens {k : Kind} {s t : State} (a : Act k s t) (hp : poolsLawful s) (hm : membersDistinct s)
    (h : tokensLawful s) : tokensLawful t := by
  have hn := h.2.2
  have hlen : (allHoldings s).length < 2 ^ 24 - 1 := by
    have := hp.1
    have : Config.holdingRecords = 384 := rfl
    omega
  obtain ⟨hf, hz⟩ := drawnToken_fresh hn hlen
  have hnext : tokenAfter (drawnToken s) ≠ 0#24 := (tokenAfter_place _ hz).1
  cases a with
  | relink i e e' _ hi hid hl hs hr hq hh =>
    refine tokensLawful_of_set (o := some e') hi rfl hn (Or.inl ?_) h
    rw [ofSlot, Option.elim_some, entryTokens, sameHoldings_tokens hh]
    exact .refl _
  | grant i e w rest _ hi =>
    refine tokensLawful_of_set (o := some _) hi rfl hnext (Or.inr ⟨drawnToken s, hf, hz, ?_⟩) h
    rw [ofSlot, Option.elim_some, entryTokens, List.map_append]
    exact List.perm_append_singleton _ _ |>.subperm
  | dropWait i e n w _ hi => exact tokensLawful_of_set (o := some _) hi rfl hn (Or.inl (.refl _)) h
  | dropHolding i e n x _ hi =>
    exact tokensLawful_of_set (o := some _) hi rfl hn (Or.inl (List.eraseP_sublist.map _).subperm) h
  | freeSlot i e _ hi =>
    refine tokensLawful_of_set (o := none) hi (freeSlot_slots hi) ?_ (Or.inl (List.nil_subperm)) h
    rw [freeSlot_nextToken]
    exact hn
  | grantNow i e n m _ hi =>
    refine tokensLawful_of_set (o := some _) hi rfl hnext (Or.inr ⟨drawnToken s, hf, hz, ?_⟩) h
    rw [ofSlot, Option.elim_some, entryTokens, List.map_append]
    exact List.perm_append_singleton _ _ |>.subperm
  | addWait i e n m limit _ hi => exact tokensLawful_of_set (o := some _) hi rfl hn (Or.inl (.refl _)) h
  | downgrade i e n x _ hi hx =>
    exact tokensLawful_of_set (o := some _) hi rfl hnext
      (Or.inr ⟨drawnToken s, hf, hz, downgrade_tokens _ hx (hm i e hi)⟩) h
  | retire i e _ hi => exact tokensLawful_of_set (o := some _) hi rfl hn (Or.inl (.refl _)) h
  | provision i id share recallable _ hl hi =>
    obtain ⟨R, r1, r2⟩ := gather_set (fun e => e.holders) s i
    have r2 := r2 (setSlot i (some (openEntry id share recallable)) s) _ rfl
    rw [hi] at r1
    have hperm : (allHoldings (setSlot i (some (openEntry id share recallable)) s)).Perm (allHoldings s) :=
      r2.trans r1.symm
    obtain ⟨h1, h2, h3⟩ := h
    exact ⟨(hperm.map _).nodup_iff.mpr h1, fun x hx => h2 x (hperm.mem_iff.mp hx), h3⟩
  | lease n =>
    exact tokensLawful_of_same (by rw [renewLease_slots]) (by rw [renewLease_slots]) h
  | clear =>
    have h0 : allHoldings (clearQueue { clearDirectory s with nodes := tmap clearRecord (clearDirectory s).nodes })
        = [] := gather_nil _ _ fun i e he => (clear_empty s i e he).1
    refine ⟨by rw [h0]; exact List.nodup_nil, by rw [h0]; simp, ?_⟩
    have : (clearQueue { clearDirectory s with nodes := tmap clearRecord (clearDirectory s).nodes }).dir.nextToken
        = s.dir.nextToken := by
      unfold clearQueue clearDirectory
      dsimp only
      split <;> rfl
    rw [this]
    exact hn
  | por r l =>
    have h0 : allHoldings { State.afterPor r l with picks := s.picks, pending := s.pending } = [] :=
      gather_nil _ _ fun i e he => by rw [por_slot] at he; cases he
    refine ⟨by rw [h0]; exact List.nodup_nil, by rw [h0]; simp, ?_⟩
    show (1#24 : Token) ≠ 0#24
    decide
  | _ => exact tokensLawful_of_same rfl rfl h

end Sys2Proof.Machine
end

