-- ==== Sys2Proof/Tests/Slice0.lean ====
section
/-!
SUPPORT. Tests: one step on a small state, with the result the manual gives; the ill-formed commands that the check
refuses; and witnesses that the hypotheses of the statements can be met.
-/

namespace Sys2Proof.Tests

open Sys2Proof Sys2Proof.Machine

set_option Elab.async false

/-! ### Small states -/

/-- The part after RESUME, with its ANNOUNCE delivered and the line idle. -/
def calm : State :=
  { State.reset with
    lif := { State.reset.lif with lineState := .idle }, nq := [], svp := { State.reset.svp with halted := false } }

/-- A line state. -/
def onLine (l : LineState) (s : State) : State := { s with lif := { s.lif with lineState := l } }

/-- The halted flag set. -/
def halted (s : State) : State := { s with svp := { s.svp with halted := true } }

/-- A node with a session whose lease ends at a lease-clock value. -/
def joined (n : NodeId) (deadline : Millis) (s : State) : State :=
  modNode n (fun r => { r with session := .active deadline }) s

/-- A holding on slot 3. -/
def hold (n : NodeId) (m : Mode) (t : Token) : Holding :=
  { node := n, mode := m, token := t, slot := 3, recallTarget := false }

/-- A wait on slot 3. -/
def wait (n : NodeId) (m : Mode) (deadline : Millis) : Wait := { node := n, mode := m, slot := 3, deadline := deadline }

/-- An OPEN entry for resource 0x0140. -/
def entry (share : Nat) (recallable : Bool) (holders : List Holding) (queue : List Wait) : Entry :=
  { id := 0x0140, life := .opened, shareLimit := share, recallable := recallable, holders := holders, queue := queue
    recallSlot := none }

/-- The entry in slot 3, with its records taken from the pools and counted, and every node of it joined. -/
def put (e : Entry) (s : State) : State :=
  let s := e.holders.foldl (fun s h => modNode h.node (fun r => { r with heldCount := r.heldCount + 1 })
    (joined h.node 1000 s)) s
  let s := e.queue.foldl (fun s w => modNode w.node (fun r => { r with waitCount := r.waitCount + 1 })
    (joined w.node 1000 s)) s
  setSlot 3 (some e)
    { s with freeHoldings := s.freeHoldings - e.holders.length, freeWaits := s.freeWaits - e.queue.length }

/-- A request with sequence 1 and priority 2, with the line ready to bring its end of data. -/
def ask (n : NodeId) (body : List Byte) : Request := { prio := 2, src := n, seq := 1, body := body }

/-- A frame for the part is being received. -/
def hearing (s : State) : State := onLine .receiving s

/-- A supervisor's command is RUNNING. -/
def commanded (code a0 a1 a2 a3 : Word) (s : State) : State :=
  { s with svp := { s.svp with cmdState := .running, command := code, captured := #v[a0, a1, a2, a3] } }

/-- A notice entry in a state, for node 5. -/
def notice (msg : NoticeMsg) (attempts : Nat) (st : EntryState) : NoticeEntry :=
  { notice := .toNode 4 0 msg, attempts := attempts, state := st }

/-- The frame of the first entry is on the line. -/
def sending (l : LineState) (e : NoticeEntry) (s : State) : State :=
  { s with nq := [e], lif := { s.lif with lineState := l, txBytes := noticeFrame e.notice } }

/-- The command gives a next state with this property. -/
def after (c : Instr) (s : State) (p : State → Bool) : Bool :=
  match exec c s with
  | .next t => p t
  | .fault _ => false
  | .refused _ => false

/-- The command is refused as ill formed. -/
def turnedAway (c : Instr) : Bool :=
  !c.wellFormed &&
    match exec c calm with
    | .refused .illFormed => true
    | _ => false

/-- The reply on its way begins with these bytes. -/
def replies (bytes : List Byte) (t : State) : Bool := t.lif.lineState = .replying && bytes.isPrefixOf t.lif.txBytes

/-- The resource id and token of the entry in slot 3 as a body. -/
def body140 (t : Byte) : List Byte := [0x01, 0x40, 0x00, 0x00, t]

/-! ### Ill-formed commands -/

theorem test_long_body_is_ill_formed : turnedAway (.join (ask 3 (List.replicate 8 0))) = true := by decide +kernel
theorem test_request_kind_is_no_bad_kind : turnedAway (.badKind 9 (ask 3 [])) = true := by decide +kernel
theorem test_good_frame_is_not_dropped :
    turnedAway (.frameDropped { prio := 2, kind := 3, src := 4, version := 1, seq := 0, body := [] }) = true := by
  decide +kernel
theorem test_long_dropped_frame :
    turnedAway (.frameDropped { prio := 2, kind := 3, src := 0, version := 1, seq := 0, body := List.replicate 8 0 })
      = true := by decide +kernel
theorem test_frame_for_the_part_is_not_ignored : turnedAway (.frameIgnored 0) = true := by decide +kernel
theorem test_sof_is_no_start_error : turnedAway (.receiveError (.startPulse 2000)) = true := by decide +kernel
theorem test_zero_is_no_data_error : turnedAway (.receiveError (.dataPulse 750)) = true := by decide +kernel
theorem test_good_spacing_is_no_error : turnedAway (.receiveError (.edge 1000)) = true := by decide +kernel
theorem test_good_frame_is_no_error :
    turnedAway (.receiveError (.badFrame (requestBits 6 (ask 3 [])))) = true := by decide +kernel
theorem test_command_code_is_no_bad_command : turnedAway (.badCommand 14) = true := by decide +kernel
theorem test_short_pulse_is_no_sof : turnedAway (.sofReceived 1499) = true := by decide +kernel

/-! ### Checks and tokens -/

/-- R131's own reference value. -/
theorem test_crc_of_zero : crc8 [0x00] = 0xF3#8 := by decide +kernel

/-- The example of section 1.3: candidates 16 777 215 and 1 are live, and 2 is drawn. -/
theorem test_draw_across_the_wrap :
    drawnToken
      { put (entry 8 false [hold 5 .shared 16777215, hold 1 .shared 1, hold 10 .shared 3] []) calm with
        dir :=
          { (put (entry 8 false [hold 5 .shared 16777215, hold 1 .shared 1, hold 10 .shared 3] []) calm).dir with
            nextToken := 16777215 } } = 2#24 := by decide +kernel

/-! ### Reset and time -/

theorem test_por_on_a_dominant_line :
    after (.por true true) calm (fun t => t.lif.lineState = .held && t.lif.bitPeriod = .micros8
      && t.svp.flags = 0x040#11 && t.svp.halted) = true := by decide +kernel
theorem test_timebase_step_while_halted :
    after .timebaseStep (halted calm) (fun t => t.dlu.leaseClock = 1#32 && t.dlu.holdClock = 0#32
      && t.dlu.noticeClock = 1#32) = true := by decide +kernel
theorem test_lease_expiry_revokes :
    after (.leaseExpiry 3) (joined 3 0 (put (entry 1 true [hold 3 .exclusive 7] []) calm))
      (fun t => (node 3 t).session = .lapsed && (node 3 t).revocationCount = 1 && (node 3 t).heldCount = 0
        && t.svp.flags = 0x00C#11 && t.nq = []) = true := by decide +kernel
theorem test_wait_deadline_expiry :
    after (.waitDeadlineExpiry 3 8) (put (entry 1 false [hold 3 .exclusive 7] [wait 8 .shared 0]) calm)
      (fun t => (node 8 t).waitCount = 0 && t.freeWaits = 64
        && t.nq = [{ notice := .toNode 8 0 (.waitEnded 0x0140 .timeout), attempts := 0, state := .ready }]) = true := by
  decide +kernel

/-- A recall of node 4's EXCLUSIVE holding for node 9, at its deadline. -/
def recalled : State :=
  let e := { entry 1 true [{ hold 3 .exclusive 7 with recallTarget := true }] [wait 8 .shared 500] with
    recallSlot := some 0 }
  let s := put e calm
  { s with
    rct :=
      { slots := tset s.rct.slots 0
          (some { slot := 3, waiter := wait 8 .shared 500, deadline := 0
                  targets := [{ node := 3, token := 7, status := .notified }] })
        startOrder := [0], startList := [] } }

theorem test_recall_deadline :
    after (.recallDeadline 0) recalled (fun t => (node 3 t).revocationCount = 1 && (node 8 t).heldCount = 1
      && (slot 3 t).map (fun e => e.holders) = some [hold 8 .shared 1] && (recallAt 0 t).isNone
      && t.svp.flags = 0x008#11) = true := by decide +kernel
theorem test_backoff_end :
    after (.backoffEnd 0) { calm with nq := [notice (.waitEnded 0x0140 .quota) 1 (.backoff 0)] }
      (fun t => t.nq = [notice (.waitEnded 0x0140 .quota) 1 .ready]) = true := by decide +kernel

/-! ### Requests -/

theorem test_join :
    after (.join (ask 3 [])) (hearing calm) (fun t => replies [0x0E, 0x01, 0x00, 0x32, 0x08] t
      && (node 3 t).session = .active 1000#32) = true := by decide +kernel
theorem test_join_while_halted :
    after (.join (ask 3 [])) (halted (hearing calm)) (fun t => replies [0x88] t && (node 3 t).session = .absent)
      = true := by decide +kernel
theorem test_leave :
    after (.leave (ask 3 [])) (hearing (put (entry 1 true [hold 3 .exclusive 7] []) calm))
      (fun t => replies [0x0F] t && (node 3 t).session = .absent && (node 3 t).revocationCount = 0
        && t.freeHoldings = 384) = true := by decide +kernel
theorem test_claim_granted :
    after (.claim (ask 3 [0x01, 0x40, 0x20])) (hearing (joined 3 1000 (put (entry 1 true [] []) calm)))
      (fun t => replies [0x01, 0x00, 0x00, 0x01, 0x02] t
        && (slot 3 t).map (fun e => e.holders) = some [hold 3 .exclusive 1]) = true := by decide +kernel
theorem test_claim_queued_starts_a_recall :
    after (.claim (ask 3 [0x01, 0x40, 0x25]))
      (hearing (joined 3 1000 (put (entry 1 true [hold 8 .exclusive 7] []) calm)))
      (fun t => replies [0x02, 0x01] t
        && (slot 3 t).map (fun e => e.queue) = some [wait 3 .exclusive 500] && t.rct.startOrder = [0]
        && t.nq = [{ notice := .toNode 8 0 (.askBack 0x0140 7), attempts := 0, state := .ready }]) = true := by
  decide +kernel
theorem test_release :
    after (.release (ask 3 (body140 7))) (hearing (put (entry 1 true [hold 3 .exclusive 7] [wait 8 .shared 9]) calm))
      (fun t => replies [0x06] t && (slot 3 t).map (fun e => e.holders) = some [hold 8 .shared 1]) = true := by
  decide +kernel
theorem test_release_under_another_token :
    after (.release (ask 3 (body140 8))) (hearing (put (entry 1 true [hold 3 .exclusive 7] []) calm))
      (fun t => replies [0x08] t && (node 3 t).heldCount = 1) = true := by decide +kernel
theorem test_downgrade :
    after (.downgrade (ask 3 (body140 7))) (hearing (put (entry 2 true [hold 3 .exclusive 7] []) calm))
      (fun t => replies [0x07, 0x00, 0x00, 0x01] t
        && (slot 3 t).map (fun e => e.holders) = some [hold 3 .shared 1]) = true := by decide +kernel
theorem test_renew :
    after (.renew (ask 3 [])) (hearing (joined 3 40 calm))
      (fun t => replies [0x10, 0x32] t && (node 3 t).session = .active 1000#32) = true := by decide +kernel
theorem test_check :
    after (.check (ask 6 [0x01, 0x40, 0x04, 0x00, 0x00, 0x07]))
      (hearing (put (entry 2 true [hold 3 .exclusive 7] []) calm)) (replies [0x09, 0x02]) = true := by decide +kernel
theorem test_query :
    after (.query (ask 6 [0x01, 0x40])) (hearing (put (entry 2 true [hold 3 .shared 7] []) calm))
      (replies [0x0B, 0x22, 0x01, 0x00]) = true := by decide +kernel
theorem test_cancel :
    after (.cancel (ask 8 [0x01, 0x40])) (hearing (put (entry 1 false [hold 3 .exclusive 7] [wait 8 .shared 9]) calm))
      (fun t => replies [0x0C] t && t.nq = [] && t.freeWaits = 64) = true := by decide +kernel
theorem test_bad_kind :
    after (.badKind 10 (ask 6 [])) (hearing calm) (replies [0x89]) = true := by decide +kernel
theorem test_repeat_is_replayed :
    after (.claim (ask 3 [0x01, 0x40, 0x20]))
      (hearing (modNode 3 (fun r => { r with reply := .stored 1 3 (some 0x0140) .denied })
        (joined 3 1000 (put (entry 1 true [] []) calm))))
      (fun t => replies [0x03] t && (node 3 t).heldCount = 0) = true := by decide +kernel

/-! ### The line -/

theorem test_frame_dropped :
    after (.frameDropped { prio := 2, kind := 3, src := 31, version := 1, seq := 0, body := [] }) (hearing calm)
      (fun t => t.lif.lineState = .trailing && t.svp.flags = 0) = true := by decide +kernel
theorem test_frame_ignored :
    after (.frameIgnored 31) (hearing calm) (fun t => t.lif.lineState = .ignoring) = true := by decide +kernel
theorem test_receive_error :
    after (.receiveError (.edge 874)) (hearing calm)
      (fun t => t.lif.lineState = .trailing && t.svp.flags = 0x400#11) = true := by decide +kernel
theorem test_incomplete_frame_is_a_receive_error :
    after (.receiveError (.badFrame [true, true, true])) (hearing calm) (fun t => t.svp.flags = 0x400#11) = true := by
  decide +kernel
theorem test_sof_received :
    after (.sofReceived 2000) calm (fun t => t.lif.lineState = .receiving) = true := by decide +kernel
/-- ANNOUNCE: priority 1, kind 13, source 0, destination 31, version 1, sequence 0, length 1, epoch 0 (R135). -/
theorem test_send_notice :
    after .sendNotice { onLine .idle State.reset with svp := calm.svp }
      (fun t => t.lif.lineState = .sending && [0x74, 0x1F, 0x41, 0x00].isPrefixOf t.lif.txBytes
        && t.lif.txBytes.length = 5) = true := by decide +kernel
/-- R128, R133: a SOF, and then the first byte 0x74 bit by bit. -/
theorem test_sent_frame_on_the_line :
    after .sendNotice { onLine .idle State.reset with svp := calm.svp }
      (fun t => (drivenPulses t).take 9 = [(2000, 1000), (750, 250), (250, 750), (250, 750), (250, 750), (750, 250),
        (250, 750), (750, 250), (750, 250)] && (drivenPulses t).length = 41) = true := by decide +kernel
/-- R121, R128: a reply has no SOF; its first byte here is 0x88. -/
theorem test_reply_on_the_line :
    after (.join (ask 3 [])) (halted (hearing calm))
      (fun t => (drivenPulses t).take 5 = [(250, 750), (750, 250), (750, 250), (750, 250), (250, 750)]) = true := by
  decide +kernel
theorem test_arbitration_loss :
    after (.arbitrationLoss 1) (sending .sending (notice (.granted 0x0140 7) 1 (.inFlight false)) calm)
      (fun t => t.lif.lineState = .receiving && t.lif.rxBits = [false, false]
        && t.nq = [notice (.granted 0x0140 7) 1 .ready]) = true := by decide +kernel
theorem test_bit_error :
    after (.bitError (.inverted 0)) (sending .sending (notice (.granted 0x0140 7) 0 (.inFlight false)) calm)
      (fun t => t.nq = [notice (.granted 0x0140 7) 1 (.backoff 5)]) = true := by decide +kernel
theorem test_notice_frame_sent :
    after .noticeFrameSent (sending .sending (notice (.granted 0x0140 7) 0 (.inFlight false)) calm)
      (fun t => t.lif.lineState = .awaitAck) = true := by decide +kernel

/-- GRANTED of resource 0x0140 under token 7 to node 5, whose holding it is, awaiting its acknowledgement. -/
def awaiting (attempts : Nat) (discard : Bool) : State :=
  sending .awaitAck (notice (.granted 0x0140 7) attempts (.inFlight discard))
    (put (entry 1 true [hold 4 .exclusive 7] []) calm)

/-- The frame check of that notice. -/
def itsCheck : Byte := (awaiting 0 false).lif.txBytes.getLastD 0

theorem test_accept :
    after (.accept { ack := 0x50, check := crc8 [itsCheck, 0x50] }) (awaiting 0 false)
      (fun t => t.nq = [] && (node 4 t).heldCount = 1 && t.lif.lineState = .trailing) = true := by decide +kernel
theorem test_refuse_hands_the_holding_back :
    after (.refuse { ack := 0x58, check := crc8 [itsCheck, 0x58] }) (awaiting 0 false)
      (fun t => t.nq = [] && (node 4 t).heldCount = 0 && t.svp.flags = 0) = true := by decide +kernel
theorem test_ack_wrong_sequence :
    after (.ackWrongSequence { ack := 0x51, check := crc8 [itsCheck, 0x51] }) (awaiting 1 false)
      (fun t => t.nq = [notice (.granted 0x0140 7) 2 (.backoff 5)]) = true := by decide +kernel
theorem test_bad_check_byte :
    after (.badCheckByte { ack := 0x50, check := crc8 [itsCheck, 0x51] }) (awaiting 2 false)
      (fun t => t.nq = [] && t.svp.flags = 0x010#11 && (node 4 t).heldCount = 1) = true := by decide +kernel
theorem test_not_an_acknowledgement :
    after (.notAnAcknowledgement .earlyEdge) (awaiting 0 false)
      (fun t => t.nq = [notice (.granted 0x0140 7) 1 (.backoff 5)]) = true := by decide +kernel
/-- R138, R165: a reply of twelve good bits is of the wrong length, though the first eight make an ACCEPT. -/
theorem test_a_reply_of_twelve_bits :
    after (.notAnAcknowledgement (.bits false [true, false, true, false, false, false, false, true, true, true, true]))
      (awaiting 0 false) (fun t => t.nq = [notice (.granted 0x0140 7) 1 (.backoff 5)] && t.lif.lineState = .trailing)
      = true := by decide +kernel
theorem test_no_reply_of_a_discarded_entry :
    after .noReply (awaiting 2 true) (fun t => t.nq = [] && t.svp.flags = 0) = true := by decide +kernel
theorem test_announce_delivered :
    after .announceDelivered
      (sending .trailing { notice := .announce 0, attempts := 0, state := .inFlight false } calm)
      (fun t => t.nq = [] && t.lif.lineState = .trailing) = true := by decide +kernel
theorem test_reply_sent :
    after .replySent (onLine .replying calm) (fun t => t.lif.lineState = .trailing) = true := by decide +kernel
theorem test_reply_lost :
    after .replyLost (onLine .replying calm) (fun t => t.lif.lineState = .trailing) = true := by decide +kernel
theorem test_end_of_frame :
    after .endOfFrame (onLine .ignoring calm) (fun t => t.lif.lineState = .idle) = true := by decide +kernel
theorem test_line_hold :
    after .lineHold (awaiting 1 false)
      (fun t => t.lif.lineState = .held && t.svp.flags = 0x040#11 && t.nq = [notice (.granted 0x0140 7) 1 .ready])
      = true := by decide +kernel
theorem test_line_release_gives_the_grace :
    after .lineRelease (onLine .held (joined 3 99 (joined 4 100 calm)))
      (fun t => t.lif.lineState = .idle && t.svp.flags = 0x080#11 && (node 3 t).session = .active 100#32
        && (node 4 t).session = .active 100#32) = true := by decide +kernel

/-! ### The supervisor -/

/-- The result registers and the flag of a completed command. -/
def completed (state : CmdState) (results : List Word) (t : State) : Bool :=
  t.svp.cmdState = state && results.isPrefixOf t.svp.results.toList && flagSet .cmdDone t

theorem test_provision :
    after .provision (commanded 1 0x0150 8 2 0 (put (entry 1 true [] []) calm))
      (fun t => completed .done [0, 0] t && (slot 0 t).map (fun e => (e.id, e.shareLimit, e.recallable))
        = some (0x0150, 8, true)) = true := by decide +kernel
theorem test_provision_duplicate :
    after .provision (commanded 1 0x0140 1 1 0 (put (entry 1 true [] []) calm)) (completed .failed [1, 0]) = true := by
  decide +kernel

/-- The resource of the example of section 1.7. -/
def shared : State :=
  put (entry 2 false [hold 3 .shared 812, hold 8 .shared 815] [wait 11 .exclusive 900, wait 4 .shared 900]) calm

/-- The second row of the example of section 1.7. -/
theorem test_retire_under_holders :
    after .retire (commanded 2 0x0140 0 0 0 shared)
      (fun t => completed .done [0] t
        && (slot 3 t).map (fun e => (e.life, e.holders, e.queue))
          = some (.retiring, [hold 3 .shared 812, hold 8 .shared 815], [])
        && t.nq = [{ notice := .toNode 11 0 (.waitEnded 0x0140 .retired), attempts := 0, state := .ready },
          { notice := .toNode 4 0 (.waitEnded 0x0140 .retired), attempts := 0, state := .ready }]
        && t.freeWaits = 64) = true := by decide +kernel
theorem test_withdraw :
    after .withdraw (commanded 3 0x0140 0 0 0 shared)
      (fun t => completed .done [0] t && (slot 3 t).isNone && t.svp.flags = 0x109#11 && t.freeHoldings = 384
        && (node 3 t).revocationCount = 1 && (node 8 t).revocationCount = 1 && t.nq.length = 4) = true := by
  decide +kernel
theorem test_set_node :
    after .setNode (commanded 4 4 2 100 32 calm)
      (fun t => completed .done [0] t && (node 3 t).admission = .barred && (node 3 t).leaseTerm = 100
        && (node 3 t).quota = 32) = true := by decide +kernel
theorem test_set_node_busy :
    after .setNode (commanded 4 4 1 100 32 (joined 3 1000 calm)) (completed .failed [5]) = true := by decide +kernel
theorem test_evict :
    after .evict (commanded 5 4 0 0 0 shared)
      (fun t => completed .done [0] t && (node 3 t).session = .absent && (node 3 t).admission = .barred
        && (node 3 t).revocationCount = 1 && t.svp.flags = 0x009#11) = true := by decide +kernel
/-- Share limit 2, claim state SHARED (1), not recallable: 0x0012 (section 11.5). -/
theorem test_read_resource :
    after .readResource (commanded 6 0x0140 0 0 0 shared) (completed .done [0, 3, 0x0012, 0, 2, 2, 0]) = true := by
  decide +kernel
theorem test_read_holder :
    after .readHolder (commanded 7 0x0140 2 0 0 shared) (completed .done [0, 9, 1, 0, 815, 0, 0]) = true := by
  decide +kernel
theorem test_read_holder_beyond_the_list :
    after .readHolder (commanded 7 0x0140 3 0 0 shared) (completed .failed [4, 0]) = true := by decide +kernel
theorem test_read_wait :
    after .readWait (commanded 8 0x0140 1 0 0 shared) (completed .done [0, 12, 2, 900, 0, 0, 0]) = true := by
  decide +kernel
/-- R157: a read at a step at which the wait's deadline is reached takes nothing; the time remaining is 1 (R44, log 7). -/
theorem test_read_wait_at_its_deadline :
    let s := commanded 8 0x0140 1 0 0 (put (entry 1 false [hold 3 .exclusive 7] [wait 8 .shared 0]) calm)
    after .readWait s (fun t => completed .done [0, 9, 1, 1, 0, 0, 0] t && t.dir = s.dir && t.nodes = s.nodes
      && t.nq = s.nq && t.picks = s.picks) = true := by decide +kernel
theorem test_read_node :
    after .readNode (commanded 9 4 0 0 0 shared)
      (completed .done [0, 1, 0x0832, 0x0001, 0, 1000, 0]) = true := by decide +kernel
theorem test_read_pools :
    after .readPools (commanded 10 0 0 0 0 shared) (completed .done [0, 382, 62, 16, 8, 0, 0]) = true := by
  decide +kernel
theorem test_set_timing_out_of_range :
    after .setTiming (commanded 11 256 5 0 0 calm)
      (fun t => completed .failed [4] t && t.dlu.recallTimeout = 20) = true := by decide +kernel
theorem test_set_timing :
    after .setTiming (commanded 11 255 1 0 0 calm)
      (fun t => completed .done [0] t && t.dlu.recallTimeout = 255 && t.dlu.noticeBackoff = 1) = true := by
  decide +kernel
theorem test_clear_claims :
    after .clearClaims (commanded 12 0 0 0 0 shared)
      (fun t => completed .done [0] t && t.dir.epoch = 1 && (slot 3 t).isSome && t.freeHoldings = 384
        && (node 3 t).session = .absent && t.nq = [{ notice := .announce 1, attempts := 0, state := .ready }])
      = true := by decide +kernel
theorem test_halt :
    after .halt (commanded 13 0 0 0 0 calm) (fun t => completed .done [0] t && t.svp.halted) = true := by
  decide +kernel
theorem test_resume_serves_the_queues :
    after .resume (commanded 14 0 0 0 0 (halted (put (entry 1 true [] [wait 8 .shared 900]) calm)))
      (fun t => completed .done [0] t && !t.svp.halted
        && (slot 3 t).map (fun e => e.holders) = some [hold 8 .shared 1]) = true := by decide +kernel
theorem test_bad_command :
    after (.badCommand 15) calm (completed .failed [6, 0, 0, 0, 0, 0, 0]) = true := by decide +kernel
/-- R155: a write of an unknown code completes at once. -/
theorem test_command_write_of_an_unknown_code :
    after (.commandWrite 15) calm (fun t => completed .failed [6, 0, 0, 0, 0, 0, 0] t && t.svp.command = 15) = true := by
  decide +kernel
theorem test_evict_of_no_node :
    after .evict (commanded 5 31 0 0 0 shared) (fun t => completed .failed [4, 0] t && t.nodes = shared.nodes)
      = true := by
  decide +kernel
theorem test_cmd_refused :
    after (.cmdRefused 1) (commanded 14 0 0 0 0 calm)
      (fun t => t.svp.flags = 0x002#11 && t.svp.command = 14) = true := by decide +kernel
theorem test_command_write :
    after (.commandWrite 13) { calm with svp := { calm.svp with args := #v[1, 2, 3, 4] } }
      (fun t => t.svp.cmdState = .running && t.svp.command = 13 && t.svp.captured = #v[1, 2, 3, 4]) = true := by
  decide +kernel
theorem test_flags_write :
    after (.flagsWrite 0xF801) { calm with svp := { calm.svp with flags := 0x003 } }
      (fun t => t.svp.flags = 0x002#11) = true := by decide +kernel
theorem test_enable_write_asserts_attn :
    after (.enableWrite 0xFFFF) { calm with svp := { calm.svp with flags := 0x400 } }
      (fun t => t.svp.enables = 0x7FF#11 && attn t) = true := by decide +kernel

/-- The bits of a write of 0xA5C3 to ARG3, address 6, written out. -/
def writeArg3 : List Bool :=
  [true, false, false, false, false, true, true, false, true, false, true, false, false, true, false, true,
    true, true, false, false, false, false, true, true]

theorem test_register_write :
    after (.registerWrite ⟨writeArg3⟩) calm (fun t => tget t.svp.args 3 = 0xA5C3#16) = true := by decide +kernel
/-- R150: on a read of FLAGS, address 14, with two bits more than the 24, SDO carries the value and then 0. -/
theorem test_sdo_of_a_read :
    (sdoBits 0 ([false, false, false, false, true, true, true, false] ++ List.replicate 18 true)
      { calm with svp := { calm.svp with flags := 0x403 } }).drop 8
      = [false, false, false, false, false, true, false, false, false, false, false, false, false, false, true, true,
        false, false] := by decide +kernel
/-- R150: a read cut off after the sixth bit of the value has shown those six. -/
theorem test_sdo_of_a_short_read :
    (sdoBits 0 ([false, false, false, false, true, true, true, false] ++ List.replicate 6 true)
      { calm with svp := { calm.svp with flags := 0x403 } }).drop 8 = [false, false, false, false, false, true] := by
  decide +kernel
/-- R150: a must-be-zero bit that is 1 makes a read give zeros. -/
theorem test_sdo_of_a_bad_control_byte :
    (sdoBits 0 ([false, true, false, false, false, false, false, false] ++ List.replicate 16 true) calm).drop 8
      = List.replicate 16 false := by decide +kernel
theorem test_abandoned_write :
    after (.registerWrite ⟨writeArg3.take 23⟩) calm (fun t => t.svp = calm.svp) = true := by decide +kernel

/-! ### Witnesses: the hypotheses of the statements can be met -/

/-- A property of the only entry is a property of every entry. -/
theorem one_entry {s : State} {e : Entry} {P : SlotId → Entry → Prop} (h3 : slot 3 s = some e)
    (hn : ∀ i, i ≠ 3 → slot i s = none) (h : P 3 e) : ∀ i x, slot i s = some x → P i x := by
  intro i x hx
  by_cases hi : i = 3
  · subst hi
    rw [h3] at hx
    cases hx
    exact h
  · rw [hn i hi] at hx
    cases hx

/-- No expiry is still to be taken. -/
theorem no_expiry {s : State} (h1 : ∀ n, leaseReached n s = false)
    (h2 : ∀ i, (slot i s).all (fun e => e.queue.all fun w => w.deadline ≠ s.dlu.holdClock) = true)
    (h3 : ∀ k, recallReached k s = false) (h4 : s.nq.all (fun e => e.state ≠ .backoff s.dlu.noticeClock) = true) :
    ∀ x, expiryReached x s = false := by
  intro x
  cases x with
  | lease n => exact h1 n
  | wait i n =>
    simp only [expiryReached, waitReached, Bool.and_eq_false_iff]
    right
    have h := h2 i
    cases hs : slot i s with
    | none => rfl
    | some e =>
      rw [hs] at h
      simp only [Option.any_some]
      cases hw : waitOf n e with
      | none => rfl
      | some w =>
        have := List.all_eq_true.mp h w (List.mem_of_find?_eq_some hw)
        simpa using this
  | recallEnd k => exact h3 k
  | backoff place =>
    simp only [expiryReached, backoffReached, Bool.and_eq_false_iff]
    right
    cases hp : s.nq[place]? with
    | none => rfl
    | some e => simpa using List.all_eq_true.mp h4 e (List.mem_of_getElem? hp)

theorem shared_entry : slot 3 shared
    = some (entry 2 false [hold 3 .shared 812, hold 8 .shared 815] [wait 11 .exclusive 900, wait 4 .shared 900]) := by
  decide +kernel
theorem shared_only : ∀ i, i ≠ 3 → slot i shared = none := by decide +kernel
theorem shared_calm : ∀ x, expiryReached x shared = false :=
  no_expiry (by decide +kernel) (by decide +kernel) (by decide +kernel) (by decide +kernel)
theorem shared_members : membersDistinct shared := one_entry shared_entry shared_only (by decide +kernel)
theorem shared_ids : idsDistinct shared := by
  intro i j e f hi hj _
  have h := one_entry (P := fun i _ => i = 3) shared_entry shared_only rfl
  rw [h i e hi, h j f hj]

/-- The laws that the invariants assume hold together in a state with holdings and waits, which has a next state. -/
theorem witness_laws :
    holdersLawful shared ∧ membersDistinct shared ∧ poolsLawful shared ∧ tokensLawful shared ∧ countsLawful shared
      ∧ retiringEmpty shared ∧ noticesLawful shared ∧ recallsLawful shared ∧ listsLawful shared ∧ nodesLawful shared
      ∧ idsDistinct shared ∧ headsServed shared :=
  ⟨one_entry shared_entry shared_only (by unfold Entry.lawful; decide +kernel), shared_members,
    by unfold poolsLawful; decide +kernel, by unfold tokensLawful; decide +kernel, by unfold countsLawful; decide +kernel,
    one_entry shared_entry shared_only (by decide +kernel), by unfold noticesLawful; decide +kernel,
    by unfold recallsLawful; decide +kernel, by unfold listsLawful; decide +kernel,
    by unfold nodesLawful; decide +kernel, shared_ids,
    fun _ => one_entry shared_entry shared_only (by decide +kernel)⟩
theorem witness_step :
    (match step { hearing shared with pending := [.release (ask 3 (body140 7))] } with
      | .next _ => true
      | _ => false) = true := by decide +kernel
theorem witness_StepTakesTheFront : calm.pending = [] := rfl
/-- A recall runs in a recall slot, the last started. -/
def withRecall (k : RecallId) (r : Recall) (s : State) : State :=
  { s with
    rct := { slots := tset s.rct.slots k (some r), startOrder := s.rct.startOrder ++ [k], startList := s.rct.startList } }

/-- A recall on slot 3 for a wait, whose one target is a node's holding under token 7. -/
def recallOf (w : Wait) (n : NodeId) (status : TargetStatus) : Recall :=
  { slot := 3, waiter := w, targets := [{ node := n, token := 7, status := status }], deadline := 9 }

/-- The entry of slot 3 under a recall in recall slot 0. -/
def underRecall (e : Entry) : Entry := { e with recallSlot := some 0 }

theorem witness_RequestFramesParse : (ask 3 (List.replicate 7 0)).wellFormed = true := by decide +kernel
theorem witness_AcknowledgementsAreClassified :
    (0#8 ≠ crc8 [0xF3, 0x50]) ∧ (0b0100#4 ≠ 0b0101#4) ∧ (1#3 ≠ 0#3) ∧ ([0x50] : List Byte).length ≠ 2
      ∧ (List.replicate 12 true).length ≠ 16 := by decide +kernel
theorem witness_DrawnTokenIsFresh : poolsLawful shared ∧ shared.dir.nextToken ≠ 0#24 := by
  unfold poolsLawful
  decide +kernel
theorem witness_LookupFindsTheId :
    idsDistinct shared ∧ slot 3 shared
      = some (entry 2 false [hold 3 .shared 812, hold 8 .shared 815] [wait 11 .exclusive 900, wait 4 .shared 900])
      ∧ ∀ i e, slot i shared = some e → e.id ≠ 0x0141 :=
  ⟨shared_ids, shared_entry, one_entry shared_entry shared_only (by decide +kernel)⟩
theorem witness_TimebaseStepAdvancesRunningClocks : ∀ x, expiryReached x shared = false := shared_calm
theorem witness_BackoffEndsInReady :
    let s : State := { calm with nq := List.replicate 15 (notice (.waitEnded 0x0140 .quota) 0 .ready)
      ++ [notice (.waitEnded 0x0140 .quota) 1 (.backoff 0)] }
    s.lif.lineState ≠ .held ∧ s.nq[(15 : Fin 16).val]? = some (notice (.waitEnded 0x0140 .quota) 1 (.backoff 0)) := by
  decide +kernel
theorem witness_SessionEndStripsTheNode :
    let s := joined 3 0 shared
    (node 3 s).session = .active 0#32 ∧ s.lif.lineState ≠ .held ∧ s.dlu.leaseClock = 0#32
      ∧ arrivesFresh (kindCode .leave) (ask 3 []) (hearing s) ∧ arrivesFresh (kindCode .join) (ask 3 []) (hearing s)
      ∧ s.svp.halted = false ∧ running 0x0005 4 0 0 0 (commanded 0x0005 4 0 0 0 s) := by
  unfold arrivesFresh running
  decide +kernel
/-- Node 4, ACTIVE with a reply memory that is not EMPTY, and a notice IN_FLIGHT to it beside one that is not. -/
theorem witness_SessionEnd_notices :
    let s := { modNode 4 (fun r => { r with reply := .closed }) (joined 4 0 calm) with
      nq := [notice (.revoked 0x0140 7) 0 (.inFlight false), notice (.revoked 0x0141 8) 0 .ready] }
    (node 4 s).session = .active 0#32 ∧ (node 4 s).reply ≠ .empty
      ∧ (∀ x ∈ s.nq, isAddressedTo 4 x = true) ∧ s.nq.length = 2
      ∧ after (.leaseExpiry 4) s (fun t => t.nq = [notice (.revoked 0x0140 7) 0 (.inFlight true)]) = true := by
  decide +kernel
theorem joined_members (n : NodeId) (d : Millis) (s : State) (h : membersDistinct s) : membersDistinct (joined n d s) := h
theorem witness_SessionEndStripsTheNode_members : membersDistinct (joined 3 0 shared) :=
  joined_members 3 0 shared shared_members
theorem witness_BareSessionEndChangesTheRecordOnly :
    let s := joined 29 0 shared
    (∀ i, holds 29 i s = false ∧ waits 29 i s = false) ∧ s.nq.all (fun e => !isAddressedTo 29 e) = true
      ∧ s.lif.lineState ≠ .held ∧ (node 29 s).session = .active s.dlu.leaseClock
      ∧ running 0x0005 30 0 0 0 (commanded 0x0005 30 0 0 0 (modNode 29 (fun r => { r with reply := .closed }) s))
      ∧ (node 29 (modNode 29 (fun r => { r with reply := .closed }) s)).reply ≠ .empty
      ∧ isActive (node 29 shared).session = false
      ∧ running 0x0005 31 0 0 0 (commanded 0x0005 31 0 0 0 s) ∧ 30 < (31#16).toNat ∧ (0#16).toNat = 0 := by
  unfold running
  decide +kernel
theorem witness_WaitBehindTheHeadTimesOut :
    let e := entry 1 false [hold 3 .exclusive 7] ([wait 11 .shared 900] ++ wait 4 .shared 0 :: [])
    let s := put e calm
    s.lif.lineState ≠ .held ∧ s.svp.halted = false ∧ slot 3 s = some e
      ∧ (∀ x ∈ [wait 11 .shared 900], x.node ≠ (wait 4 .shared 0).node)
      ∧ (wait 4 .shared 0).deadline = s.dlu.holdClock
      ∧ 5 ≤ 16 - { s with nq := List.replicate 11 (notice (.granted 1 1) 0 .ready) }.nq.length
      ∧ ¬ 5 ≤ 16 - { s with nq := List.replicate 12 (notice (.granted 1 1) 0 .ready) }.nq.length := by
  decide +kernel
theorem witness_WaitOfTheHeadTimesOut :
    let w := wait 8 .shared 0
    let e := underRecall (entry 1 true [{ hold 3 .exclusive 7 with recallTarget := true }] [w])
    let s := withRecall 0 (recallOf w 3 .notified) (put e calm)
    let x := wait 4 .shared 900
    let f := entry 2 false [hold 3 .shared 7] [wait 8 .exclusive 0, x]
    let u := put f calm
    (s.lif.lineState ≠ .held ∧ s.svp.halted = false ∧ slot 3 s = some e ∧ w.deadline = s.dlu.holdClock ∧ e.queue = [w]
        ∧ e.recallSlot = some 0 ∧ recallAt 0 s = some (recallOf w 3 .notified) ∧ s.rct.startList = []
        ∧ ∀ y ∈ s.nq, isRecallFor e.id y = false)
      ∧ (u.lif.lineState ≠ .held ∧ u.svp.halted = false ∧ slot 3 u = some f
        ∧ (wait 8 .exclusive 0).deadline = u.dlu.holdClock ∧ x.node ≠ 8 ∧ f.life = .opened ∧ f.recallSlot = none
        ∧ claimFits .shared f ∧ (node x.node u).heldCount ≠ (node x.node u).quota ∧ u.freeHoldings ≠ 0
        ∧ { u with nq := List.replicate 11 (notice (.granted 1 1) 0 .ready) }.nq.length ≤ 11) := by
  unfold claimFits
  decide +kernel
theorem recalled_entry : slot 3 recalled
    = some { entry 1 true [{ hold 3 .exclusive 7 with recallTarget := true }] [wait 8 .shared 500] with
        recallSlot := some 0 } := by decide +kernel
theorem witness_RecallDeadlineRevokesTheTargets :
    let r : Recall := { slot := 3, waiter := wait 8 .shared 500, deadline := 0
                        targets := [{ node := 3, token := 7, status := .notified }] }
    membersDistinct recalled ∧ recalled.lif.lineState ≠ .held ∧ recalled.svp.halted = false
      ∧ recallAt 0 recalled = some r ∧ r.deadline = recalled.dlu.holdClock ∧ (r.targets.map (·.node)).Nodup
      ∧ ∀ x ∈ r.targets, x.status ≠ .gone → holds x.node r.slot recalled = true :=
  ⟨one_entry recalled_entry (by decide +kernel) (by decide +kernel), by decide +kernel, by decide +kernel,
    by decide +kernel, by decide +kernel, by decide +kernel, by decide +kernel⟩

theorem witness_RepeatsReplayTheStoredReply :
    let s := hearing (modNode 3 (fun r => { r with reply := .stored 1 3 (some 0x0140) .denied }) (joined 3 9 calm))
    let u := hearing (modNode 3 (fun r => { r with reply := .stored 1 0 none .badKind }) calm)
    (ask 3 [0x01, 0x40, 0x20]).wellFormed = true
      ∧ frameArrives (requestBits (kindCode .claim) (ask 3 [0x01, 0x40, 0x20])) s = true
      ∧ (node 3 s).reply = .stored 1 (kindCode .claim) (recordedId (kindCode .claim) [0x01, 0x40, 0x20]) .denied
      ∧ isRequestKind 0 = false ∧ frameArrives (requestBits 0 (ask 3 [])) u = true
      ∧ (node 3 u).reply = .stored 1 0 (recordedId 0 []) .badKind := by decide +kernel
theorem witness_UnfitRequestsAreAnswered :
    isRequestKind 0 = false ∧ isRequestKind 10 = false ∧ arrivesFresh 10 (ask 29 []) (hearing calm)
      ∧ arrivesFresh (kindCode .join) (ask 0 [0x00]) (hearing calm) ∧ bodyFits .join [0x00] = false := by
  unfold arrivesFresh
  decide +kernel
theorem witness_RequestBodiesAreRead :
    ([0, 0] : List Byte).length ≠ 3 ∧ ([0, 0] : List Byte).length ≠ 5 ∧ ([0, 0] : List Byte).length ≠ 6
      ∧ ([0] : List Byte).length ≠ 2 ∧ (0x1E#8).toNat = nodeNumber 29 ∧ (0x01#8).toNat = nodeNumber 0
      ∧ (0x00#8).toNat = 0 ∧ 30 < (0x1F#8).toNat := by decide +kernel
theorem witness_GatesRefuse :
    let absent := hearing calm
    let lapsed := hearing (modNode 3 (fun r => { r with session := .lapsed }) calm)
    let barred := hearing (modNode 3 (fun r => { r with admission := .barred }) calm)
    let stopped := halted (hearing (joined 3 9 calm))
    arrivesFresh (kindCode .leave) (ask 3 []) absent ∧ bodyFits .leave [] = true ∧ (node 3 absent).session = .absent
      ∧ arrivesFresh (kindCode .renew) (ask 3 []) lapsed ∧ bodyFits .renew [] = true ∧ (node 3 lapsed).session = .lapsed
      ∧ arrivesFresh (kindCode .join) (ask 3 []) barred ∧ bodyFits .join [] = true
      ∧ (node 3 barred).session = .absent ∧ (node 3 barred).admission = .barred
      ∧ arrivesFresh (kindCode .join) (ask 3 []) (halted absent) ∧ (halted absent).svp.halted = true
      ∧ (node 3 (halted absent)).admission = .admitted
      ∧ arrivesFresh (kindCode .claim) (ask 3 [0x01, 0x40, 0x20]) stopped
      ∧ bodyFits .claim [0x01, 0x40, 0x20] = true ∧ stopped.svp.halted = true
      ∧ isActive (node 3 stopped).session = true := by
  unfold arrivesFresh
  decide +kernel
theorem witness_JoinStartsASession :
    let s := hearing calm
    arrivesFresh (kindCode .join) (ask 29 []) s ∧ (node 29 s).admission = .admitted
      ∧ isActive (node 29 s).session = false ∧ s.svp.halted = false := by
  unfold arrivesFresh
  decide +kernel
theorem witness_LeaveEndsABareSession :
    let s := hearing (joined 29 9 shared)
    let u := hearing (modNode 29 (fun r => { r with session := .lapsed }) shared)
    arrivesFresh (kindCode .leave) (ask 29 []) u ∧ (node 29 u).session = .lapsed
      ∧ arrivesFresh (kindCode .leave) (ask 29 []) s ∧ isActive (node 29 s).session = true
      ∧ (∀ i, holds 29 i s = false ∧ waits 29 i s = false) ∧ s.nq.all (fun e => !isAddressedTo 29 e) = true := by
  unfold arrivesFresh
  decide +kernel

/-- A SHARED and an EXCLUSIVE CLAIM of resource 0x0140 with a wait limit of 500 ms. -/
def claimBody (m : Mode) : List Byte := [0x01, 0x40, if m = .shared then 0x15 else 0x25]

/-- The part about to take node 10's request, with one entry. -/
def asking (e : Entry) : State := hearing (joined 9 900 (put e calm))

theorem witness_ClaimIsGrantedAtOnce :
    let e := entry 2 true [hold 3 .shared 7] []
    let s := asking e
    arrivesFresh (kindCode .claim) (ask 9 (claimBody .shared)) s
      ∧ readClaim (claimBody .shared) = some ⟨0x0140, .shared, 5⟩ ∧ isActive (node 9 s).session = true
      ∧ s.svp.halted = false ∧ lookup 0x0140 s = some (3, e) ∧ e.life = .opened ∧ holdingOf 9 e = none
      ∧ claimFits .shared e ∧ claimFits .exclusive (entry 1 true [] [])
      ∧ (node 9 s).heldCount ≠ (node 9 s).quota ∧ s.freeHoldings ≠ 0 := by
  unfold arrivesFresh claimFits
  decide +kernel
theorem witness_ClaimIsQueued :
    let e := entry 1 true [hold 3 .shared 7] [wait 8 .exclusive 90]
    let f := entry 1 false [hold 3 .shared 7] []
    (arrivesFresh (kindCode .claim) (ask 9 (claimBody .shared)) (asking e)
        ∧ readClaim (claimBody .shared) = some ⟨0x0140, .shared, 5⟩ ∧ isActive (node 9 (asking e)).session = true
        ∧ (asking e).svp.halted = false ∧ lookup 0x0140 (asking e) = some (3, e) ∧ holdingOf 9 e = none
        ∧ waitOf 9 e = none ∧ e.queue ≠ [] ∧ (node 9 (asking e)).waitCount ≠ 4 ∧ (asking e).freeWaits ≠ 0)
      ∧ arrivesFresh (kindCode .claim) (ask 9 (claimBody .shared)) (asking f)
        ∧ lookup 0x0140 (asking f) = some (3, f) ∧ f.queue = [] ∧ ¬ claimFits .shared f ∧ f.recallable = false := by
  unfold arrivesFresh claimFits
  decide +kernel
theorem witness_ClaimIsQueued_head :
    let e := entry 1 true [hold 3 .shared 7] []
    let f := entry 1 true [hold 3 .exclusive 7] []
    let s : State :=
      { asking f with
        rct := { (asking f).rct with slots := Vector.replicate 8 (some (recallOf (wait 8 .shared 9) 3 .notified)) } }
    (arrivesFresh (kindCode .claim) (ask 9 (claimBody .shared)) (asking e) ∧ lookup 0x0140 (asking e) = some (3, e)
        ∧ e.queue = [] ∧ ¬ claimFits .shared e ∧ ∀ h ∈ e.holders, h.mode = .shared)
      ∧ (arrivesFresh (kindCode .claim) (ask 9 (claimBody .shared)) s ∧ isActive (node 9 s).session = true
        ∧ s.svp.halted = false ∧ lookup 0x0140 s = some (3, f) ∧ f.life = .opened ∧ holdingOf 9 f = none
        ∧ f.queue = [] ∧ ¬ claimFits .shared f ∧ (node 9 s).waitCount ≠ 4 ∧ s.freeWaits ≠ 0 ∧ f.recallable = true
        ∧ f.recallSlot = none ∧ (∃ h ∈ f.holders, h.mode = .exclusive) ∧ (∀ k, (recallAt k s).isSome = true)
        ∧ 3 ∉ s.rct.startList ∧ 3 ∈ { s with rct := { s.rct with startList := [3] } }.rct.startList) := by
  unfold arrivesFresh claimFits
  decide +kernel
theorem witness_QueuedHeadStartsARecall :
    let e := entry 2 true [hold 3 .shared 7, hold 8 .shared 8] []
    let s := asking e
    arrivesFresh (kindCode .claim) (ask 9 (claimBody .exclusive)) s
      ∧ readClaim (claimBody .exclusive) = some ⟨0x0140, .exclusive, 5⟩ ∧ isActive (node 9 s).session = true
      ∧ s.svp.halted = false ∧ lookup 0x0140 s = some (3, e) ∧ e.recallSlot = none ∧ holdingOf 9 e = none
      ∧ (e.holders.map (·.node)).Nodup ∧ e.holders ≠ [] ∧ (node 9 s).waitCount ≠ 4 ∧ s.freeWaits ≠ 0
      ∧ recallAt 0 s = none ∧ ∀ j < (0 : RecallId), (recallAt j s).isSome := by
  unfold arrivesFresh
  decide +kernel
theorem witness_ClaimIsTurnedDown :
    let claims := fun s : State => arrivesFresh (kindCode .claim) (ask 9 (claimBody .shared)) s
      ∧ isActive (node 9 s).session = true ∧ s.svp.halted = false
    let retiring := { entry 1 true [hold 3 .shared 7] [] with life := .retiring }
    let free := entry 1 true [] []
    let taken := entry 1 true [hold 3 .shared 7] []
    let full := entry 1 true [hold 3 .shared 7] (List.replicate 16 (wait 8 .shared 90))
    claims (hearing (joined 9 900 calm)) ∧ lookup 0x0140 (hearing (joined 9 900 calm)) = none
      ∧ claims (asking retiring) ∧ lookup 0x0140 (asking retiring) = some (3, retiring)
      ∧ holdingOf 9 (entry 1 true [hold 9 .shared 7] []) = some (hold 9 .shared 7)
      ∧ waitPosition 9 (entry 1 true [hold 3 .shared 7] [wait 9 .shared 90]) = some 1
      ∧ claims (asking free) ∧ claimFits .shared free
      ∧ (let s := modNode 9 (fun r => { r with heldCount := 8 }) (asking free)
         claims s ∧ (node 9 s).heldCount = (node 9 s).quota)
      ∧ claims { asking free with freeHoldings := 0 }
      ∧ claims (asking taken) ∧ ¬ claimFits .shared taken ∧ readClaim [0x01, 0x40, 0x10] = some ⟨0x0140, .shared, 0⟩
      ∧ (node 9 (modNode 9 (fun r => { r with waitCount := 4 }) (asking taken))).waitCount = 4
      ∧ claims (asking full) ∧ full.queue.length = 16 ∧ waitOf 9 full = none
      ∧ claims { asking taken with freeWaits := 0 } := by
  unfold arrivesFresh claimFits
  decide +kernel
theorem witness_ReleaseEndsAHolding :
    let e := entry 2 true ([hold 3 .shared 7] ++ hold 9 .shared 8 :: []) []
    let f : Entry := { entry 1 true [hold 9 .shared 8] [] with life := .retiring }
    let other := ask 9 (body140 9)
    (arrivesFresh (kindCode .release) (ask 9 (body140 8)) (asking e) ∧ readTokenArgs (body140 8) = some ⟨0x0140, 8⟩
        ∧ isActive (node 9 (asking e)).session = true ∧ lookup 0x0140 (asking e) = some (3, e)
        ∧ (asking e).dir.deferred = [] ∧ 3 ∉ (asking e).rct.startList ∧ ∀ x ∈ [hold 3 .shared 7], x.node ≠ 9)
      ∧ (arrivesFresh (kindCode .release) (ask 9 (body140 8)) (asking f) ∧ lookup 0x0140 (asking f) = some (3, f))
      ∧ (arrivesFresh (kindCode .release) other (asking e) ∧ readTokenArgs other.body = some ⟨0x0140, 9⟩
        ∧ ∀ h ∈ e.holders, h.node = 9 → h.token ≠ 9#24)
      ∧ lookup 0x0140 (hearing (joined 9 900 calm)) = none := by
  unfold arrivesFresh
  decide +kernel
theorem witness_ReleaseServesTheWaiter :
    let e := entry 1 true [hold 9 .exclusive 8] [wait 8 .shared 90]
    let s := asking e
    arrivesFresh (kindCode .release) (ask 9 (body140 8)) s ∧ readTokenArgs (body140 8) = some ⟨0x0140, 8⟩
      ∧ isActive (node 9 s).session = true ∧ s.svp.halted = false ∧ lookup 0x0140 s = some (3, e)
      ∧ e.life = .opened ∧ e.recallSlot = none ∧ s.dir.deferred = [] ∧ 3 ∉ s.rct.startList ∧ 1 ≤ e.shareLimit
      ∧ (node 8 s).heldCount ≠ (node 8 s).quota
      ∧ { s with nq := List.replicate 15 (notice (.granted 1 1) 0 .ready) }.nq.length < 16 := by
  unfold arrivesFresh
  decide +kernel
/-- A recall of node 9's holding is the last but for its RELEASE, and slot 5 waits for a recall slot. -/
def handedOn : State :=
  let f : Entry := { entry 1 true [hold 6 .exclusive 9] [wait 7 .shared 95] with id := 0x0150 }
  let s := setSlot 5 (some f) (asking (underRecall (entry 1 true [hold 9 .exclusive 7] [wait 8 .shared 90])))
  { s with
    rct :=
      { slots := tset (Vector.replicate 8 (some (recallOf (wait 8 .shared 9) 3 .notified))) 0
          (some (recallOf (wait 8 .shared 90) 9 .notified))
        startOrder := [0], startList := [5] } }
theorem witness_ReleaseServesTheWaiter_recall :
    let e := underRecall (entry 1 true [hold 9 .exclusive 7] [wait 8 .shared 90])
    let r := recallOf (wait 8 .shared 90) 9 .notified
    let x : NoticeEntry := { notice := .toNode 9 0 (.askBack 0x0140 7), attempts := 0, state := .ready }
    let s := { withRecall 0 r (asking e) with nq := [x] }
    arrivesFresh (kindCode .release) (ask 9 (body140 7)) s ∧ readTokenArgs (body140 7) = some ⟨0x0140, 7⟩
      ∧ isActive (node 9 s).session = true ∧ s.svp.halted = false ∧ lookup 0x0140 s = some (3, e)
      ∧ e.life = .opened ∧ 3 ∉ s.rct.startList ∧ (node 8 s).heldCount ≠ (node 8 s).quota ∧ s.nq.length < 16
      ∧ e.recallSlot = some 0 ∧ recallAt 0 s = some r
      ∧ (∃ y ∈ r.targets, y.node = 9 ∧ y.status ≠ .gone) ∧ (∀ y ∈ r.targets, y.node = 9 ∨ y.status = .gone)
      ∧ noOneServed s ∧ (isRecallFor e.id x && isAddressedTo 9 x) = true ∧ isInFlight x = false := by
  unfold arrivesFresh noOneServed
  decide +kernel
theorem witness_ReleaseServesTheWaiter_handout :
    let e := underRecall (entry 1 true [hold 9 .exclusive 7] [wait 8 .shared 90])
    let f : Entry := { entry 1 true [hold 6 .exclusive 9] [wait 7 .shared 95] with id := 0x0150 }
    arrivesFresh (kindCode .release) (ask 9 (body140 7)) handedOn ∧ isActive (node 9 handedOn).session = true
      ∧ handedOn.svp.halted = false ∧ lookup 0x0140 handedOn = some (3, e) ∧ handedOn.dir.deferred = []
      ∧ 3 ∉ handedOn.rct.startList ∧ (node 8 handedOn).heldCount ≠ (node 8 handedOn).quota
      ∧ recallAt 0 handedOn = some (recallOf (wait 8 .shared 90) 9 .notified)
      ∧ handedOn.nq = [] ∧ (∀ m, m ≠ 0 → (recallAt m handedOn).isSome = true)
      ∧ handedOn.rct.startList.head? = some 5 ∧ slot 5 handedOn = some f ∧ f.life = .opened ∧ f.recallable = true
      ∧ f.recallSlot = none ∧ (f.holders.map (·.node)).Nodup
      ∧ ∃ y ∈ f.holders, Mode.shared = .exclusive ∨ y.mode = .exclusive := by
  unfold arrivesFresh
  decide +kernel
theorem witness_Downgrades :
    let e := entry 2 true [hold 9 .shared 8] []
    let f := entry 2 true [hold 9 .exclusive 8] []
    (arrivesFresh (kindCode .downgrade) (ask 9 (body140 8)) (asking e) ∧ readTokenArgs (body140 8) = some ⟨0x0140, 8⟩
        ∧ isActive (node 9 (asking e)).session = true ∧ (asking e).svp.halted = false
        ∧ lookup 0x0140 (asking e) = some (3, e) ∧ holdingOf 9 e = some (hold 9 .shared 8))
      ∧ (arrivesFresh (kindCode .downgrade) (ask 9 (body140 8)) (asking f) ∧ lookup 0x0140 (asking f) = some (3, f)
        ∧ f.recallSlot = none ∧ 3 ∉ (asking f).dir.deferred ∧ 3 ∉ (asking f).rct.startList)
      ∧ (arrivesFresh (kindCode .downgrade) (ask 9 (body140 7)) (asking f)
        ∧ ∀ h ∈ f.holders, h.node = 9 → h.token ≠ 7#24)
      ∧ lookup 0x0140 (hearing (joined 9 900 calm)) = none := by
  unfold arrivesFresh
  decide +kernel
theorem witness_CheckQueryRenew :
    let e := entry 2 true [hold 9 .shared 8] []
    arrivesFresh (kindCode .check) (ask 0 (0x01 :: 0x40 :: 0x0A :: tokenBytes 8)) (asking e)
      ∧ readCheck (0x01 :: 0x40 :: 0x0A :: tokenBytes 8) = some ⟨0x0140, 9, 8⟩
      ∧ lookup 0x0140 (asking e) = some (3, e) ∧ hold 9 .shared 8 ∈ e.holders
      ∧ (∀ x ∈ e.holders, x.node = 9 → x = hold 9 .shared 8)
      ∧ (∀ h ∈ e.holders, h.node = 8 → h.token ≠ 8#24) ∧ lookup 0x0141 (asking e) = none
      ∧ arrivesFresh (kindCode .query) (ask 0 [0x01, 0x40]) (asking e) ∧ readIdOnly [0x01, 0x40] = some 0x0140
      ∧ arrivesFresh (kindCode .renew) (ask 9 []) (asking e) ∧ (node 9 (asking e)).session ≠ .absent
      ∧ arrivesFresh (kindCode .renew) (ask 0 []) (asking e) := by
  unfold arrivesFresh
  decide +kernel
theorem witness_CancelRemovesTheWait :
    let e := entry 1 true [hold 3 .exclusive 7] ([wait 8 .shared 90] ++ wait 9 .shared 90 :: [])
    let f := entry 1 false [hold 3 .exclusive 7] [wait 9 .shared 90]
    let g := entry 1 false [hold 3 .exclusive 7] []
    (arrivesFresh (kindCode .cancel) (ask 9 [0x01, 0x40]) (asking e) ∧ readIdOnly [0x01, 0x40] = some 0x0140
        ∧ isActive (node 9 (asking e)).session = true ∧ lookup 0x0140 (asking e) = some (3, e)
        ∧ ∀ x ∈ [wait 8 .shared 90], x.node ≠ 9)
      ∧ (arrivesFresh (kindCode .cancel) (ask 9 [0x01, 0x40]) (asking f) ∧ lookup 0x0140 (asking f) = some (3, f)
        ∧ f.recallSlot = none ∧ 3 ∉ (asking f).dir.deferred ∧ 3 ∉ (asking f).rct.startList)
      ∧ (arrivesFresh (kindCode .cancel) (ask 9 [0x01, 0x40]) (asking g) ∧ lookup 0x0140 (asking g) = some (3, g)
        ∧ waitOf 9 g = none)
      ∧ lookup 0x0140 (hearing (joined 9 900 calm)) = none := by
  unfold arrivesFresh
  decide +kernel

theorem witness_CancelAbandonsTheRecall :
    let w := wait 9 .shared 90
    let r := recallOf w 3 .notified
    let e := underRecall (entry 1 true [{ hold 3 .exclusive 7 with recallTarget := true }] [w])
    let x : NoticeEntry := { notice := .toNode 3 0 (.askBack 0x0140 7), attempts := 0, state := .ready }
    let s := { withRecall 0 r (asking e) with nq := [x] }
    let f := underRecall (entry 1 true [{ hold 3 .exclusive 7 with recallTarget := true }] [w, wait 8 .exclusive 95])
    let u := withRecall 0 r (asking f)
    (arrivesFresh (kindCode .cancel) (ask 9 [0x01, 0x40]) s ∧ isActive (node 9 s).session = true
        ∧ lookup 0x0140 s = some (3, e) ∧ e.recallSlot = some 0 ∧ recallAt 0 s = some r ∧ noOneServed s
        ∧ isRecallFor e.id x = true ∧ isInFlight x = false)
      ∧ (arrivesFresh (kindCode .cancel) (ask 9 [0x01, 0x40]) u ∧ isActive (node 9 u).session = true
        ∧ lookup 0x0140 u = some (3, f) ∧ f.recallSlot = some 0 ∧ recallAt 0 u = some r ∧ u.svp.halted = false
        ∧ u.dir.deferred = [] ∧ u.rct.startList = [] ∧ u.nq = [] ∧ (∀ j < (0 : RecallId), (recallAt j u).isSome = true)
        ∧ f.life = .opened ∧ f.recallable = true ∧ (f.holders.map (·.node)).Nodup ∧ f.holders ≠ []) := by
  unfold arrivesFresh noOneServed
  decide +kernel

theorem witness_FramesNotTakenMoveTheLineOnly :
    let f : DroppedFrame := { prio := 0, kind := 1, src := 1, version := 2, seq := 0, body := List.replicate 7 0 }
    (1500 ≤ 1500 ∧ 1500 ≤ 3000 ∧ calm.lif.lineState = .idle) ∧ (1#5 ≠ 0#5 ∧ (hearing calm).lif.lineState = .receiving)
      ∧ (f.body.length ≤ 7 ∧ f.version ≠ 1#2 ∧ frameArrives (droppedBits f) (hearing calm) = true)
      ∧ (onLine .replying calm).lif.lineState = .replying ∧ (onLine .ignoring calm).lif.lineState = .ignoring
      ∧ ((onLine .trailing calm).lif.lineState = .trailing ∧ ∀ e ∈ calm.nq, isInFlight e = false)
      ∧ (125 ≤ 125 ∧ 125 < 1500) ∧ (3000 < 3001 ∧ 7999 < 8000) ∧ (1250 < 1251 ∧ 1251 < 8000)
      ∧ (874 < 875 ∧ 1500 < 1501 ∧ 2999 < 3000) ∧ parseFrame [] = .receiveError
      ∧ frameArrives [] (hearing calm) = true := by decide +kernel

/-- A notice to node 5 that has just been queued, and one in flight. -/
def readyNotice : NoticeEntry := notice (.revoked 0x0140 7) 0 .ready

/-- The same, in flight. -/
def flyingNotice (attempts : Nat) (discard : Bool) : NoticeEntry := notice (.revoked 0x0140 7) attempts (.inFlight discard)

/-- The line in a state with that notice's frame, behind one entry in BACKOFF. -/
def flying (l : LineState) (attempts : Nat) (discard : Bool) : State :=
  { sending l (flyingNotice attempts discard) calm with
    nq := [notice (.revoked 0x0141 8) 1 (.backoff 3)] ++ flyingNotice attempts discard :: [] }

/-- An ANNOUNCE in flight. -/
def flyingAnnounce (discard : Bool) : NoticeEntry := { notice := .announce 0, attempts := 0, state := .inFlight discard }

theorem quiet_of_calm {s : State} (h1 : s.dir = calm.dir) (h2 : s.rct = calm.rct) : noOneServed s := by
  refine ⟨by rw [h1]; rfl, by rw [h2]; rfl, ?_⟩
  unfold firstPending
  rw [h2]
  rfl
theorem witness_NoticeFramesAreSentOrLoseArbitration :
    let b := notice (.revoked 0x0141 8) 1 (.backoff 3)
    let s : State := { calm with nq := [b] ++ readyNotice :: [] }
    let u := flying .sending 2 false
    let v := sending .sending (flyingAnnounce false) calm
    (s.lif.lineState = .idle ∧ (∀ x ∈ s.nq, isInFlight x = false) ∧ (∀ x ∈ [b], x.state ≠ .ready)
        ∧ readyNotice.state = .ready)
      ∧ (u.lif.lineState = .sending ∧ (∀ x ∈ [b], isInFlight x = false) ∧ u.nq = [b] ++ flyingNotice 2 false :: []
        ∧ (bytesBits u.lif.txBytes)[(1 : Fin 11).val]? = some true)
      ∧ (v.lif.lineState = .sending ∧ v.nq = [] ++ flyingAnnounce false :: []) := by decide +kernel
theorem witness_FailedAttemptsAreCounted :
    let u := flying .sending 1 false
    let v := flying .awaitAck 2 false
    let check := v.lif.txBytes.getLastD 0
    (1 + 1 < 3 ∧ ¬ 2 + 1 < 3)
      ∧ (u.lif.lineState = .sending ∧ (bytesBits u.lif.txBytes)[0]? = some false
        ∧ (bytesBits u.lif.txBytes)[11]?.isSome = true)
      ∧ (v.lif.lineState = .awaitAck ∧ v.lif.txBytes.getLast? = some check
        ∧ (false :: List.replicate 11 true).length ≠ 16 ∧ 0b0100#4 ≠ 0b0101#4
        ∧ crc8 [check, 0x50] + 1 ≠ crc8 [check, 0x50] ∧ 1#3 ≠ 0#3) := by decide +kernel
/-- Sixteen bits under a good check with another marker. -/
theorem witness_another_marker (frameCheck : Byte) :
    ∃ first rest, first :: rest = bytesBits [0b0100#4 ++ 0#4, crc8 [frameCheck, 0b0100#4 ++ 0#4]] := ⟨_, _, rfl⟩
theorem witness_noOneServed : noOneServed (flying .awaitAck 2 false) ∧ noOneServed (flying .awaitAck 2 true)
    ∧ noOneServed (sending .trailing (flyingAnnounce true) calm) :=
  ⟨quiet_of_calm rfl rfl, quiet_of_calm rfl rfl, quiet_of_calm rfl rfl⟩
theorem witness_AcknowledgedNoticesAreDelivered :
    let s := awaiting 0 false
    let e := entry 1 true ([] ++ hold 4 .exclusive 7 :: []) []
    s.nq = [] ++ notice (.granted 0x0140 7) 0 (.inFlight false) :: [] ∧ s.lif.lineState = .awaitAck
      ∧ s.lif.txBytes.getLast? = some itsCheck ∧ lookup 0x0140 s = some (3, e) ∧ e.life = .opened
      ∧ e.recallSlot = none ∧ lookup 0x0140 (flying .awaitAck 0 false) = none
      ∧ (sending .trailing (flyingAnnounce false) calm).lif.lineState = .trailing := by decide +kernel
/-- A recall whose target, node 6, is PENDING while the notice to node 5 awaits its acknowledgement. -/
def pendingTarget : State :=
  withRecall 0 (recallOf (wait 8 .shared 90) 5 .pending)
    { flying .awaitAck 0 false with dir := (put (underRecall (entry 1 true [hold 5 .exclusive 7] [])) calm).dir }
theorem witness_AcknowledgedNotices_pending :
    let q := recallOf (wait 8 .shared 90) 5 .pending
    let x : Target := { node := 5, token := 7, status := .pending }
    pendingTarget.nq = [notice (.revoked 0x0141 8) 1 (.backoff 3)] ++ flyingNotice 0 false :: []
      ∧ pendingTarget.lif.lineState = .awaitAck
      ∧ pendingTarget.lif.txBytes.getLast? = some (pendingTarget.lif.txBytes.getLastD 0)
      ∧ pendingTarget.dir.deferred = [] ∧ pendingTarget.nq.length ≤ 16
      ∧ pendingTarget.rct.startOrder = [] ++ 0 :: [] ∧ recallAt 0 pendingTarget = some q ∧ q.targets = [] ++ x :: []
      ∧ slotId q.slot pendingTarget = some 0x0140 := by decide +kernel
theorem witness_AcknowledgedNotices_quiet : noOneServed (awaiting 0 false) := by
  unfold noOneServed
  decide +kernel
theorem witness_DiscardedEntriesLeaveNoTrace :
    let s := flying .sending 2 true
    let u := flying .awaitAck 2 true
    s.lif.lineState = .sending ∧ s.nq = [notice (.revoked 0x0141 8) 1 (.backoff 3)] ++ flyingNotice 2 true :: []
      ∧ (bytesBits s.lif.txBytes)[(1 : Fin 11).val]? = some true ∧ u.lif.lineState = .awaitAck
      ∧ u.lif.txBytes.getLast? = some (u.lif.txBytes.getLastD 0) ∧ (bytesBits s.lif.txBytes)[0]? = some false
      ∧ crc8 [u.lif.txBytes.getLastD 0, 0x50] + 1 ≠ crc8 [u.lif.txBytes.getLastD 0, 0x50]
      ∧ (sending .trailing (flyingAnnounce true) calm).nq = [] ++ flyingAnnounce true :: [] := by decide +kernel
theorem witness_DiscardedEntries_expiries : ∀ x, expiryReached x (flying .sending 2 true) = false :=
  no_expiry (by decide +kernel) (by decide +kernel) (by decide +kernel) (by decide +kernel)
theorem witness_LineHoldAndReleaseKeepTheRest :
    (∀ e ∈ shared.nq, isInFlight e = false) ∧ (onLine .held calm).lif.lineState = .held
      ∧ (flying .sending 2 false).nq = [notice (.revoked 0x0141 8) 1 (.backoff 3)] ++ flyingNotice 2 false :: [] := by
  decide +kernel
theorem witness_LineHold_expiries : ∀ x, expiryReached x (flying .sending 2 false) = false :=
  no_expiry (by decide +kernel) (by decide +kernel) (by decide +kernel) (by decide +kernel)

theorem witness_running (code a0 a1 a2 a3 : Word) (s : State) :
    running code a0 a1 a2 a3 (commanded code a0 a1 a2 a3 s) := ⟨rfl, rfl, rfl⟩
theorem commanded_expiry (x : Expiry) (code a0 a1 a2 a3 : Word) (s : State) :
    expiryReached x (commanded code a0 a1 a2 a3 s) = expiryReached x s := by cases x <;> rfl
/-- Every slot of the directory IN_USE. -/
def fullDirectory : State := { calm with dir := { calm.dir with slots := Vector.replicate 256 (some (entry 1 true [] [])) } }

theorem witness_ProvisionOpensTheLowestSlot :
    (0x0001#16 ≠ 0x0000#16 ∧ 0xFFFE#16 ≠ 0xFFFF#16 ∧ 1 ≤ (1#16).toNat ∧ (8#16).toNat ≤ 8) ∧ ¬ (9#16).toNat ≤ 8
      ∧ lookup 0x0140 shared ≠ none ∧ lookup 0x0001 shared = none
      ∧ (lookup 0x0001 fullDirectory = none ∧ ∀ i, slot i fullDirectory ≠ none)
      ∧ (slot 0 shared = none ∧ ∀ j < (0 : SlotId), slot j shared ≠ none) := by decide +kernel
theorem witness_SetNodeWritesTheParameters :
    ((30#16).toNat = nodeNumber 29 ∧ 1 ≤ (1#16).toNat ∧ (255#16).toNat ≤ 255 ∧ (32#16).toNat ≤ 32)
      ∧ ¬ (33#16).toNat ≤ 32 ∧ (node 29 shared).session = .absent
      ∧ (node 3 shared).session ≠ .absent := by decide +kernel
theorem witness_SetTimingWritesBothParameters :
    (1 ≤ (1#16).toNat ∧ (255#16).toNat ≤ 255) ∧ ¬ 1 ≤ (0#16).toNat ∧ ¬ (256#16).toNat ≤ 255
      ∧ (flyingNotice 1 false).attempts + 1 < 3 := by decide +kernel
theorem witness_RetireAndWithdraw :
    let e := { entry 1 true [hold 3 .shared 7] [] with life := .retiring }
    let f := entry 1 true [hold 3 .shared 7] []
    (0x0140#16 ≠ 0x0000#16 ∧ 0x0140#16 ≠ 0xFFFF#16 ∧ lookup 0x0140 calm = none)
      ∧ (lookup 0x0140 (put e calm) = some (3, e) ∧ e.life = .retiring)
      ∧ (lookup 0x0140 (put f calm) = some (3, f) ∧ f.recallSlot = none ∧ 3 ∉ (put f calm).dir.deferred
        ∧ 3 ∉ (put f calm).rct.startList ∧ f.holders ≠ [])
      ∧ holds 3 3 (put f calm) = true ∧ holds 4 3 (put f calm) = false ∧ waits 4 3 (put f calm) = false := by
  decide +kernel
theorem witness_WithdrawRevokesTheHoldings : membersDistinct (commanded 0x0003 0x0140 0 0 0 shared) :=
  fun i e h => shared_members i e h
theorem witness_ReadsReportTheState :
    lookup 0x0140 shared
        = some (3, entry 2 false ([] ++ hold 3 .shared 812 :: [hold 8 .shared 815])
            ([wait 11 .exclusive 900] ++ wait 4 .shared 900 :: [])) ∧ 2 < (3#16).toNat
      ∧ (1#16).toNat = ([] : List Holding).length + 1 ∧ (2#16).toNat = [wait 11 .exclusive 900].length + 1
      ∧ (30#16).toNat = nodeNumber 29 ∧ 30 < (31#16).toNat ∧ (0#16).toNat = 0 := by decide +kernel
theorem witness_ReadsReportTheState_registers :
    (3#4).toNat = 3 + (0 : Fin 4).val ∧ (13#4).toNat = 7 + (6 : Fin 7).val ∧ 17 < (List.replicate 18 true).length
      ∧ (wait 8 .shared 0).deadline = calm.dlu.holdClock := by decide +kernel
theorem witness_ClearClaimsKeepsProvisioning :
    (∃ i e, slot i (put { entry 1 true [hold 3 .shared 7] [] with life := .retiring } calm) = some e
        ∧ e.life = .retiring)
      ∧ ∀ i e, slot i shared = some e → e.life = .opened :=
  ⟨⟨3, { entry 1 true [hold 3 .shared 7] [] with life := .retiring }, by decide +kernel, rfl⟩,
    one_entry shared_entry shared_only rfl⟩
theorem witness_HaltAndResume :
    (halted calm).svp.halted = true ∧ calm.svp.halted = false ∧ calm.dir.deferred = [] ∧ calm.rct.startList = []
      ∧ ∀ i e, slot i (put (entry 1 true [hold 3 .shared 7] []) calm) = some e → e.queue = [] :=
  ⟨rfl, rfl, rfl, rfl,
    one_entry (by decide +kernel : _ = some (entry 1 true [hold 3 .shared 7] [])) (by decide +kernel) rfl⟩
theorem witness_halt_expiries : ∀ x, expiryReached x (commanded 0x000D 0 0 0 0 shared) = false :=
  fun x => (commanded_expiry x _ _ _ _ _ shared).trans (shared_calm x)
theorem witness_CommandWritesAndUnknownCommands :
    (commanded 14 0 0 0 0 calm).svp.cmdState = .running ∧ calm.svp.cmdState ≠ .running ∧ 1 ≤ (1#16).toNat
      ∧ (14#16).toNat ≤ 14 ∧ 14 < (15#16).toNat ∧ (0#16).toNat = 0 := by decide +kernel
theorem witness_RegisterWritesReachTheirRegister :
    ((3#4).toNat = 3 + (0 : Fin 4).val ∧ (6#4).toNat = 3 + (3 : Fin 4).val) ∧ (1#4).toNat < 2
      ∧ (7 ≤ (7#4).toNat ∧ (13#4).toNat ≤ 13) ∧ 23 < 24 ∧ (false || false || true) = true := by decide +kernel
theorem witness_SettingsAndNodeRecords :
    (∃ t, exec .timebaseStep calm = .next t) ∧ (∃ t, exec (.claim (ask 3 (claimBody .shared))) (hearing calm) = .next t)
      ∧ (ask 3 (claimBody .shared)).src ≠ 4
      ∧ ∃ k, Instr.claim (ask 3 (claimBody .shared)) = requestCommand k (ask 3 (claimBody .shared)) :=
  ⟨⟨_, rfl⟩, ⟨_, rfl⟩, by decide +kernel, ⟨.claim, rfl⟩⟩

end Sys2Proof.Tests
end

section
/-!
SUPPORT. What a fresh request comes to: the decision of its kind, and then the reply stored, the lease renewed and the
reply sent, as `answered` writes them out (R114, R120, R121).
-/

namespace Sys2Proof.Machine

theorem beginReply_eq_replyingWith (kind : BitVec 4) (r : Request) (reply : Reply) (u : State) :
    beginReply kind r reply u = replyingWith kind r reply u := rfl

theorem renewedSession_of_active (clock : Millis) {rec : NodeRecord} (active : isActive rec.session = true) :
    renewedSession clock rec = .active (clock + leaseTermMs rec) := by
  cases h : rec.session with
  | active => simp only [renewedSession, h, leaseTermMs]
  | absent | lapsed => simp [h, isActive] at active

theorem renewedSession_of_not_active (clock : Millis) {rec : NodeRecord} (inactive : ¬ isActive rec.session = true) :
    renewedSession clock rec = rec.session := by
  cases h : rec.session with
  | active => simp [h, isActive] at inactive
  | absent | lapsed => simp only [renewedSession, h]

theorem modNode_congr {n : NodeId} {f g : NodeRecord → NodeRecord} {s : State} (h : f (node n s) = g (node n s)) :
    modNode n f s = modNode n g s :=
  congrArg (fun rec => { s with nodes := tset s.nodes n rec }) h

theorem modNode_eq_self {n : NodeId} {f : NodeRecord → NodeRecord} {s : State} (h : f (node n s) = node n s) :
    modNode n f s = s :=
  (modNode_congr (g := id) h).trans (by simp only [modNode, id, tset_tget])

theorem modNode_modNode (n : NodeId) (f g : NodeRecord → NodeRecord) (s : State) :
    modNode n g (modNode n f s) = modNode n (g ∘ f) s := by
  simp only [modNode, tget_tset_same, tset_tset, Function.comp_apply]

/-- R86 in one equation: an ACTIVE session is renewed, any other is left as it is. -/
theorem renewLease_eq (n : NodeId) (s : State) :
    renewLease n s = modNode n (fun rec => { rec with session := renewedSession s.dlu.leaseClock rec }) s := by
  unfold renewLease
  split
  case isTrue active =>
    exact modNode_congr (by simp only [renewedSession_of_active _ active])
  case isFalse inactive =>
    exact (modNode_eq_self (by simp only [renewedSession_of_not_active _ inactive])).symm

/-- Storing the reply, renewing the lease and sending the reply (R114, R120, R121) are the state written out. -/
theorem answered_eq (kind : BitVec 4) (r : Request) (reply : Reply) (wasActive : Bool) (u : State) :
    beginReply kind r reply (renewAfter wasActive r.src (recordReply kind r reply u))
      = answered kind r reply wasActive u := by
  cases wasActive
  case false => rfl
  case true =>
    have renewed : renewAfter true r.src (recordReply kind r reply u)
        = renewLease r.src (recordReply kind r reply u) := rfl
    rw [renewed, renewLease_eq, recordReply, modNode_modNode, beginReply_eq_replyingWith]
    rfl

/-- A request that is no repeat is decided by its kind and answered (R111, R113). -/
theorem onRequest_fresh {kind : BitVec 4} {r : Request} {decide : State → State × Reply} {s u : State}
    {reply : Reply} (fresh : arrivesFresh kind r s) (decided : decide s = (u, reply)) :
    onRequest kind r decide s = .next (answered kind r reply (isActive (node r.src s).session) u) := by
  obtain ⟨wellFormed, arrives, notRepeat⟩ := fresh
  simp only [onRequest, wellFormed, arrives, takeRequest, notRepeat, decided, answered_eq, if_true]

theorem decideRequest_of_gate_none {α : Type} {k : RequestKind} {n : NodeId} {args : Option α} {a : α}
    {owner : α → State → State × Reply} {s : State} (read : args = some a) (passes : gate k n s = none) :
    decideRequest k n args owner s = owner a s := by
  simp only [decideRequest, read, passes]

end Sys2Proof.Machine
end

section
/-!
PROOF. QUERY: no gate stops it, and its reply is INFO or NO_RESOURCE (R12).
-/

namespace Sys2Proof.Machine

theorem exec_query (r : Request) (s : State) :
    exec (.query r) s
      = onRequest (kindCode .query) r (decideRequest .query r.src (readIdOnly r.body) decideQuery) s := rfl

theorem gate_query (n : NodeId) (s : State) : gate .query n s = none := rfl

theorem decideQuery_of_lookup_none {id : ResourceId} {s : State} (absent : lookup id s = none) :
    decideQuery id s = (s, .noResource) := by
  simp only [decideQuery, absent]

theorem decideQuery_of_lookup_some {id : ResourceId} {s : State} {i : SlotId} {e : Entry}
    (found : lookup id s = some (i, e)) : decideQuery id s = (s, .info (infoOf e)) := by
  simp only [decideQuery, found]

/-- The claim state (R8), with FREE told by equality. -/
theorem claimState_eq (e : Entry) :
    claimState e
      = if e.holders = [] then .free
        else if e.holders.all (fun h => h.mode = .shared) then .shared else .exclusive := by
  simp only [claimState, List.isEmpty_iff]

/-- A fresh QUERY is answered with what `decideQuery` reads, from any session and halted or not (R117, R118). -/
theorem exec_query_fresh {r : Request} {id : ResourceId} {s : State} {reply : Reply}
    (fresh : arrivesFresh (kindCode .query) r s) (read : readIdOnly r.body = some id)
    (decided : decideQuery id s = (s, reply)) :
    exec (.query r) s
      = .next (answered (kindCode .query) r reply (isActive (node r.src s).session) s) := by
  rw [exec_query]
  exact onRequest_fresh fresh ((decideRequest_of_gate_none read (gate_query r.src s)).trans decided)

/-- Settles O39: QUERY passes both gates, and its decision keeps the state and reads INFO or NO_RESOURCE. -/
theorem queryReportsTheEntry : Obligations.QueryReportsTheEntry := by
  intro r id s fresh read
  refine ⟨fun absent => ?noResource, fun i e found => ?info⟩
  case noResource =>
    exact exec_query_fresh fresh read (decideQuery_of_lookup_none absent)
  case info =>
    rw [← claimState_eq]
    exact exec_query_fresh fresh read (decideQuery_of_lookup_some found)

end Sys2Proof.Machine
end

section
/-!
PROOF. DOWNGRADE of a holding that is already SHARED (R34) and CHECK (R35): both are decided from the entry that the
lookup finds, and the decision leaves the state as it is.
-/

namespace Sys2Proof.Machine

/-! ### From the gates to the owner's decision -/

/-- No kind is refused for the session of an ACTIVE sender (R117). -/
theorem gateSession_of_active (k : RequestKind) {rec : NodeRecord} (active : isActive rec.session = true) :
    gateSession k rec = none := by
  cases session : rec.session with
  | active => cases k <;> simp only [gateSession, session]
  | absent | lapsed => simp [session, isActive] at active

/-- No kind is refused while the part is not halted (R118). -/
theorem gateHalted_of_running (k : RequestKind) : gateHalted k false = none := by
  cases k <;> rfl

theorem gate_of_active_running (k : RequestKind) {n : NodeId} {s : State}
    (active : isActive (node n s).session = true) (running : s.svp.halted = false) : gate k n s = none := by
  simp only [gate, gateSession_of_active k active, running, gateHalted_of_running, Option.or_none]

theorem gate_check (n : NodeId) (s : State) : gate .check n s = none := rfl

/-- A fresh request whose body reads and that both gates pass is answered with its owner's decision (R111, R119). -/
theorem onRequest_served {α : Type} {k : RequestKind} {r : Request} {args : Option α} {a : α}
    {owner : α → State → State × Reply} {s u : State} {reply : Reply} (fresh : arrivesFresh (kindCode k) r s)
    (read : args = some a) (passes : gate k r.src s = none) (decided : owner a s = (u, reply)) :
    onRequest (kindCode k) r (decideRequest k r.src args owner) s
      = .next (answered (kindCode k) r reply (isActive (node r.src s).session) u) :=
  onRequest_fresh fresh ((decideRequest_of_gate_none read passes).trans decided)

/-! ### DOWNGRADE -/

theorem exec_downgrade (r : Request) (s : State) :
    exec (.downgrade r) s
      = onRequest (kindCode .downgrade) r
          (decideRequest .downgrade r.src (readTokenArgs r.body) (decideDowngrade r.src)) s := rfl

theorem decideDowngrade_of_shared {n : NodeId} {a : TokenArgs} {s : State} {i : SlotId} {e : Entry} {h : Holding}
    (found : lookup a.id s = some (i, e)) (held : holdingOf n e = some h) (current : h.token = a.token)
    (shared : h.mode = .shared) : decideDowngrade n a s = (s, .downgraded h.token) := by
  simp only [decideDowngrade, found, held, current, shared, ne_eq, not_true_eq_false, if_false]

/-- Settles O36: the holding is SHARED under the token given, so the decision draws no token and keeps the state. -/
theorem downgradeOfASharedHoldingChangesNothing : Obligations.DowngradeOfASharedHoldingChangesNothing := by
  intro r a i e h s fresh read active running found held current shared
  have served := onRequest_served fresh read (gate_of_active_running .downgrade active running)
    (decideDowngrade_of_shared found held current shared)
  rwa [active, ← exec_downgrade] at served

/-! ### CHECK -/

theorem exec_check (r : Request) (s : State) :
    exec (.check r) s
      = onRequest (kindCode .check) r (decideRequest .check r.src (readCheck r.body) decideCheck) s := rfl

theorem decideCheck_of_lookup_none {a : CheckArgs} {s : State} (absent : lookup a.id s = none) :
    decideCheck a s = (s, .noResource) := by
  simp only [decideCheck, absent]

/-- The holding that CHECK finds is the node's only one (R7), so the reply carries its mode. -/
theorem decideCheck_of_held {a : CheckArgs} {s : State} {i : SlotId} {e : Entry} {h : Holding}
    (found : lookup a.id s = some (i, e)) (held : h ∈ e.holders) (holder : h.node = a.holder)
    (current : h.token = a.token) (unique : ∀ x ∈ e.holders, x.node = a.holder → x = h) :
    decideCheck a s = (s, .valid h.mode) := by
  cases search : e.holders.find? fun x => x.node = a.holder && x.token = a.token with
  | none => simpa [holder, current] using List.find?_eq_none.mp search h held
  | some x =>
    obtain ⟨itsNode, -⟩ : x.node = a.holder ∧ x.token = a.token := by simpa using List.find?_some search
    have same : x = h := unique x (List.mem_of_find?_eq_some search) itsNode
    simp only [decideCheck, found, search, same]

theorem decideCheck_of_not_held {a : CheckArgs} {s : State} {i : SlotId} {e : Entry}
    (found : lookup a.id s = some (i, e)) (other : ∀ h ∈ e.holders, h.node = a.holder → h.token ≠ a.token) :
    decideCheck a s = (s, .stale) := by
  have search : (e.holders.find? fun x => x.node = a.holder && x.token = a.token) = none := by
    simpa using other
  simp only [decideCheck, found, search]

/-- A fresh CHECK is answered with what `decideCheck` reads, from any session and halted or not (R117, R118). -/
theorem exec_check_fresh {r : Request} {a : CheckArgs} {s : State} {reply : Reply}
    (fresh : arrivesFresh (kindCode .check) r s) (read : readCheck r.body = some a)
    (decided : decideCheck a s = (s, reply)) :
    exec (.check r) s
      = .next (answered (kindCode .check) r reply (isActive (node r.src s).session) s) :=
  (exec_check r s).trans (onRequest_served fresh read (gate_check r.src s) decided)

/-- Settles O38: CHECK passes both gates, and its decision keeps the state and reads NO_RESOURCE, VALID or STALE. -/
theorem checkTellsValidFromStale : Obligations.CheckTellsValidFromStale := by
  intro r a s fresh read
  refine ⟨fun absent => ?noResource, fun i e h found held holder current unique => ?valid,
    fun i e found other => ?stale⟩
  case noResource => exact exec_check_fresh fresh read (decideCheck_of_lookup_none absent)
  case valid => exact exec_check_fresh fresh read (decideCheck_of_held found held holder current unique)
  case stale => exact exec_check_fresh fresh read (decideCheck_of_not_held found other)

end Sys2Proof.Machine
end

section
/-!
PROOF. RENEW (R87): only the gate of the sender's session stops it, and its decision reads the lease term.
-/

namespace Sys2Proof.Machine

theorem exec_renew (r : Request) (s : State) :
    exec (.renew r) s
      = onRequest (kindCode .renew) r
          (decideRequest .renew r.src (readNothing r.body) fun _ => decideRenew r.src) s := rfl

theorem decideRequest_of_gate_some {α : Type} {k : RequestKind} {n : NodeId} {args : Option α} {a : α}
    {owner : α → State → State × Reply} {s : State} {refusal : Reply} (read : args = some a)
    (stops : gate k n s = some refusal) : decideRequest k n args owner s = (s, refusal) := by
  simp only [decideRequest, read, stops]

/-- A fresh request whose body reads and that a gate stops is answered with the refusal, and its owner is not asked
(R117, R118). -/
theorem onRequest_refused {α : Type} {k : RequestKind} {r : Request} {args : Option α} {a : α}
    {owner : α → State → State × Reply} {s : State} {refusal : Reply} (fresh : arrivesFresh (kindCode k) r s)
    (read : args = some a) (stops : gate k r.src s = some refusal) :
    onRequest (kindCode k) r (decideRequest k r.src args owner) s
      = .next (answered (kindCode k) r refusal (isActive (node r.src s).session) s) :=
  onRequest_fresh fresh (decideRequest_of_gate_some read stops)

/-- RENEW is served halted or not: the gate of the session is its only one (R118). -/
theorem gate_renew (n : NodeId) (s : State) : gate .renew n s = gateSession .renew (node n s) := by
  simp only [gate, gateHalted, Option.or_none]

theorem gateSession_renew_of_lapsed {rec : NodeRecord} (lapsed : rec.session = .lapsed) :
    gateSession .renew rec = some .lapsed := by
  simp only [gateSession, lapsed]

theorem gateSession_renew_of_absent {rec : NodeRecord} (absent : rec.session = .absent) :
    gateSession .renew rec = some .notJoined := by
  simp only [gateSession, absent]

/-- A fresh RENEW from an ACTIVE node is answered with the lease term that `decideRenew` reads. -/
theorem exec_renew_of_active {r : Request} {s : State} (fresh : arrivesFresh (kindCode .renew) r s)
    (empty : r.body = []) (active : isActive (node r.src s).session = true) :
    exec (.renew r) s = .next (answered (kindCode .renew) r (.renewed (node r.src s).leaseTerm) true s) := by
  have passes := (gate_renew r.src s).trans (gateSession_of_active .renew active)
  rw [exec_renew, onRequest_served fresh (congrArg readNothing empty) passes rfl, active]

/-- A fresh RENEW that its sender's session stops is answered with the refusal, and no lease is renewed. -/
theorem exec_renew_of_refused {r : Request} {s : State} {refusal : Reply}
    (fresh : arrivesFresh (kindCode .renew) r s) (empty : r.body = [])
    (inactive : isActive (node r.src s).session = false)
    (stops : gateSession .renew (node r.src s) = some refusal) :
    exec (.renew r) s = .next (answered (kindCode .renew) r refusal false s) := by
  rw [exec_renew, onRequest_refused fresh (congrArg readNothing empty) ((gate_renew r.src s).trans stops), inactive]

/-- Settles O40: an ACTIVE sender's RENEW is served with the state as it is, any other is refused by the session's
gate. -/
theorem renewRenewsTheLease : Obligations.RenewRenewsTheLease := by
  intro r s fresh empty
  cases session : (node r.src s).session with
  | active =>
    exact exec_renew_of_active fresh empty (congrArg isActive session)
  | lapsed =>
    exact exec_renew_of_refused fresh empty (congrArg isActive session) (gateSession_renew_of_lapsed session)
  | absent =>
    exact exec_renew_of_refused fresh empty (congrArg isActive session) (gateSession_renew_of_absent session)

end Sys2Proof.Machine
end

section
/-!
PROOF. SET_TIMING (R148): its owner writes both parameters or neither, and the recall timeout and the notice backoff that
it writes are the ones that a recall's deadline and a counted failure read (R66, R103).
-/

namespace Sys2Proof.Machine

/-! ### A running command and its completion -/

theorem complete_eq_completedWith (c : Completion) (s : State) :
    complete c s = completedWith (completedState c) (resultRegisters c) s := rfl

/-- A RUNNING command ends with what its owner makes of the captured arguments (R154). -/
theorem runCommand_of_running {code a0 a1 a2 a3 : Word} {owner : Owner} {s u : State} {c : Completion}
    (run : running code a0 a1 a2 a3 s) (owned : owner #v[a0, a1, a2, a3] s = (u, c)) :
    runCommand code owner s = completedWith (completedState c) (resultRegisters c) u := by
  obtain ⟨state, command, captured⟩ := run
  rw [runCommand, if_pos ⟨state, command⟩, captured, owned, complete_eq_completedWith]

theorem argIn_of_mem {lo hi : Nat} {w : Word} (within : lo ≤ w.toNat ∧ w.toNat ≤ hi) : argIn lo hi w = some w.toNat :=
  if_pos within

theorem argIn_of_not_mem {lo hi : Nat} {w : Word} (outside : ¬ (lo ≤ w.toNat ∧ w.toNat ≤ hi)) :
    argIn lo hi w = none :=
  if_neg outside

/-! ### The owner's decision -/

theorem exec_setTiming (s : State) : exec .setTiming s = .next (runCommand 0x000B ownSetTiming s) := rfl

theorem ownSetTiming_of_valid {a0 a1 : Word} (a2 a3 : Word) (s : State) (timeout : 1 ≤ a0.toNat ∧ a0.toNat ≤ 255)
    (backoff : 1 ≤ a1.toNat ∧ a1.toNat ≤ 255) :
    ownSetTiming #v[a0, a1, a2, a3] s
      = ({ s with dlu := { s.dlu with recallTimeout := a0.toNat, noticeBackoff := a1.toNat } }, .done []) := by
  have first : argIn 1 255 (tget #v[a0, a1, a2, a3] 0) = some a0.toNat := argIn_of_mem timeout
  have second : argIn 1 255 (tget #v[a0, a1, a2, a3] 1) = some a1.toNat := argIn_of_mem backoff
  simp only [ownSetTiming, first, second]

/-- One value outside its range is enough: neither parameter is written. -/
theorem ownSetTiming_of_invalid {a0 a1 : Word} (a2 a3 : Word) (s : State)
    (outside : ¬ (1 ≤ a0.toNat ∧ a0.toNat ≤ 255) ∨ ¬ (1 ≤ a1.toNat ∧ a1.toNat ≤ 255)) :
    ownSetTiming #v[a0, a1, a2, a3] s = (s, .failed .badArgument) := by
  rcases outside with timeout | backoff
  · have first : argIn 1 255 (tget #v[a0, a1, a2, a3] 0) = none := argIn_of_not_mem timeout
    simp only [ownSetTiming, first]
  · have second : argIn 1 255 (tget #v[a0, a1, a2, a3] 1) = none := argIn_of_not_mem backoff
    simp only [ownSetTiming, second]
    cases argIn 1 255 (tget #v[a0, a1, a2, a3] 0) <;> rfl

/-! ### The readers of the two parameters -/

theorem newRecall_deadline (i : SlotId) (e : Entry) (w : Wait) (s : State) :
    (newRecall i e w s).deadline = s.dlu.holdClock + BitVec.ofNat 32 (10 * s.dlu.recallTimeout) := rfl

/-- The notice queue after a counted failure below the attempt limit: the entry backs off from the notice clock by the
notice backoff (R103). -/
theorem countFailure_nq_of_lt {e : NoticeEntry} (place : Nat) (s : State) (below : e.attempts + 1 < 3) :
    (countFailure place e s).nq = s.nq.set place
      { e with
        attempts := e.attempts + 1
        state := .backoff (s.dlu.noticeClock + BitVec.ofNat 32 s.dlu.noticeBackoff) } :=
  congrArg State.nq (if_pos below)

/-- Settles O50: the owner checks both arguments before it writes, and what it has written is what the two readers
read. -/
theorem setTimingWritesBothParameters : Obligations.SetTimingWritesBothParameters := by
  intro a0 a1 a2 a3 s run
  refine ⟨fun bad => ?fails, fun ⟨timeoutLow, timeoutHigh, backoffLow, backoffHigh⟩ => ?writes,
    fun i e w => ?recallUsesTimeout, fun place e below => ?failureUsesBackoff⟩
  case fails =>
    have outside : ¬ (1 ≤ a0.toNat ∧ a0.toNat ≤ 255) ∨ ¬ (1 ≤ a1.toNat ∧ a1.toNat ≤ 255) := by omega
    have ends := runCommand_of_running run (ownSetTiming_of_invalid a2 a3 s outside)
    exact (exec_setTiming s).trans (congrArg Host.Outcome.next ends)
  case writes =>
    have ends := runCommand_of_running run
      (ownSetTiming_of_valid a2 a3 s ⟨timeoutLow, timeoutHigh⟩ ⟨backoffLow, backoffHigh⟩)
    exact (exec_setTiming s).trans (congrArg Host.Outcome.next ends)
  case recallUsesTimeout => exact newRecall_deadline i e w _
  case failureUsesBackoff => exact countFailure_nq_of_lt place _ below

end Sys2Proof.Machine
end

section
/-!
PROOF. The write to COMMAND (R153): COMMAND_WRITE and CMD_REFUSED are both the one register write, which the state RUNNING
refuses; otherwise a code of one of the fourteen commands starts that command (R151, R152).
-/

namespace Sys2Proof.Machine

theorem exec_commandWrite (code : Word) (s : State) : exec (.commandWrite code) s = .next (writeCommand code s) := rfl

theorem exec_cmdRefused (code : Word) (s : State) : exec (.cmdRefused code) s = .next (writeCommand code s) := rfl

/-- CMD_REFUSED stands at bit 1 of FLAGS (section 11.5). -/
theorem setFlag_cmdRefused (s : State) : setFlag .cmdRefused s = flagged 0x002#11 s := rfl

theorem isCommandCode_iff (code : Word) : isCommandCode code = true ↔ 1 ≤ code.toNat ∧ code.toNat ≤ 14 := by
  simp only [isCommandCode, Bool.and_eq_true, decide_eq_true_eq]

/-- While a command is RUNNING the code written is discarded: the state after the write does not depend on it. -/
theorem writeCommand_of_running (code : Word) {s : State} (run : s.svp.cmdState = .running) :
    writeCommand code s = flagged 0x002#11 s :=
  (if_pos run).trans (setFlag_cmdRefused s)

theorem writeCommand_of_not_running {code : Word} {s : State} (ended : s.svp.cmdState ≠ .running)
    (known : isCommandCode code = true) : writeCommand code s = startCommand code s :=
  (if_neg ended).trans (if_pos known)

/-- Settles O56: whether the write is refused or starts a command is decided by the command state alone, the code being
one of the fourteen. -/
theorem commandWritesWhileRunningAreRefused : Obligations.CommandWritesWhileRunningAreRefused := by
  intro code s
  refine ⟨fun run => ?refused, fun ended low high => ?starts⟩
  case refused =>
    have discards : writeCommand code s = flagged 0x002#11 s := writeCommand_of_running code run
    exact ⟨(exec_commandWrite code s).trans (congrArg _ discards), (exec_cmdRefused code s).trans (congrArg _ discards)⟩
  case starts =>
    have known : isCommandCode code = true := (isCommandCode_iff code).mpr ⟨low, high⟩
    exact (exec_commandWrite code s).trans (congrArg _ (writeCommand_of_not_running ended known))

end Sys2Proof.Machine
end

section
/-!
PROOF. The laws that every step keeps (R3 to R10, R20, R22, R43, R45, R63, R79, R81, R96, R103): each is kept by every
elementary act, and a step is a run of acts (`exec_acts`).
-/

namespace Sys2Proof.Machine

/-! ### Steps -/

/-- A step idles, or runs a command on the state with the queue's rest. -/
theorem step_next {s t : State} (h : step s = .next t) :
    t = s ∨ ∃ c rest, s.pending = c :: rest ∧ exec c { s with pending := rest } = .next t := by
  unfold step at h
  split at h
  case h_1 => cases h; exact .inl rfl
  case h_2 c rest hp => exact .inr ⟨c, rest, hp, h⟩

/-- A property that does not read the queue of commands, and that every command keeps, is kept by every step. -/
theorem step_keeps {P : State → Prop} (hq : ∀ s q, P s → P { s with pending := q })
    (hc : ∀ c s t, exec c s = .next t → P s → P t) {s t : State} (hs : P s) (h : step s = .next t) : P t := by
  rcases step_next h with rfl | ⟨c, rest, -, hx⟩
  · exact hs
  · exact hc c _ t hx (hq s rest hs)

/-- A property that does not read the queue of commands, and that every act keeps, is kept by every step. -/
theorem step_keeps_of_acts {P : State → Prop} (hq : ∀ s q, P s → P { s with pending := q })
    (ha : ∀ k s t, Act k s t → P s → P t) {s t : State} (hs : P s) (h : step s = .next t) : P t :=
  step_keeps hq (fun _ _ _ hx => (exec_acts hx).keeps fun k s t _ => ha k s t) hs h

/-- Settles O1: the step function's two branches. -/
theorem stepTakesTheFront : Obligations.StepTakesTheFront := by
  refine ⟨fun c rest s => rfl, fun s empty => ?_⟩
  rw [step, empty]

/-- Settles O4: the law of one entry (`lawful_law`), along the acts of a step. -/
theorem holdersStayLawful : Obligations.HoldersStayLawful := fun _ _ =>
  step_keeps_of_acts (fun _ _ => id) fun _ _ _ => lawful_law.act

/-- Settles O5. -/
theorem noticeQueueStaysLawful : Obligations.NoticeQueueStaysLawful := fun _ _ =>
  step_keeps_of_acts (fun _ _ => id) fun _ _ _ => Act.notices

/-- Settles O6: the law of one entry (`members_law`), along the acts of a step. -/
theorem membersStayDistinct : Obligations.MembersStayDistinct := fun _ _ =>
  step_keeps_of_acts (fun _ _ => id) fun _ _ _ => members_law.act

/-- Settles O7. -/
theorem poolsStayWhole : Obligations.PoolsStayWhole := fun _ _ =>
  step_keeps_of_acts (fun _ _ => id) fun _ _ _ => Act.pools

/-- An act keeps the law of tokens together with the two laws that it rests on: the pools bound the live tokens, and no
node holds a resource twice. -/
theorem Act.tokensWithTheirPremises {k : Kind} {s t : State} (a : Act k s t)
    (h : poolsLawful s ∧ membersDistinct s ∧ tokensLawful s) :
    poolsLawful t ∧ membersDistinct t ∧ tokensLawful t := by
  obtain ⟨pools, members, tokens⟩ := h
  exact ⟨a.pools pools, members_law.act a members, a.tokens pools members tokens⟩

/-- Settles O8. -/
theorem tokensStayDistinct : Obligations.TokensStayDistinct := fun _ _ hs h =>
  (step_keeps_of_acts (P := fun s => poolsLawful s ∧ membersDistinct s ∧ tokensLawful s) (fun _ _ => id)
    (fun _ _ _ => Act.tokensWithTheirPremises) hs h).2.2

/-- Settles O12. -/
theorem idsListsAndRecallsStayLawful : Obligations.IdsListsAndRecallsStayLawful := fun _ _ =>
  step_keeps_of_acts (P := fun s => idsDistinct s ∧ listsLawful s ∧ recallsLawful s) (fun _ _ => id)
    fun _ _ _ a ⟨ids, lists, recalls⟩ => ⟨a.ids ids, a.lists lists, a.recalls recalls⟩

/-! ### Kinds of acts that few commands have -/

/-- The commands that may have acts of a kind, for the kinds that change a setting, a life state or a node's
parameters. -/
def ownersOf (k : Kind) (c : Instr) : Prop :=
  match k with
  | .retire => c = .retire
  | .halted => c = .halt ∨ c = .resume
  | .clocks => c = .timebaseStep
  | .timing => c = .setTiming
  | .clear => c = .clearClaims
  | .por => ∃ r l, c = .por r l
  | .enables => (∃ d, c = .enableWrite d) ∨ ∃ a, c = .registerWrite a
  | .flagClear => (∃ d, c = .flagsWrite d) ∨ ∃ a, c = .registerWrite a
  | .params _ => c = .setNode
  | .evict _ => c = .evict
  | .start n => ∃ r, c = .join r ∧ r.src = n
  | _ => True

theorem kindsOf_ownersOf {k : Kind} {c : Instr} (h : kindsOf c k) : ownersOf k c := by
  cases k
  case retire | halted | clocks | timing | clear | por | enables | flagClear | params | evict | start =>
    cases c <;>
      simp [kindsOf, ownersOf, expiryKinds, departKinds, leavingKinds, replyKinds, sessionKinds, outcomeKinds,
        attemptKinds, evictKinds, windowKinds] at h ⊢
    all_goals exact h.symm
  all_goals trivial

/-! ### Counts, and RETIRING entries without waits -/

/-- A run of acts that makes no entry RETIRING keeps the counts and the empty queues of RETIRING entries. -/
theorem Acts.counts {K : Kind → Prop} {s t : State} (h : Acts K s t) (hK : ¬ K .retire)
    (hs : countsLawful s ∧ retiringEmpty s) : countsLawful t ∧ retiringEmpty t := by
  refine h.keeps (P := fun s => countsLawful s ∧ retiringEmpty s) (fun k s t hk a hs => ?_) hs
  obtain ⟨counts, empty⟩ := hs
  exact ⟨a.counts (fun _ => empty) counts, a.retiringEmpty (fun e => hK (e ▸ hk)) empty⟩

/-- A run of acts that frees no slot keeps the counts. -/
theorem Acts.countsLawful {K : Kind → Prop} {s t : State} (h : Acts K s t) (hK : ¬ K .freed) (hs : countsLawful s) :
    countsLawful t :=
  h.keeps (fun _ _ _ hk a => a.counts fun e => absurd (e ▸ hk) hK) hs

/-- Passes and departures keep the queue of a RETIRING entry empty, slot by slot. -/
theorem Ripples.queueEmpty {s t : State} (h : Ripples s t) {i : SlotId}
    (hs : ∀ e, slot i s = some e → e.life = .retiring → e.queue = []) :
    ∀ e, slot i t = some e → e.life = .retiring → e.queue = [] := by
  intro e' he' retiring
  have kept : keepsEntries s t := h.rel keepsEntries_refl (fun _ _ _ => keepsEntries_trans)
    fun _ _ _ hk a => a.entriesKept (by simp only [hk]; decide)
  obtain ⟨e, he, -, life, -⟩ := kept i e' he'
  obtain ⟨f, hf, queue, -⟩ := shrinks_of_leaving (h.within leaving_claims) i e' he'
  obtain rfl : e = f := by simpa [he] using hf
  simpa [hs e he (life ▸ retiring)] using queue

theorem endWaits_ripples (i : SlotId) (why : WaitEnd) (s : State) : Ripples s (endWaits i why s) := by
  unfold endWaits
  split
  · exact .refl
  · exact foldl_acts _ (fun s (w : Wait) => removeWait_ripples i w.node why s) _ _

/-- The waits of an entry that retires are all ended before it can be freed (R14). -/
theorem retireEntry_counts {i : SlotId} {e : Entry} {s : State} (hi : slot i s = some e)
    (hs : countsLawful s ∧ retiringEmpty s) :
    countsLawful (retireEntry i e s) ∧ retiringEmpty (retireEntry i e s) := by
  obtain ⟨counts, empty⟩ := hs
  let marked := setSlot i (some { e with life := .retiring }) s
  let ended := endWaits i .retired (abandonRecall i false marked)
  let unlisted := leaveBothLists i ended
  have markedCounts : countsLawful marked := (Act.retire i e s hi).counts nofun counts
  have toUnlisted : Ripples marked unlisted :=
    ((abandonRecall_ripples i false marked).trans (endWaits_ripples i .retired _)).trans (leaveBothLists_ripples i _)
  have unlistedEmpty : retiringEmpty unlisted := by
    intro j f hj
    by_cases hji : j = i
    · subst hji
      exact fun _ => endWaits_queue j .retired _ f hj
    · refine toUnlisted.queueEmpty (fun f hf => empty j f ?_) f hj
      rwa [slot_setSlot, if_neg hji] at hf
  exact (freeIfRetired_acts i unlisted).counts (by decide)
    ⟨toUnlisted.countsLawful (by decide) markedCounts, unlistedEmpty⟩

theorem complete_counts {c : Completion} {s : State} (hs : countsLawful s ∧ retiringEmpty s) :
    countsLawful (complete c s) ∧ retiringEmpty (complete c s) :=
  (complete_acts (K := fun k => k ≠ .retire) c s (by decide) (by decide)).counts (by simp) hs

theorem ownRetire_counts {a : Vector Word 4} {s : State} (hs : countsLawful s ∧ retiringEmpty s) :
    countsLawful (ownRetire a s).1 ∧ retiringEmpty (ownRetire a s).1 := by
  unfold ownRetire
  split
  · exact hs
  · split
    · exact hs
    · next found =>
      split
      · exact hs
      · exact retireEntry_counts (lookup_some found).1 hs

theorem exec_counts (c : Instr) (s t : State) (h : exec c s = .next t) (hs : countsLawful s ∧ retiringEmpty s) :
    countsLawful t ∧ retiringEmpty t := by
  by_cases hc : c = .retire
  · subst hc
    cases h
    unfold runCommand
    split
    · exact complete_counts (ownRetire_counts hs)
    · exact hs
  · exact (exec_acts h).counts (fun hk => hc (kindsOf_ownersOf hk)) hs

/-- Settles O9: every command but RETIRE is a run of acts that make no entry RETIRING, and RETIRE ends the waits. -/
theorem countsStayTrue : Obligations.CountsStayTrue := fun _ _ =>
  step_keeps (P := fun s => countsLawful s ∧ retiringEmpty s) (fun _ _ => id) exec_counts

end Sys2Proof.Machine
end

section
/-!
PROOF. What a command leaves alone, read off its kinds of acts: which command can change each setting and each parameter
of a node record (R11, R81, R82, R90, R91, R142, R148, R158, R160, R161), and the laws of the node records (R79, R81).
-/

namespace Sys2Proof.Machine

variable {k : Kind} {s t : State}

/-! ### The acts that are written with a case distinction -/

theorem setFlag_flags (f : Flag) (s : State) : s.svp.flags &&& (setFlag f s).svp.flags = s.svp.flags := by
  ext b
  simp only [setFlag, BitVec.getElem_and, BitVec.getElem_or]
  cases s.svp.flags[b] <;> rfl

theorem setFlag_settings (f : Flag) (s : State) : keepsSettings s (setFlag f s) :=
  ⟨rfl, rfl, rfl, rfl, setFlag_flags f s, rfl⟩

theorem renewLease_settings (n : NodeId) (s : State) : keepsSettings s (renewLease n s) := by
  rw [renewLease_eq]
  exact ⟨rfl, rfl, rfl, rfl, BitVec.and_self, rfl⟩

theorem freeSlot_settings (i : SlotId) (s : State) : keepsSettings s (freeSlot i s) := by
  unfold freeSlot
  split
  · exact ⟨rfl, rfl, rfl, rfl, BitVec.and_self, rfl⟩
  · exact ⟨rfl, rfl, rfl, rfl, setFlag_flags .resourceFreed s, rfl⟩

/-- CLEAR_CLAIMS changes the directory epoch alone of the settings. -/
theorem clear_settings (s : State) :
    keepsSettings { s with dir := { s.dir with epoch := s.dir.epoch + 1 } }
      (clearQueue { clearDirectory s with nodes := tmap clearRecord (clearDirectory s).nodes }) := by
  unfold clearQueue clearDirectory
  dsimp only
  split
  · exact ⟨rfl, rfl, rfl, rfl, setFlag_flags .resourceFreed s, rfl⟩
  · exact ⟨rfl, rfl, rfl, rfl, BitVec.and_self, rfl⟩

/-! ### Settings that an act leaves alone -/

theorem keepsSettings_refl (s : State) : keepsSettings s s := ⟨rfl, rfl, rfl, rfl, BitVec.and_self, rfl⟩

theorem keepsSettings_trans {s t u : State} (h : keepsSettings s t) (g : keepsSettings t u) : keepsSettings s u := by
  obtain ⟨dlu, epoch, period, svp, flags, pending⟩ := h
  obtain ⟨dlu', epoch', period', svp', flags', pending'⟩ := g
  refine ⟨dlu'.trans dlu, epoch'.trans epoch, period'.trans period, ?_, ?_, pending'.trans pending⟩
  · rw [svp', svp]
  · rw [← flags, BitVec.and_assoc, flags']

theorem keepsSettings_dlu (h : keepsSettings s t) : t.dlu = s.dlu := h.1

theorem keepsSettings_epoch (h : keepsSettings s t) : t.dir.epoch = s.dir.epoch := h.2.1

theorem keepsSettings_bitPeriod (h : keepsSettings s t) : t.lif.bitPeriod = s.lif.bitPeriod := h.2.2.1

theorem keepsSettings_svp (h : keepsSettings s t) : t.svp = { s.svp with flags := t.svp.flags } := h.2.2.2.1

theorem keepsSettings_flags (h : keepsSettings s t) : s.svp.flags &&& t.svp.flags = s.svp.flags := h.2.2.2.2.1

/-- The kinds of acts that change a setting, a register or the command state, or clear a flag. -/
def Kind.sets : Kind → Bool
  | .clocks | .timing | .halted | .mailbox | .flagClear | .enables | .clear | .por => true
  | _ => false

/-- Every other act changes at most flags of the settings, and only sets those. -/
theorem Act.settings (a : Act k s t) (hk : k.sets = false) : keepsSettings s t := by
  cases a with
  | flag f => exact setFlag_settings f s
  | freeSlot i => exact freeSlot_settings i s
  | lease n => exact renewLease_settings n s
  | line l _ hl => exact ⟨rfl, rfl, hl, rfl, BitVec.and_self, rfl⟩
  | clocks | timing | halt | resume | mailbox | flagClear | enables | clear | por => cases hk
  | _ => exact ⟨rfl, rfl, rfl, rfl, BitVec.and_self, rfl⟩

theorem Acts.settings {K : Kind → Prop} (h : Acts K s t) (hK : ∀ k, K k → k.sets = false) : keepsSettings s t :=
  h.rel keepsSettings_refl (fun _ _ _ => keepsSettings_trans) fun _ _ _ hk a => a.settings (hK _ hk)

theorem Act.clockValues (a : Act k s t) (h1 : k ≠ .clocks) (h2 : k ≠ .por) :
    t.dlu.leaseClock = s.dlu.leaseClock ∧ t.dlu.holdClock = s.dlu.holdClock
      ∧ t.dlu.noticeClock = s.dlu.noticeClock := by
  cases hk : k.sets with
  | false => simp [(keepsSettings_dlu (a.settings hk))]
  | true =>
    cases a with
    | clocks => exact absurd rfl h1
    | por => exact absurd rfl h2
    | clear => simp [(keepsSettings_dlu (clear_settings s))]
    | timing | halt | resume | mailbox | flagClear | enables => exact ⟨rfl, rfl, rfl⟩
    | _ => cases hk

theorem Act.timingValues (a : Act k s t) (h1 : k ≠ .timing) (h2 : k ≠ .por) :
    t.dlu.recallTimeout = s.dlu.recallTimeout ∧ t.dlu.noticeBackoff = s.dlu.noticeBackoff := by
  cases hk : k.sets with
  | false => simp [(keepsSettings_dlu (a.settings hk))]
  | true =>
    cases a with
    | timing => exact absurd rfl h1
    | por => exact absurd rfl h2
    | clear => simp [(keepsSettings_dlu (clear_settings s))]
    | clocks | halt | resume | mailbox | flagClear | enables => exact ⟨rfl, rfl⟩
    | _ => cases hk

theorem Act.directoryEpoch (a : Act k s t) (h1 : k ≠ .clear) (h2 : k ≠ .por) : t.dir.epoch = s.dir.epoch := by
  cases hk : k.sets with
  | false => exact keepsSettings_epoch (a.settings hk)
  | true =>
    cases a with
    | clear => exact absurd rfl h1
    | por => exact absurd rfl h2
    | clocks | timing | halt | resume | mailbox | flagClear | enables => rfl
    | _ => cases hk

theorem Act.bitPeriod (a : Act k s t) (h : k ≠ .por) : t.lif.bitPeriod = s.lif.bitPeriod := by
  cases hk : k.sets with
  | false => exact keepsSettings_bitPeriod (a.settings hk)
  | true =>
    cases a with
    | por => exact absurd rfl h
    | clear => exact (keepsSettings_bitPeriod (clear_settings s) :)
    | clocks | timing | halt | resume | mailbox | flagClear | enables => rfl
    | _ => cases hk

theorem Act.enableValues (a : Act k s t) (h1 : k ≠ .enables) (h2 : k ≠ .por) : t.svp.enables = s.svp.enables := by
  cases hk : k.sets with
  | false => rw [(keepsSettings_svp (a.settings hk))]
  | true =>
    cases a with
    | enables => exact absurd rfl h1
    | por => exact absurd rfl h2
    | clear => rw [(keepsSettings_svp (clear_settings s))]
    | clocks | timing | halt | resume | mailbox | flagClear => rfl
    | _ => cases hk

theorem Act.flagsGrow (a : Act k s t) (h1 : k ≠ .flagClear) (h2 : k ≠ .por) :
    s.svp.flags &&& t.svp.flags = s.svp.flags := by
  cases hk : k.sets with
  | false => exact keepsSettings_flags (a.settings hk)
  | true =>
    cases a with
    | flagClear => exact absurd rfl h1
    | por => exact absurd rfl h2
    | clear => exact (keepsSettings_flags (clear_settings s) :)
    | clocks | timing | halt | resume | mailbox | enables => exact BitVec.and_self
    | _ => cases hk

/-- The command register, the arguments and the captured arguments (R151, R152). -/
def commandOf (s : State) : Word × Vector Word 4 × Vector Word 4 := (s.svp.command, s.svp.args, s.svp.captured)

theorem Act.commandKept (a : Act k s t) (h1 : k ≠ .mailbox) (h2 : k ≠ .por) : commandOf t = commandOf s := by
  cases hk : k.sets with
  | false => rw [commandOf, commandOf, (keepsSettings_svp (a.settings hk))]
  | true =>
    cases a with
    | mailbox => exact absurd rfl h1
    | por => exact absurd rfl h2
    | clear => rw [commandOf, commandOf, (keepsSettings_svp (clear_settings s))]
    | clocks | timing | halt | resume | flagClear | enables => rfl
    | _ => cases hk

/-! ### Runs of acts -/

theorem Acts.commandKept {K : Kind → Prop} (h : Acts K s t) (h1 : ¬ K .mailbox) (h2 : ¬ K .por) :
    commandOf t = commandOf s :=
  h.same fun _ _ _ hk a => a.commandKept (fun e => h1 (e ▸ hk)) fun e => h2 (e ▸ hk)

theorem Acts.haltedKept {K : Kind → Prop} (h : Acts K s t) (h1 : ¬ K .halted) (h2 : ¬ K .por) :
    t.svp.halted = s.svp.halted :=
  h.same (f := fun s => s.svp.halted) fun _ _ _ hk a => a.halted (fun e => h1 (e ▸ hk)) fun e => h2 (e ▸ hk)

theorem Acts.clockValues {K : Kind → Prop} (h : Acts K s t) (h1 : ¬ K .clocks) (h2 : ¬ K .por) :
    t.dlu.leaseClock = s.dlu.leaseClock ∧ t.dlu.holdClock = s.dlu.holdClock
      ∧ t.dlu.noticeClock = s.dlu.noticeClock := by
  have kept := h.same (f := fun s => (s.dlu.leaseClock, s.dlu.holdClock, s.dlu.noticeClock)) fun _ _ _ hk a => by
    obtain ⟨lease, hold, notice⟩ := a.clockValues (fun e => h1 (e ▸ hk)) fun e => h2 (e ▸ hk)
    simp only [lease, hold, notice]
  simpa using kept

theorem Acts.timingValues {K : Kind → Prop} (h : Acts K s t) (h1 : ¬ K .timing) (h2 : ¬ K .por) :
    t.dlu.recallTimeout = s.dlu.recallTimeout ∧ t.dlu.noticeBackoff = s.dlu.noticeBackoff := by
  have kept := h.same (f := fun s => (s.dlu.recallTimeout, s.dlu.noticeBackoff)) fun _ _ _ hk a => by
    obtain ⟨timeout, backoff⟩ := a.timingValues (fun e => h1 (e ▸ hk)) fun e => h2 (e ▸ hk)
    simp only [timeout, backoff]
  simpa using kept

theorem Acts.flagsGrow {K : Kind → Prop} (h : Acts K s t) (h1 : ¬ K .flagClear) (h2 : ¬ K .por) :
    s.svp.flags &&& t.svp.flags = s.svp.flags := by
  refine h.rel (R := fun s t => s.svp.flags &&& t.svp.flags = s.svp.flags) (fun _ => BitVec.and_self)
    (fun a b c hab hbc => ?_) fun _ _ _ hk a => a.flagsGrow (fun e => h1 (e ▸ hk)) fun e => h2 (e ▸ hk)
  rw [← hab, BitVec.and_assoc, hbc]

/-! ### The command register and the arguments -/

theorem runCommand_commandOf {K : Kind → Prop} {code : Word} {owner : Owner}
    (h : Acts K s (owner s.svp.captured s).1) (h1 : ¬ K .mailbox) (h2 : ¬ K .por) :
    commandOf (runCommand code owner s) = commandOf s := by
  unfold runCommand
  split
  · exact h.commandKept h1 h2
  · rfl

theorem writeCommand_args (code : Word) (s : State) : (writeCommand code s).svp.args = s.svp.args := by
  unfold writeCommand
  split
  · rfl
  · split <;> rfl

/-- Only a write to COMMAND or to another register changes the command register or the arguments. -/
theorem exec_commandOf {c : Instr} (h : exec c s = .next t) (hp : ∀ r l, c ≠ .por r l)
    (h1 : ∀ k, c ≠ .commandWrite k) (h2 : ∀ k, c ≠ .cmdRefused k) (h3 : ∀ k, c ≠ .badCommand k)
    (h4 : ∀ a, c ≠ .registerWrite a) : commandOf t = commandOf s := by
  have notPor : ¬ kindsOf c .por := fun hk => by
    obtain ⟨r, l, hc⟩ := kindsOf_ownersOf hk
    exact hp r l hc
  by_cases hm : kindsOf c .mailbox
  · cases c
    case provision => cases h; exact runCommand_commandOf (ownProvision_acts _ s) nofun nofun
    case retire => cases h; exact runCommand_commandOf (ownRetire_acts _ s) (by simp) (by simp)
    case withdraw => cases h; exact runCommand_commandOf (ownWithdraw_acts _ s) (by simp [leavingKinds]) (by simp [leavingKinds])
    case setNode => cases h; exact runCommand_commandOf (ownSetNode_acts _ s) (by simp) (by simp)
    case evict =>
      cases h
      exact runCommand_commandOf (ownEvict_acts _ s) (by simp [evictKinds, leavingKinds])
        (by simp [evictKinds, leavingKinds])
    case readResource =>
      cases h
      exact runCommand_commandOf (K := fun _ => False) (same_acts (ownReadResource_state _ s)) id id
    case readHolder =>
      cases h
      exact runCommand_commandOf (K := fun _ => False) (same_acts (ownReadHolder_state _ s)) id id
    case readWait =>
      cases h
      exact runCommand_commandOf (K := fun _ => False) (same_acts (ownReadWait_state _ s)) id id
    case readNode =>
      cases h
      exact runCommand_commandOf (K := fun _ => False) (same_acts (ownReadNode_state _ s)) id id
    case readPools => cases h; exact runCommand_commandOf (K := fun _ => False) .refl id id
    case setTiming => cases h; exact runCommand_commandOf (ownSetTiming_acts _ s) nofun nofun
    case clearClaims => cases h; exact runCommand_commandOf (K := (· = .clear)) (.unit (.clear s) rfl) nofun nofun
    case halt =>
      cases h
      exact runCommand_commandOf (ownHalt_acts _ s) (by simp [expiryKinds, leavingKinds])
        (by simp [expiryKinds, leavingKinds])
    case resume => cases h; exact runCommand_commandOf (ownResume_acts _ s) (by simp) (by simp)
    case commandWrite k => exact absurd rfl (h1 k)
    case cmdRefused k => exact absurd rfl (h2 k)
    case badCommand k => exact absurd rfl (h3 k)
    case registerWrite a => exact absurd rfl (h4 a)
    all_goals
      simp [kindsOf, expiryKinds, departKinds, leavingKinds, replyKinds, sessionKinds, outcomeKinds, attemptKinds] at hm
  · exact (exec_acts h).commandKept hm notPor

/-- Only a write of a register other than COMMAND changes the arguments. -/
theorem exec_args {c : Instr} (h : exec c s = .next t) (hp : ∀ r l, c ≠ .por r l)
    (h4 : ∀ a, c ≠ .registerWrite a) : t.svp.args = s.svp.args := by
  by_cases hw : (∃ k, c = .commandWrite k) ∨ (∃ k, c = .cmdRefused k) ∨ ∃ k, c = .badCommand k
  · rcases hw with ⟨k, rfl⟩ | ⟨k, rfl⟩ | ⟨k, rfl⟩
    · cases h; exact writeCommand_args k s
    · cases h; exact writeCommand_args k s
    · simp only [exec, execBadCommand] at h
      split at h
      · cases h
      · cases h; exact writeCommand_args k s
  · simp only [not_or, not_exists] at hw
    obtain ⟨h1, h2, h3⟩ := hw
    exact congrArg (fun c => c.2.1) (exec_commandOf h hp h1 h2 h3 h4)

/-- Settles O59: each setting changes by acts of few kinds, and `ownersOf` names the commands that have them. -/
theorem settingsChangeByTheirCommandsOnly : Obligations.SettingsChangeByTheirCommandsOnly := by
  intro c s t hp h
  have acts := exec_acts h
  have notPor : ¬ kindsOf c .por := fun hk => by
    obtain ⟨r, l, hc⟩ := kindsOf_ownersOf hk
    exact hp r l hc
  refine ⟨fun h1 h2 => ?halted, fun h1 => ?clocks, fun h1 => ?timing, fun h1 => ?epoch, ?period,
    fun h1 h2 => ?enables, fun h1 h2 => ?flags, fun h1 => ?args, fun h1 h2 h3 h4 => ?command⟩
  case halted => exact acts.haltedKept (fun hk => (kindsOf_ownersOf hk).elim h1 h2) notPor
  case clocks => exact acts.clockValues (fun hk => h1 (kindsOf_ownersOf hk)) notPor
  case timing => exact acts.timingValues (fun hk => h1 (kindsOf_ownersOf hk)) notPor
  case epoch =>
    have notClear : ¬ kindsOf c .clear := fun hk => h1 (kindsOf_ownersOf hk)
    exact acts.same (f := fun s => s.dir.epoch) fun k s t hk a =>
      a.directoryEpoch (fun e => notClear (e ▸ hk)) fun e => notPor (e ▸ hk)
  case period =>
    exact acts.same (f := fun s => s.lif.bitPeriod) fun k s t hk a => a.bitPeriod fun e => notPor (e ▸ hk)
  case enables =>
    have notEnables : ¬ kindsOf c .enables := fun hk =>
      (kindsOf_ownersOf hk).elim (fun ⟨d, hc⟩ => h1 d hc) fun ⟨a, hc⟩ => h2 a hc
    exact acts.same (f := fun s => s.svp.enables) fun k s t hk a =>
      a.enableValues (fun e => notEnables (e ▸ hk)) fun e => notPor (e ▸ hk)
  case flags =>
    exact acts.flagsGrow
      (fun hk => (kindsOf_ownersOf hk).elim (fun ⟨d, hc⟩ => h1 d hc) fun ⟨a, hc⟩ => h2 a hc) notPor
  case args => exact exec_args h hp h1
  case command =>
    have kept := exec_commandOf h hp h1 h2 h3 h4
    exact ⟨congrArg (fun c => c.1) kept, congrArg (fun c => c.2.2) kept⟩

end Sys2Proof.Machine
end

section
/-!
PROOF. The node records: which acts change a parameter, an epoch or the record of a given node, the laws of R79 and R81,
and the frame of a request (R38, R81, R82, R90, R91, R117).
-/

namespace Sys2Proof.Machine

variable {k : Kind} {s t : State} {n : NodeId}

/-! ### What an act leaves alone of a node record -/

theorem clear_node (n : NodeId) (s : State) :
    node n (clearQueue { clearDirectory s with nodes := tmap clearRecord (clearDirectory s).nodes })
      = clearRecord (node n s) := by
  unfold clearQueue clearDirectory
  dsimp only
  split <;> exact tget_tmap clearRecord s.nodes n

theorem graceRecord_eq (clock : Millis) (r : NodeRecord) :
    graceRecord clock r = { r with session := (graceRecord clock r).session } := by
  unfold graceRecord
  split
  · split <;> rfl
  · rfl
  · rfl

theorem endSession_eq (why : SessionEnd) (r : NodeRecord) :
    endSession why r = { r with session := (endSession why r).session, reply := (endSession why r).reply } := by
  cases why <;> rfl

/-- A view of a node record that the change of a record keeps, the change of any one record keeps. -/
theorem view_modNode {α : Type} (f : NodeRecord → α) (m : NodeId) (g : NodeRecord → NodeRecord) (s : State)
    (hg : m = n → f (g (node n s)) = f (node n s)) : f (node n (modNode m g s)) = f (node n s) := by
  rw [node_modNode]
  split
  case isTrue hm => exact hg hm.symm
  case isFalse => rfl

theorem Act.admission (a : Act k s t) (h1 : ∀ m, k ≠ .evict m) (h2 : ∀ m, k ≠ .params m) (h3 : k ≠ .por) :
    (node n t).admission = (node n s).admission := by
  by_cases hk : k.plain = true
  · obtain ⟨admission, -⟩ := a.record hk n
    exact admission
  · cases a with
    | revoke m | memory m | leaveLapsed m | startSession m =>
      exact view_modNode (·.admission) m _ s fun _ => rfl
    | lease m => rw [renewLease_eq]; exact view_modNode (·.admission) m _ s fun _ => rfl
    | endSession m why => exact view_modNode (·.admission) m _ s fun _ => by rw [endSession_eq]
    | evict m => exact absurd rfl (h1 m)
    | params m => exact absurd rfl (h2 m)
    | grace => simp only [node, tget_tmap]; rw [graceRecord_eq]
    | clear => rw [clear_node]; rfl
    | por => exact absurd rfl h3
    | _ => exact absurd rfl hk

theorem Act.parameters (a : Act k s t) (h1 : ∀ m, k ≠ .params m) (h2 : k ≠ .por) :
    ((node n t).leaseTerm, (node n t).quota) = ((node n s).leaseTerm, (node n s).quota) := by
  by_cases hk : k.plain = true
  · obtain ⟨-, -, -, term, quota, -⟩ := a.record hk n
    rw [term, quota]
  · cases a with
    | revoke m | memory m | leaveLapsed m | startSession m | evict m =>
      exact view_modNode (fun r => (r.leaseTerm, r.quota)) m _ s fun _ => rfl
    | lease m => rw [renewLease_eq]; exact view_modNode (fun r => (r.leaseTerm, r.quota)) m _ s fun _ => rfl
    | endSession m why =>
      exact view_modNode (fun r => (r.leaseTerm, r.quota)) m _ s fun _ => by rw [endSession_eq]
    | params m => exact absurd rfl (h1 m)
    | grace => simp only [node, tget_tmap]; rw [graceRecord_eq]
    | clear => rw [clear_node]; rfl
    | por => exact absurd rfl h2
    | _ => exact absurd rfl hk

theorem Act.sessionEpoch (a : Act k s t) (h1 : k ≠ .start n) (h2 : k ≠ .por) : (node n t).epoch = (node n s).epoch := by
  by_cases hk : k.plain = true
  · obtain ⟨-, -, epoch, -⟩ := a.record hk n
    exact epoch
  · cases a with
    | revoke m | memory m | leaveLapsed m | evict m | params m => exact view_modNode (·.epoch) m _ s fun _ => rfl
    | lease m => rw [renewLease_eq]; exact view_modNode (·.epoch) m _ s fun _ => rfl
    | startSession m => exact view_modNode (·.epoch) m _ s fun hm => absurd (hm ▸ rfl) h1
    | endSession m why => exact view_modNode (·.epoch) m _ s fun _ => by rw [endSession_eq]
    | grace => simp only [node, tget_tmap]; rw [graceRecord_eq]
    | clear => rw [clear_node]; rfl
    | por => exact absurd rfl h2
    | _ => exact absurd rfl hk

/-- The kinds of acts that leave the record of a node alone, but for what becomes of its holdings, waits and notices. -/
def Kind.spares (n : NodeId) : Kind → Bool
  | .revoke m | .lease m | .memory m | .session m | .start m | .evict m | .params m => m ≠ n
  | .grace | .clear | .por => false
  | _ => true

theorem Act.recordSpared (a : Act k s t) (hk : k.spares n = true) : keepsRecord (node n s) (node n t) := by
  by_cases hp : k.plain = true
  · exact a.record hp n
  · have same : node n t = node n s := by
      cases a with
      | revoke m | memory m | leaveLapsed m | startSession m | endSession m | evict m | params m =>
        exact view_modNode id m _ s fun hm => absurd hm (of_decide_eq_true hk)
      | lease m =>
        rw [renewLease_eq]
        exact view_modNode id m _ s fun hm => absurd hm (of_decide_eq_true hk)
      | grace | clear | por => cases hk
      | _ => exact absurd rfl hp
    exact same ▸ keepsRecord_refl _

theorem Acts.recordSpared {K : Kind → Prop} (h : Acts K s t) (hK : ∀ k, K k → k.spares n = true) :
    keepsRecord (node n s) (node n t) :=
  h.rel (R := fun s t => keepsRecord (node n s) (node n t)) (fun _ => keepsRecord_refl _)
    (fun _ _ _ => keepsRecord_trans) fun _ _ _ hk a => a.recordSpared (hK _ hk)

/-! ### Requests -/

/-- The acts of a request are acts on claims and on the sender's own record. -/
theorem requestKinds_spare {r : Request} (hr : r.src ≠ n) (q : RequestKind) (hk : kindsOf (requestCommand q r) k) :
    k.spares n = true := by
  have sender : ∀ m, m = r.src → m ≠ n := fun m hm => hm ▸ hr
  cases q <;> simp only [requestCommand, kindsOf, replyKinds, sessionKinds] at hk
  case renew | check | query => rcases hk with rfl | rfl | rfl <;> simp [Kind.spares, hr]
  case cancel => rcases hk with (rfl | rfl | rfl) | rfl <;> simp [Kind.spares, hr]
  case claim | downgrade | release => rcases hk with (rfl | rfl | rfl) | rfl | rfl <;> simp [Kind.spares, hr]
  case leave => rcases hk with (rfl | rfl | rfl) | rfl | rfl | rfl <;> simp [Kind.spares, hr]
  case join => rcases hk with (rfl | rfl | rfl) | (rfl | rfl | rfl) | rfl <;> simp [Kind.spares, hr]

theorem badKindKinds_spare {r : Request} {kind : BitVec 4} (hr : r.src ≠ n) (hk : kindsOf (.badKind kind r) k) :
    k.spares n = true := by
  rcases hk with rfl | rfl | rfl <;> simp [Kind.spares, hr]

/-- Settles O60: each field changes by acts of few kinds, and the acts of a request are the sender's own. -/
theorem nodeRecordsChangeByTheirCommandsOnly : Obligations.NodeRecordsChangeByTheirCommandsOnly := by
  intro c n s t hp h
  have acts := exec_acts h
  have notPor : ¬ kindsOf c .por := fun hk => by
    obtain ⟨r, l, hc⟩ := kindsOf_ownersOf hk
    exact hp r l hc
  have notParams (h1 : c ≠ .setNode) (m : NodeId) : ¬ kindsOf c (.params m) := fun hk => h1 (kindsOf_ownersOf hk)
  have notEvict (h1 : c ≠ .evict) (m : NodeId) : ¬ kindsOf c (.evict m) := fun hk => h1 (kindsOf_ownersOf hk)
  refine ⟨fun h1 h2 => ?admission, fun h1 => ?parameters, fun h1 => ?epoch, fun r hr hc => ?request⟩
  case admission =>
    exact acts.same (f := fun s => (node n s).admission) fun k s t hk a =>
      a.admission (fun m e => notEvict h2 m (e ▸ hk)) (fun m e => notParams h1 m (e ▸ hk)) fun e => notPor (e ▸ hk)
  case parameters =>
    have kept := acts.same (f := fun s => ((node n s).leaseTerm, (node n s).quota)) fun k s t hk a =>
      a.parameters (fun m e => notParams h1 m (e ▸ hk)) fun e => notPor (e ▸ hk)
    simpa using kept
  case epoch =>
    have notStart : ¬ kindsOf c (.start n) := fun hk => by
      obtain ⟨r, hc, src⟩ := kindsOf_ownersOf hk
      exact h1 r hc src
    exact acts.same (f := fun s => (node n s).epoch) fun k s t hk a =>
      a.sessionEpoch (fun e => notStart (e ▸ hk)) fun e => notPor (e ▸ hk)
  case request =>
    refine acts.recordSpared fun k hk => ?_
    rcases hc with ⟨q, rfl⟩ | ⟨kind, rfl⟩
    · exact requestKinds_spare hr q hk
    · exact badKindKinds_spare hr hk

/-! ### The laws of the node records -/

theorem Acts.nodes {K : Kind → Prop} (h : Acts K s t) (hK : ∀ m, ¬ K (.start m)) (hs : nodesLawful s) : nodesLawful t :=
  h.keeps (fun _ _ _ hk a => a.nodes fun m e => absurd (e ▸ hk) (hK m)) hs

/-- The end of the session before a restarting JOIN (R83) leaves the admission as it is. -/
theorem restart_admission (n : NodeId) (s : State) :
    (node n (if isActive (node n s).session then sessionEnd n .restarted s else s)).admission
      = (node n s).admission :=
  (restart_acts n s).same (f := fun s => (node n s).admission) fun k s t hk a => by
    rcases hk with rfl | rfl | rfl <;> exact a.admission nofun nofun nofun

/-- A session starts on an ADMITTED node only: a BARRED one is ABSENT (R81), and R117 turns its JOIN down. -/
theorem decideJoin_nodes {n : NodeId} {s : State} (passes : gateSession .join (node n s) = none) (hs : nodesLawful s) :
    nodesLawful (decideJoin n s).1 := by
  have admitted : (node n s).admission = .admitted := by
    obtain ⟨-, -, -, -, -, barred⟩ := hs n
    cases hadm : (node n s).admission with
    | admitted => rfl
    | barred => simp [gateSession, barred hadm, hadm] at passes
  have ended := (restart_acts n s).nodes (by simp [sessionKinds]) hs
  exact (Act.startSession n _).nodes (fun m e => by cases e; rw [restart_admission, admitted]) ended

theorem exec_nodes (c : Instr) (s t : State) (h : exec c s = .next t) (hs : nodesLawful s) : nodesLawful t := by
  by_cases hj : ∃ r, c = .join r
  · obtain ⟨r, rfl⟩ := hj
    have decided : nodesLawful (decideRequest .join r.src (readNothing r.body) (fun _ => decideJoin r.src) s).1 := by
      unfold decideRequest
      split
      · exact hs
      · split
        · exact hs
        · next passes => exact decideJoin_nodes (Option.or_eq_none_iff.mp passes).1 hs
    simp only [exec, execJoin, onRequest] at h
    split at h
    · cases h
      split
      · unfold takeRequest
        dsimp only
        split
        · exact (((renewAfter_acts (K := replyKinds r.src) _ r.src s (Or.inr (Or.inr rfl))).trans
            (beginReply_acts _ r _ _ (Or.inl rfl)))).nodes (by simp [replyKinds]) hs
        · refine Acts.nodes (K := replyKinds r.src) ?_ (by simp [replyKinds]) decided
          exact ((Acts.unit (.memory r.src _ _) (Or.inr (Or.inl rfl))).trans
            (renewAfter_acts _ r.src _ (Or.inr (Or.inr rfl)))).trans (beginReply_acts _ r _ _ (Or.inl rfl))
      · exact hs
    · cases h
  · exact (exec_acts h).nodes (fun m hk => by
      obtain ⟨r, hc, -⟩ := kindsOf_ownersOf hk
      exact hj ⟨r, hc⟩) hs

/-- Settles O11. -/
theorem nodeRecordsStayLawful : Obligations.NodeRecordsStayLawful := fun _ _ =>
  step_keeps (P := nodesLawful) (fun _ _ => id) exec_nodes

end Sys2Proof.Machine
end

section
/-!
PROOF. No step of a running part leaves a grantable head neither granted nor deferred (R54): slot by slot, for every
command, from what the passes, departures and removals keep (`Served`).
-/

namespace Sys2Proof.Machine

variable {j : SlotId} {s t : State}

/-! ### Acts that touch neither the directory nor the halted flag -/

/-- The kinds of acts that leave the directory and the halted flag as they are. -/
def Kind.quiet : Kind → Bool
  | .revoke _ | .send | .lease _ | .memory _ | .session _ | .start _ | .evict _ | .params _ | .grace | .line | .clocks
  | .timing | .mailbox | .flagClear | .enables | .picks => true
  | .claims | .freed | .claimed | .provision | .retire | .halted | .clear | .por => false

theorem Act.quietDir {k : Kind} (a : Act k s t) (hk : k.quiet = true) : t.dir = s.dir := by
  cases a with
  | lease n => exact renewLease_slots n s
  | revoke | send | memory | endSession | leaveLapsed | startSession | evict | params | grace | line | clocks | timing
  | mailbox | flagClear | enables | picks => rfl
  | _ => cases hk

theorem Act.served {k : Kind} (a : Act k s t) (hk : k.quiet = true) (h : Served j s) : Served j t :=
  h.same (a.halted (fun e => by simp [e, Kind.quiet] at hk) fun e => by simp [e, Kind.quiet] at hk) (a.quietDir hk)

theorem Acts.served {K : Kind → Prop} (a : Acts K s t) (hK : ∀ k, K k → k.quiet = true) (h : Served j s) : Served j t :=
  a.keeps (fun _ _ _ hk a => a.served (hK _ hk)) h

theorem Served.setFlag (f : Flag) (h : Served j s) : Served j (setFlag f s) := h.same rfl rfl

theorem Served.setLine (l : LineState) (h : Served j s) : Served j (setLine l s) := h.same rfl rfl

theorem Served.pick (n : Nat) (h : Served j s) : Served j { s with picks := n } := h.same rfl rfl

/-! ### Expiries -/

theorem Served.recallTimeout (k : RecallId) (h : Served j s) : Served j (recallTimeout k s) := by
  unfold Machine.recallTimeout
  split
  · exact h
  · next r _ => exact h.foldl _ (fun s x hs => hs.depart r.slot x.node _) _

theorem Served.backoffOver (place : Nat) (h : Served j s) : Served j (backoffOver place s) := by
  unfold Machine.backoffOver
  split
  · exact h
  · exact h.same rfl rfl

theorem Served.takeExpiry (x : Expiry) (h : Served j s) : Served j (takeExpiry x s) := by
  cases x with
  | lease n => exact (h.sessionEnd n .lapsed).setFlag .nodeLapsed
  | wait i n => exact h.removeWait i n .timedOut rfl
  | recallEnd k => exact h.recallTimeout k
  | backoff place => exact h.backoffOver place

theorem Served.takeExpiries (due : State → List Expiry) (fuel : Nat) (h : Served j s) :
    Served j (takeExpiries due fuel s) := by
  induction fuel generalizing s with
  | zero => exact h
  | succ fuel ih =>
    unfold Machine.takeExpiries
    split
    · exact h
    · exact ih (Served.takeExpiry _ (h.pick _))

theorem Served.settleExpiries (due : State → List Expiry) (h : Served j s) : Served j (settleExpiries due s) :=
  h.takeExpiries due _

/-! ### Attempts -/

theorem Served.refuseGrant (nt : Notice) (h : Served j s) : Served j (refuseGrant nt s) := by
  unfold Machine.refuseGrant
  split
  · split
    · exact h
    · split
      · exact h.depart _ _ _
      · exact h
  · exact h

theorem Served.renewAddressee (nt : Notice) (h : Served j s) : Served j (renewAddressee nt s) :=
  (renewAddressee_acts (K := fun k => ∃ n, k = .lease n) nt s fun n => ⟨n, rfl⟩).served
    (by rintro k ⟨n, rfl⟩; rfl) h

theorem Served.countFailure (place : Nat) (e : NoticeEntry) (h : Served j s) : Served j (countFailure place e s) := by
  unfold Machine.countFailure
  split
  · exact h.same rfl rfl
  · exact Served.removeEntry place (h.same rfl rfl)

theorem Served.endAttempt (how : Attempt) (h : Served j s) : Served j (endAttempt how s) := by
  unfold Machine.endAttempt
  split
  · exact h
  · next place e _ =>
    unfold endAttemptOf
    split
    · exact h.removeEntry place
    · cases how with
      | interrupted => exact h.same rfl rfl
      | failure => exact h.countFailure place e
      | delivered => exact (h.renewAddressee e.notice).removeEntry place
      | refusal => exact ((h.renewAddressee e.notice).removeEntry place).refuseGrant e.notice

theorem Served.fixOutcome (how : Attempt) (h : Served j s) : Served j (fixOutcome how s) :=
  Served.endAttempt how (h.same rfl rfl)

/-! ### Decisions on requests -/

/-- An entry is written whose head, if it can be granted, could be granted before. -/
theorem Served.setSlot {i : SlotId} {e : Entry} {o : Option Entry} (hi : slot i s = some e)
    (ho : ∀ e', o = some e' → e'.life = .opened → headGrantable e' = true → e.life = .opened ∧ headGrantable e = true)
    (h : Served j s) : Served j (setSlot i o s) := by
  refine h.of (s := s) rfl (fun ht => ?_) id
  by_cases hj : j = i
  · subst hj
    cases o with
    | none => simp [headOpen] at ht
    | some e' =>
      rw [headOpen_setSlot_same] at ht
      simp only [Bool.and_eq_true, decide_eq_true_eq] at ht
      obtain ⟨life, grantable⟩ := ho e' rfl ht.1 ht.2
      simp [headOpen_some hi, life, grantable]
  · rwa [headOpen_setSlot_ne i o hj] at ht

theorem Served.endCheck (i : SlotId) (h : Served j s) : Served j (endCheck i s) := by
  by_cases hj : j = i
  · subst hj; exact endCheck_served_same h
  · exact endCheck_served_ne hj h

theorem headGrantable_of_queue_nil {e : Entry} (hq : e.queue = []) : headGrantable e = false := by
  simp [headGrantable, hq]

/-- A grant leaves the queue empty. -/
theorem Served.claimNow {i : SlotId} {e : Entry} (n : NodeId) (m : Mode) (hi : slot i s = some e) (hq : e.queue = [])
    (h : Served j s) : Served j (claimNow i e n m s).1 := by
  unfold Machine.claimNow
  split
  · exact h
  · split
    · exact h.same rfl rfl
    · let drawn := afterDraw (drawnToken s) { s with freeHoldings := s.freeHoldings - 1 }
      have hs : Served j drawn := h.of rfl id id
      have hd : slot i drawn = some e := hi
      refine (hs.setSlot hd fun e' he' _ hg => ?_).modNode n _
      cases he'
      simp [headGrantable, hq] at hg

/-- A wait that joins an empty queue is not grantable, and behind another wait it changes no head. -/
theorem headGrantable_append_wait {e : Entry} {w : Wait} (later : grantableNow w.mode e = false)
    (h : headGrantable { e with queue := e.queue ++ [w] } = true) : headGrantable e = true := by
  cases hq : e.queue with
  | nil =>
    have fitting : fits w.mode e = true := by
      have same : fits w.mode { e with queue := [w] } = fits w.mode e := by cases w.mode <;> rfl
      simpa [headGrantable, hq, same] using h
    simp [grantableNow, hq, fitting] at later
  | cons head rest =>
    have same : fits head.mode { e with queue := head :: (rest ++ [w]) } = fits head.mode e := by
      cases head.mode <;> rfl
    simpa [headGrantable, hq, same] using h

theorem Served.claimLater {i : SlotId} {e : Entry} (n : NodeId) (m : Mode) (limit : Nat) (hi : slot i s = some e)
    (later : grantableNow m e = false) (h : Served j s) : Served j (claimLater i e n m limit s).1 := by
  unfold Machine.claimLater
  split
  · exact h
  · split
    · exact h
    · split
      · exact h.same rfl rfl
      · split
        · exact h.same rfl rfl
        · have hs : Served j { s with freeWaits := s.freeWaits - 1 } := h.of rfl id id
          have added : Served j (addWait i e n m limit s) := by
            refine Served.modNode n _ (hs.setSlot (i := i) (e := e) hi fun e' he' life hg => ?_)
            cases he'
            exact ⟨life, headGrantable_append_wait later hg⟩
          dsimp only
          split
          · exact added.endCheck i
          · exact added

theorem Served.decideClaim (n : NodeId) (a : ClaimArgs) (h : Served j s) : Served j (decideClaim n a s).1 := by
  unfold Machine.decideClaim
  split
  · exact h
  · next i e found =>
    obtain ⟨hi, -⟩ := lookup_some found
    split
    · exact h
    · split
      · exact h
      · exact h
      · split
        · next now =>
          simp only [grantableNow, Bool.and_eq_true, List.isEmpty_iff] at now
          exact h.claimNow n a.mode hi now.1
        · next later => exact h.claimLater n a.mode a.limit hi (by simpa using later)

theorem Served.decideRelease (n : NodeId) (a : TokenArgs) (h : Served j s) : Served j (decideRelease n a s).1 := by
  unfold Machine.decideRelease
  split
  · exact h
  · split
    · exact h
    · split
      · exact h.depart _ _ _
      · exact h

theorem Served.tellDowngrade (i : SlotId) (n : NodeId) (x : Token) (h : Served j s) :
    Served j (tellDowngrade i n x s) := by
  unfold Machine.tellDowngrade
  split
  · exact h
  · split
    · exact h
    · split
      · exact h.resolveTarget i n
      · split
        · exact h.same rfl rfl
        · exact h

/-- The pass that a DOWNGRADE ends with serves its own entry, and the others are as before. -/
theorem Served.decideDowngrade (n : NodeId) (a : TokenArgs) (h : Served j s) : Served j (decideDowngrade n a s).1 := by
  unfold Machine.decideDowngrade
  split
  · exact h
  · next i e found =>
    split
    · exact h
    · split
      · exact h
      · split
        · exact h
        · by_cases hj : j = i
          · subst hj; exact grantPass_serves j _
          · refine grantPass_served_ne hj (Served.tellDowngrade i n _ (h.of (s := s) rfl (fun ht => ?_) id))
            rwa [show headOpen j (afterDraw _ (Machine.setSlot i _ s)) = headOpen j (Machine.setSlot i _ s) from rfl,
              headOpen_setSlot_ne i _ hj] at ht

theorem Served.decideCancel (n : NodeId) (id : ResourceId) (h : Served j s) : Served j (decideCancel n id s).1 := by
  unfold Machine.decideCancel
  split
  · exact h
  · split
    · exact h
    · exact h.removeWait _ _ _ rfl

theorem Served.decideJoin (n : NodeId) (h : Served j s) : Served j (decideJoin n s).1 := by
  unfold Machine.decideJoin
  refine Served.modNode n _ ?_
  split
  · exact h.sessionEnd n .restarted
  · exact h

theorem Served.decideLeave (n : NodeId) (h : Served j s) : Served j (decideLeave n s).1 := by
  unfold Machine.decideLeave
  dsimp only
  split
  · exact h.sessionEnd n .left
  · exact h.modNode n _

theorem Served.decideRequest {α : Type} (k : RequestKind) (n : NodeId) (args : Option α)
    (owner : α → State → State × Reply) (ho : ∀ a, Served j (owner a s).1) (h : Served j s) :
    Served j (decideRequest k n args owner s).1 := by
  unfold Machine.decideRequest
  split
  · exact h
  · split
    · exact h
    · exact ho _

theorem replyKinds_quiet {n : NodeId} {k : Kind} (hk : replyKinds n k) : k.quiet = true := by
  rcases hk with rfl | rfl | rfl <;> rfl

theorem Served.onRequest {kind : BitVec 4} {r : Request} {decide : State → State × Reply}
    (ht : onRequest kind r decide s = .next t) (hd : Served j (decide s).1) (h : Served j s) : Served j t := by
  unfold Machine.onRequest at ht
  split at ht
  · cases ht
    split
    · unfold takeRequest
      dsimp only
      split
      · exact ((renewAfter_acts (K := replyKinds r.src) _ r.src s (Or.inr (Or.inr rfl))).trans
          (beginReply_acts _ r _ _ (Or.inl rfl))).served (fun _ => replyKinds_quiet) h
      · exact (((Acts.unit (K := replyKinds r.src) (.memory r.src _ _) (Or.inr (Or.inl rfl))).trans
          (renewAfter_acts _ r.src _ (Or.inr (Or.inr rfl)))).trans
            (beginReply_acts _ r _ _ (Or.inl rfl))).served (fun _ => replyKinds_quiet) hd
    · exact h
  · cases ht

/-! ### The supervisor's commands -/

theorem Served.runCommand (code : Word) (owner : Owner) (h : Served j s) (ho : Served j (owner s.svp.captured s).1) :
    Served j (runCommand code owner s) := by
  unfold Machine.runCommand
  split
  · exact ho.same rfl rfl
  · exact h

/-- No head of an UNUSED slot is grantable. -/
theorem served_of_slot_none (h : slot j s = none) : Served j s := fun _ ho => by simp [headOpen, h] at ho

theorem served_of_not_open (h : ∀ e, slot j s = some e → e.life = .opened → headGrantable e = false) : Served j s := by
  intro _ ho
  cases hs : slot j s with
  | none => simp [headOpen, hs] at ho
  | some e =>
    simp only [headOpen_some hs, Bool.and_eq_true, decide_eq_true_eq] at ho
    obtain ⟨life, grantable⟩ := ho
    simp [h e hs life] at grantable

theorem served_of_halted (h : s.svp.halted = true) : Served j s := fun running => by simp [h] at running

theorem Served.ownProvision (a : Vector Word 4) (h : Served j s) : Served j (ownProvision a s).1 := by
  unfold Machine.ownProvision
  split
  · split
    · exact h
    · split
      · exact h
      · next i _ =>
        by_cases hj : j = i
        · subst hj
          refine served_of_not_open fun e he _ => ?_
          rw [slot_setSlot_same] at he
          cases he
          exact headGrantable_of_queue_nil rfl
        · exact h.of (s := s) rfl (fun ht => by rwa [headOpen_setSlot_ne _ _ hj] at ht) id
  · exact h

/-- Ending the waits of an entry leaves the heads of the other entries served. -/
theorem Served.endWaits_ne {i : SlotId} (why : WaitEnd) (hj : j ≠ i) (h : Served j s) :
    Served j (endWaits i why s) := by
  unfold endWaits
  split
  · exact h
  · exact h.foldl _ (fun s w hs => removeWait_served_ne w.node why hj hs) _

theorem Served.retireEntry {i : SlotId} {e : Entry} (hi : slot i s = some e) (h : Served j s) :
    Served j (retireEntry i e s) := by
  have kept : keepsEntries (Machine.setSlot i (some { e with life := .retiring }) s) (Machine.retireEntry i e s) := by
    refine Acts.rel (K := fun k => k = .claims ∨ k = .freed) ?_ keepsEntries_refl (fun _ _ _ => keepsEntries_trans)
      fun k s t hk a => a.entriesKept (by rcases hk with rfl | rfl <;> simp)
    have ended := ((abandonRecall_ripples i false
      (Machine.setSlot i (some { e with life := .retiring }) s)).trans (endWaits_ripples i .retired _)).trans
      (leaveBothLists_ripples i _)
    exact (Ripples.within ended (Or.inl rfl)).trans ((freeIfRetired_acts i _).mono fun _ => Or.inr)
  by_cases hj : j = i
  · subst hj
    refine served_of_not_open fun e' he' life => ?_
    obtain ⟨f, hf, -, hl, -⟩ := kept j e' he'
    rw [slot_setSlot_same] at hf
    cases hf
    simp [hl] at life
  · have marked : Served j (Machine.setSlot i (some { e with life := .retiring }) s) :=
      h.setSlot hi fun e' he' life _ => by cases he'; cases life
    exact ((Served.endWaits_ne .retired hj (marked.abandonRecall i false)).leaveBothLists
      fun e => absurd e hj).freeIfRetired

theorem Served.ownRetire (a : Vector Word 4) (h : Served j s) : Served j (ownRetire a s).1 := by
  unfold Machine.ownRetire
  split
  · exact h
  · split
    · exact h
    · next found =>
      split
      · exact h
      · exact h.retireEntry (lookup_some found).1

theorem slot_freeSlot_same (i : SlotId) (s : State) : slot i (freeSlot i s) = none := by
  unfold freeSlot
  split
  · assumption
  · exact tget_tset_same _ _ _

theorem Served.withdrawEntry (i : SlotId) (h : Served j s) : Served j (withdrawEntry i s) := by
  by_cases hj : j = i
  · subst hj; exact served_of_slot_none (slot_freeSlot_same j _)
  · refine (Served.leaveBothLists ?_ fun e => absurd e hj).freeSlot
    unfold revokeHolders
    have ended := Served.endWaits_ne .withdrawn hj (h.abandonRecall i false)
    split
    · exact ended
    · exact ended.foldl _ (fun s x hs => hs.depart i x.node _) _

theorem Served.ownWithdraw (a : Vector Word 4) (h : Served j s) : Served j (ownWithdraw a s).1 := by
  unfold Machine.ownWithdraw
  split
  · exact h
  · split
    · exact h
    · exact h.withdrawEntry _

theorem Served.ownSetNode (a : Vector Word 4) (h : Served j s) : Served j (ownSetNode a s).1 :=
  (ownSetNode_acts a s).served (by rintro k ⟨n, rfl⟩; rfl) h

theorem Served.ownEvict (a : Vector Word 4) (h : Served j s) : Served j (ownEvict a s).1 := by
  unfold Machine.ownEvict
  split
  · exact h
  · next n _ =>
    refine Served.modNode n _ ?_
    split
    · exact h.sessionEnd n .evicted
    · exact h

/-- CLEAR_CLAIMS leaves no waits. -/
theorem Served.ownClearClaims (a : Vector Word 4) : Served j (ownClearClaims a s).1 :=
  served_of_not_open fun e he _ => headGrantable_of_queue_nil (clear_empty s j e he).2.1

theorem Served.ownHalt (a : Vector Word 4) (h : Served j s) : Served j (ownHalt a s).1 := by
  unfold Machine.ownHalt
  split
  · exact h
  · exact served_of_halted rfl

theorem Served.resumeVisit (i : SlotId) (h : Served j s) : Served j (resumeVisit s i) := by
  unfold Machine.resumeVisit
  split
  · exact h.grantPass i
  · exact h

/-- The visit of RESUME leaves the visited slot served: the pass has run, or there was nothing to serve (R58). -/
theorem resumeVisit_serves (i : SlotId) (s : State) : Served i (resumeVisit s i) := by
  unfold resumeVisit
  split
  · exact grantPass_serves i s
  · next skipped =>
    intro _ ho
    cases hs : slot i s with
    | none => simp [headOpen, hs] at ho
    | some e =>
      simp only [headOpen_some hs, Bool.and_eq_true, decide_eq_true_eq] at ho
      obtain ⟨life, grantable⟩ := ho
      have waits : e.queue.isEmpty = false := by
        cases hq : e.queue with
        | nil => simp [headGrantable, hq] at grantable
        | cons => rfl
      simpa [hs, life, waits] using skipped

/-- Visiting every slot leaves every slot served (R58). -/
theorem resumePasses_serves (j : SlotId) (s : State) : Served j (resumePasses s) := by
  obtain ⟨before, after, split⟩ := List.append_of_mem (List.mem_finRange j)
  unfold resumePasses
  rw [split, List.foldl_append, List.foldl_cons]
  exact (resumeVisit_serves j _).foldl _ (fun s i hs => hs.resumeVisit i) after

theorem ownResume_of_halted (a : Vector Word 4) (halted : s.svp.halted = true) :
    (ownResume a s).1
      = resumePasses (handOutAll 8 (serveDeferred { s with svp := { s.svp with halted := false } })) := by
  unfold ownResume
  rw [if_pos halted]

theorem ownResume_of_running (a : Vector Word 4) (running : ¬ s.svp.halted = true) : (ownResume a s).1 = s := by
  unfold ownResume
  rw [if_neg running]

theorem Served.ownResume (a : Vector Word 4) (h : Served j s) : Served j (ownResume a s).1 := by
  by_cases halted : s.svp.halted = true
  · rw [ownResume_of_halted a halted]; exact resumePasses_serves j _
  · rw [ownResume_of_running a halted]; exact h

theorem Served.writeCommand (code : Word) (h : Served j s) : Served j (writeCommand code s) := by
  unfold Machine.writeCommand
  split
  · exact h.same rfl rfl
  · split <;> exact h.same rfl rfl

theorem Served.writeRegister (address : BitVec 4) (data : Word) (h : Served j s) :
    Served j (writeRegister address data s) := by
  unfold Machine.writeRegister
  split
  case h_1 => exact h.writeCommand data
  all_goals exact h.same rfl rfl

/-! ### Every command -/

theorem Served.ite {c : Prop} [Decidable c] {a b : State} (ha : c → Served j a) (hb : ¬ c → Served j b) :
    Served j (if c then a else b) := by
  split
  · exact ha ‹_›
  · exact hb ‹_›

theorem exec_served {c : Instr} (hx : exec c s = .next t) (h : Served j s) : Served j t := by
  cases c with
  | por => cases hx; exact served_of_halted rfl
  | timebaseStep => cases hx; exact (h.settleExpiries _).same rfl rfl
  | leaseExpiry n => cases hx; exact .ite (fun _ => h.takeExpiry (.lease n)) fun _ => h
  | waitDeadlineExpiry i n => cases hx; exact .ite (fun _ => h.takeExpiry (.wait i n)) fun _ => h
  | recallDeadline k => cases hx; exact .ite (fun _ => h.takeExpiry (.recallEnd k)) fun _ => h
  | backoffEnd p => cases hx; exact .ite (fun _ => h.takeExpiry (.backoff p)) fun _ => h
  | join r => exact Served.onRequest hx (h.decideRequest _ _ _ _ fun _ => h.decideJoin r.src) h
  | leave r => exact Served.onRequest hx (h.decideRequest _ _ _ _ fun _ => h.decideLeave r.src) h
  | claim r => exact Served.onRequest hx (h.decideRequest _ _ _ _ fun a => h.decideClaim r.src a) h
  | release r => exact Served.onRequest hx (h.decideRequest _ _ _ _ fun a => h.decideRelease r.src a) h
  | downgrade r => exact Served.onRequest hx (h.decideRequest _ _ _ _ fun a => h.decideDowngrade r.src a) h
  | cancel r => exact Served.onRequest hx (h.decideRequest _ _ _ _ fun a => h.decideCancel r.src a) h
  | renew | check | query | badKind => exact (exec_acts hx).served (fun _ => replyKinds_quiet) h
  | frameDropped | frameIgnored | noticeFrameSent | replySent | replyLost | endOfFrame | sofReceived | flagsWrite
  | enableWrite =>
    exact (exec_acts hx).served (by rintro k rfl; rfl) h
  | sendNotice => exact (exec_acts hx).served (by rintro k (rfl | rfl) <;> rfl) h
  | receiveError f =>
    simp only [exec, execReceiveError] at hx
    split at hx
    · cases hx; exact .ite (fun _ => h.same rfl rfl) fun _ => h
    · cases hx
  | arbitrationLoss pos =>
    cases hx
    exact .ite (fun _ => Served.same (s := endAttempt .interrupted (setLine .receiving s)) rfl rfl
      (Served.endAttempt .interrupted (h.same rfl rfl))) fun _ => h
  | bitError | ackWrongSequence | badCheckByte | notAnAcknowledgement | noReply =>
    cases hx; exact .ite (fun _ => h.fixOutcome .failure) fun _ => h
  | accept | announceDelivered => cases hx; exact .ite (fun _ => h.fixOutcome .delivered) fun _ => h
  | refuse => cases hx; exact .ite (fun _ => h.fixOutcome .refusal) fun _ => h
  | lineHold =>
    cases hx
    exact Served.setFlag .lineHeld (Served.endAttempt .interrupted ((h.settleExpiries reachedExpiries).setLine .held))
  | lineRelease => cases hx; exact .ite (fun _ => h.same rfl rfl) fun _ => h
  | provision => cases hx; exact h.runCommand _ _ (h.ownProvision _)
  | retire => cases hx; exact h.runCommand _ _ (h.ownRetire _)
  | withdraw => cases hx; exact h.runCommand _ _ (h.ownWithdraw _)
  | setNode => cases hx; exact h.runCommand _ _ (h.ownSetNode _)
  | evict => cases hx; exact h.runCommand _ _ (h.ownEvict _)
  | readResource => cases hx; exact h.runCommand _ _ (by rw [ownReadResource_state _ s]; exact h)
  | readHolder => cases hx; exact h.runCommand _ _ (by rw [ownReadHolder_state _ s]; exact h)
  | readWait => cases hx; exact h.runCommand _ _ (by rw [ownReadWait_state _ s]; exact h)
  | readNode => cases hx; exact h.runCommand _ _ (by rw [ownReadNode_state _ s]; exact h)
  | readPools => cases hx; exact h.runCommand _ _ h
  | setTiming =>
    cases hx
    exact h.runCommand _ _ ((ownSetTiming_acts _ s).served (by rintro k rfl; rfl) h)
  | clearClaims => cases hx; exact h.runCommand _ _ (Served.ownClearClaims _)
  | halt => cases hx; exact h.runCommand _ _ (h.ownHalt _)
  | resume => cases hx; exact h.runCommand _ _ (h.ownResume _)
  | badCommand code =>
    simp only [exec, execBadCommand] at hx
    split at hx
    · cases hx
    · cases hx; exact h.writeCommand code
  | cmdRefused code => cases hx; exact h.writeCommand code
  | commandWrite code => cases hx; exact h.writeCommand code
  | registerWrite a =>
    cases hx
    split
    · exact h.writeRegister _ _
    · exact h

/-- Settles O10: every command leaves every slot served (`exec_served`). -/
theorem headsStayServed : Obligations.HeadsStayServed := by
  intro s t hs h
  rw [headsServed_iff] at hs ⊢
  exact step_keeps (P := fun s => ∀ j, Served j s) (fun _ _ hs j => (hs j).same rfl rfl)
    (fun _ _ _ hx hs j => exec_served hx (hs j)) hs h

/-! ### Power-on reset -/

/-- Settles O2: the values of POR, block by block, with the model's own fields kept. -/
theorem porGivesEveryBlockItsValues : Obligations.PorGivesEveryBlockItsValues := fun _ _ _ => rfl

theorem slot_reset (i : SlotId) : slot i State.reset = none := tget_replicate none i

theorem node_reset (n : NodeId) : node n State.reset = NodeRecord.afterPor := tget_replicate _ n

theorem recallAt_reset (k : RecallId) : recallAt k State.reset = none := tget_replicate none k

/-- At reset the directory has no entry to gather from. -/
theorem gather_reset {α : Type} (f : Entry → List α) : (entries State.reset).flatMap f = [] :=
  gather_nil f _ fun i e h => by simp [slot_reset] at h

theorem allHoldings_reset : allHoldings State.reset = [] := gather_reset _

theorem waitsQueued_reset : waitsQueued State.reset = [] := gather_reset _

/-- Settles O3: at reset no slot is IN_USE, no recall runs, and every node record has its POR values. -/
theorem resetIsLawful : Obligations.ResetIsLawful := by
  refine ⟨?holders, ?members, ?pools, ?tokens, ?counts, ?retiring, ?notices, ?recalls, ?lists, ?nodes, ?ids, ?served⟩
  case holders => exact fun i e h => by simp [slot_reset] at h
  case members => exact fun i e h => by simp [slot_reset] at h
  case pools => exact ⟨by rw [allHoldings_reset]; rfl, by rw [waitsQueued_reset]; rfl⟩
  case tokens =>
    rw [tokensLawful, allHoldings_reset]
    exact ⟨.nil, by simp, by decide⟩
  case counts =>
    intro n
    rw [node_reset, holdingsOf, waitsOf, allHoldings_reset, waitsQueued_reset]
    exact ⟨rfl, rfl⟩
  case retiring => exact fun i e h => by simp [slot_reset] at h
  case notices => exact ⟨by decide, by decide, by decide⟩
  case recalls => exact ⟨.nil, fun k => by rw [recallAt_reset]; simp [State.reset, State.afterPor]⟩
  case lists => exact ⟨.nil, .nil⟩
  case nodes => exact fun n => by rw [node_reset]; simp [NodeRecord.afterPor]
  case ids => exact fun i j e f h => by simp [slot_reset] at h
  case served => exact fun _ i e h => by simp [slot_reset] at h

end Sys2Proof.Machine
end

section
/-!
PROOF. Checks and frames (R110, R111, R131, R165), the token draw (R10), lookup (R3), and the bodies of the requests
(section 11.2).
-/

namespace Sys2Proof.Machine

/-! ### The CRC-8 (R131) -/

/-- A bit equal to the register's top bit shifts the register, and each bit of the register comes to the top in turn. -/
theorem crcBit_shift (reg : Byte) {k : Nat} (hk : k < 8) :
    crcBit (reg <<< k) (reg.getLsbD (7 - k)) = reg <<< (k + 1) := by
  have top : (reg <<< k).msb = reg.getLsbD (7 - k) := by
    rw [BitVec.msb_shiftLeft, BitVec.getMsbD]
    simp [hk]
  rw [crcBit, if_pos top, BitVec.shiftLeft_add]

/-- A register that takes in its own bits ends at 0. -/
theorem crc_self (reg : Byte) : (byteBits reg).foldl crcBit reg = 0#8 := by
  have start : reg = reg <<< 0 := (BitVec.shiftLeft_zero reg).symm
  calc (byteBits reg).foldl crcBit reg = (byteBits reg).foldl crcBit (reg <<< 0) := by rw [← start]
    _ = reg <<< 8 := by
      simp only [byteBits, List.foldl_cons, List.foldl_nil]
      rw [crcBit_shift reg (k := 0) (by omega), crcBit_shift reg (k := 1) (by omega),
        crcBit_shift reg (k := 2) (by omega), crcBit_shift reg (k := 3) (by omega),
        crcBit_shift reg (k := 4) (by omega), crcBit_shift reg (k := 5) (by omega),
        crcBit_shift reg (k := 6) (by omega), crcBit_shift reg (k := 7) (by omega)]
    _ = 0#8 := BitVec.shiftLeft_eq_zero (by omega)

/-- Settles O14: the check byte is the register, and a register that takes in its own bits ends at 0. -/
theorem checkedBytesLeaveNoRemainder : Obligations.CheckedBytesLeaveNoRemainder := by
  intro bytes
  have bits : bytesBits (bytes ++ [crc8 bytes]) = bytesBits bytes ++ byteBits (crc8 bytes) := by simp [bytesBits]
  rw [crc8, bits, List.foldl_append]
  exact crc_self (crc8 bytes)

/-! ### Request frames (R110, R111) -/

/-- A word of three bytes, cut into its bytes and put together again. -/
theorem threeBytes_append (w : BitVec 24) : w.extractLsb' 16 8 ++ w.extractLsb' 8 8 ++ w.extractLsb' 0 8 = w := by
  rw [BitVec.extractLsb'_append_extractLsb'_eq_extractLsb' (by rfl),
    BitVec.extractLsb'_append_extractLsb'_eq_extractLsb' (by rfl)]
  exact BitVec.extractLsb'_eq_self

/-- The header fields are read back from the header bytes (R164). -/
theorem headerOf_headerBytes (h : Header) :
    headerOf ((headerBits h).extractLsb' 16 8) ((headerBits h).extractLsb' 8 8) ((headerBits h).extractLsb' 0 8)
      = h := by
  obtain ⟨prio, kind, src, dest, version, seq, len⟩ := h
  unfold headerOf
  dsimp only
  rw [threeBytes_append, headerBits, Header.mk.injEq]
  refine ⟨?_, ?_, ?_, ?_, ?_, ?_, BitVec.extractLsb'_append_eq_right⟩ <;>
    simp (disch := omega) only [BitVec.extractLsb'_append_eq_of_le]
  case refine_1 => exact BitVec.extractLsb'_eq_self
  all_goals exact BitVec.extractLsb'_append_eq_right

/-- The destination field stands in the low five bits of the second header byte. -/
theorem headerBits_destination (h : Header) {j : Nat} (hj : j < 5) :
    ((headerBits h).extractLsb' 8 8).getLsbD j = h.dest.getLsbD j := by
  have low : (headerBits h).getLsbD (8 + j) = h.dest.getLsbD j := by
    simp only [headerBits, BitVec.getLsbD_append]
    rw [if_neg (by omega), if_neg (by omega), if_neg (by omega), if_pos (by omega)]
    congr 1
    omega
  rw [BitVec.getLsbD_extractLsb', low]
  simp only [show j < 8 by omega, decide_true, Bool.true_and]

/-- The destination bits of a frame are those of its header. -/
theorem destinationOf_frame (h : Header) (rest : List Byte) :
    destinationOf (bytesBits (headerBytes h ++ rest))
      = some [h.dest.getLsbD 4, h.dest.getLsbD 3, h.dest.getLsbD 2, h.dest.getLsbD 1, h.dest.getLsbD 0] := by
  have long : 16 ≤ (bytesBits (headerBytes h ++ rest)).length := by
    simp [bytesBits, headerBytes, byteBits]
  let low := (headerBits h).extractLsb' 8 8
  have field : ((bytesBits (headerBytes h ++ rest)).drop 11).take 5
      = [low.getLsbD 4, low.getLsbD 3, low.getLsbD 2, low.getLsbD 1, low.getLsbD 0] := rfl
  rw [destinationOf, if_pos long, field, headerBits_destination h (by omega), headerBits_destination h (by omega),
    headerBits_destination h (by omega), headerBits_destination h (by omega), headerBits_destination h (by omega)]

theorem nodeOf_nodeNumber (n : NodeId) : nodeOf (nodeNumber n) = some n := by
  have range : 1 ≤ nodeNumber n ∧ nodeNumber n ≤ 30 := by unfold nodeNumber; omega
  rw [nodeOf, dif_pos range]
  rfl

/-- What a frame with a good check, for the part and of the length that its header gives, is read as (R110, R111). -/
theorem parseFrame_frame (h : Header) (body : List Byte) (forPart : h.dest = 0#5) (len : h.len.toNat = body.length) :
    parseFrame (bytesBits (frameBytes h body)) = verdictOf h body := by
  have dest : (destinationOf (bytesBits (frameBytes h body))).any (· ≠ [false, false, false, false, false])
      = false := by
    rw [frameBytes, List.append_assoc, destinationOf_frame]
    simp [forPart]
  obtain ⟨first, rest, tail⟩ : ∃ first rest, body ++ [crc8 (headerBytes h ++ body)] = first :: rest := by
    cases body with
    | nil => exact ⟨_, _, rfl⟩
    | cons b bs => exact ⟨_, _, rfl⟩
  have whole : frameBytes h body
      = (headerBits h).extractLsb' 16 8 :: (headerBits h).extractLsb' 8 8 :: (headerBits h).extractLsb' 0 8
        :: first :: rest := by
    rw [frameBytes, List.append_assoc, tail]
    rfl
  unfold parseFrame
  rw [dest, bytesOfBits_bytesBits, whole]
  dsimp only
  rw [headerOf_headerBytes, ← tail, List.dropLast_concat, List.getLast?_concat]
  simp only [len, headerBytes, true_and, if_true, Bool.false_eq_true, if_false]

/-- Settles O13: the frame's header is read back field by field, and its length and check are right. -/
theorem requestFramesParse : Obligations.RequestFramesParse := by
  intro kind r fits
  have short : r.body.length ≤ 7 := of_decide_eq_true fits
  have length : (requestHeader kind r).len.toNat = r.body.length := by
    simp only [requestHeader, BitVec.toNat_ofNat]
    omega
  have source : (requestHeader kind r).src.toNat = nodeNumber r.src := by
    simp only [requestHeader, BitVec.toNat_ofNat, nodeNumber]
    omega
  rw [requestBits, parseFrame_frame _ _ rfl length, verdictOf, source, nodeOf_nodeNumber]
  rfl

/-! ### Acknowledgements (R165) -/

section
variable (marker : BitVec 4) (refuse : Bool) (echo : BitVec 3)

theorem ack_marker : (marker ++ BitVec.ofBool refuse ++ echo : Byte).extractLsb' 4 4 = marker := by
  simp (disch := omega) only [BitVec.extractLsb'_append_eq_of_le]
  exact BitVec.extractLsb'_eq_self

theorem ack_echo : (marker ++ BitVec.ofBool refuse ++ echo : Byte).extractLsb' 0 3 = echo :=
  BitVec.extractLsb'_append_eq_right

theorem ack_refuse : (marker ++ BitVec.ofBool refuse ++ echo : Byte).getLsbD 3 = refuse := by
  rw [BitVec.getLsbD_append, if_neg (by omega), BitVec.getLsbD_append, if_pos (by omega)]
  simp

/-- The five tests of R165 on a two-byte reply, by the fields of its acknowledgement byte. -/
theorem classifyAck_fields (frameCheck check : Byte) (seq : BitVec 3) :
    classifyAck frameCheck seq [marker ++ BitVec.ofBool refuse ++ echo, check]
      = if replyCheck frameCheck [marker ++ BitVec.ofBool refuse ++ echo] ≠ check then .badCheck
        else if marker ≠ 0b0101#4 then .notAcknowledgement
        else if echo ≠ seq then .wrongSequence
        else if refuse then .refused
        else .accepted := by
  rw [classifyAck, ack_marker, ack_echo, ack_refuse]

end

theorem classifyAck_length {frameCheck : Byte} {seq : BitVec 3} {reply : List Byte} (h : reply.length ≠ 2) :
    classifyAck frameCheck seq reply = .notAcknowledgement := by
  match reply with
  | [] | [_] | _ :: _ :: _ :: _ => rfl
  | [_, _] => exact absurd rfl h

/-- Settles O15. -/
theorem acknowledgementsAreClassified : Obligations.AcknowledgementsAreClassified := by
  intro frameCheck marker refuse echo seq check reply bits ack
  refine ⟨fun bad => ?badCheck, fun other => ?marker, fun known other => ?sequence, fun known same => ?good,
    classifyAck_length, classifyReply_bytesBits frameCheck seq reply, classifyReply_length frameCheck seq bits⟩
  all_goals rw [classifyAck_fields]
  case badCheck => exact if_pos (Ne.symm bad)
  all_goals rw [if_neg (not_not_intro (by rfl))]
  case marker => exact if_pos other
  all_goals rw [if_neg (not_not_intro known)]
  case sequence => exact if_pos other
  case good => exact if_neg (not_not_intro same)

/-! ### The token draw (R10) and lookup (R3) -/

/-- The candidates passed over are all live. -/
theorem firstFree_skips (live : List Token) (tries : Nat) (t : Token) :
    ∃ skipped, firstFree live tries t = tokenAfter^[skipped] t ∧ ∀ k < skipped, tokenAfter^[k] t ∈ live := by
  induction tries generalizing t with
  | zero => exact ⟨0, rfl, fun k hk => absurd hk (Nat.not_lt_zero k)⟩
  | succ tries ih =>
    unfold firstFree
    split
    · next taken =>
      obtain ⟨skipped, drawn, passed⟩ := ih (tokenAfter t)
      refine ⟨skipped + 1, drawn, fun k hk => ?_⟩
      cases k with
      | zero => simpa using taken
      | succ k => exact passed k (by omega)
    · exact ⟨0, rfl, fun k hk => absurd hk (Nat.not_lt_zero k)⟩

/-- Settles O16: what is passed over is live (`firstFree_skips`), and the pools bound the live tokens, so that the draw
ends at one that is not (`drawnToken_fresh`). -/
theorem drawnTokenIsFresh : Obligations.DrawnTokenIsFresh := by
  intro s pools next
  have bounded : (allHoldings s).length < 2 ^ 24 - 1 := by
    have := pools.1
    simp only [Config.holdingRecords] at this
    omega
  obtain ⟨fresh, nonzero⟩ := drawnToken_fresh next bounded
  obtain ⟨skipped, drawn, passed⟩ := firstFree_skips (liveTokens s) (liveTokens s).length s.dir.nextToken
  refine ⟨skipped, drawn, nonzero, fun h hh ht => fresh (ht ▸ List.mem_map_of_mem hh), fun k hk => ?_⟩
  have live := passed k hk
  rw [liveTokens_eq, List.mem_map] at live
  exact live

/-- Lookup finds the slot that has the id, when no other has it (R3). -/
theorem lookup_of_slot {id : ResourceId} {s : State} {i : SlotId} {e : Entry} (distinct : idsDistinct s)
    (hi : slot i s = some e) (hid : e.id = id) : lookup id s = some (i, e) := by
  cases found : lookup id s with
  | none => exact absurd hid (lookup_none found i e hi)
  | some p =>
    obtain ⟨j, f⟩ := p
    obtain ⟨hj, hf⟩ := lookup_some found
    obtain rfl : i = j := distinct i j e f hi hj (hid.trans hf.symm)
    obtain rfl : e = f := by simpa [hi] using hj
    rfl

/-- Settles O17. -/
theorem lookupFindsTheId : Obligations.LookupFindsTheId := by
  intro id s distinct
  refine ⟨fun i e => lookup_of_slot distinct, fun absent => ?_⟩
  cases found : lookup id s with
  | none => rfl
  | some p =>
    obtain ⟨hi, hid⟩ := lookup_some found
    exact absurd hid (absent p.1 p.2 hi)

/-! ### Request bodies (section 11.2) -/

theorem readId_bytes (id : ResourceId) :
    readId (id.extractLsb' 8 8) (id.extractLsb' 0 8) = if id ≠ 0x0000#16 ∧ id ≠ 0xFFFF#16 then some id else none := by
  have whole : id.extractLsb' 8 8 ++ id.extractLsb' 0 8 = id := by
    rw [BitVec.extractLsb'_append_extractLsb'_eq_extractLsb' (by rfl)]
    exact BitVec.extractLsb'_eq_self
  unfold readId
  rw [whole]
  simp [validId]

theorem readToken_bytes (token : Token) :
    readToken (token.extractLsb' 16 8) (token.extractLsb' 8 8) (token.extractLsb' 0 8)
      = if token ≠ 0#24 then some token else none := by
  unfold readToken
  rw [threeBytes_append]
  simp

section
variable (zeros mode : BitVec 2) (limit : BitVec 4)

theorem claimByte_zeros : (zeros ++ mode ++ limit : Byte).extractLsb' 6 2 = zeros := by
  simp (disch := omega) only [BitVec.extractLsb'_append_eq_of_le]
  exact BitVec.extractLsb'_eq_self

theorem claimByte_mode : (zeros ++ mode ++ limit : Byte).extractLsb' 4 2 = mode := by
  simp (disch := omega) only [BitVec.extractLsb'_append_eq_of_le]
  exact BitVec.extractLsb'_append_eq_right

theorem claimByte_limit : (zeros ++ mode ++ limit : Byte).extractLsb' 0 4 = limit :=
  BitVec.extractLsb'_append_eq_right

end

theorem nodeOf_outside {k : Nat} (h : k = 0 ∨ 30 < k) : nodeOf k = none :=
  dif_neg (by omega)

/-- Settles O26: each body is put together from its fields, and the fields are read back from it. -/
theorem requestBodiesAreRead : Obligations.RequestBodiesAreRead := by
  intro id token limit mode zeros holder b hi lo idGood
  refine ⟨fun h => ?claimLength, fun h => ?tokenLength, fun h => ?checkLength, fun h => ?idLength, ?id, ?token,
    ?claim, fun n hn => ?check, fun outside => ?checkOutside⟩
  case claimLength =>
    match b with
    | [] | [_] | [_, _] | _ :: _ :: _ :: _ :: _ => rfl
    | [_, _, _] => exact absurd rfl h
  case tokenLength =>
    match b with
    | [] | [_] | [_, _] | [_, _, _] | [_, _, _, _] | _ :: _ :: _ :: _ :: _ :: _ :: _ => rfl
    | [_, _, _, _, _] => exact absurd rfl h
  case checkLength =>
    match b with
    | [] | [_] | [_, _] | [_, _, _] | [_, _, _, _] | [_, _, _, _, _] | _ :: _ :: _ :: _ :: _ :: _ :: _ :: _ => rfl
    | [_, _, _, _, _, _] => exact absurd rfl h
  case idLength =>
    match b with
    | [] | [_] | _ :: _ :: _ :: _ => rfl
    | [_, _] => exact absurd rfl h
  case id => exact readId_bytes id
  case token =>
    simp only [tokenBytes, readTokenArgs, hi, lo, readId_bytes, readToken_bytes, idGood]
    by_cases good : id ≠ 0x0000#16 ∧ id ≠ 0xFFFF#16 <;> by_cases nonzero : token ≠ 0#24 <;>
      simp [good, nonzero]
  case claim =>
    simp only [readClaim, hi, lo, readId_bytes, claimByte_mode, claimByte_zeros, claimByte_limit, readMode, idGood]
    by_cases good : id ≠ 0x0000#16 ∧ id ≠ 0xFFFF#16
    · by_cases shared : mode = 1#2
      · simp [good, shared]
      · by_cases exclusive : mode = 2#2 <;> simp [good, shared, exclusive]
    · simp [good]
  case check =>
    simp only [tokenBytes, readCheck, hi, lo, readId_bytes, readToken_bytes, hn, nodeOf_nodeNumber, idGood]
    by_cases good : id ≠ 0x0000#16 ∧ id ≠ 0xFFFF#16 <;> by_cases nonzero : token ≠ 0#24 <;>
      simp [good, nonzero]
  case checkOutside =>
    simp only [tokenBytes, readCheck, nodeOf_outside outside]
    cases readId hi lo <;> rfl

end Sys2Proof.Machine
end

section
/-!
PROOF. Time and the line (chapters 8 and 9): millisecond steps and back-off ends, frames not taken, line hold and
release, and the unknown commands of the window (R155).
-/

namespace Sys2Proof.Machine

variable {s : State}

/-! ### Expiries none of which is due -/

theorem takeExpiries_of_nil {due : State → List Expiry} (none : due s = []) (fuel : Nat) :
    takeExpiries due fuel s = s := by
  cases fuel with
  | zero => rfl
  | succ fuel => rw [takeExpiries, none]

theorem settleExpiries_of_nil {due : State → List Expiry} (none : due s = []) : settleExpiries due s = s :=
  takeExpiries_of_nil none _

theorem holdExpiries_of_none (none : ∀ x, expiryReached x s = false) : holdExpiries s = [] := by
  unfold holdExpiries
  split
  · simp [none]
  · rfl

theorem reachedExpiries_of_none (none : ∀ x, expiryReached x s = false) : reachedExpiries s = [] := by
  simp [reachedExpiries, holdExpiries_of_none none, none]

theorem settleReached_of_none (none : ∀ x, expiryReached x s = false) : settleExpiries reachedExpiries s = s :=
  settleExpiries_of_nil (reachedExpiries_of_none none)

theorem settleHold_of_none (none : ∀ x, expiryReached x s = false) : settleExpiries holdExpiries s = s :=
  settleExpiries_of_nil (holdExpiries_of_none none)

/-! ### Clocks -/

theorem exec_timebaseStep (s : State) :
    exec .timebaseStep s = .next (advanceClocks (settleExpiries reachedExpiries s)) := rfl

/-- The clocks after a step, with the conditions in which they stand named by the state (R143). -/
theorem advanceClocks_eq (s : State) :
    advanceClocks s =
      { s with
        dlu :=
          { s.dlu with
            leaseClock := if s.lif.lineState = .held then s.dlu.leaseClock else s.dlu.leaseClock + 1
            holdClock := if s.lif.lineState = .held ∨ s.svp.halted = true then s.dlu.holdClock
              else s.dlu.holdClock + 1
            noticeClock := if s.lif.lineState = .held then s.dlu.noticeClock else s.dlu.noticeClock + 1 } } := by
  by_cases held : s.lif.lineState = .held <;> cases halted : s.svp.halted <;>
    simp [advanceClocks, lineRuns, holdRuns, held, halted]

/-- Settles O18. -/
theorem timebaseStepAdvancesRunningClocks : Obligations.TimebaseStepAdvancesRunningClocks := by
  intro s none
  rw [exec_timebaseStep, settleReached_of_none none, advanceClocks_eq]

theorem exec_backoffEnd (place : Fin 16) (s : State) :
    exec (.backoffEnd place) s = .next (if backoffReached place.val s then backoffOver place.val s else s) := rfl

/-- Settles O19. -/
theorem backoffEndsInReady : Obligations.BackoffEndsInReady := by
  intro place e s released here backoff
  have reached : backoffReached place.val s = true := by simp [backoffReached, lineRuns, released, here, backoff]
  have ended : backoffOver place.val s = setEntry place.val { e with state := .ready } s := by
    rw [backoffOver, here]
  rw [exec_backoffEnd, if_pos reached, ended]
  rfl

/-! ### Frames not taken (R111, R129, R130, R133, R134) -/

/-- A line state with no frame being received or sent is `lineIn` written out. -/
theorem setLine_eq_lineIn (l : LineState) (s : State) : setLine l s = lineIn l s := rfl

theorem classifyPulse_sof {d : Nat} (low : 1500 ≤ d) (high : d ≤ 3000) : classifyPulse d = .sof := by
  unfold classifyPulse
  rw [if_neg (by omega), if_neg (by omega), if_neg (by omega), if_neg (by omega), if_pos high]

theorem isStartError_of_range {d : Nat} (h : (125 ≤ d ∧ d < 1500) ∨ (3000 < d ∧ d < 8000)) :
    isStartError d = true := by
  grind [isStartError, classifyPulse]

theorem isDataError_of_range {d : Nat} (low : 1250 < d) (high : d < 8000) : isDataError d = true := by
  grind [isDataError, classifyPulse]

theorem spacingError_of_range {g : Nat} (h : g < 875 ∨ (1500 < g ∧ g < 3000)) : spacingError g = true := by
  simp only [spacingError, Bool.or_eq_true, Bool.and_eq_true, decide_eq_true_eq]
  exact h

theorem entryInFlight_none (h : ∀ e ∈ s.nq, isInFlight e = false) : entryInFlight s = none := by
  have absent : s.nq.findIdx? isInFlight = none := List.findIdx?_eq_none_iff.mpr h
  rw [entryInFlight, absent]
  rfl

theorem announceOnLine_of_none (h : ∀ e ∈ s.nq, isInFlight e = false) : announceOnLine s = false := by
  simp [announceOnLine, entryInFlight_none h]

theorem exec_receiveError {f : ReceiveFault} (wellFormed : f.wellFormed = true) (arrives : faultArrives f s = true) :
    exec (.receiveError f) s = .next (flagged 0x400#11 (lineIn .trailing s)) := by
  show execReceiveError f s = _
  rw [execReceiveError, if_pos wellFormed, if_pos arrives]
  rfl

/-- Settles O42: each event's row is taken in its line state, and a receive error also sets FRAME_ERROR. -/
theorem framesNotTakenMoveTheLineOnly : Obligations.FramesNotTakenMoveTheLineOnly := by
  intro s moved failed
  refine ⟨fun d low high idle => ?sof, fun dest other receiving => ?ignored, fun f short bad arrives => ?dropped,
    fun replying => ?reply, fun ignoring => ?endIgnoring, fun trailing free => ?endTrailing,
    fun d range idle => ?startError, fun d low high receiving => ?dataError, fun g range receiving => ?spacing,
    fun bits bad arrives => ?badFrame⟩
  case sof => exact (if_pos (classifyPulse_sof low high)).trans (congrArg _ (if_pos idle))
  case ignored => exact (if_pos other).trans (congrArg _ (if_pos receiving))
  case dropped =>
    have wellFormed : f.wellFormed = true := by
      simp only [DroppedFrame.wellFormed, Bool.and_eq_true, Bool.or_eq_true, decide_eq_true_eq]
      exact ⟨short, or_assoc.mpr bad⟩
    exact (if_pos wellFormed).trans (congrArg _ (if_pos arrives))
  case reply => exact ⟨congrArg _ (if_pos replying), congrArg _ (if_pos replying)⟩
  case endIgnoring => exact congrArg _ (if_pos (.inl ignoring))
  case endTrailing =>
    have ended : ¬ announceOnLine s = true := by simp [announceOnLine_of_none free]
    exact congrArg _ (if_pos (.inr ⟨trailing, ended⟩))
  case startError => exact exec_receiveError (isStartError_of_range range) (decide_eq_true idle)
  case dataError => exact exec_receiveError (isDataError_of_range low high) (decide_eq_true receiving)
  case spacing => exact exec_receiveError (spacingError_of_range range) (decide_eq_true receiving)
  case badFrame => exact exec_receiveError (decide_eq_true bad) arrives

/-! ### Unknown commands (R155) -/

/-- Settles O57: the write starts the command and completes it at once, or is refused as any other. -/
theorem unknownCommandsFail : Obligations.UnknownCommandsFail := by
  intro code s unknown
  have notCommand : isCommandCode code = false := by
    rw [Bool.eq_false_iff, Ne, isCommandCode_iff]
    omega
  have bad : exec (.badCommand code) s = .next (writeCommand code s) := by
    show execBadCommand code s = _
    rw [execBadCommand, notCommand]
    rfl
  refine ⟨fun ended => ?fails, fun run => ?refused⟩
  case fails =>
    have fails : writeCommand code s = complete (.failed .badCommand) (startCommand code s) := by
      rw [writeCommand, if_neg ended, notCommand]
      rfl
    rw [bad, exec_commandWrite, fails]
    exact ⟨rfl, rfl, rfl⟩
  case refused => rw [bad, writeCommand_of_running code run]

end Sys2Proof.Machine
end

section
/-!
SUPPORT. Exact effects of the shared operations where little or nothing follows from what they free: no resource deferred,
none waiting for a recall slot, no target waiting for a notice entry (R56, R68, R69, R100).
-/

namespace Sys2Proof.Machine

variable {s : State} {i : SlotId} {e : Entry} {n : NodeId}

/-! ### The two lists (R9) -/

theorem filter_ne_of_not_mem {l : List SlotId} (h : i ∉ l) : l.filter (· ≠ i) = l :=
  List.filter_eq_self.mpr fun _ hj => decide_eq_true fun e => h (e ▸ hj)

theorem leaveDeferred_of_not_mem (h : i ∉ s.dir.deferred) : leaveDeferred i s = s := by
  rw [leaveDeferred, filter_ne_of_not_mem h]

theorem leaveStartList_of_not_mem (h : i ∉ s.rct.startList) : leaveStartList i s = s := by
  rw [leaveStartList, filter_ne_of_not_mem h]

theorem leaveBothLists_of_not_mem (h1 : i ∉ s.dir.deferred) (h2 : i ∉ s.rct.startList) : leaveBothLists i s = s := by
  rw [leaveBothLists, leaveDeferred_of_not_mem h1, leaveStartList_of_not_mem h2]

/-! ### Serving and the arbiter (R56, R69, R100) -/

theorem serveDeferred_of_nil (h : s.dir.deferred = []) : serveDeferred s = s := by
  unfold serveDeferred
  split
  · rfl
  · rw [h]; rfl

theorem takeFreeEntry_of_none (h : firstPending s = none) : takeFreeEntry s = s := by
  rw [takeFreeEntry, h]

theorem arbiter_of_noOneServed (h : noOneServed s) : arbiter s = s := by
  obtain ⟨deferred, -, pending⟩ := h
  unfold arbiter
  rw [serveDeferred_of_nil deferred]
  dsimp only
  split
  · rfl
  · exact takeFreeEntry_of_none pending

theorem removeEntry_of_noOneServed (place : Nat) (h : noOneServed s) :
    removeEntry place s = { s with nq := s.nq.eraseIdx place } :=
  arbiter_of_noOneServed (s := { s with nq := s.nq.eraseIdx place }) h

/-- No target is PENDING: none of a recall that stands in the start order (R69). -/
theorem firstPending_eq_none :
    firstPending s = none
      ↔ ∀ k ∈ s.rct.startOrder, ∀ r, recallAt k s = some r → ∀ t ∈ r.targets, t.status ≠ .pending := by
  simp [firstPending]

theorem handOut_of_nil (h : s.rct.startList = []) : handOut s = s := by
  unfold handOut
  split
  · rfl
  · rw [h]; rfl

/-- A notice queued in a state where the node's notice sequence is that of `s` (R98). -/
theorem queueNotice_of_seq {u : State} (msg : NoticeMsg) (hu : (node n u).noticeSeq = (node n s).noticeSeq) :
    queueNotice n msg u
      = { u with
          nq := u.nq ++ [queuedEntry n msg s]
          nodes := tset u.nodes n { node n u with noticeSeq := (node n s).noticeSeq + 1 } } := by
  rw [← hu, queuedEntry, ← hu]
  rfl

/-! ### Taking back (R106, R107) -/

/-- The element that a search finds, and the list without it. -/
theorem eraseIdx_of_findIdx? {α : Type} {p : α → Bool} {l : List α} {place : Nat} (found : l.findIdx? p = some place) :
    ∃ left x right, l = left ++ x :: right ∧ p x = true ∧ l.eraseIdx place = left ++ right := by
  obtain ⟨hlt, hp, -⟩ := List.findIdx?_eq_some_iff_getElem.mp found
  exact ⟨l.take place, l[place], l.drop (place + 1), by simp, hp, List.eraseIdx_eq_take_drop_succ l place⟩

/-- Removing entries one by one, where no one is served by those freed, leaves those that do not meet the test. -/
theorem removeEntries_of_noOneServed {p : NoticeEntry → Bool} {fuel : Nat} (h : noOneServed s)
    (enough : s.nq.countP p ≤ fuel) : removeEntries p fuel s = { s with nq := s.nq.filter fun x => !p x } := by
  induction fuel generalizing s with
  | zero =>
    have none : ∀ x ∈ s.nq, (!p x) = true := by simpa [List.countP_eq_zero] using enough
    rw [removeEntries, List.filter_eq_self.mpr none]
  | succ fuel ih =>
    unfold removeEntries
    split
    · next none =>
      have none : ∀ x ∈ s.nq, (!p x) = true := by simpa [List.findIdx?_eq_none_iff] using none
      rw [List.filter_eq_self.mpr none]
    · next place found =>
      obtain ⟨left, x, right, whole, hp, erased⟩ := eraseIdx_of_findIdx? found
      rw [removeEntry_of_noOneServed place h, ih (s := { s with nq := s.nq.eraseIdx place }) h ?enough]
      case enough =>
        rw [whole, List.countP_append, List.countP_cons_of_pos hp] at enough
        rw [erased, List.countP_append]
        omega
      dsimp only
      rw [erased, whole, List.filter_append, List.filter_append, List.filter_cons_of_neg (by simp [hp])]

theorem takeBack_of_none {p : NoticeEntry → Bool} (none : ∀ x ∈ s.nq, p x = false) : takeBack p s = s := by
  have marked : (s.nq.map fun x => if p x then markDiscard x else x) = s.nq := by
    conv_rhs => rw [← List.map_id s.nq]
    exact List.map_congr_left fun x hx => by simp [none x hx]
  have idle (fuel : Nat) : removeEntries (fun x => p x && !isInFlight x) fuel s = s := by
    cases fuel with
    | zero => rfl
    | succ fuel =>
      have absent : s.nq.findIdx? (fun x => p x && !isInFlight x) = Option.none :=
        List.findIdx?_eq_none_iff.mpr fun x hx => by simp [none x hx]
      rw [removeEntries, absent]
  rw [takeBack, marked]
  exact idle _

/-- Where no one is served by what is freed, and none of them is IN_FLIGHT, taking back removes the entries that meet
the test. -/
theorem takeBack_of_noOneServed {p : NoticeEntry → Bool} (h : noOneServed s)
    (idle : ∀ x ∈ s.nq, p x = true → isInFlight x = false) :
    takeBack p s = { s with nq := s.nq.filter fun x => !p x } := by
  have marked : (s.nq.map fun x => if p x then markDiscard x else x) = s.nq := by
    conv_rhs => rw [← List.map_id s.nq]
    refine List.map_congr_left fun x hx => ?_
    split
    · next hp =>
      have notInFlight := idle x hx hp
      unfold markDiscard
      split
      · next hs => simp [isInFlight, hs] at notInFlight
      all_goals rfl
    · rfl
  have filtered : (s.nq.filter fun x => !(p x && !isInFlight x)) = s.nq.filter fun x => !p x :=
    List.filter_congr fun x hx => by
      cases hp : p x with
      | false => rfl
      | true => rw [idle x hx hp]; rfl
  rw [takeBack, marked, removeEntries_of_noOneServed h (List.countP_le_length.trans (Nat.le_add_right _ _)), filtered]

/-! ### The end of a recall (R70 to R74) -/

theorem resolveTarget_of_no_recall (hi : slot i s = some e) (idle : e.recallSlot = none) :
    resolveTarget i n s = s := by
  rw [resolveTarget, hi]
  dsimp only
  rw [idle]

theorem abandonRecall_of_no_recall (left : Bool) (hi : slot i s = some e) (idle : e.recallSlot = none) :
    abandonRecall i left s = s := by
  rw [abandonRecall, hi]
  dsimp only
  rw [idle]

theorem freeRecall_eq (k : RecallId) (hi : slot i s = some e) :
    freeRecall k i s =
      { s with
        rct := { s.rct with slots := tset s.rct.slots k none, startOrder := s.rct.startOrder.filter (· ≠ k) }
        dir := { s.dir with slots := tset s.dir.slots i (some { e with recallSlot := none }) } } := by
  have same : slot i { setRecall k none s with
      rct := { (setRecall k none s).rct with startOrder := s.rct.startOrder.filter (· ≠ k) } } = some e := hi
  unfold freeRecall
  dsimp only [setRecall_rct_startOrder]
  rw [same]
  rfl

/-! ### Departures and passes (R30, R50, R53) -/

theorem depart_of_holding {h : Holding} (why : Departing) (hi : slot i s = some e) (held : holdingOf n e = some h) :
    depart i n why s
      = grantPass i (serveDeferred (freeIfRetired i (resolveTarget i n
          (revocationEffects e.id h why (dropHolding i e n s))))) := by
  rw [depart, hi]
  dsimp only
  rw [held]
  rfl

theorem freeIfRetired_of_open (hi : slot i s = some e) (life : e.life = .opened) : freeIfRetired i s = s := by
  rw [freeIfRetired, hi]
  simp [life]

theorem grantPass_of_halted (halted : s.svp.halted = true) : grantPass i s = s := if_pos halted

theorem grantPass_of_slot_none (hi : slot i s = none) : grantPass i s = s := by
  rw [grantPass, hi]
  split <;> rfl

theorem endCheck_of_queue_nil (hi : slot i s = some e) (empty : e.queue = []) : endCheck i s = leaveBothLists i s := by
  rw [endCheck, hi]
  simp [empty]

/-- The pass over an entry that no one waits for changes nothing, when the entry stands on neither list. -/
theorem grantPass_of_queue_nil (hi : slot i s = some e) (empty : e.queue = []) (h1 : i ∉ s.dir.deferred)
    (h2 : i ∉ s.rct.startList) : grantPass i s = s := by
  rw [grantPass, hi]
  dsimp only
  rw [empty]
  split
  · rfl
  · split
    · exact (endCheck_of_queue_nil hi empty).trans (leaveBothLists_of_not_mem h1 h2)
    · rfl

/-- A holding that stands behind holdings of other nodes is the one found. -/
theorem holdingOf_split {h : Holding} {before after : List Holding} (hs : e.holders = before ++ h :: after)
    (others : ∀ x ∈ before, x.node ≠ n) (hn : h.node = n) : holdingOf n e = some h := by
  have none : before.find? (fun x => decide (x.node = n)) = none :=
    List.find?_eq_none.mpr fun x hx => by simpa using others x hx
  rw [holdingOf, hs, List.find?_append, none]
  simp [hn]

theorem eraseP_split {α : Type} {f : α → NodeId} {x : α} {before after : List α}
    (others : ∀ y ∈ before, f y ≠ n) (hn : f x = n) :
    (before ++ x :: after).eraseP (fun y => f y = n) = before ++ after := by
  rw [List.eraseP_append_right _ (fun y hy => by simpa using others y hy), List.eraseP_cons_of_pos (by simpa using hn)]

theorem dropHolding_of_split {h : Holding} {before after : List Holding} (hs : e.holders = before ++ h :: after)
    (others : ∀ x ∈ before, x.node ≠ n) (hn : h.node = n) :
    dropHolding i e n s
      = { s with
          freeHoldings := s.freeHoldings + 1
          nodes := tset s.nodes n { node n s with heldCount := (node n s).heldCount - 1 }
          dir := { s.dir with slots := tset s.dir.slots i (some { e with holders := before ++ after }) } } := by
  rw [dropHolding, hs, eraseP_split others hn]
  rfl

/-- A holding given up on an OPEN entry that no one waits for leaves, and nothing follows. -/
theorem depart_of_unawaited {h : Holding} (hi : slot i s = some e) (held : holdingOf n e = some h)
    (life : e.life = .opened) (empty : e.queue = []) (idle : e.recallSlot = none) (deferred : s.dir.deferred = [])
    (h2 : i ∉ s.rct.startList) : depart i n .released s = dropHolding i e n s := by
  have left : slot i (dropHolding i e n s) = some { e with holders := e.holders.eraseP fun h => h.node = n } := by
    rw [slot_dropHolding, if_pos rfl]
  rw [depart_of_holding .released hi held]
  unfold revocationEffects
  dsimp only
  rw [resolveTarget_of_no_recall left idle, freeIfRetired_of_open left life,
    serveDeferred_of_nil (s := dropHolding i e n s) deferred]
  exact grantPass_of_queue_nil left empty (by rw [show (dropHolding i e n s).dir.deferred = [] from deferred]; simp) h2

end Sys2Proof.Machine
end

section
/-!
PROOF. Notices on the line (chapter 6, R132 to R140, R146): frames sent, arbitration lost, attempts that fail, notices
delivered or discarded, line hold and release.
-/

namespace Sys2Proof.Machine

variable {s : State} {before after : List NoticeEntry} {e : NoticeEntry}

/-! ### The entry on the line -/

theorem isInFlight_of_state {discard : Bool} (h : e.state = .inFlight discard) : isInFlight e = true := by
  rw [isInFlight, h]

theorem findIdx?_split {α : Type} {p : α → Bool} {x : α} {left right : List α} (others : ∀ y ∈ left, p y = false)
    (hx : p x = true) : (left ++ x :: right).findIdx? p = some left.length := by
  rw [List.findIdx?_append, List.findIdx?_eq_none_iff.mpr others]
  simp [List.findIdx?_cons, hx]

theorem getElem?_split {α : Type} (left right : List α) (x : α) : (left ++ x :: right)[left.length]? = some x := by
  simp

theorem entryInFlight_of_split (hq : s.nq = before ++ e :: after) (others : ∀ x ∈ before, isInFlight x = false)
    (he : isInFlight e = true) : entryInFlight s = some (before.length, e) := by
  rw [entryInFlight, hq, findIdx?_split others he, Option.bind_some, getElem?_split]
  rfl

theorem setEntry_of_split (hq : s.nq = before ++ e :: after) (e' : NoticeEntry) :
    setEntry before.length e' s = { s with nq := before ++ e' :: after } := by
  rw [setEntry, hq]
  simp

theorem eraseIdx_of_split (hq : s.nq = before ++ e :: after) : s.nq.eraseIdx before.length = before ++ after := by
  rw [hq, List.eraseIdx_append_of_length_le (Nat.le_refl _)]
  simp

theorem removeEntry_of_split (hq : s.nq = before ++ e :: after) (quiet : noOneServed s) :
    removeEntry before.length s = { s with nq := before ++ after } := by
  rw [removeEntry_of_noOneServed _ quiet, eraseIdx_of_split hq]

/-! ### The end of an attempt (R102 to R106) -/

section
variable (hq : s.nq = before ++ e :: after) (others : ∀ x ∈ before, isInFlight x = false)
include hq others

theorem endAttempt_of_split (how : Attempt) {discard : Bool} (state : e.state = .inFlight discard) :
    endAttempt how s = endAttemptOf before.length e how s := by
  rw [endAttempt, entryInFlight_of_split hq others (isInFlight_of_state state)]

theorem endAttempt_of_discarded (how : Attempt) (state : e.state = .inFlight true) (quiet : noOneServed s) :
    endAttempt how s = { s with nq := before ++ after } := by
  rw [endAttempt_of_split hq others how state]
  unfold endAttemptOf
  rw [if_pos state, removeEntry_of_split hq quiet]

theorem endAttempt_interrupted (state : e.state = .inFlight false) :
    endAttempt .interrupted s = { s with nq := before ++ { e with state := .ready } :: after } := by
  rw [endAttempt_of_split hq others _ state, endAttemptOf, if_neg (by simp [state])]
  exact setEntry_of_split hq _

/-- A counted failure: the entry backs off, or at the third it is removed with NOTICE_FAILED set (R103). -/
theorem endAttempt_failure (state : e.state = .inFlight false) (quiet : e.attempts + 1 < 3 ∨ noOneServed s) :
    endAttempt .failure s
      = if e.attempts + 1 < 3 then
          { s with
            nq := before
              ++ { e with
                    attempts := e.attempts + 1
                    state := .backoff (s.dlu.noticeClock + BitVec.ofNat 32 s.dlu.noticeBackoff) } :: after }
        else flagged 0x010#11 { s with nq := before ++ after } := by
  rw [endAttempt_of_split hq others _ state, endAttemptOf, if_neg (by simp [state])]
  unfold countFailure
  split
  · exact setEntry_of_split hq _
  · next last => exact removeEntry_of_split (s := setFlag .noticeFailed s) hq (quiet.resolve_left last)

theorem endAttempt_delivered (state : e.state = .inFlight false) :
    endAttempt .delivered s = removeEntry before.length (renewAddressee e.notice s) := by
  rw [endAttempt_of_split hq others _ state, endAttemptOf, if_neg (by simp [state])]

theorem endAttempt_refusal (state : e.state = .inFlight false) :
    endAttempt .refusal s
      = refuseGrant e.notice (removeEntry before.length (renewAddressee e.notice s)) := by
  rw [endAttempt_of_split hq others _ state, endAttemptOf, if_neg (by simp [state])]

end

/-! ### Line hold and release (R86, R139, R140, R146) -/

theorem exec_lineHold (s : State) : exec .lineHold s = .next (holdLine (settleExpiries reachedExpiries s)) := rfl

theorem exec_lineHold_of_none (none : ∀ x, expiryReached x s = false) :
    exec .lineHold s = .next (flagged 0x040#11 (endAttempt .interrupted (lineIn .held s))) := by
  rw [exec_lineHold, settleReached_of_none none]
  rfl

theorem graceRecord_session (clock : Millis) (r : NodeRecord) :
    graceRecord clock r =
      { r with
        session := match r.session with
          | .active d => if (d - clock).toNat < 100 then .active (clock + 100) else .active d
          | .absent => .absent
          | .lapsed => .lapsed } := by
  obtain ⟨adm, session, epoch, term, quota, held, waits, revoked, seq, reply⟩ := r
  cases session with
  | active d =>
    dsimp only [graceRecord]
    split <;> rfl
  | absent | lapsed => rfl

/-- Settles O47: the hold interrupts an attempt that is not marked, and the release gives its grace record by record. -/
theorem lineHoldAndReleaseKeepTheRest : Obligations.LineHoldAndReleaseKeepTheRest := by
  intro s
  refine ⟨fun none free => ?hold, fun before after e none hq others state => ?interrupts, fun held => ?release⟩
  case hold =>
    rw [exec_lineHold_of_none none, endAttempt, entryInFlight_none (s := lineIn .held s) free]
  case interrupts =>
    rw [exec_lineHold_of_none none, endAttempt_interrupted (s := lineIn .held s) hq others state]
  case release =>
    refine ⟨tmap (graceRecord s.dlu.leaseClock) s.nodes, congrArg _ (if_pos held), fun n => ?_⟩
    rw [tget_tmap, graceRecord_session]
    rfl

/-! ### Frames sent (R101, R135, R136, R138) -/

theorem exec_sendNotice (s : State) :
    exec .sendNotice s = .next
      (if s.lif.lineState = .idle then
        match (offeredEntry s).bind fun place => (s.nq[place]?).map fun e => (place, e) with
        | none => s
        | some (place, e) => startNotice place e s
      else s) := rfl

/-- The pulses of a data bit (R128). -/
theorem pulses_of_bit (bit : Bool) :
    (dominantLength (symbolOfBit bit), recessiveLength (symbolOfBit bit))
      = if bit = true then (250, 750) else (750, 250) := by
  cases bit <;> rfl

theorem pulses_of_bits (bits : List Bool) :
    ((bits.map symbolOfBit).map fun y => (dominantLength y, recessiveLength y))
      = bits.map fun bit => if bit = true then (250, 750) else (750, 250) := by
  rw [List.map_map]
  exact List.map_congr_left fun bit _ => pulses_of_bit bit

theorem offeredEntry_of_split (hq : s.nq = before ++ e :: after) (free : ∀ x ∈ s.nq, isInFlight x = false)
    (notReady : ∀ x ∈ before, x.state ≠ .ready) (ready : e.state = .ready) :
    offeredEntry s = some before.length := by
  have none : s.nq.any isInFlight = false := by simpa using free
  have oldest : (before ++ e :: after).findIdx? (fun x => decide (x.state = .ready)) = some before.length :=
    findIdx?_split (fun x hx => by simpa using notReady x hx) (by simpa using ready)
  rw [offeredEntry, none, hq, oldest]
  rfl

theorem exec_noticeFrameSent (sending : s.lif.lineState = .sending) {place : Nat}
    (onLine : entryInFlight s = some (place, e)) : exec .noticeFrameSent s = .next (frameSent e.notice s) := by
  show execNoticeFrameSent s = _
  rw [execNoticeFrameSent, if_pos sending, onLine]

/-- Arbitration is lost: the attempt is interrupted, and the bits read so far begin the frame received (R136). -/
theorem exec_arbitrationLoss {pos : Fin 11} (sending : s.lif.lineState = .sending)
    (one : (bytesBits s.lif.txBytes)[pos.val]? = some true) :
    exec (.arbitrationLoss pos) s
      = .next
          { endAttempt .interrupted (lineIn .receiving s) with
            lif :=
              { (endAttempt .interrupted (lineIn .receiving s)).lif with
                rxBits := (bytesBits s.lif.txBytes).take pos.val ++ [false] } } :=
  congrArg _ (if_pos ⟨sending, one⟩)

/-- Settles O43. -/
theorem noticeFramesAreSentOrLoseArbitration : Obligations.NoticeFramesAreSentOrLoseArbitration := by
  intro before after e s hq
  refine ⟨fun idle free notReady ready => ?sent, fun pos sending others state one => ?lost,
    fun sending others inFlight n seq msg notice => ?awaits, fun sending others inFlight epoch notice => ?trails⟩
  case sent =>
    refine ⟨?_, ?_⟩
    · rw [exec_sendNotice, if_pos idle, offeredEntry_of_split hq free notReady ready, Option.bind_some, hq,
        getElem?_split]
      simp only [Option.map_some, startNotice, setEntry_of_split hq]
    · exact congrArg (List.cons (2000, 1000)) (pulses_of_bits _)
  case lost =>
    rw [exec_arbitrationLoss sending one, endAttempt_interrupted (s := lineIn .receiving s) hq others state]
    rfl
  case awaits => rw [exec_noticeFrameSent sending (entryInFlight_of_split hq others inFlight), notice]; rfl
  case trails => rw [exec_noticeFrameSent sending (entryInFlight_of_split hq others inFlight), notice]; rfl

/-! ### Which outcome each event fixes (R137, R138, R165) -/

/-- The attempt ends with the line TRAILING. -/
theorem fixOutcome_eq (how : Attempt) (s : State) : fixOutcome how s = endAttempt how (lineIn .trailing s) := rfl

theorem exec_bitError_badSymbol (sending : s.lif.lineState = .sending) :
    exec (.bitError .badSymbol) s = .next (fixOutcome .failure s) :=
  congrArg _ (if_pos (by simp [sending, isBitError]))

theorem exec_bitError_inverted {pos : Nat} {bit : Bool} (sending : s.lif.lineState = .sending)
    (sent : (bytesBits s.lif.txBytes)[pos]? = some bit) (notLost : bit = false ∨ 11 ≤ pos) :
    exec (.bitError (.inverted pos)) s = .next (fixOutcome .failure s) := by
  have wrong : isBitError (.inverted pos) s = true := by
    rw [isBitError, sentBits, sent]
    rcases notLost with rfl | far
    · rfl
    · simp [Nat.not_lt.mpr far]
  exact congrArg _ (if_pos (by simp [sending, wrong]))

theorem exec_noReply (await : s.lif.lineState = .awaitAck) : exec .noReply s = .next (fixOutcome .failure s) :=
  congrArg _ (if_pos await)

theorem exec_earlyEdge (await : s.lif.lineState = .awaitAck) :
    exec (.notAnAcknowledgement .earlyEdge) s = .next (fixOutcome .failure s) :=
  congrArg _ (if_pos (decide_eq_true await))

theorem exec_brokenBits (await : s.lif.lineState = .awaitAck) :
    exec (.notAnAcknowledgement .brokenBits) s = .next (fixOutcome .failure s) :=
  congrArg _ (if_pos (decide_eq_true await))

theorem exec_announceDelivered (onLine : announceOnLine s = true) :
    exec .announceDelivered s = .next (fixOutcome .delivered s) :=
  congrArg _ (if_pos onLine)

/-- A notice to a node waits for its acknowledgement: the frame sent ends with this check byte. -/
structure Awaits (s : State) (e : NoticeEntry) (seq : BitVec 3) (frameCheck : Byte) : Prop where
  await : s.lif.lineState = .awaitAck
  check : s.lif.txBytes.getLast? = some frameCheck
  onLine : ∃ place, entryInFlight s = some (place, e)
  toNode : ∃ n msg, e.notice = .toNode n seq msg

namespace Awaits

variable {seq : BitVec 3} {frameCheck : Byte} (w : Awaits s e seq frameCheck)
include w

theorem verdict (bits : List Bool) : ackVerdict bits s = some (classifyReply frameCheck seq bits) := by
  obtain ⟨await, check, ⟨place, onLine⟩, n, msg, toNode⟩ := w
  rw [ackVerdict, await, onLine]
  dsimp only
  rw [toNode, List.getLastD_eq_getLast?, check]
  rfl

theorem verdict_bytes (a : AckReply) : ackVerdict (ackBits a) s = some (classifyAck frameCheck seq [a.ack, a.check]) := by
  rw [w.verdict, ackBits, classifyReply_bytesBits]

/-- A reply of another length is no acknowledgement. -/
theorem exec_wrongLength (first : Bool) (rest : List Bool) (length : (first :: rest).length ≠ 16) :
    exec (.notAnAcknowledgement (.bits first rest)) s = .next (fixOutcome .failure s) :=
  congrArg _ (if_pos (decide_eq_true (by rw [w.verdict, classifyReply_length _ _ _ length])))

/-- A reply under another marker is no acknowledgement. -/
theorem exec_wrongMarker (marker low : BitVec 4) (first : Bool) (rest : List Bool) (other : marker ≠ 0b0101#4)
    (bits : first :: rest = bytesBits [marker ++ low, crc8 [frameCheck, marker ++ low]]) :
    exec (.notAnAcknowledgement (.bits first rest)) s = .next (fixOutcome .failure s) := by
  have field : (marker ++ low : Byte).extractLsb' 4 4 = marker := by
    simp (disch := omega) only [BitVec.extractLsb'_append_eq_of_le]
    exact BitVec.extractLsb'_eq_self
  have verdict : classifyAck frameCheck seq [marker ++ low, crc8 [frameCheck, marker ++ low]]
      = .notAcknowledgement := by
    rw [classifyAck, if_neg (not_not_intro (by rfl)), field, if_pos other]
  exact congrArg _ (if_pos (decide_eq_true (by rw [w.verdict, bits, classifyReply_bytesBits, verdict])))

theorem exec_badCheck (ack check : Byte) (bad : check ≠ crc8 [frameCheck, ack]) :
    exec (.badCheckByte ⟨ack, check⟩) s = .next (fixOutcome .failure s) := by
  have verdict : classifyAck frameCheck seq [ack, check] = .badCheck := by
    rw [classifyAck]
    exact if_pos (Ne.symm bad)
  exact congrArg _ (if_pos (by rw [w.verdict_bytes, verdict]))

/-- A good acknowledgement is classified by the sequence it echoes and its refuse bit. -/
theorem verdict_goodAck (refuse : Bool) (echo : BitVec 3) :
    ackVerdict (ackBits (goodAck frameCheck refuse echo)) s
      = some (if echo ≠ seq then .wrongSequence else if refuse then .refused else .accepted) := by
  rw [w.verdict_bytes, goodAck]
  dsimp only
  rw [classifyAck_fields, if_neg (not_not_intro rfl), if_neg (not_not_intro rfl)]

theorem exec_wrongSequence (refuse : Bool) {echo : BitVec 3} (other : echo ≠ seq) :
    exec (.ackWrongSequence (goodAck frameCheck refuse echo)) s = .next (fixOutcome .failure s) :=
  congrArg _ (if_pos (by rw [w.verdict_goodAck, if_pos other]))

theorem exec_accept : exec (.accept (goodAck frameCheck false seq)) s = .next (fixOutcome .delivered s) :=
  congrArg _ (if_pos (by rw [w.verdict_goodAck]; simp))

theorem exec_refuse : exec (.refuse (goodAck frameCheck true seq)) s = .next (fixOutcome .refusal s) :=
  congrArg _ (if_pos (by rw [w.verdict_goodAck]; simp))

end Awaits

theorem awaits_of_split {seq : BitVec 3} {frameCheck : Byte} {n : NodeId} {msg : NoticeMsg} {discard : Bool}
    (hq : s.nq = before ++ e :: after) (others : ∀ x ∈ before, isInFlight x = false)
    (state : e.state = .inFlight discard) (await : s.lif.lineState = .awaitAck) (toNode : e.notice = .toNode n seq msg)
    (check : s.lif.txBytes.getLast? = some frameCheck) : Awaits s e seq frameCheck :=
  ⟨await, check, ⟨_, entryInFlight_of_split hq others (isInFlight_of_state state)⟩, n, msg, toNode⟩

theorem announceOnLine_of_split {epoch : BitVec 8} {discard : Bool} (hq : s.nq = before ++ e :: after)
    (others : ∀ x ∈ before, isInFlight x = false) (state : e.state = .inFlight discard)
    (announce : e.notice = .announce epoch) (line : s.lif.lineState = .sending ∨ s.lif.lineState = .trailing) :
    announceOnLine s = true := by
  simp [announceOnLine, entryInFlight_of_split hq others (isInFlight_of_state state), announce, line]

/-- Settles O44: each event fixes the outcome of a counted failure. -/
theorem failedAttemptsAreCounted : Obligations.FailedAttemptsAreCounted := by
  intro before after e s hq others state quiet failed
  have counted : ∀ c, exec c s = .next (fixOutcome .failure s) → failed c := fun c hc => by
    refine hc.trans ?_
    rw [fixOutcome_eq, endAttempt_failure (s := lineIn .trailing s) hq others state quiet]
    rfl
  refine ⟨fun sending => ⟨counted _ (exec_bitError_badSymbol sending), fun pos bit sent notLost =>
      counted _ (exec_bitError_inverted sending sent notLost)⟩,
    fun await => ⟨counted _ (exec_noReply await), counted _ (exec_earlyEdge await), counted _ (exec_brokenBits await)⟩,
    fun n seq msg frameCheck await toNode check => ?replies⟩
  case replies =>
    have w := awaits_of_split hq others state await toNode check
    refine ⟨fun first rest length => counted _ (w.exec_wrongLength first rest length),
      fun marker low first rest other bits => counted _ (w.exec_wrongMarker marker low first rest other bits),
      fun ack check bad => counted _ (w.exec_badCheck ack check bad), fun a refuse echo other good => ?_⟩
    exact good ▸ counted _ (w.exec_wrongSequence refuse other)

/-- Settles O46: each event ends the attempt, and an entry marked for discard is removed whatever the outcome. -/
theorem discardedEntriesLeaveNoTrace : Obligations.DiscardedEntriesLeaveNoTrace := by
  intro before after e s hq others state quiet removed
  have ends (how : Attempt) (l : LineState) :
      endAttempt how (lineIn l s) = { lineIn l s with nq := before ++ after } :=
    endAttempt_of_discarded (s := lineIn l s) hq others how state quiet
  have gone : ∀ c how, exec c s = .next (fixOutcome how s) → removed c := fun c how hc =>
    hc.trans (congrArg _ (ends how .trailing))
  refine ⟨fun sending => ⟨gone _ _ (exec_bitError_badSymbol sending), fun pos bit sent notLost =>
      gone _ _ (exec_bitError_inverted sending sent notLost)⟩,
    fun pos sending one => ?lost,
    fun await => ⟨gone _ _ (exec_noReply await), gone _ _ (exec_earlyEdge await), gone _ _ (exec_brokenBits await)⟩,
    fun n seq msg frameCheck await toNode check => ?replies, fun epoch announce trailing => ?announce,
    fun none => ?hold⟩
  case lost =>
    rw [exec_arbitrationLoss sending one, ends]
    rfl
  case replies =>
    have w := awaits_of_split hq others state await toNode check
    exact ⟨gone _ _ w.exec_accept, gone _ _ w.exec_refuse,
      fun first rest length => gone _ _ (w.exec_wrongLength first rest length),
      fun marker low first rest other bits => gone _ _ (w.exec_wrongMarker marker low first rest other bits),
      fun ack check bad => gone _ _ (w.exec_badCheck ack check bad),
      fun refuse echo other => gone _ _ (w.exec_wrongSequence refuse other)⟩
  case announce =>
    exact gone _ _ (exec_announceDelivered (announceOnLine_of_split hq others state announce (.inr trailing)))
  case hold => rw [exec_lineHold_of_none none, ends]

end Sys2Proof.Machine
end

section
/-!
PROOF. Notices that are acknowledged (R42, R104, R105) and what becomes of the entry freed (R69, R100).
-/

namespace Sys2Proof.Machine

variable {s : State} {before after : List NoticeEntry} {e : NoticeEntry} {n : NodeId}

/-! ### The first PENDING target (R69) -/

theorem find?_split {α : Type} {p : α → Bool} {x : α} {left right : List α} (others : ∀ y ∈ left, p y = false)
    (hx : p x = true) : (left ++ x :: right).find? p = some x := by
  rw [List.find?_append, List.find?_eq_none.mpr fun y hy => by simp [others y hy]]
  simp [hx]

theorem firstPending_of_split {k : RecallId} {q : Recall} {x : Target} {older newer : List RecallId}
    {left right : List Target} (order : s.rct.startOrder = older ++ k :: newer)
    (nonePending : ∀ j ∈ older, ∀ p, recallAt j s = some p → ∀ y ∈ p.targets, y.status ≠ .pending)
    (running : recallAt k s = some q) (targets : q.targets = left ++ x :: right)
    (notified : ∀ y ∈ left, y.status ≠ .pending) (pending : x.status = .pending) :
    firstPending s = some (k, x) := by
  have found : q.targets.find? (fun t => decide (t.status = .pending)) = some x := by
    rw [targets]
    exact find?_split (fun y hy => by simpa using notified y hy) (by simpa using pending)
  rw [firstPending, order, List.findSome?_append, List.findSome?_eq_none_iff.mpr ?older]
  case older =>
    intro j hj
    cases hr : recallAt j s with
    | none => rfl
    | some p =>
      have absent : p.targets.find? (fun t => decide (t.status = .pending)) = none :=
        List.find?_eq_none.mpr fun y hy => by simpa using nonePending j hj p hr y hy
      simp [absent]
  simp [running, found]

theorem setStatus_split {q : Recall} {x : Target} {left right : List Target} (targets : q.targets = left ++ x :: right)
    (others : ∀ y ∈ left ++ right, y.node ≠ x.node) (st : TargetStatus) :
    setStatus x.node st q = { q with targets := left ++ { x with status := st } :: right } := by
  have same (l : List Target) (hl : ∀ y ∈ l, y.node ≠ x.node) :
      l.map (fun t => if t.node = x.node then { t with status := st } else t) = l := by
    conv_rhs => rw [← List.map_id l]
    exact List.map_congr_left fun y hy => if_neg (hl y hy)
  rw [setStatus, targets, List.map_append, List.map_cons, same left fun y hy => others y (by simp [hy]),
    same right fun y hy => others y (by simp [hy]), if_pos rfl]

/-! ### Delivery (R104, R105) -/

/-- The addressee's lease after a delivery (R86, R104). -/
theorem renewAddressee_toNode (n : NodeId) (seq : BitVec 3) (msg : NoticeMsg) (s : State) :
    renewAddressee (.toNode n seq msg) s
      = { s with
          nodes := tset s.nodes n { node n s with session := renewedSession s.dlu.leaseClock (node n s) } } :=
  renewLease_eq n s

/-- A freed entry, where no resource is deferred, goes to the first PENDING target. -/
theorem arbiter_of_pending {k : RecallId} {x : Target} {q : Recall} {id : ResourceId} (deferred : s.dir.deferred = [])
    (free : freeEntries s ≠ 0) (first : firstPending s = some (k, x)) (running : recallAt k s = some q)
    (hid : slotId q.slot s = some id) :
    arbiter s
      = queueNotice x.node (.askBack id x.token) (setRecall k (some (setStatus x.node .notified q)) s) := by
  unfold arbiter
  rw [serveDeferred_of_nil deferred]
  dsimp only
  rw [if_neg free, takeFreeEntry, first]
  dsimp only
  rw [notifyTarget, running]
  dsimp only
  rw [hid]

/-! ### REFUSE (R42) -/

theorem refuseGrant_of_other {seq : BitVec 3} {msg : NoticeMsg} (h : ∀ id token, msg ≠ .granted id token) :
    refuseGrant (.toNode n seq msg) s = s := by
  cases msg with
  | granted id token => exact absurd rfl (h id token)
  | _ => rfl

/-- The holding is not handed back where the addressee does not hold the resource under the token of the notice. -/
theorem refuseGrant_of_not_held {seq : BitVec 3} {id : ResourceId} {token : Token}
    (h : lookup id s = none
      ∨ ∃ i x, lookup id s = some (i, x) ∧ ∀ h ∈ x.holders, h.node = n → h.token ≠ token) :
    refuseGrant (.toNode n seq (.granted id token)) s = s := by
  rcases h with absent | ⟨i, x, found, other⟩
  · rw [refuseGrant, absent]
  · have none : ((holdingOf n x).any fun h => h.token = token) = false := by
      cases held : holdingOf n x with
      | none => rfl
      | some h =>
        obtain ⟨mem, hn⟩ := holdingOf_mem held
        simpa using other h mem hn
    rw [refuseGrant, found]
    dsimp only
    rw [none]
    rfl

theorem refuseGrant_of_held {seq : BitVec 3} {id : ResourceId} {token : Token} {i : SlotId} {x : Entry} {h : Holding}
    (found : lookup id s = some (i, x)) (held : holdingOf n x = some h) (current : h.token = token) :
    refuseGrant (.toNode n seq (.granted id token)) s = depart i n .released s := by
  rw [refuseGrant, found]
  simp [held, current]

/-- The parts of `noOneServed` that a departure asks for. -/
theorem noOneServed_lists (h : noOneServed s) (i : SlotId) : s.dir.deferred = [] ∧ i ∉ s.rct.startList := by
  obtain ⟨deferred, startList, -⟩ := h
  exact ⟨deferred, startList ▸ List.not_mem_nil⟩

/-- Settles O45: the delivery renews the lease and removes the entry; the arbiter gives the freed one to a PENDING target;
and a REFUSE of GRANTED is a departure that nothing follows. -/
theorem acknowledgedNoticesAreDelivered : Obligations.AcknowledgedNoticesAreDelivered := by
  intro before after e s hq others state delivered
  have outcome (how : Attempt) := fixOutcome_eq how s
  have ends := endAttempt_delivered (s := lineIn .trailing s) hq others state
  have refuses := endAttempt_refusal (s := lineIn .trailing s) hq others state
  refine ⟨fun epoch quiet announce line => ?announce,
    fun n seq msg frameCheck k q id older newer left x right toNode await check deferred bound order nonePending
      running targets notified pending unique hid => ?pending,
    fun n seq msg frameCheck quiet toNode await check => ?quiet⟩
  case announce =>
    rw [exec_announceDelivered (announceOnLine_of_split hq others state announce line), outcome, ends, announce]
    exact congrArg _ (removeEntry_of_split (s := lineIn .trailing s) hq quiet)
  case pending =>
    have w := awaits_of_split hq others state await toNode check
    have room : freeEntries { delivered n with nq := before ++ after } ≠ 0 := by
      rw [hq] at bound
      simp only [freeEntries, Config.noticeEntries, List.length_append, List.length_cons] at bound ⊢
      omega
    have first : firstPending { delivered n with nq := before ++ after } = some (k, x) :=
      firstPending_of_split order nonePending running targets notified pending
    have seqKept : (node x.node (delivered n)).noticeSeq = (node x.node s).noticeSeq := by
      exact view_modNode (·.noticeSeq) n (fun r => { r with session := renewedSession s.dlu.leaseClock r }) s fun _ => rfl
    rw [w.exec_accept, outcome, ends, toNode, renewAddressee_toNode, removeEntry,
      eraseIdx_of_split (s := lineIn .trailing s) hq]
    refine (congrArg _ (arbiter_of_pending (s := delivered n) deferred room first running hid)).trans ?_
    rw [setStatus_split targets unique]
    exact congrArg _ (queueNotice_of_seq (s := s) _ seqKept)
  case quiet =>
    have w := awaits_of_split hq others state await toNode check
    have removes : removeEntry before.length (renewAddressee e.notice (lineIn .trailing s)) = delivered n := by
      rw [toNode, renewAddressee_toNode]
      exact removeEntry_of_split hq quiet
    have refused : exec (.refuse (goodAck frameCheck true seq)) s = .next (refuseGrant (.toNode n seq msg) (delivered n)) := by
      rw [w.exec_refuse, outcome, refuses, removes, toNode]
    have accepted : exec (.accept (goodAck frameCheck false seq)) s = .next (delivered n) := by
      rw [w.exec_accept, outcome, ends, removes]
    refine ⟨accepted, fun other => ?_, fun id token granted => ⟨fun notHeld => ?_,
      fun i x h left right found holders hn current first life empty idle => ?_⟩⟩
    · rw [refused, refuseGrant_of_other other]
    · subst granted
      rw [refused, refuseGrant_of_not_held (s := delivered n) notHeld]
    · subst granted
      have held := holdingOf_split holders first hn
      obtain ⟨deferred, notListed⟩ := noOneServed_lists quiet i
      rw [refused, refuseGrant_of_held (s := delivered n) found held current,
        depart_of_unawaited (s := delivered n) (lookup_some found).1 held life empty idle deferred notListed,
        dropHolding_of_split (s := delivered n) holders first hn]
      simp only [delivered, node, tget_tset_same, tset_tset]
      rfl

end Sys2Proof.Machine
end

section
/-!
PROOF. Requests that a gate, their body, their kind or the reply memory answers (R113, R115 to R118), and the sessions
that a request, a lapse or EVICT starts or ends with nothing to strip (R82, R85, R88, R90).
-/

namespace Sys2Proof.Machine

variable {s : State} {r : Request} {n : NodeId}

/-! ### The nine kinds as one (R116 to R119) -/

/-- Every request kind is validated, gated and given to its owner in the same way; its body reads exactly when it
fits. -/
theorem exec_requestCommand (k : RequestKind) (r : Request) :
    ∃ (α : Type) (args : Option α) (owner : α → State → State × Reply), args.isSome = bodyFits k r.body
      ∧ ∀ s, exec (requestCommand k r) s = onRequest (kindCode k) r (decideRequest k r.src args owner) s := by
  have nothing : (readNothing r.body).isSome = r.body.isEmpty := by cases r.body <;> rfl
  cases k with
  | join => exact ⟨Unit, readNothing r.body, fun _ => decideJoin r.src, nothing, fun _ => rfl⟩
  | leave => exact ⟨Unit, readNothing r.body, fun _ => decideLeave r.src, nothing, fun _ => rfl⟩
  | renew => exact ⟨Unit, readNothing r.body, fun _ => decideRenew r.src, nothing, fun _ => rfl⟩
  | claim => exact ⟨ClaimArgs, readClaim r.body, decideClaim r.src, rfl, fun _ => rfl⟩
  | release => exact ⟨TokenArgs, readTokenArgs r.body, decideRelease r.src, rfl, fun _ => rfl⟩
  | downgrade => exact ⟨TokenArgs, readTokenArgs r.body, decideDowngrade r.src, rfl, fun _ => rfl⟩
  | check => exact ⟨CheckArgs, readCheck r.body, decideCheck, rfl, fun _ => rfl⟩
  | query => exact ⟨ResourceId, readIdOnly r.body, decideQuery, rfl, fun _ => rfl⟩
  | cancel => exact ⟨ResourceId, readIdOnly r.body, decideCancel r.src, rfl, fun _ => rfl⟩

theorem exec_badKind {kind : BitVec 4} (unknown : isRequestKind kind = false) (r : Request) (s : State) :
    exec (.badKind kind r) s = onRequest kind r (fun s => (s, .badKind)) s :=
  if_neg (by simp [unknown])

/-! ### Repeats (R113) -/

theorem renewAfter_isActive (n : NodeId) (s : State) : renewAfter (isActive (node n s).session) n s = renewLease n s := by
  unfold renewAfter renewLease
  split <;> rfl

/-- A repeat is answered from the reply memory: its owner is not asked. -/
theorem onRequest_repeat {kind : BitVec 4} {reply : Reply} {decide : State → State × Reply} (short : r.wellFormed = true)
    (arrives : frameArrives (requestBits kind r) s = true)
    (stored : (node r.src s).reply = .stored r.seq kind (recordedId kind r.body) reply) :
    onRequest kind r decide s = .next (replyingWith kind r reply
      { s with
        nodes := tset s.nodes r.src
          { node r.src s with session := renewedSession s.dlu.leaseClock (node r.src s) } }) := by
  have repeated : repeatReply kind r (node r.src s).reply = some reply := by simp [repeatReply, stored]
  simp only [onRequest, short, arrives, takeRequest, repeated, renewAfter_isActive, if_true]
  rw [renewLease_eq]
  rfl

/-- Settles O24: whatever the kind, a repeat's owner is not asked; the pulses driven are those of the stored reply's
bits. -/
theorem repeatsReplayTheStoredReply : Obligations.RepeatsReplayTheStoredReply := by
  intro r reply s short replayed
  refine ⟨fun k arrives stored => ?known, fun kind unknown arrives stored => ?unknown, fun kind => ?pulses⟩
  case known =>
    obtain ⟨_, _, _, -, run⟩ := exec_requestCommand k r
    rw [run]
    exact onRequest_repeat short arrives stored
  case unknown =>
    rw [exec_badKind unknown]
    exact onRequest_repeat short arrives stored
  case pulses => exact pulses_of_bits _

/-! ### BAD_KIND and BAD_REQUEST (R115, R116) -/

/-- Settles O25: an unknown kind is answered before its body is read, and a body that does not read before the gates. -/
theorem unfitRequestsAreAnswered : Obligations.UnfitRequestsAreAnswered := by
  intro r s
  refine ⟨fun kind unknown fresh => ?badKind, fun k fresh unfit => ?badRequest⟩
  case badKind => exact (exec_badKind unknown r s).trans (onRequest_fresh fresh rfl)
  case badRequest =>
    obtain ⟨_, args, owner, reads, run⟩ := exec_requestCommand k r
    rw [unfit, Option.isSome_eq_false_iff, Option.isNone_iff_eq_none] at reads
    rw [run]
    exact onRequest_fresh fresh (by rw [reads]; rfl)

/-! ### The gates (R117, R118) -/

theorem gate_of_session {k : RequestKind} {refusal : Reply} (stops : gateSession k (node n s) = some refusal) :
    gate k n s = some refusal := by
  rw [gate, stops, Option.some_or]

theorem gate_of_halted {k : RequestKind} {refusal : Reply} (passes : gateSession k (node n s) = none)
    (stops : gateHalted k s.svp.halted = some refusal) : gate k n s = some refusal := by
  rw [gate, passes, Option.none_or, stops]

/-- A fresh request whose body fits and that a gate stops is answered with the refusal. -/
theorem exec_refused {k : RequestKind} {refusal : Reply} (fresh : arrivesFresh (kindCode k) r s)
    (fit : bodyFits k r.body = true) (stops : gate k r.src s = some refusal) :
    exec (requestCommand k r) s
      = .next (answered (kindCode k) r refusal (isActive (node r.src s).session) s) := by
  obtain ⟨_, args, owner, reads, run⟩ := exec_requestCommand k r
  obtain ⟨a, read⟩ := Option.isSome_iff_exists.mp (reads.trans fit)
  rw [run]
  exact onRequest_refused fresh read stops

/-- JOIN passes the session's gate from ACTIVE, from LAPSED, and from ABSENT when the node is ADMITTED (R117). -/
theorem gateSession_join {rec : NodeRecord} (admitted : rec.session = .absent → rec.admission = .admitted) :
    gateSession .join rec = none := by
  cases session : rec.session with
  | absent => simp [gateSession, session, admitted session]
  | active | lapsed => simp only [gateSession, session]

/-- Settles O27: the session's gate is asked first, and the halted flag's when it passes. -/
theorem gatesRefuse : Obligations.GatesRefuse := by
  intro k r s fresh fit refused
  refine ⟨fun absent kinds => ?notJoined, fun lapsed kinds => ?lapsed, fun absent barred join => ?notAdmitted,
    fun halted join admitted => ?haltedJoin, fun halted kinds active => ?haltedClaim⟩
  case notJoined =>
    refine exec_refused fresh fit (gate_of_session ?_)
    simp only [List.mem_cons, List.not_mem_nil, or_false] at kinds
    rcases kinds with rfl | rfl | rfl | rfl | rfl | rfl <;> simp only [gateSession, absent]
  case lapsed =>
    refine exec_refused fresh fit (gate_of_session ?_)
    simp only [List.mem_cons, List.not_mem_nil, or_false] at kinds
    rcases kinds with rfl | rfl | rfl | rfl | rfl <;> simp only [gateSession, lapsed]
  case notAdmitted =>
    subst join
    exact exec_refused fresh fit (gate_of_session (by simp only [gateSession, absent, barred, if_true]))
  case haltedJoin =>
    subst join
    exact exec_refused fresh fit (gate_of_halted (gateSession_join admitted) (if_pos halted))
  case haltedClaim =>
    refine exec_refused fresh fit (gate_of_halted (gateSession_of_active k active) ?_)
    simp only [List.mem_cons, List.not_mem_nil, or_false] at kinds
    rcases kinds with rfl | rfl <;> exact if_pos halted

/-! ### Sessions that start and end with nothing to strip (R82, R84, R85, R90) -/

/-- A node that is not ACTIVE after the decision has no lease to renew (R86). -/
theorem answered_of_inactive {kind : BitVec 4} {reply : Reply} {u : State} (wasActive : Bool)
    (inactive : isActive (node r.src u).session = false) :
    answered kind r reply wasActive u = answered kind r reply false u := by
  have same : renewedSession u.dlu.leaseClock (node r.src u) = (node r.src u).session :=
    renewedSession_of_not_active _ (by simp [inactive])
  simp only [answered, same, ite_self]

theorem exec_join (r : Request) (s : State) :
    exec (.join r) s
      = onRequest (kindCode .join) r (decideRequest .join r.src (readNothing r.body) fun _ => decideJoin r.src) s := rfl

theorem exec_leave (r : Request) (s : State) :
    exec (.leave r) s
      = onRequest (kindCode .leave) r
          (decideRequest .leave r.src (readNothing r.body) fun _ => decideLeave r.src) s := rfl

theorem gate_join_of_running (admitted : (node n s).session = .absent → (node n s).admission = .admitted)
    (running : s.svp.halted = false) : gate .join n s = none := by
  rw [gate, gateSession_join admitted, running, gateHalted_of_running, Option.none_or]

/-- LEAVE is served halted or not, from any session but ABSENT. -/
theorem gate_leave (joined : (node n s).session ≠ .absent) : gate .leave n s = none := by
  rw [gate, gateHalted, Option.or_none, gateSession]
  split
  · next absent => exact absurd absent joined
  all_goals rfl

/-- Settles O28: the session starts where it stands, and the reply reads what the start has written. -/
theorem joinStartsASession : Obligations.JoinStartsASession := by
  intro r s fresh empty admitted inactive running
  have decided : decideJoin r.src s = (startSession r.src s, joinedReply r.src (startSession r.src s)) := by
    rw [decideJoin, if_neg (by simp [inactive])]
  have reply : joinedReply r.src (startSession r.src s)
      = .joined ((node r.src s).epoch + 1) s.dir.epoch (node r.src s).leaseTerm (node r.src s).quota := by
    rw [joinedReply, startSession, node_modNode_same]
    rfl
  rw [exec_join, onRequest_served fresh (congrArg readNothing empty)
    (gate_join_of_running (fun _ => admitted) running) decided, inactive, reply]
  rfl

theorem twhere_eq_nil {α : Type} {m : Nat} {p : α → Bool} {v : Vector α m} (h : ∀ i, p (tget v i) = false) :
    twhere p v = [] :=
  List.filter_eq_nil_iff.mpr fun i _ => by simp [h i]

/-- The end of a session that holds nothing, awaits nothing and has no notice queued changes the node's record only. -/
theorem sessionEnd_of_bare (why : SessionEnd) (bare : ∀ i, holds n i s = false ∧ waits n i s = false)
    (quiet : s.nq.all (fun x => !isAddressedTo n x) = true) : sessionEnd n why s = modNode n (endSession why) s := by
  have awaited : slotsAwaited n s = [] := twhere_eq_nil fun i => (bare i).2
  have held : slotsHeld n s = [] := twhere_eq_nil fun i => (bare i).1
  have noNotice : ∀ x ∈ s.nq, isAddressedTo n x = false := by simpa using quiet
  simp only [sessionEnd, sessionDrop, sessionDepart, awaited, held, List.foldl_nil, takeBack_of_none noNotice]

/-- Settles O29: from LAPSED there is no session to end, and the end of a bare one changes the session only. -/
theorem leaveEndsABareSession : Obligations.LeaveEndsABareSession := by
  intro r s fresh empty cause
  have joined : (node r.src s).session ≠ .absent := by
    rcases cause with lapsed | ⟨active, -⟩
    · simp [lapsed]
    · intro absent; simp [absent, isActive] at active
  have decided : decideLeave r.src s = (modNode r.src (fun rec => { rec with session := .absent }) s, .left) := by
    rcases cause with lapsed | ⟨active, bare, quiet⟩
    · rw [decideLeave, if_neg (by simp [lapsed, isActive])]
    · rw [decideLeave, if_pos active, sessionEnd_of_bare .left bare quiet]
      rfl
  have inactive :
      isActive (node r.src (modNode r.src (fun rec => { rec with session := .absent }) s)).session = false := by
    rw [node_modNode_same]
    rfl
  rw [exec_leave, onRequest_served fresh (congrArg readNothing empty) (gate_leave joined) decided,
    answered_of_inactive _ inactive]
  rfl

/-! ### Lapse and EVICT (R88, R90) -/

theorem exec_evict (s : State) : exec .evict s = .next (runCommand 0x0005 ownEvict s) := rfl

theorem argNode_nodeNumber (n : NodeId) : argNode (BitVec.ofNat 16 (nodeNumber n)) = some n := by
  have small : nodeNumber n % 2 ^ 16 = nodeNumber n := Nat.mod_eq_of_lt (by unfold nodeNumber; omega)
  rw [argNode, BitVec.toNat_ofNat, small, nodeOf_nodeNumber]

theorem ownEvict_of_node (n : NodeId) (a1 a2 a3 : Word) (s : State) :
    ownEvict #v[BitVec.ofNat 16 (nodeNumber n), a1, a2, a3] s = (evictNode n s, .done []) := by
  have first : argNode (tget #v[BitVec.ofNat 16 (nodeNumber n), a1, a2, a3] 0) = some n := argNode_nodeNumber n
  simp only [ownEvict, first]

theorem ownEvict_of_outside {a0 : Word} (a1 a2 a3 : Word) (s : State) (outside : a0.toNat = 0 ∨ 30 < a0.toNat) :
    ownEvict #v[a0, a1, a2, a3] s = (s, .failed .badArgument) := by
  have first : argNode (tget #v[a0, a1, a2, a3] 0) = none := nodeOf_outside outside
  simp only [ownEvict, first]

theorem closeMemory_eq (m : ReplyMemory) : closeMemory m = if m = .empty then .empty else .closed := by
  cases m <;> rfl

theorem evictNode_of_bare (bare : ∀ i, holds n i s = false ∧ waits n i s = false)
    (quiet : s.nq.all (fun x => !isAddressedTo n x) = true)
    (memory : (node n s).reply ≠ .empty ∨ isActive (node n s).session = false) :
    evictNode n s
      = modNode n (fun rec =>
          { rec with
            session := .absent, admission := .barred
            reply := if (node n s).reply = .empty then .empty else .closed }) s := by
  by_cases active : isActive (node n s).session = true
  case pos =>
    have filled : (node n s).reply ≠ .empty := memory.resolve_right (by simp [active])
    rw [evictNode, if_pos active, sessionEnd_of_bare .evicted bare quiet, modNode_modNode, if_neg filled]
    rfl
  case neg =>
    rw [evictNode, if_neg active]
    exact modNode_congr (by rw [closeMemory_eq])

theorem exec_leaseExpiry_of_reached (line : s.lif.lineState ≠ .held)
    (due : (node n s).session = .active s.dlu.leaseClock) : exec (.leaseExpiry n) s = .next (lapse n s) :=
  congrArg Host.Outcome.next (if_pos (by simp [leaseReached, lineRuns, line, due]))

/-- Settles O21: a bare session's end changes the record only, and EVICT checks its node first. -/
theorem bareSessionEndChangesTheRecordOnly : Obligations.BareSessionEndChangesTheRecordOnly := by
  refine ⟨fun a0 a1 a2 a3 s run outside => ?badArgument, fun n s bare quiet =>
    ⟨fun line due => ?lapses, fun a1 a2 a3 run memory => ?evicts⟩⟩
  case badArgument =>
    exact (exec_evict s).trans (congrArg _ (runCommand_of_running run (ownEvict_of_outside a1 a2 a3 s outside)))
  case lapses =>
    rw [exec_leaseExpiry_of_reached line due, lapse, sessionEnd_of_bare .lapsed bare quiet]
    rfl
  case evicts =>
    rw [exec_evict, runCommand_of_running run (ownEvict_of_node n a1 a2 a3 s), evictNode_of_bare bare quiet memory]
    rfl

end Sys2Proof.Machine
end

section
/-!
PROOF. CLAIM granted at once or turned down (R23 to R28), RELEASE (R15, R31) and DOWNGRADE (R33) of a holding that no one
waits for.
-/

namespace Sys2Proof.Machine

variable {s : State} {i : SlotId} {e : Entry} {n : NodeId}

/-! ### CLAIM (R23 to R28) -/

theorem exec_claim (r : Request) (s : State) :
    exec (.claim r) s
      = onRequest (kindCode .claim) r (decideRequest .claim r.src (readClaim r.body) (decideClaim r.src)) s := rfl

/-- A fresh CLAIM of an ACTIVE node, the part running, is answered with what `decideClaim` gives. -/
theorem exec_claim_fresh {r : Request} {a : ClaimArgs} {u : State} {reply : Reply}
    (fresh : arrivesFresh (kindCode .claim) r s) (read : readClaim r.body = some a)
    (active : isActive (node r.src s).session = true) (running : s.svp.halted = false)
    (decided : decideClaim r.src a s = (u, reply)) :
    exec (.claim r) s = .next (answered (kindCode .claim) r reply true u) := by
  rw [exec_claim, onRequest_served fresh read (gate_of_active_running .claim active running) decided, active]

theorem fits_eq_true (m : Mode) (e : Entry) : fits m e = true ↔ claimFits m e := by
  cases m <;> simp [fits, claimFits]

theorem grantableNow_iff (m : Mode) (e : Entry) : grantableNow m e = true ↔ e.queue = [] ∧ claimFits m e := by
  simp [grantableNow, ← fits_eq_true]

theorem waitPosition_of_queue_nil (empty : e.queue = []) : waitPosition n e = none := by
  rw [waitPosition, empty]
  rfl

theorem waitPosition_of_waitOf_none (h : waitOf n e = none) : waitPosition n e = none := by
  have others : ∀ w ∈ e.queue, decide (w.node = n) = false := by simpa [waitOf] using h
  rw [waitPosition, List.findIdx?_eq_none_iff.mpr others]
  rfl

/-- The decision on a CLAIM by a node that neither holds nor awaits the OPEN entry (R25). -/
theorem decideClaim_of_newcomer {a : ClaimArgs} (found : lookup a.id s = some (i, e)) (life : e.life = .opened)
    (holdsNot : holdingOf n e = none) (waitsNot : waitPosition n e = none) :
    decideClaim n a s
      = if grantableNow a.mode e then claimNow i e n a.mode s else claimLater i e n a.mode a.limit s := by
  simp only [decideClaim, found, life, holdsNot, waitsNot, reduceCtorEq, if_false]

/-- Settles O30: the CLAIM meets none of the refusals, and the holding added is what `addHolding` adds. -/
theorem claimIsGrantedAtOnce : Obligations.ClaimIsGrantedAtOnce := by
  intro r a i e s fresh read active running found life empty holdsNot fit belowQuota records
  have grantable : grantableNow a.mode e = true := (grantableNow_iff a.mode e).mpr ⟨empty, fit⟩
  have decided : decideClaim r.src a s = (addHolding i e r.src a.mode s, .granted (drawnToken s) a.mode) := by
    rw [decideClaim_of_newcomer found life holdsNot (waitPosition_of_queue_nil empty), if_pos grantable, claimNow,
      if_neg belowQuota, if_neg records]
  exact exec_claim_fresh fresh read active running decided

section TurnedDown

variable {m : Mode} {limit : Nat}

theorem claimNow_of_quota (h : (node n s).heldCount = (node n s).quota) : claimNow i e n m s = (s, .quota) := if_pos h

theorem claimNow_of_no_record (h1 : (node n s).heldCount ≠ (node n s).quota) (h2 : s.freeHoldings = 0) :
    claimNow i e n m s = (flagged 0x200#11 s, .noRoom) :=
  (if_neg h1).trans (if_pos h2)

theorem claimLater_of_no_limit (h : limit = 0) : claimLater i e n m limit s = (s, .denied) := if_pos h

theorem claimLater_of_quota (h1 : limit ≠ 0) (h2 : (node n s).waitCount = 4) :
    claimLater i e n m limit s = (s, .quota) :=
  (if_neg h1).trans (if_pos h2)

theorem claimLater_of_queue_full (h1 : limit ≠ 0) (h2 : (node n s).waitCount ≠ 4) (h3 : e.queue.length = 16) :
    claimLater i e n m limit s = (flagged 0x200#11 s, .queueFull) :=
  (if_neg h1).trans ((if_neg h2).trans (if_pos h3))

theorem claimLater_of_no_record (h1 : limit ≠ 0) (h2 : (node n s).waitCount ≠ 4) (h3 : e.queue.length ≠ 16)
    (h4 : s.freeWaits = 0) : claimLater i e n m limit s = (flagged 0x200#11 s, .noRoom) :=
  (if_neg h1).trans ((if_neg h2).trans ((if_neg h3).trans (if_pos h4)))

end TurnedDown

/-- Settles O33: the checks of the decision, each under those before it that do not apply. -/
theorem claimIsTurnedDown : Obligations.ClaimIsTurnedDown := by
  intro r a s fresh read active running turnedDown
  have answers {u : State} {reply : Reply} (decided : decideClaim r.src a s = (u, reply)) : turnedDown reply u :=
    exec_claim_fresh fresh read active running decided
  refine ⟨fun absent => ?noResource, fun i e found => ⟨fun retiring => ?retiring, fun h life held => ?alreadyHeld,
    fun p life holdsNot waits => ?alreadyWaiting, fun life holdsNot waitsNot => ?newcomer⟩⟩
  case noResource => exact answers (by simp only [decideClaim, absent])
  case retiring => exact answers (by simp only [decideClaim, found, retiring, if_true])
  case alreadyHeld => exact answers (by simp only [decideClaim, found, life, held, reduceCtorEq, if_false])
  case alreadyWaiting =>
    exact answers (by simp only [decideClaim, found, life, holdsNot, waits, reduceCtorEq, if_false])
  case newcomer =>
    have decided := decideClaim_of_newcomer (n := r.src) found life holdsNot (waitPosition_of_waitOf_none waitsNot)
    rw [← grantableNow_iff]
    refine ⟨fun grantable => ?now, fun blocked => ?later⟩
    case now =>
      rw [if_pos grantable] at decided
      exact ⟨fun quota => answers (decided.trans (claimNow_of_quota quota)),
        fun belowQuota full => answers (decided.trans (claimNow_of_no_record belowQuota full))⟩
    case later =>
      rw [if_neg blocked] at decided
      exact ⟨fun noLimit => answers (decided.trans (claimLater_of_no_limit noLimit)),
        fun limit quota => answers (decided.trans (claimLater_of_quota limit quota)),
        fun limit belowQuota full => answers (decided.trans (claimLater_of_queue_full limit belowQuota full)),
        fun limit belowQuota room noRecord =>
          answers (decided.trans (claimLater_of_no_record limit belowQuota room noRecord))⟩

/-! ### RELEASE (R15, R30, R31) -/

theorem exec_release (r : Request) (s : State) :
    exec (.release r) s
      = onRequest (kindCode .release) r
          (decideRequest .release r.src (readTokenArgs r.body) (decideRelease r.src)) s := rfl

/-- RELEASE is served halted or not (R118). -/
theorem gate_release (active : isActive (node n s).session = true) : gate .release n s = none := by
  rw [gate, gateSession_of_active .release active, Option.none_or, gateHalted]

/-- A fresh RELEASE of an ACTIVE node is answered with what `decideRelease` gives, halted or not. -/
theorem exec_release_fresh {r : Request} {a : TokenArgs} {u : State} {reply : Reply}
    (fresh : arrivesFresh (kindCode .release) r s) (read : readTokenArgs r.body = some a)
    (active : isActive (node r.src s).session = true) (decided : decideRelease r.src a s = (u, reply)) :
    exec (.release r) s = .next (answered (kindCode .release) r reply true u) := by
  rw [exec_release, onRequest_served fresh read (gate_release active) decided, active]

theorem decideRelease_of_held {a : TokenArgs} {h : Holding} (found : lookup a.id s = some (i, e))
    (held : holdingOf n e = some h) (current : h.token = a.token) :
    decideRelease n a s = (depart i n .released s, .released) := by
  simp only [decideRelease, found, held, current, if_true]

theorem decideRelease_of_not_held {a : TokenArgs} (found : lookup a.id s = some (i, e))
    (other : ∀ h, holdingOf n e = some h → h.token ≠ a.token) : decideRelease n a s = (s, .notHeld) := by
  simp only [decideRelease, found]
  split
  · rfl
  · next h held => exact if_neg (other h held)

theorem decideRelease_of_lookup_none {a : TokenArgs} (absent : lookup a.id s = none) :
    decideRelease n a s = (s, .noResource) := by
  simp only [decideRelease, absent]

theorem freeSlot_of_bare (hi : slot i s = some e) (noHolder : e.holders = []) (noWait : e.queue = [])
    (notDeferred : i ∉ s.dir.deferred) (notPending : i ∉ s.rct.startList) :
    freeSlot i s = flagged 0x100#11 (setSlot i none s) := by
  have stays (u : State) (hd : u.dir.deferred = s.dir.deferred) (hp : u.rct.startList = s.rct.startList) :
      leaveBothLists i u = u := leaveBothLists_of_not_mem (by rwa [hd]) (by rwa [hp])
  rw [freeSlot, hi]
  dsimp only
  rw [noHolder, noWait, stays _ (by rfl) (by rfl)]
  rfl

/-- The last holding of a RETIRING entry leaves, and the slot becomes UNUSED (R15). -/
theorem depart_of_last_retiring {h : Holding} (hi : slot i s = some e) (life : e.life = .retiring)
    (empty : e.queue = []) (idle : e.recallSlot = none) (deferred : s.dir.deferred = [])
    (notPending : i ∉ s.rct.startList) (alone : e.holders = [h]) (hn : h.node = n) :
    depart i n .released s
      = flagged 0x100#11
          { s with
            freeHoldings := s.freeHoldings + 1
            nodes := tset s.nodes n { node n s with heldCount := (node n s).heldCount - 1 }
            dir := { s.dir with slots := tset s.dir.slots i none } } := by
  have split : e.holders = [] ++ h :: [] := alone
  have others : ∀ x ∈ ([] : List Holding), x.node ≠ n := nofun
  have left : slot i (dropHolding i e n s) = some { e with holders := [] } := by
    rw [slot_dropHolding, if_pos rfl, split, eraseP_split (f := Holding.node) others hn, List.append_nil]
  have freed : freeSlot i (dropHolding i e n s) = flagged 0x100#11 (setSlot i none (dropHolding i e n s)) :=
    freeSlot_of_bare left rfl empty (by rw [show (dropHolding i e n s).dir.deferred = [] from deferred]; nofun) notPending
  have gone : slot i (flagged 0x100#11 (setSlot i none (dropHolding i e n s))) = none := slot_setSlot_same _ _ _
  rw [depart_of_holding .released hi (holdingOf_split split others hn)]
  unfold revocationEffects
  dsimp only
  rw [resolveTarget_of_no_recall left idle, freeIfRetired, left]
  dsimp only
  rw [if_pos ⟨life, rfl⟩, freed, serveDeferred_of_nil (s := flagged 0x100#11 (setSlot i none (dropHolding i e n s))) deferred,
    grantPass_of_slot_none gone,
    dropHolding_of_split split others hn]
  simp only [setSlot, flagged, tset_tset]

/-- Settles O34: the holding found is the one that departs, and nothing follows where no one waits. -/
theorem releaseEndsAHolding : Obligations.ReleaseEndsAHolding := by
  intro r a s fresh read active ended
  refine ⟨fun i e h before after found life empty idle deferred notPending split others holder current => ?opened,
    fun i e h found life empty idle deferred notPending alone holder current => ?retiring,
    fun i e found other => ?notHeld, fun absent => ?noResource⟩
  case opened =>
    obtain ⟨hi, -⟩ := lookup_some found
    have held := holdingOf_split split others holder
    rw [exec_release_fresh fresh read active (decideRelease_of_held found held current),
      depart_of_unawaited hi held life empty idle deferred notPending, dropHolding_of_split split others holder]
  case retiring =>
    obtain ⟨hi, -⟩ := lookup_some found
    have held : holdingOf r.src e = some h := holdingOf_split (before := []) alone nofun holder
    rw [exec_release_fresh fresh read active (decideRelease_of_held found held current),
      depart_of_last_retiring hi life empty idle deferred notPending alone holder]
  case notHeld =>
    refine exec_release_fresh fresh read active (decideRelease_of_not_held found fun h held => ?_)
    obtain ⟨mem, holder⟩ := holdingOf_mem held
    exact other h mem holder
  case noResource => exact exec_release_fresh fresh read active (decideRelease_of_lookup_none absent)

/-! ### DOWNGRADE (R33) -/

/-- A fresh DOWNGRADE of an ACTIVE node, the part running, is answered with what `decideDowngrade` gives. -/
theorem exec_downgrade_fresh {r : Request} {a : TokenArgs} {u : State} {reply : Reply}
    (fresh : arrivesFresh (kindCode .downgrade) r s) (read : readTokenArgs r.body = some a)
    (active : isActive (node r.src s).session = true) (running : s.svp.halted = false)
    (decided : decideDowngrade r.src a s = (u, reply)) :
    exec (.downgrade r) s = .next (answered (kindCode .downgrade) r reply true u) := by
  rw [exec_downgrade, onRequest_served fresh read (gate_of_active_running .downgrade active running) decided, active]

theorem tellDowngrade_of_no_recall {t : Token} (hi : slot i s = some e) (idle : e.recallSlot = none) :
    tellDowngrade i n t s = s := by
  simp only [tellDowngrade, hi, Option.bind_some, idle]

theorem decideDowngrade_of_exclusive {a : TokenArgs} {h : Holding} (found : lookup a.id s = some (i, e))
    (held : holdingOf n e = some h) (current : h.token = a.token) (exclusive : h.mode = .exclusive) :
    decideDowngrade n a s
      = (grantPass i (tellDowngrade i n (drawnToken s)
          (afterDraw (drawnToken s) (setSlot i (some (downgradeHolding n (drawnToken s) e)) s))),
        .downgraded (drawnToken s)) := by
  simp only [decideDowngrade, found, held, current, exclusive, ne_eq, not_true_eq_false, if_false]

theorem decideDowngrade_of_not_held {a : TokenArgs} (found : lookup a.id s = some (i, e))
    (other : ∀ h, holdingOf n e = some h → h.token ≠ a.token) : decideDowngrade n a s = (s, .notHeld) := by
  simp only [decideDowngrade, found]
  split
  · rfl
  · next h held => exact if_pos (other h held)

theorem decideDowngrade_of_lookup_none {a : TokenArgs} (absent : lookup a.id s = none) :
    decideDowngrade n a s = (s, .noResource) := by
  simp only [decideDowngrade, absent]

theorem downgradeHolding_of_alone {h : Holding} (t : Token) (alone : e.holders = [h]) (hn : h.node = n) :
    downgradeHolding n t e = { e with holders := [{ h with mode := .shared, token := t }] } := by
  rw [downgradeHolding, alone, List.map_singleton, if_pos hn]

/-- Settles O37: the holding changes in its place, and with no recall and no wait nothing follows. -/
theorem downgradeSharesAnExclusiveHolding : Obligations.DowngradeSharesAnExclusiveHolding := by
  intro r a s fresh read active running
  refine ⟨fun i e h found empty idle notDeferred notPending alone holder current exclusive => ?shares,
    fun i e found other => ?notHeld, fun absent => ?noResource⟩
  case shares =>
    have held : holdingOf r.src e = some h := holdingOf_split (before := []) alone nofun holder
    have written (u : State) : slot i (afterDraw (drawnToken s) (setSlot i
        (some (downgradeHolding r.src (drawnToken s) e)) u)) = some (downgradeHolding r.src (drawnToken s) e) :=
      slot_setSlot_same _ _ _
    have decided := decideDowngrade_of_exclusive found held current exclusive
    rw [tellDowngrade_of_no_recall (written s) idle,
      grantPass_of_queue_nil (written s) empty notDeferred notPending, downgradeHolding_of_alone _ alone holder] at decided
    exact exec_downgrade_fresh fresh read active running decided
  case notHeld => exact exec_downgrade_fresh fresh read active running (decideDowngrade_of_not_held found other)
  case noResource => exact exec_downgrade_fresh fresh read active running (decideDowngrade_of_lookup_none absent)

end Sys2Proof.Machine
end

section
/-!
PROOF. The supervisor's PROVISION (R13), SET_NODE (R91), CLEAR_CLAIMS (R162), HALT and RESUME (R158, R159).
-/

namespace Sys2Proof.Machine

variable {s : State}

/-! ### Arguments (R155, R166) -/

theorem argId_of_valid {w : Word} (h : w ≠ 0x0000#16 ∧ w ≠ 0xFFFF#16) : argId w = some w :=
  if_pos (by simp [validId, h])

theorem argId_of_invalid {w : Word} (h : w = 0x0000#16 ∨ w = 0xFFFF#16) : argId w = none :=
  if_neg (by rcases h with rfl | rfl <;> decide)

theorem argRecallable_of_valid {w : Word} (h : w = 1#16 ∨ w = 2#16) : argRecallable w = some (decide (w = 2#16)) := by
  rcases h with rfl | rfl <;> decide

theorem argRecallable_of_invalid {w : Word} (h : ¬ (w = 1#16 ∨ w = 2#16)) : argRecallable w = none := by
  rw [not_or] at h
  rw [argRecallable, if_neg h.1, if_neg h.2]

theorem argAdmission_of_valid {w : Word} (h : w = 1#16 ∨ w = 2#16) :
    argAdmission w = some (if w = 1#16 then .admitted else .barred) := by
  rcases h with rfl | rfl <;> decide

theorem argAdmission_of_invalid {w : Word} (h : ¬ (w = 1#16 ∨ w = 2#16)) : argAdmission w = none := by
  rw [not_or] at h
  rw [argAdmission, if_neg h.1, if_neg h.2]

/-- A command that is RUNNING and fails writes its result code alone (R154). -/
theorem runCommand_fails {code a0 a1 a2 a3 : Word} {owner : Owner} {result : ResultCode}
    (run : running code a0 a1 a2 a3 s) (owned : owner #v[a0, a1, a2, a3] s = (s, .failed result)) :
    runCommand code owner s = completedWith .failed #v[resultWord result, 0, 0, 0, 0, 0, 0] s :=
  runCommand_of_running run owned

/-! ### PROVISION (R13) -/

theorem exec_provision (s : State) : exec .provision s = .next (runCommand 0x0001 ownProvision s) := rfl

/-- What PROVISION asks of its arguments. -/
def provisionable (a0 a1 a2 : Word) : Prop :=
  a0 ≠ 0x0000#16 ∧ a0 ≠ 0xFFFF#16 ∧ 1 ≤ a1.toNat ∧ a1.toNat ≤ 8 ∧ (a2 = 1#16 ∨ a2 = 2#16)

section Provision

variable {a0 a1 a2 : Word} (a3 : Word)

theorem ownProvision_of_bad (bad : ¬ provisionable a0 a1 a2) :
    ownProvision #v[a0, a1, a2, a3] s = (s, .failed .badArgument) := by
  have some_none : argId a0 = none ∨ argIn 1 8 a1 = none ∨ argRecallable a2 = none := by
    by_cases id : a0 = 0x0000#16 ∨ a0 = 0xFFFF#16
    · exact .inl (argId_of_invalid id)
    by_cases share : 1 ≤ a1.toNat ∧ a1.toNat ≤ 8
    · refine .inr (.inr (argRecallable_of_invalid fun flag => bad ?_))
      rw [not_or] at id
      exact ⟨id.1, id.2, share.1, share.2, flag⟩
    · exact .inr (.inl (argIn_of_not_mem share))
  change (match argId a0, argIn 1 8 a1, argRecallable a2 with | some _, some _, some _ => _ | _, _, _ => _) = _
  rcases some_none with none | none | none <;> rw [none]
  · cases argId a0 <;> rfl
  · cases argId a0 <;> cases argIn 1 8 a1 <;> rfl

/-- With good arguments PROVISION looks for a duplicate, and then for a slot. -/
theorem ownProvision_of_good (good : provisionable a0 a1 a2) :
    ownProvision #v[a0, a1, a2, a3] s
      = match lookup a0 s with
        | some _ => (s, .failed .duplicate)
        | none =>
          match tfind (fun o => o.isNone) s.dir.slots with
          | none => (s, .failed .directoryFull)
          | some i =>
            (setSlot i (some (openEntry a0 a1.toNat (decide (a2 = 2#16)))) s, .done [resultOf i.val]) := by
  obtain ⟨nonzero, notOnes, low, high, flag⟩ := good
  have first : argId (tget #v[a0, a1, a2, a3] 0) = some a0 := argId_of_valid ⟨nonzero, notOnes⟩
  have second : argIn 1 8 (tget #v[a0, a1, a2, a3] 1) = some a1.toNat := argIn_of_mem ⟨low, high⟩
  have third : argRecallable (tget #v[a0, a1, a2, a3] 2) = some (decide (a2 = 2#16)) := argRecallable_of_valid flag
  simp only [ownProvision, first, second, third] <;> rfl

end Provision

theorem tfind_of_least {α : Type} {n : Nat} {p : α → Bool} {v : Vector α n} {i : Fin n} (hi : p (tget v i) = true)
    (least : ∀ j < i, p (tget v j) = false) : tfind p v = some i := by
  cases found : tfind p v with
  | none => rw [tfind_none found i] at hi; cases hi
  | some k =>
    rcases lt_trichotomy i k with lt | rfl | gt
    · rw [tfind_least found lt] at hi; cases hi
    · rfl
    · have hk := tfind_some found; rw [least k gt] at hk; cases hk

/-- Settles O48: the arguments first, then the duplicate, then the lowest UNUSED slot. -/
theorem provisionOpensTheLowestSlot : Obligations.ProvisionOpensTheLowestSlot := by
  intro a0 a1 a2 a3 s run fails good
  have ends {result : ResultCode} (owned : ownProvision #v[a0, a1, a2, a3] s = (s, .failed result)) :
      fails (resultWord result) :=
    (exec_provision s).trans (congrArg _ (runCommand_fails run owned))
  refine ⟨fun bad => ends (ownProvision_of_bad a3 bad), fun ok present => ends (result := .duplicate) ?duplicate,
    fun ok absent full => ends (result := .directoryFull) ?full, fun i ok absent free least => ?opens⟩
  case duplicate =>
    obtain ⟨found, hf⟩ := Option.ne_none_iff_exists'.mp present
    rw [ownProvision_of_good a3 ok, hf]
  case full =>
    have none : tfind (fun o => o.isNone) s.dir.slots = none := by
      cases found : tfind (fun o => o.isNone) s.dir.slots with
      | none => rfl
      | some i => exact absurd (Option.isNone_iff_eq_none.mp (tfind_some found)) (full i)
    rw [ownProvision_of_good a3 ok, absent]
    dsimp only
    rw [none]
  case opens =>
    have found : tfind (fun o => o.isNone) s.dir.slots = some i :=
      tfind_of_least (Option.isNone_iff_eq_none.mpr free)
        fun j lt => Option.isNone_eq_false_iff.mpr (Option.isSome_iff_ne_none.mpr (least j lt))
    have owned := ownProvision_of_good (s := s) a3 ok
    rw [absent] at owned
    dsimp only at owned
    rw [found] at owned
    exact (exec_provision s).trans (congrArg _ (runCommand_of_running run owned))

/-! ### SET_NODE (R91) -/

theorem exec_setNode (s : State) : exec .setNode s = .next (runCommand 0x0004 ownSetNode s) := rfl

theorem argNode_of_number {w : Word} {n : NodeId} (h : w.toNat = nodeNumber n) : argNode w = some n := by
  rw [argNode, h, nodeOf_nodeNumber]

theorem argNode_of_outside {w : Word} (h : ¬ (1 ≤ w.toNat ∧ w.toNat ≤ 30)) : argNode w = none := dif_neg h

section SetNode

variable {a0 a1 a2 a3 : Word}

theorem ownSetNode_of_bad
    (bad : argNode a0 = none ∨ argAdmission a1 = none ∨ argIn 1 255 a2 = none ∨ argIn 1 32 a3 = none) :
    ownSetNode #v[a0, a1, a2, a3] s = (s, .failed .badArgument) := by
  change (match argNode a0, argAdmission a1, argIn 1 255 a2, argIn 1 32 a3 with
    | some _, some _, some _, some _ => _ | _, _, _, _ => _) = _
  rcases bad with none | none | none | none <;> rw [none]
  · cases argNode a0 <;> rfl
  · cases argNode a0 <;> cases argAdmission a1 <;> rfl
  · cases argNode a0 <;> cases argAdmission a1 <;> cases argIn 1 255 a2 <;> rfl

/-- With good arguments SET_NODE asks whether the node is ABSENT. -/
theorem ownSetNode_of_good {n : NodeId} (number : a0.toNat = nodeNumber n) (admission : a1 = 1#16 ∨ a1 = 2#16)
    (term : 1 ≤ a2.toNat ∧ a2.toNat ≤ 255) (quota : 1 ≤ a3.toNat ∧ a3.toNat ≤ 32) :
    ownSetNode #v[a0, a1, a2, a3] s
      = if (node n s).session = .absent then
          (modNode n (fun rec =>
            { rec with
              admission := if a1 = 1#16 then .admitted else .barred
              leaseTerm := a2.toNat, quota := a3.toNat }) s, .done [])
        else (s, .failed .nodeBusy) := by
  have first : argNode (tget #v[a0, a1, a2, a3] 0) = some n := argNode_of_number number
  have second : argAdmission (tget #v[a0, a1, a2, a3] 1) = some (if a1 = 1#16 then .admitted else .barred) :=
    argAdmission_of_valid admission
  have third : argIn 1 255 (tget #v[a0, a1, a2, a3] 2) = some a2.toNat := argIn_of_mem term
  have fourth : argIn 1 32 (tget #v[a0, a1, a2, a3] 3) = some a3.toNat := argIn_of_mem quota
  simp only [ownSetNode, first, second, third, fourth]
  cases (node n s).session <;> rfl

end SetNode

/-- Settles O49: the arguments first, then the session of the node. -/
theorem setNodeWritesTheParameters : Obligations.SetNodeWritesTheParameters := by
  intro a0 a1 a2 a3 s run fails good
  have ends {result : ResultCode} (owned : ownSetNode #v[a0, a1, a2, a3] s = (s, .failed result)) :
      fails (resultWord result) :=
    (exec_setNode s).trans (congrArg _ (runCommand_fails run owned))
  refine ⟨fun bad => ends (ownSetNode_of_bad ?badArgument),
    fun n ⟨_, _, admission, termLow, termHigh, quotaLow, quotaHigh⟩ number => ?inRange⟩
  case badArgument =>
    by_contra all
    simp only [not_or] at all
    obtain ⟨nodeOk, admissionOk, termOk, quotaOk⟩ := all
    have number := not_imp_comm.mp argNode_of_outside nodeOk
    have admission := not_imp_comm.mp argAdmission_of_invalid admissionOk
    have term := not_imp_comm.mp argIn_of_not_mem termOk
    have quota := not_imp_comm.mp argIn_of_not_mem quotaOk
    exact bad ⟨number.1, number.2, admission, term.1, term.2, quota.1, quota.2⟩
  case inRange =>
    have owned := ownSetNode_of_good (s := s) number admission ⟨termLow, termHigh⟩ ⟨quotaLow, quotaHigh⟩
    refine ⟨fun busy => ends (owned.trans (if_neg busy)), fun absent => ?writes⟩
    rw [if_pos absent] at owned
    exact (exec_setNode s).trans (congrArg _ (runCommand_of_running run owned))

/-! ### CLEAR_CLAIMS (R17, R75, R94, R109, R162) -/

theorem exec_clearClaims (s : State) : exec .clearClaims s = .next (runCommand 0x000C ownClearClaims s) := rfl

/-- The state after CLEAR_CLAIMS, but for RESOURCE_FREED. -/
def clearedState (s : State) : State :=
  { s with
    nodes := tmap clearRecord s.nodes
    dir := { s.dir with slots := tmap clearSlot s.dir.slots, deferred := [], epoch := s.dir.epoch + 1 }
    freeHoldings := 384
    freeWaits := 64
    rct := { slots := Vector.replicate 8 none, startOrder := [], startList := [] }
    nq := ((s.nq.filter isInFlight).map fun e => { e with state := .inFlight true })
      ++ [{ notice := .announce (s.dir.epoch + 1), attempts := 0, state := .ready }] }

theorem markDiscard_of_inFlight {e : NoticeEntry} (h : isInFlight e = true) :
    markDiscard e = { e with state := .inFlight true } := by
  unfold markDiscard
  split
  · rfl
  all_goals next hs => simp [isInFlight, hs] at h

theorem map_markDiscard_filter (l : List NoticeEntry) :
    (l.filter isInFlight).map markDiscard = (l.filter isInFlight).map fun e => { e with state := .inFlight true } :=
  List.map_congr_left fun _ he => markDiscard_of_inFlight (List.mem_filter.mp he).2

theorem isRetiring_iff (i : SlotId) (s : State) :
    isRetiring (tget s.dir.slots i) = true ↔ ∃ e, slot i s = some e ∧ e.life = .retiring := by
  rw [isRetiring, Option.any_eq_true]
  simp [slot]

theorem anyRetiring_iff (s : State) :
    s.dir.slots.toList.any isRetiring = true ↔ ∃ i e, slot i s = some e ∧ e.life = .retiring := by
  rw [List.any_eq_true]
  constructor
  · rintro ⟨o, mem, ret⟩
    obtain ⟨i, rfl⟩ := mem_toList.mp mem
    exact ⟨i, (isRetiring_iff i s).mp ret⟩
  · rintro ⟨i, ret⟩
    exact ⟨_, mem_toList.mpr ⟨i, rfl⟩, (isRetiring_iff i s).mpr ret⟩

theorem ownClearClaims_of_retiring (a : Vector Word 4) (h : s.dir.slots.toList.any isRetiring = true) :
    ownClearClaims a s = (flagged 0x100#11 (clearedState s), .done []) := by
  simp only [ownClearClaims, clearDirectory, h, if_true, clearQueue, setFlag_nq, map_markDiscard_filter]
  rfl

theorem ownClearClaims_of_none_retiring (a : Vector Word 4) (h : s.dir.slots.toList.any isRetiring = false) :
    ownClearClaims a s = (clearedState s, .done []) := by
  simp only [ownClearClaims, clearDirectory, h, Bool.false_eq_true, if_false, clearQueue, map_markDiscard_filter]
  rfl

theorem clearSlot_eq (o : Option Entry) :
    clearSlot o = o.bind fun e =>
      if e.life = .opened then some { e with holders := [], queue := [], recallSlot := none } else none := by
  cases o with
  | none => rfl
  | some e => cases life : e.life <;> simp [clearSlot, life]

/-- Settles O54: the clear writes every block at once, and RESOURCE_FREED tells whether a slot was RETIRING. -/
theorem clearClaimsKeepsProvisioning : Obligations.ClearClaimsKeepsProvisioning := by
  intro a0 a1 a2 a3 s run
  refine ⟨tmap clearSlot s.dir.slots, tmap clearRecord s.nodes, fun i => ?slots, fun n => tget_tmap _ _ _,
    fun retiring => ?freed, fun opened => ?kept⟩
  case slots => rw [tget_tmap, clearSlot_eq]; rfl
  case freed =>
    have owned := ownClearClaims_of_retiring #v[a0, a1, a2, a3] ((anyRetiring_iff s).mpr retiring)
    exact (exec_clearClaims s).trans (congrArg _ (runCommand_of_running run owned))
  case kept =>
    have noneRetiring : s.dir.slots.toList.any isRetiring = false := by
      refine Bool.eq_false_iff.mpr fun any => ?_
      obtain ⟨i, e, hi, retiring⟩ := (anyRetiring_iff s).mp any
      exact absurd (opened i e hi) (by simp [retiring])
    have owned := ownClearClaims_of_none_retiring #v[a0, a1, a2, a3] noneRetiring
    exact (exec_clearClaims s).trans (congrArg _ (runCommand_of_running run owned))

/-! ### HALT and RESUME (R158, R159) -/

theorem exec_halt (s : State) : exec .halt s = .next (runCommand 0x000D ownHalt s) := rfl

theorem exec_resume (s : State) : exec .resume s = .next (runCommand 0x000E ownResume s) := rfl

theorem ownHalt_of_halted (a : Vector Word 4) (halted : s.svp.halted = true) : ownHalt a s = (s, .done []) :=
  if_pos halted

theorem ownHalt_of_settled (a : Vector Word 4) (running : s.svp.halted = false)
    (settled : ∀ x, expiryReached x s = false) :
    ownHalt a s = ({ s with svp := { s.svp with halted := true } }, .done []) := by
  rw [ownHalt, if_neg (by simp [running]), settleHold_of_none settled]

theorem handOutAll_of_nil (fuel : Nat) (h : s.rct.startList = []) : handOutAll fuel s = s := by
  induction fuel with
  | zero => rfl
  | succ fuel ih => rw [handOutAll, handOut_of_nil h, ih]

theorem resumePasses_of_no_queue (h : ∀ i e, slot i s = some e → e.queue = []) : resumePasses s = s := by
  have idle (i : SlotId) : resumeVisit s i = s := by
    refine if_neg ?_
    cases hi : slot i s with
    | none => simp
    | some e => simp [h i e hi]
  unfold resumePasses
  induction List.finRange 256 with
  | nil => rfl
  | cons i rest ih => rw [List.foldl_cons, idle, ih]

/-- What follows when a part is no longer halted: the lists and the queues are served (R58, R76). -/
def resumed (s : State) : State := resumePasses (handOutAll 8 (serveDeferred { s with svp := { s.svp with halted := false } }))

theorem ownResume_eq (a : Vector Word 4) (halted : s.svp.halted = true) : ownResume a s = (resumed s, .done []) := by
  rw [ownResume, if_pos halted]
  rfl

theorem resumed_ripples (s : State) : Ripples { s with svp := { s.svp with halted := false } } (resumed s) :=
  ((serveDeferred_ripples _).trans (handOutAll_ripples 8 _)).trans (resumePasses_ripples _)

theorem resumed_of_no_queue (deferred : s.dir.deferred = []) (pending : s.rct.startList = [])
    (empty : ∀ i e, slot i s = some e → e.queue = []) :
    resumed s = { s with svp := { s.svp with halted := false } } := by
  rw [resumed, serveDeferred_of_nil (s := { s with svp := { s.svp with halted := false } }) deferred,
    handOutAll_of_nil (s := { s with svp := { s.svp with halted := false } }) 8 pending,
    resumePasses_of_no_queue (s := { s with svp := { s.svp with halted := false } }) empty]

/-- Only what the line itself does changes the Line Interface. -/
theorem Act.lifKept {k : Kind} {s t : State} (a : Act k s t) (h1 : k ≠ .line) (h2 : k ≠ .por) : t.lif = s.lif := by
  cases a with
  | line => exact absurd rfl h1
  | por => exact absurd rfl h2
  | clear => unfold clearQueue clearDirectory; dsimp only; split <;> rfl
  | lease => unfold renewLease; split <;> rfl
  | freeSlot i => unfold Machine.freeSlot; split <;> rfl
  | _ => rfl

theorem Acts.lifKept {K : Kind → Prop} {s t : State} (h : Acts K s t) (h1 : ¬ K .line) (h2 : ¬ K .por) : t.lif = s.lif :=
  h.same (f := State.lif) fun _ _ _ hk a => a.lifKept (by rintro rfl; exact h1 hk) (by rintro rfl; exact h2 hk)

theorem Acts.entriesKept {K : Kind → Prop} {s t : State} (h : Acts K s t)
    (hK : ∀ k, K k → k ≠ .provision ∧ k ≠ .retire ∧ k ≠ .clear ∧ k ≠ .por) : keepsEntries s t :=
  h.rel keepsEntries_refl (fun _ _ _ => keepsEntries_trans) fun k _ _ hk a => a.entriesKept (hK k hk)

/-- Settles O55: HALT writes the flag; RESUME clears it, and the last pass over each slot leaves its head served. -/
theorem haltAndResume : Obligations.HaltAndResume := by
  intro a0 a1 a2 a3 s doneIn
  refine ⟨fun run halted => ?haltAgain, fun run running settled => ?halt, fun run running => ?resumeAgain,
    fun run halted deferred pending empty => ?resumeIdle, fun run halted => ?resume⟩
  case haltAgain =>
    exact (exec_halt s).trans (congrArg _ (runCommand_of_running run (ownHalt_of_halted _ halted)))
  case halt =>
    exact (exec_halt s).trans (congrArg _ (runCommand_of_running run (ownHalt_of_settled _ running settled)))
  case resumeAgain =>
    have owned : ownResume #v[a0, a1, a2, a3] s = (s, .done []) := if_neg (by simp [running])
    exact (exec_resume s).trans (congrArg _ (runCommand_of_running run owned))
  case resumeIdle =>
    have owned := ownResume_eq #v[a0, a1, a2, a3] halted
    rw [resumed_of_no_queue deferred pending empty] at owned
    exact (exec_resume s).trans (congrArg _ (runCommand_of_running run owned))
  case resume =>
    have owned := ownResume_eq #v[a0, a1, a2, a3] halted
    have acts := resumed_ripples s
    have settings := acts.settings (by rintro k rfl; rfl)
    have entries : keepsEntries s (resumed s) := acts.entriesKept (by rintro k rfl; decide)
    have ran : exec .resume s = .next (completedWith .done (Vector.replicate 7 0) (resumed s)) :=
      (exec_resume s).trans (congrArg _ (runCommand_of_running run owned))
    have served : headsServed (resumed s) := (headsServed_iff _).mpr fun j => resumePasses_serves j _
    have lif : (resumed s).lif = s.lif := acts.lifKept nofun nofun
    generalize resumed s = u at *
    have done : flagSet .cmdDone (completedWith .done (Vector.replicate 7 0) u) = true := by
      simp [flagSet, completedWith, flagBit]
    exact ⟨_, ran, congrArg Svp.halted (keepsSettings_svp settings), served, entries,
      fun n => acts.recordSpared (n := n) (by rintro k rfl; rfl), (keepsSettings_dlu settings :),
      (keepsSettings_epoch settings :), lif, rfl, rfl, done⟩

end Sys2Proof.Machine
end

section
/-!
PROOF. The supervisor window: the five reads (R19, R95, R156), the registers, SDO and ATTN (R150, R151, R161), and SPI
writes (R150, R160).
-/

namespace Sys2Proof.Machine

variable {s : State} {i : SlotId} {e : Entry}

/-! ### The words of the results (section 11.5) -/

theorem claimStateCode_eq (e : Entry) :
    claimStateCode (claimState e)
      = if e.holders = [] then 0 else if e.holders.all (fun h => h.mode = .shared) then 1 else 2 := by
  rw [claimState_eq]
  by_cases free : e.holders = []
  · rw [if_pos free, if_pos free]; rfl
  · rw [if_neg free, if_neg free]
    split <;> rfl

theorem resultOf_modeCode (m : Mode) : resultOf (modeCode m) = if m = .shared then 1#16 else 2#16 := by
  cases m <;> rfl

theorem resultOf_flag (b : Bool) : resultOf (bitAt b 0) = if b = true then 1 else 0 := by
  cases b <;> rfl

/-- The time remaining, as a result register: the low 16 bits (R95). -/
theorem resultOf_remaining (deadline clock : Millis) :
    resultOf (remaining deadline clock) = if deadline = clock then 1 else (deadline - clock).setWidth 16 := by
  unfold remaining resultOf
  split
  · rfl
  · exact BitVec.eq_of_toNat_eq (by simp)

theorem entryWord_eq (i : SlotId) (e : Entry) (s : State) :
    entryWord i e s
      = BitVec.ofNat 16
          (e.shareLimit % 16
            + 16 * (if e.holders = [] then 0 else if e.holders.all (fun h => h.mode = .shared) then 1 else 2)
            + (if e.life = .retiring then 64 else 0) + (if e.recallable = true then 128 else 0)
            + (if e.recallSlot.isSome = true then 256 else 0) + (if isDeferred i s = true then 512 else 0)
            + (if isRecallPending i s = true then 1024 else 0)) := by
  simp only [entryWord, resultOf, claimStateCode_eq, bitAt, decide_eq_true_eq, Nat.reducePow]

theorem recallSlotWord (o : Option RecallId) :
    resultOf ((o.map fun k => k.val).getD 0) = match o with | none => 0 | some k => BitVec.ofNat 16 k.val := by
  cases o <;> rfl

theorem itemAt_of_outside {α : Type} {l : List α} {index : Word} (h : index.toNat = 0 ∨ l.length < index.toNat) :
    itemAt l index = none := by
  unfold itemAt
  split
  · rfl
  · next nonzero =>
    have positive : index.toNat ≠ 0 := fun z => nonzero (BitVec.eq_of_toNat_eq z)
    exact List.getElem?_eq_none (by omega)

theorem itemAt_of_split {α : Type} {x : α} {before after : List α} {index : Word} (h : index.toNat = before.length + 1) :
    itemAt (before ++ x :: after) index = some x := by
  have nonzero : index ≠ 0#16 := by rintro rfl; simp at h
  rw [itemAt, if_neg nonzero, h]
  simp

theorem sessionWord_eq (r : NodeRecord) :
    sessionWord r
      = BitVec.ofNat 16
          ((match r.session with
              | .absent => 0
              | .active _ => 1
              | .lapsed => 2)
            + (if r.admission = .barred then 4 else 0)
            + 8 * (match r.reply with
              | .empty => 0
              | .stored _ _ _ _ => 1
              | .closed => 2)
            + 256 * r.noticeSeq.toNat + 4096 * r.epoch.toNat) := by
  simp only [sessionWord, resultOf, bitAt, decide_eq_true_eq, Nat.reducePow]
  cases r.session <;> cases r.reply <;> rfl

theorem leaseRemaining_word (r : NodeRecord) (clock : Millis) :
    resultOf (leaseRemaining r clock)
      = match r.session with
        | .active d => if d = clock then 1 else (d - clock).setWidth 16
        | .absent => 0
        | .lapsed => 0 := by
  unfold leaseRemaining
  cases r.session with
  | active d => exact resultOf_remaining d clock
  | absent | lapsed => rfl

theorem freeRecallSlots_eq (s : State) :
    freeRecallSlots s = (List.finRange 8).countP fun k => (recallAt k s).isNone :=
  List.countP_eq_length_filter.symm

/-- The result registers of a read that gives five words. -/
theorem fiveWords {x1 x2 x3 x4 x5 y1 y2 y3 y4 y5 : Word} (h1 : x1 = y1) (h2 : x2 = y2) (h3 : x3 = y3) (h4 : x4 = y4)
    (h5 : x5 = y5) : resultRegisters (.done [x1, x2, x3, x4, x5]) = #v[0, y1, y2, y3, y4, y5, 0] := by
  subst h1 h2 h3 h4 h5
  rfl

/-- The result registers of a read that gives three words. -/
theorem threeWords {x1 x2 x3 y1 y2 y3 : Word} (h1 : x1 = y1) (h2 : x2 = y2) (h3 : x3 = y3) :
    resultRegisters (.done [x1, x2, x3]) = #v[0, y1, y2, y3, 0, 0, 0] := by
  subst h1 h2 h3
  rfl

/-! ### The five reads (R19, R95, R156) -/

/-- The reads of a resource check its id first, then look it up (R155). -/
def readsResource (owner : Owner) : Prop :=
  ∀ a s, (argId (tget a 0) = none → owner a s = (s, .failed .badArgument))
    ∧ ∀ id, argId (tget a 0) = some id → lookup id s = none → owner a s = (s, .failed .noResource)

theorem readsResource_readResource : readsResource ownReadResource := fun a s =>
  ⟨fun bad => by simp only [ownReadResource, bad], fun id ok absent => by simp only [ownReadResource, ok, absent]⟩

theorem readsResource_readHolder : readsResource ownReadHolder := fun a s =>
  ⟨fun bad => by simp only [ownReadHolder, bad], fun id ok absent => by simp only [ownReadHolder, ok, absent]⟩

theorem readsResource_readWait : readsResource ownReadWait := fun a s =>
  ⟨fun bad => by simp only [ownReadWait, bad], fun id ok absent => by simp only [ownReadWait, ok, absent]⟩

section Reads

variable {code a0 a1 a2 a3 : Word} {owner : Owner}

theorem read_of_badId (reads : readsResource owner) (run : running code a0 a1 a2 a3 s)
    (bad : a0 = 0x0000#16 ∨ a0 = 0xFFFF#16) :
    runCommand code owner s = completedWith .failed #v[4, 0, 0, 0, 0, 0, 0] s :=
  runCommand_fails run ((reads _ s).1 (argId_of_invalid (w := a0) bad))

theorem read_of_no_resource (reads : readsResource owner) (run : running code a0 a1 a2 a3 s) (h1 : a0 ≠ 0x0000#16)
    (h2 : a0 ≠ 0xFFFF#16) (absent : lookup a0 s = none) :
    runCommand code owner s = completedWith .failed #v[3, 0, 0, 0, 0, 0, 0] s :=
  runCommand_fails run ((reads _ s).2 a0 (argId_of_valid (w := a0) ⟨h1, h2⟩) absent)

/-- A read that gives results changes nothing but the mailbox (R154). -/
theorem runCommand_reads {results : List Word} (run : running code a0 a1 a2 a3 s)
    (owned : owner #v[a0, a1, a2, a3] s = (s, .done results)) :
    runCommand code owner s = completedWith .done (resultRegisters (.done results)) s :=
  runCommand_of_running run owned

variable (h1 : a0 ≠ 0x0000#16) (h2 : a0 ≠ 0xFFFF#16) (found : lookup a0 s = some (i, e))

include h1 h2 found

theorem ownReadResource_of_found :
    ownReadResource #v[a0, a1, a2, a3] s
      = (s, .done [resultOf i.val, entryWord i e s, resultOf ((e.recallSlot.map fun k => k.val).getD 0),
          resultOf e.holders.length, resultOf e.queue.length]) := by
  have first : argId (tget #v[a0, a1, a2, a3] 0) = some a0 := argId_of_valid ⟨h1, h2⟩
  simp only [ownReadResource, first, found]

theorem ownReadHolder_of_found :
    ownReadHolder #v[a0, a1, a2, a3] s
      = match itemAt e.holders a1 with
        | none => (s, .failed .badArgument)
        | some h =>
          (s, .done [resultOf (nodeNumber h.node), resultOf (modeCode h.mode),
            (h.token.extractLsb' 16 8).setWidth 16, h.token.extractLsb' 0 16, resultOf (bitAt h.recallTarget 0)]) := by
  have first : argId (tget #v[a0, a1, a2, a3] 0) = some a0 := argId_of_valid ⟨h1, h2⟩
  simp only [ownReadHolder, first, found] <;> rfl

theorem ownReadWait_of_found :
    ownReadWait #v[a0, a1, a2, a3] s
      = match itemAt e.queue a1 with
        | none => (s, .failed .badArgument)
        | some w =>
          (s, .done [resultOf (nodeNumber w.node), resultOf (modeCode w.mode),
            resultOf (remaining w.deadline s.dlu.holdClock)]) := by
  have first : argId (tget #v[a0, a1, a2, a3] 0) = some a0 := argId_of_valid ⟨h1, h2⟩
  simp only [ownReadWait, first, found] <;> rfl

end Reads

theorem ownReadNode_of_node {a0 : Word} (a1 a2 a3 : Word) {n : NodeId} (h : a0.toNat = nodeNumber n) :
    ownReadNode #v[a0, a1, a2, a3] s
      = (s, .done [sessionWord (node n s), resultOf ((node n s).leaseTerm + 256 * (node n s).quota),
          resultOf ((node n s).heldCount + 256 * (node n s).waitCount), resultOf (node n s).revocationCount,
          resultOf (leaseRemaining (node n s) s.dlu.leaseClock)]) := by
  have first : argNode (tget #v[a0, a1, a2, a3] 0) = some n := argNode_of_number h
  simp only [ownReadNode, first]

theorem ownReadNode_of_outside {a0 : Word} (a1 a2 a3 : Word) (h : a0.toNat = 0 ∨ 30 < a0.toNat) :
    ownReadNode #v[a0, a1, a2, a3] s = (s, .failed .badArgument) := by
  have first : argNode (tget #v[a0, a1, a2, a3] 0) = none := nodeOf_outside h
  simp only [ownReadNode, first]

/-! ### The registers (section 11.5) -/

/-- The fields of STATUS stand side by side. -/
theorem statusFields : ∀ c < 4, ∀ b : Bool, ∀ l < 8,
    (resultOf (c + bitAt b 2 + 8 * l)).extractLsb' 0 2 = BitVec.ofNat 2 c
      ∧ (resultOf (c + bitAt b 2 + 8 * l)).getLsbD 2 = b
      ∧ (resultOf (c + bitAt b 2 + 8 * l)).extractLsb' 3 3 = BitVec.ofNat 3 l
      ∧ (resultOf (c + bitAt b 2 + 8 * l)).extractLsb' 6 10 = 0#10 := by
  decide

theorem cmdStateCode_lt (c : CmdState) : cmdStateCode c < 4 := by cases c <;> decide

theorem lineStateCode_lt (l : LineState) : lineStateCode l < 8 := by cases l <;> decide

theorem readRegister_arg (k : Fin 4) {address : BitVec 4} (h : address.toNat = 3 + k.val) (s : State) :
    readRegister address s = tget s.svp.args k := by
  unfold readRegister
  rw [h]
  fin_cases k <;> rfl

theorem readRegister_result (k : Fin 7) {address : BitVec 4} (h : address.toNat = 7 + k.val) (s : State) :
    readRegister address s = tget s.svp.results k := by
  unfold readRegister
  rw [h]
  fin_cases k <;> rfl

/-- The eleven bits of FLAGS and ENABLE stand in the low bits of their registers. -/
theorem getLsbD_register (v : BitVec 11) (k : Nat) : (v.setWidth 16).getLsbD k = v.getLsbD k := by
  rw [BitVec.getLsbD_setWidth]
  by_cases inside : k < 16
  · simp [inside]
  · rw [BitVec.getLsbD_of_ge v k (by omega)]; simp

/-! ### SDO and ATTN (R150, R161) -/

theorem address_of_bits : ∀ a : BitVec 4,
    BitVec.ofBool (a.getLsbD 3) ++ BitVec.ofBool (a.getLsbD 2) ++ BitVec.ofBool (a.getLsbD 1)
      ++ BitVec.ofBool (a.getLsbD 0) = a := by
  decide

/-- The control byte that an access begins with (section 11.5). -/
theorem controlOf_bits (write z2 z1 z0 : Bool) (address : BitVec 4) (rest : List Bool) :
    controlOf ([write, z2, z1, z0, address.getLsbD 3, address.getLsbD 2, address.getLsbD 1, address.getLsbD 0] ++ rest)
      = some { write := write, good := !(z2 || z1 || z0), address := address } := by
  conv_rhs => rw [← address_of_bits address]
  rfl

/-- SDO during the data bits of a read. -/
theorem sdoBit_of_read (access : Nat) {bits : List Bool} {good : Bool} {address : BitVec 4} (k : Nat)
    (control : controlOf bits = some { write := false, good := good, address := address }) :
    sdoBit access bits (8 + k) s = (good && decide (k < 16) && (readRegister address s).getLsbD (15 - k)) := by
  unfold sdoBit
  by_cases inside : k < 16
  · rw [if_neg (by omega), if_neg (by omega), control, show 23 - (8 + k) = 15 - k by omega]
    simp [inside]
  · rw [if_pos (by omega)]
    simp [inside]

/-- Every bit of FLAGS is a flag's (section 11.5). -/
theorem exists_flagBit : ∀ k < 11, ∃ f ∈ [Flag.cmdDone, .cmdRefused, .nodeLapsed, .revocation, .noticeFailed,
    .noticeDropped, .lineHeld, .lineReleased, .resourceFreed, .poolRefusal, .frameError], flagBit f = k := by
  decide

theorem flagBit_lt (f : Flag) : flagBit f < 11 := by cases f <;> decide

theorem attn_iff (s : State) :
    attn s = true ↔ ∃ f : Flag, flagSet f s = true ∧ s.svp.enables.getLsbD (flagBit f) = true := by
  constructor
  · intro asserted
    by_contra! noFlag
    refine (of_decide_eq_true asserted) (BitVec.eq_of_getLsbD_eq fun k hk => ?_)
    obtain ⟨f, -, rfl⟩ := exists_flagBit k hk
    rw [BitVec.getLsbD_and]
    by_cases set : flagSet f s = true
    · simp [noFlag f set]
    · simp [flagSet] at set; simp [set]
  · rintro ⟨f, set, enabled⟩
    refine decide_eq_true fun zero => ?_
    have bit : (s.svp.flags &&& s.svp.enables).getLsbD (flagBit f) = true := by
      rw [BitVec.getLsbD_and, enabled, Bool.and_true]; exact set
    simp [zero] at bit

/-- Settles O53: each read gives the words of its layout, and each register its value. -/
theorem readsReportTheState : Obligations.ReadsReportTheState := by
  intro a0 a1 a2 a3 s fails gives mode
  have fail {c : Instr} {word : Word} {u : State} (ran : exec c s = .next u)
      (ended : u = completedWith .failed #v[word, 0, 0, 0, 0, 0, 0] s) : fails c word := ran.trans (congrArg _ ended)
  have give {c : Instr} {results words : Vector Word 7} {u : State} (ran : exec c s = .next u)
      (ended : u = completedWith .done results s) (layout : results = words) : gives c words := by
    rw [ended, layout] at ran
    exact ran
  refine ⟨fun run => ⟨fun bad => ?badResource, fun h1 h2 absent => ?noResource, fun i e h1 h2 found => ?resource⟩,
    fun run => ⟨fun bad => ?badHolder, fun h1 h2 absent => ?noHolderResource,
      fun i e h1 h2 found => ⟨fun outside => ?noHolder, fun h before after split place => ?holder⟩⟩,
    fun run => ⟨fun bad => ?badWait, fun h1 h2 absent => ?noWaitResource,
      fun i e h1 h2 found => ⟨fun outside => ?noWait, fun w before after split place => ?wait⟩⟩,
    fun run => ⟨fun outside => ?noNode, fun n number => ?node⟩, fun run => ?pools,
    ⟨rfl, ?cmdState, ?halted, ?lineState, ?zeros, rfl, fun k _ h => readRegister_arg k h s,
      fun k _ h => readRegister_result k h s, getLsbD_register _, getLsbD_register _⟩,
    fun access address z2 z1 z0 rest k inside => ?sdo, attn_iff s⟩
  case badResource => exact fail rfl (read_of_badId readsResource_readResource run bad)
  case badHolder => exact fail rfl (read_of_badId readsResource_readHolder run bad)
  case badWait => exact fail rfl (read_of_badId readsResource_readWait run bad)
  case noResource => exact fail rfl (read_of_no_resource readsResource_readResource run h1 h2 absent)
  case noHolderResource => exact fail rfl (read_of_no_resource readsResource_readHolder run h1 h2 absent)
  case noWaitResource => exact fail rfl (read_of_no_resource readsResource_readWait run h1 h2 absent)
  case resource =>
    exact give rfl (runCommand_reads run (ownReadResource_of_found h1 h2 found))
      (fiveWords rfl (entryWord_eq i e s) (recallSlotWord e.recallSlot) rfl rfl)
  case noHolder =>
    have owned := ownReadHolder_of_found (a1 := a1) (a2 := a2) (a3 := a3) h1 h2 found
    rw [itemAt_of_outside outside] at owned
    exact fail rfl (runCommand_fails run owned)
  case holder =>
    have owned := ownReadHolder_of_found (a1 := a1) (a2 := a2) (a3 := a3) h1 h2 found
    rw [split, itemAt_of_split place] at owned
    exact give rfl (runCommand_reads run owned)
      (fiveWords rfl (resultOf_modeCode h.mode) rfl rfl (resultOf_flag h.recallTarget))
  case noWait =>
    have owned := ownReadWait_of_found (a1 := a1) (a2 := a2) (a3 := a3) h1 h2 found
    rw [itemAt_of_outside outside] at owned
    exact fail rfl (runCommand_fails run owned)
  case wait =>
    have owned := ownReadWait_of_found (a1 := a1) (a2 := a2) (a3 := a3) h1 h2 found
    rw [split, itemAt_of_split place] at owned
    exact give rfl (runCommand_reads run owned)
      (threeWords rfl (resultOf_modeCode w.mode) (resultOf_remaining w.deadline s.dlu.holdClock))
  case noNode => exact fail rfl (runCommand_fails run (ownReadNode_of_outside a1 a2 a3 outside))
  case node =>
    exact give rfl (runCommand_reads run (ownReadNode_of_node a1 a2 a3 number))
      (fiveWords (sessionWord_eq (node n s)) rfl rfl rfl (leaseRemaining_word (node n s) s.dlu.leaseClock))
  case pools =>
    rw [← freeRecallSlots_eq]
    exact give rfl (runCommand_reads (owner := ownReadPools) run rfl) rfl
  case cmdState =>
    refine (statusFields _ (cmdStateCode_lt _) s.svp.halted _ (lineStateCode_lt _)).1.trans ?_
    cases s.svp.cmdState <;> rfl
  case halted => exact (statusFields _ (cmdStateCode_lt _) s.svp.halted _ (lineStateCode_lt _)).2.1
  case lineState =>
    refine (statusFields _ (cmdStateCode_lt _) s.svp.halted _ (lineStateCode_lt _)).2.2.1.trans ?_
    cases s.lif.lineState <;> rfl
  case zeros => exact (statusFields _ (cmdStateCode_lt _) s.svp.halted _ (lineStateCode_lt _)).2.2.2
  case sdo =>
    have place (control : List Bool) (h : control.length = 8) : 8 + k < (control ++ rest).length := by
      rw [List.length_append]; omega
    rw [sdoBits, List.getElem?_map, List.getElem?_range (place _ rfl), Option.map_some,
      sdoBit_of_read access k (controlOf_bits false z2 z1 z0 address rest)]

/-! ### SPI writes (R150, R151) -/

theorem exec_registerWrite (bits : List Bool) (s : State) :
    exec (.registerWrite ⟨bits⟩) s
      = .next (match writeOf bits with
        | some (address, data) => writeRegister address data s
        | none => s) := rfl

theorem exec_registerWrite_of_none {bits : List Bool} (h : writeOf bits = none) (s : State) :
    exec (.registerWrite ⟨bits⟩) s = .next s := by
  rw [exec_registerWrite, h]

theorem exec_registerWrite_of_some {bits : List Bool} {address : BitVec 4} {data : Word}
    (h : writeOf bits = some (address, data)) (s : State) :
    exec (.registerWrite ⟨bits⟩) s = .next (writeRegister address data s) := by
  rw [exec_registerWrite, h]

theorem wordOfBits_concat (l : List Bool) (b : Bool) :
    wordOfBits (l ++ [b]) = (wordOfBits l <<< 1) ||| (BitVec.ofBool b).setWidth 16 := by
  rw [wordOfBits, List.foldl_append]
  rfl

/-- The last bit received is the least significant. -/
theorem getLsbD_wordOfBits (l : List Bool) {k : Nat} (h : k < 16) : (wordOfBits l).getLsbD k = l.reverse.getD k false := by
  induction l using List.reverseRecOn generalizing k with
  | nil => simp [wordOfBits]
  | append_singleton l b ih =>
    rw [wordOfBits_concat, List.reverse_append, List.reverse_singleton, List.singleton_append]
    cases k with
    | zero => simp
    | succ k =>
      have before : k < 16 := by omega
      rw [List.getD_cons_succ, ← ih before]
      simp [h, BitVec.getLsbD_eq_getElem before]

/-- The sixteen bits of a word in the order they are sent. -/
def wordBits (data : Word) : List Bool := (List.range 16).map fun k => data.getLsbD (15 - k)

theorem wordBits_length (data : Word) : (wordBits data).length = 16 := by simp [wordBits]

theorem wordOfBits_wordBits (data : Word) : wordOfBits (wordBits data) = data := by
  refine BitVec.eq_of_getLsbD_eq fun k hk => ?_
  have place : k < (wordBits data).length := by rw [wordBits_length]; exact hk
  rw [getLsbD_wordOfBits _ hk, List.getD_eq_getElem?_getD, List.getElem?_reverse place, wordBits_length, wordBits,
    List.getElem?_map, List.getElem?_range (by omega), Option.map_some, Option.getD_some,
    show 15 - (16 - 1 - k) = k by omega]

theorem writeOf_of_short {bits : List Bool} (h : bits.length < 24) : writeOf bits = none := by
  have short : ¬ 24 ≤ bits.length := by omega
  unfold writeOf
  cases controlOf bits <;> simp [short]

/-- The access that carries a control byte, sixteen data bits and what follows them. -/
def accessBits (write z2 z1 z0 : Bool) (address : BitVec 4) (data : Word) : List Bool :=
  [write, z2, z1, z0, address.getLsbD 3, address.getLsbD 2, address.getLsbD 1, address.getLsbD 0] ++ wordBits data

theorem writeOf_accessBits (write z2 z1 z0 : Bool) (address : BitVec 4) (data : Word) (extra : List Bool) :
    writeOf (accessBits write z2 z1 z0 address data ++ extra)
      = if (write && !(z2 || z1 || z0)) = true then some (address, data) else none := by
  have control := controlOf_bits write z2 z1 z0 address (wordBits data ++ extra)
  rw [← List.append_assoc] at control
  have dataBits : ((accessBits write z2 z1 z0 address data ++ extra).drop 8).take 16 = wordBits data := by
    have dropped : (accessBits write z2 z1 z0 address data ++ extra).drop 8 = wordBits data ++ extra := rfl
    rw [dropped, List.take_append_of_le_length (wordBits_length data).ge, List.take_of_length_le (wordBits_length data).le]
  have long : 24 ≤ (accessBits write z2 z1 z0 address data ++ extra).length := by
    simp only [accessBits, List.length_append, List.length_cons, List.length_nil, wordBits_length]
    omega
  rw [writeOf, accessBits, control, ← accessBits, dataBits, wordOfBits_wordBits]
  simp only [Option.bind_some, long, decide_true, Bool.and_true]

theorem writeRegister_arg (k : Fin 4) {address : BitVec 4} (h : address.toNat = 3 + k.val) (data : Word) (s : State) :
    writeRegister address data s = writeArg k data s := by
  unfold writeRegister
  rw [h]
  fin_cases k <;> rfl

/-- IDENT, STATUS and the result registers are read-only (R151). -/
theorem writeRegister_readOnly {address : BitVec 4} (h : address.toNat < 2 ∨ (7 ≤ address.toNat ∧ address.toNat ≤ 13))
    (data : Word) (s : State) : writeRegister address data s = s := by
  unfold writeRegister
  split
  case h_8 => rfl
  all_goals omega

/-- Settles O58: an access is a write of 24 bits under a good control byte or nothing, and a write is its register's. -/
theorem registerWritesReachTheirRegister : Obligations.RegisterWritesReachTheirRegister := by
  intro address data extra s bits makes
  have taken {u : State} (written : writeRegister address data s = u) :
      makes (bits true false false false ++ extra) (.next u) := by
    rw [← written]
    exact exec_registerWrite_of_some (writeOf_accessBits true false false false address data extra) s
  refine ⟨rfl, rfl, fun h => ?command, fun k h => taken (writeRegister_arg k h data s), fun h => ?flags,
    fun h => ?enable, fun h => taken (writeRegister_readOnly h data s), fun k h => ?short, fun z2 z1 z0 bad => ?bad,
    fun z2 z1 z0 => ?read⟩
  case command => subst h; exact taken rfl
  case flags => subst h; exact taken rfl
  case enable => subst h; exact taken rfl
  case short => exact exec_registerWrite_of_none (writeOf_of_short ((List.length_take_le k _).trans_lt h)) s
  case bad =>
    refine exec_registerWrite_of_none ((writeOf_accessBits true z2 z1 z0 address data extra).trans (if_neg ?_)) s
    simp [bad]
  case read => exact exec_registerWrite_of_none (writeOf_accessBits false z2 z1 z0 address data extra) s

end Sys2Proof.Machine
end

section
/-!
SUPPORT. What the start of a recall does, written out (R64, R66): the recall in its slot, its targets NOTIFIED while
notice entries are free, and the blockers marked.
-/

namespace Sys2Proof.Machine

variable {s : State} {i : SlotId} {e : Entry} {k : RecallId} {w : Wait}

/-! ### Targets notified while notice entries are free (R66 step 3) -/

/-- Targets of which the first ones, as many as there are free notice entries, have become NOTIFIED. -/
def notifiedTargets (free : Nat) (ts : List Target) : List Target :=
  ts.mapIdx fun j x => if j < free then { x with status := .notified } else x

theorem notifiedTargets_zero (ts : List Target) : notifiedTargets 0 ts = ts :=
  List.mapIdx_eq_iff.mpr fun j => by simp

theorem notifiedTargets_cons {free : Nat} (some : free ≠ 0) (x : Target) (ts : List Target) :
    notifiedTargets free (x :: ts) = { x with status := .notified } :: notifiedTargets (free - 1) ts := by
  have shifted (j : Nat) : j + 1 < free ↔ j < free - 1 := by omega
  simp only [notifiedTargets, List.mapIdx_cons, Nat.pos_of_ne_zero some, if_true, shifted]

theorem notifyTarget_eq {x : Target} {q : Recall} {id : ResourceId} (running : recallAt k s = some q)
    (hid : slotId q.slot s = some id) :
    notifyTarget k x s = queueNotice x.node (.askBack id x.token) (setRecall k (some (setStatus x.node .notified q)) s) := by
  rw [notifyTarget, running]
  dsimp only
  rw [hid]

/-- The targets of a recall notified in turn: as many as there are free notice entries. -/
theorem notifyWhileFree_eq {q : Recall} {id : ResourceId} {ts before : List Target} (running : recallAt k s = some q)
    (hid : slotId q.slot s = some id) (targets : q.targets = before ++ ts) (distinct : (q.targets.map (·.node)).Nodup) :
    ∃ nodes : Vector NodeRecord 30, (∀ n, ∃ seq, tget nodes n = { node n s with noticeSeq := seq })
      ∧ notifyWhileFree k ts s
        = { s with
            nodes := nodes
            nq := s.nq ++ (ts.take (freeEntries s)).map fun x => queuedEntry x.node (.askBack id x.token) s
            rct :=
              { s.rct with
                slots := tset s.rct.slots k
                  (some { q with targets := before ++ notifiedTargets (freeEntries s) ts }) } } := by
  have kept : tset s.rct.slots k (some q) = s.rct.slots := by rw [← running, recallAt, tset_tget]
  have whole : { q with targets := before ++ ts } = q := by rw [← targets]
  induction ts generalizing s q before with
  | nil =>
    refine ⟨s.nodes, fun n => ⟨_, rfl⟩, ?_⟩
    rw [List.take_nil, List.map_nil, List.append_nil, notifiedTargets, List.mapIdx_nil, whole, kept]
    rfl
  | cons x ts ih =>
    by_cases none : freeEntries s = 0
    case pos =>
      refine ⟨s.nodes, fun n => ⟨_, rfl⟩, ?_⟩
      rw [none, List.take_zero, List.map_nil, List.append_nil, notifiedTargets_zero, whole, kept]
      exact if_pos none
    case neg =>
      have unique : ∀ y ∈ before ++ ts, y.node ≠ x.node := by
        have perm : (q.targets.map (·.node)).Perm (x.node :: (before ++ ts).map (·.node)) := by
          rw [targets]; simp [List.perm_middle]
        have nodup := List.nodup_cons.mp (perm.nodup_iff.mp distinct)
        exact fun y hy eq => nodup.1 (List.mem_map.mpr ⟨y, hy, eq⟩)
      let q' : Recall := { q with targets := before ++ { x with status := .notified } :: ts }
      let s' : State :=
        { s with
          nq := s.nq ++ [queuedEntry x.node (.askBack id x.token) s]
          nodes := tset s.nodes x.node { node x.node s with noticeSeq := (node x.node s).noticeSeq + 1 }
          rct := { s.rct with slots := tset s.rct.slots k (some q') } }
      have first : notifyWhileFree k (x :: ts) s = notifyWhileFree k ts s' := by
        rw [notifyWhileFree, if_neg none, notifyTarget_eq running hid, setStatus_split targets unique]
        rfl
      have running' : recallAt k s' = some q' := tget_tset_same _ _ _
      have targets' : q'.targets = (before ++ [{ x with status := .notified }]) ++ ts := by simp [q']
      have distinct' : (q'.targets.map (·.node)).Nodup := by
        rw [targets] at distinct
        simpa [q'] using distinct
      have room : freeEntries s' = freeEntries s - 1 := by
        simp only [freeEntries, s', List.length_append, List.length_singleton]; omega
      obtain ⟨nodes, records, rest⟩ := ih (s := s') (q := q') running' hid targets' distinct'
        (by rw [← running', recallAt, tset_tget]) (by rw [← targets'])
      have sameEntries : (ts.take (freeEntries s - 1)).map (fun y => queuedEntry y.node (.askBack id y.token) s')
          = (ts.take (freeEntries s - 1)).map fun y => queuedEntry y.node (.askBack id y.token) s := by
        refine List.map_congr_left fun y hy => ?_
        have other : y.node ≠ x.node := unique y (List.mem_append_right _ (List.mem_of_mem_take hy))
        have seq : node y.node s' = node y.node s := tget_tset_ne _ _ _ _ other
        rw [queuedEntry, seq, queuedEntry]
      refine ⟨nodes, fun n => ?_, ?_⟩
      · obtain ⟨seq, hn⟩ := records n
        refine ⟨seq, hn.trans ?_⟩
        by_cases same : n = x.node
        · subst same; rw [show node x.node s' = _ from tget_tset_same _ _ _]
        · rw [show node n s' = node n s from tget_tset_ne _ _ _ _ same]
      · obtain ⟨free, hfree⟩ := Nat.exists_eq_succ_of_ne_zero none
        rw [first, rest, room, sameEntries, notifiedTargets_cons none, hfree, List.take_succ_cons, List.map_cons]
        simp [s', q', tset_tset]

/-! ### A recall starts (R64, R66) -/

/-- The recall that a start leaves in its slot: the blockers in holder-list order, NOTIFIED while entries are free. -/
def startedRecall (i : SlotId) (e : Entry) (w : Wait) (s : State) : Recall :=
  { slot := i, waiter := w
    targets := (blockers w.mode e).mapIdx fun j h =>
      { node := h.node, token := h.token, status := if j < freeEntries s then .notified else .pending }
    deadline := s.dlu.holdClock + BitVec.ofNat 32 (10 * s.dlu.recallTimeout) }

theorem notifiedTargets_map (free : Nat) (hs : List Holding) :
    notifiedTargets free (hs.map fun h => { node := h.node, token := h.token, status := .pending })
      = hs.mapIdx fun j h =>
          { node := h.node, token := h.token, status := if j < free then .notified else .pending } := by
  refine List.ext_getElem? fun j => ?_
  simp only [notifiedTargets, List.getElem?_mapIdx, List.getElem?_map, Option.map_map]
  refine congrArg (Option.map · hs[j]?) (funext fun h => ?_)
  by_cases below : j < free <;> simp [below]

theorem startRecall_eq {more : List Wait} (hi : slot i s = some e) (queue : e.queue = w :: more)
    (distinct : (e.holders.map (·.node)).Nodup) :
    ∃ nodes : Vector NodeRecord 30, (∀ n, ∃ seq, tget nodes n = { node n s with noticeSeq := seq })
      ∧ startRecall k i s
        = { s with
            nodes := nodes
            nq := s.nq ++ ((blockers w.mode e).take (freeEntries s)).map fun h =>
              queuedEntry h.node (.askBack e.id h.token) s
            rct :=
              { s.rct with
                slots := tset s.rct.slots k (some (startedRecall i e w s))
                startOrder := s.rct.startOrder ++ [k] }
            dir := { s.dir with slots := tset s.dir.slots i (some (markBlockers k w e)) } } := by
  let q := newRecall i e w s
  let u := setSlot i (some (markBlockers k w e)) (openRecall k q s)
  have opened : startRecall k i s = notifyWhileFree k q.targets u := by
    rw [startRecall, hi]
    dsimp only
    rw [queue]
  have running : recallAt k u = some q := tget_tset_same _ _ _
  have hid : slotId q.slot u = some e.id := by
    rw [slotId, show slot q.slot u = some (markBlockers k w e) from tget_tset_same _ _ _]
    rfl
  have distinctTargets : (q.targets.map (·.node)).Nodup := by
    have nodesOf : q.targets.map (·.node) = (blockers w.mode e).map (·.node) := by simp [q, newRecall]
    rw [nodesOf]
    exact (List.filter_sublist.map _).nodup distinct
  obtain ⟨nodes, records, rest⟩ := notifyWhileFree_eq (before := []) (ts := q.targets) running hid rfl distinctTargets
  refine ⟨nodes, records, ?_⟩
  have room : freeEntries u = freeEntries s := rfl
  have targets : notifiedTargets (freeEntries s) q.targets = (startedRecall i e w s).targets := notifiedTargets_map _ _
  have entries : (q.targets.take (freeEntries s)).map (fun x => queuedEntry x.node (.askBack e.id x.token) u)
      = ((blockers w.mode e).take (freeEntries s)).map fun h => queuedEntry h.node (.askBack e.id h.token) s := by
    simp only [q, newRecall, ← List.map_take, List.map_map]
    rfl
  have slots : u.rct.slots = tset s.rct.slots k (some q) := rfl
  rw [opened, rest, room, List.nil_append, targets, entries, slots, tset_tset]
  rfl

end Sys2Proof.Machine
end

section
/-!
PROOF. The end check on a blocked head (R53, R65), and the CLAIM that must wait (R27, R44, R66).
-/

namespace Sys2Proof.Machine

variable {s : State} {i : SlotId} {e : Entry} {k : RecallId} {w : Wait} {more : List Wait} {n : NodeId} {m : Mode}

/-! ### A head that is blocked (R50, R53, R61, R62) -/

/-- A holding that blocks a head keeps it from being granted. -/
theorem fits_of_blocked (blocked : ∃ h ∈ e.holders, m = .exclusive ∨ h.mode = .exclusive) : fits m e = false := by
  obtain ⟨h, held, blocks⟩ := blocked
  refine Bool.eq_false_iff.mpr fun fit => ?_
  have fit := (fits_eq_true m e).mp fit
  cases m with
  | exclusive =>
    have free : e.holders = [] := fit
    rw [free] at held
    cases held
  | shared =>
    obtain ⟨shared, -⟩ : (∀ h ∈ e.holders, h.mode = .shared) ∧ _ := fit
    have itsMode := blocks.resolve_left (by decide)
    exact absurd (shared h held) (by simp [itsMode])

theorem blockers_ne_nil (blocked : ∃ h ∈ e.holders, m = .exclusive ∨ h.mode = .exclusive) : blockers m e ≠ [] := by
  obtain ⟨h, held, blocks⟩ := blocked
  exact List.ne_nil_of_mem (List.mem_filter.mpr ⟨held, by simpa [Machine.blocks] using blocks⟩)

theorem endCheck_of_blocked (hi : slot i s = some e) (queue : e.queue = w :: more) (blocked : fits w.mode e = false) :
    endCheck i s = recallDecision i (leaveDeferred i s) := by
  have notGrantable : headGrantable e = false := by simp [headGrantable, queue, blocked]
  rw [endCheck, hi]
  simp [queue, notGrantable]

theorem recallDecision_of_unqualified (running : s.svp.halted = false) (h : qualifies i s = false) :
    recallDecision i s = leaveStartList i s := by
  simp [recallDecision, running, h]

theorem recallDecision_of_full (running : s.svp.halted = false) (h : qualifies i s = true)
    (full : freeRecallSlot s = none) : recallDecision i s = joinStartList i s := by
  simp [recallDecision, running, h, full]

theorem recallDecision_of_free (running : s.svp.halted = false) (h : qualifies i s = true)
    (free : freeRecallSlot s = some k) : recallDecision i s = leaveStartList i (startRecall k i s) := by
  simp [recallDecision, running, h, free]

theorem qualifies_of_blocked (hi : slot i s = some e) (life : e.life = .opened) (recallable : e.recallable = true)
    (idle : e.recallSlot = none) (queue : e.queue = w :: more)
    (blocked : ∃ h ∈ e.holders, w.mode = .exclusive ∨ h.mode = .exclusive) : qualifies i s = true := by
  rw [qualifies, hi]
  simp [entryQualifies, life, recallable, idle, queue, blockers_ne_nil blocked]

theorem not_qualifies_of_not_recallable (hi : slot i s = some e) (h : e.recallable = false) : qualifies i s = false := by
  rw [qualifies, hi]
  simp [entryQualifies, h]

/-- A SHARED head that only SHARED holdings stand before has no blocker (R61). -/
theorem not_qualifies_of_shared (hi : slot i s = some e) (queue : e.queue = w :: more) (mode : w.mode = .shared)
    (shared : ∀ h ∈ e.holders, h.mode = .shared) : qualifies i s = false := by
  have none : blockers .shared e = [] := by
    refine List.filter_eq_nil_iff.mpr fun h held => ?_
    simp [blocks, shared h held]
  rw [qualifies, hi]
  simp [entryQualifies, queue, mode, none]

theorem freeRecallSlot_of_least (free : recallAt k s = none) (least : ∀ j < k, (recallAt j s).isSome = true) :
    freeRecallSlot s = some k :=
  tfind_of_least (Option.isNone_iff_eq_none.mpr free) fun j lt => Option.isNone_eq_false_iff.mpr (least j lt)

theorem freeRecallSlot_of_full (full : ∀ k, (recallAt k s).isSome = true) : freeRecallSlot s = none := by
  cases found : freeRecallSlot s with
  | none => rfl
  | some k =>
    have free : recallAt k s = none := Option.isNone_iff_eq_none.mp (tfind_some found)
    exact absurd (full k) (by simp [free])

/-! ### The wait that a CLAIM queues (R27, R44) -/

/-- The wait that a CLAIM with a wait limit makes (R44). -/
def claimedWait (n : NodeId) (m : Mode) (i : SlotId) (limit : Nat) (s : State) : Wait :=
  { node := n, mode := m, slot := i, deadline := s.dlu.holdClock + BitVec.ofNat 32 (100 * limit) }

theorem slot_addWait (i : SlotId) (e : Entry) (n : NodeId) (m : Mode) (limit : Nat) (s : State) :
    slot i (addWait i e n m limit s) = some { e with queue := e.queue ++ [claimedWait n m i limit s] } :=
  slot_setSlot_same _ _ _

theorem claimLater_of_room {limit : Nat} (h1 : limit ≠ 0) (h2 : (node n s).waitCount ≠ 4) (h3 : e.queue.length ≠ 16)
    (h4 : s.freeWaits ≠ 0) :
    claimLater i e n m limit s
      = (if e.queue.isEmpty then endCheck i (addWait i e n m limit s) else addWait i e n m limit s,
        .queued (e.queue.length + 1)) :=
  (if_neg h1).trans ((if_neg h2).trans ((if_neg h3).trans (if_neg h4)))

/-- The decision on a CLAIM that is not grantable now and finds room to wait. -/
theorem decideClaim_of_wait {a : ClaimArgs} (found : lookup a.id s = some (i, e)) (life : e.life = .opened)
    (holdsNot : holdingOf n e = none) (waitsNot : waitOf n e = none) (blocked : ¬ (e.queue = [] ∧ claimFits a.mode e))
    (h1 : a.limit ≠ 0) (h2 : (node n s).waitCount ≠ 4) (h3 : e.queue.length ≠ 16) (h4 : s.freeWaits ≠ 0) :
    decideClaim n a s
      = (if e.queue.isEmpty then endCheck i (addWait i e n a.mode a.limit s) else addWait i e n a.mode a.limit s,
        .queued (e.queue.length + 1)) := by
  rw [decideClaim_of_newcomer found life holdsNot (waitPosition_of_waitOf_none waitsNot),
    if_neg (fun h => blocked ((grantableNow_iff a.mode e).mp h)), claimLater_of_room h1 h2 h3 h4]

theorem appendOnce_eq (i : SlotId) (l : List SlotId) : appendOnce i l = if i ∈ l then l else l ++ [i] := by
  simp [appendOnce]

/-- Settles O31: behind another wait the queue alone grows; a new head is put on the list that the end check and the
recall decision choose. -/
theorem claimIsQueued : Obligations.ClaimIsQueued := by
  intro r a i e s fresh read active running found life holdsNot waitsNot blocked limit belowQuota room record queued
  have decided := decideClaim_of_wait (n := r.src) found life holdsNot waitsNot blocked limit belowQuota room record
  have answers {u : State} (h : (decideClaim r.src a s).1 = u) :
      exec (.claim r) s = .next (answered (kindCode .claim) r (.queued (e.queue.length + 1)) true u) :=
    exec_claim_fresh fresh read active running (by rw [decided] at h ⊢; exact congrArg (·, _) h)
  let t := addWait i e r.src a.mode a.limit s
  have hi : slot i t = some { e with queue := e.queue ++ [claimedWait r.src a.mode i a.limit s] } := slot_addWait ..
  have headed (empty : e.queue = []) : (decideClaim r.src a s).1 = recallDecision i (leaveDeferred i t) := by
    have notFits : fits a.mode e = false :=
      Bool.eq_false_iff.mpr fun fit => blocked ⟨empty, (fits_eq_true a.mode e).mp fit⟩
    rw [decided, empty]
    exact endCheck_of_blocked (w := claimedWait r.src a.mode i a.limit s) (more := []) hi (by rw [empty]; rfl) notFits
  refine ⟨fun waited => ?behind, fun empty cause => ?unqualified, fun empty recallable idle blockedBy full => ?full⟩
  case behind => exact answers (by rw [decided]; exact if_neg (by simpa using waited))
  case unqualified =>
    have unqualified : qualifies i (leaveDeferred i t) = false := by
      rcases cause with h | ⟨mode, shared⟩
      · exact not_qualifies_of_not_recallable hi h
      · exact not_qualifies_of_shared (w := claimedWait r.src a.mode i a.limit s) (more := []) hi
          (by rw [empty]; rfl) mode shared
    exact answers ((headed empty).trans (recallDecision_of_unqualified running unqualified))
  case full =>
    have qualified : qualifies i (leaveDeferred i t) = true :=
      qualifies_of_blocked (w := claimedWait r.src a.mode i a.limit s) (more := []) hi life recallable idle
        (by rw [empty]; rfl) blockedBy
    rw [← appendOnce_eq]
    exact answers ((headed empty).trans (recallDecision_of_full running qualified (freeRecallSlot_of_full full)))

/-! ### The head that starts a recall (R62, R66) -/

/-- The end check on a blocked head of an entry that qualifies, with a recall slot free: the recall starts. -/
theorem endCheck_starts (running : s.svp.halted = false) (hi : slot i s = some e) (life : e.life = .opened)
    (recallable : e.recallable = true) (idle : e.recallSlot = none) (queue : e.queue = w :: more)
    (blocked : ∃ h ∈ e.holders, w.mode = .exclusive ∨ h.mode = .exclusive) (free : recallAt k s = none)
    (least : ∀ j < k, (recallAt j s).isSome = true) :
    endCheck i s = leaveStartList i (startRecall k i (leaveDeferred i s)) := by
  rw [endCheck_of_blocked hi queue (fits_of_blocked blocked)]
  exact recallDecision_of_free running (qualifies_of_blocked hi life recallable idle queue blocked)
    (freeRecallSlot_of_least (s := leaveDeferred i s) free least)

theorem markBlockers_holders (k : RecallId) (w : Wait) (e : Entry) :
    (markBlockers k w e).holders
      = e.holders.map fun h => if w.mode = .exclusive ∨ h.mode = .exclusive then { h with recallTarget := true } else h := by
  simp [markBlockers, blocks]

/-- Only the addressee's notice sequence enters a notice queued (R98). -/
theorem queuedEntry_of_seq {u : State} {msg : NoticeMsg} (h : (node n u).noticeSeq = (node n s).noticeSeq) :
    queuedEntry n msg u = queuedEntry n msg s := by
  rw [queuedEntry, h, queuedEntry]

theorem modNode_noticeSeq (m n : NodeId) {f : NodeRecord → NodeRecord} (s : State)
    (h : ∀ rec, (f rec).noticeSeq = rec.noticeSeq) : (node n (modNode m f s)).noticeSeq = (node n s).noticeSeq := by
  rw [node_modNode]
  split
  · exact h _
  · rfl

theorem addWait_noticeSeq (i : SlotId) (e : Entry) (m : NodeId) (mode : Mode) (limit : Nat) (s : State) (n : NodeId) :
    (node n (addWait i e m mode limit s)).noticeSeq = (node n s).noticeSeq := by
  unfold addWait
  exact modNode_noticeSeq m n _ fun _ => rfl

theorem not_contains_filter (i : SlotId) (l : List SlotId) : (l.filter (· ≠ i)).contains i = false := by
  simp

theorem node_answered (kind : BitVec 4) (r : Request) (reply : Reply) (b : Bool) (u : State) :
    ∃ session, node r.src (answered kind r reply b u)
      = { node r.src u with reply := .stored r.seq kind (recordedId kind r.body) reply, session := session } :=
  ⟨_, tget_tset_same _ _ _⟩

theorem recordedId_of_readId {hi lo : Byte} {id : ResourceId} (read : readId hi lo = some id) : hi ++ lo = id := by
  unfold readId at read
  dsimp only at read
  split at read
  · exact Option.some.inj read
  · cases read

theorem recordedId_claim {body : List Byte} {a : ClaimArgs} (read : readClaim body = some a) :
    recordedId (kindCode .claim) body = some a.id := by
  unfold readClaim at read
  split at read
  · split at read
    · next id mode hid _ =>
      split at read
      · cases read; exact congrArg some (recordedId_of_readId hid)
      · cases read
    · cases read
  · cases read

/-- Settles O32: the end check on the new head starts the recall (`startRecall_eq`), and the answer comes after it. -/
theorem queuedHeadStartsARecall : Obligations.QueuedHeadStartsARecall := by
  intro r a i e k s fresh read active running found life empty recallable idle holdsNot distinct blocked limit belowQuota
    record freeSlot least w blockers free
  obtain ⟨hi, hid⟩ := lookup_some found
  have notNow : ¬ (e.queue = [] ∧ claimFits a.mode e) := fun ⟨_, fit⟩ => by
    have fits := (fits_eq_true a.mode e).mpr fit
    rw [fits_of_blocked blocked] at fits
    cases fits
  have decided := decideClaim_of_wait (n := r.src) found life holdsNot (by rw [waitOf, empty]; rfl) notNow limit
    belowQuota (by rw [empty]; decide) record
  let t := addWait i e r.src a.mode a.limit s
  have queued : slot i t = some { e with queue := [w] } := by
    rw [slot_addWait, empty]; rfl
  have starts : endCheck i t = leaveStartList i (startRecall k i (leaveDeferred i t)) :=
    endCheck_starts (w := w) (more := []) running queued life recallable idle rfl blocked freeSlot least
  have answers := exec_claim_fresh fresh read active running decided
  rw [empty, List.isEmpty_nil, if_pos rfl, starts] at answers
  obtain ⟨nodes, records, started⟩ :=
    startRecall_eq (s := leaveDeferred i t) (k := k) (w := w) (more := []) queued rfl distinct
  obtain ⟨session, sender⟩ := node_answered (kindCode .claim) r (.queued 1) true
    (leaveStartList i (startRecall k i (leaveDeferred i t)))
  have stored := congrArg NodeRecord.reply sender
  rw [started] at answers stored
  have entries (h : Holding) : queuedEntry h.node (.askBack a.id h.token) (leaveDeferred i t)
      = queuedEntry h.node (.askBack a.id h.token) s :=
    queuedEntry_of_seq (addWait_noticeSeq ..)
  refine ⟨_, answers, stored.trans (by rw [recordedId_claim read]), tget_tset_same _ _ _, rfl,
    fun j other => tget_tset_ne _ _ _ _ other, ?entry, fun j other => ?otherSlots, ?notices, ?notDeferred, ?notPending,
    rfl, rfl, rfl, rfl⟩
  case entry =>
    refine (tget_tset_same _ _ _).trans (congrArg some ?_)
    rw [← markBlockers_holders k w e]
    rfl
  case otherSlots => exact (tget_tset_ne _ _ _ _ other).trans (tget_tset_ne _ _ _ _ other)
  case notices =>
    rw [hid] at *
    exact congrArg (s.nq ++ ·) (List.map_congr_left fun h _ => entries h)
  case notDeferred => exact not_contains_filter _ _
  case notPending => exact not_contains_filter _ _

end Sys2Proof.Machine
end

section
/-!
SUPPORT. Passes over a single wait (R50, R51, R53), the abandonment of a recall (R74), the handout of a freed recall slot
(R68) and the removal of a wait (R46), written out.
-/

namespace Sys2Proof.Machine

variable {s : State} {i : SlotId} {e : Entry} {k : RecallId} {w : Wait} {more : List Wait} {n : NodeId} {m : Mode}

/-! ### A grant (R51) -/

theorem drawnToken_of_slots {u : State} (slots : u.dir.slots = s.dir.slots) (next : u.dir.nextToken = s.dir.nextToken) :
    drawnToken u = drawnToken s := by
  rw [drawnToken, drawnToken, liveTokens, liveTokens, slots, next]

/-- The holding that a grant in a state makes (R51). -/
def grantedHolding (i : SlotId) (w : Wait) (s : State) : Holding :=
  { node := w.node, mode := w.mode, token := drawnToken s, slot := i, recallTarget := false }

theorem grantHead_eq (i : SlotId) (e : Entry) (w : Wait) (rest : List Wait) (s : State) :
    grantHead i e w rest s
      = { s with
          freeWaits := s.freeWaits + 1
          freeHoldings := s.freeHoldings - 1
          nodes := tset s.nodes w.node
            { node w.node s with
              heldCount := (node w.node s).heldCount + 1, waitCount := (node w.node s).waitCount - 1
              noticeSeq := (node w.node s).noticeSeq + 1 }
          nq := s.nq ++ [queuedEntry w.node (.granted e.id (drawnToken s)) s]
          dir :=
            { s.dir with
              nextToken := tokenAfter (drawnToken s)
              slots := tset s.dir.slots i
                (some { e with queue := rest, holders := e.holders ++ [grantedHolding i w s] }) } } := by
  have seq : (node w.node (returnWait w.node (addHolding i { e with queue := rest } w.node w.mode s))).noticeSeq
      = (node w.node s).noticeSeq := by
    simp only [returnWait, addHolding, modNode, node, tget_tset_same]
    rfl
  rw [grantHead]
  dsimp only
  rw [queueNotice_of_seq (s := s) _ seq]
  simp only [returnWait, addHolding, modNode, node, tset_tset, tget_tset_same]
  rfl

theorem passLoop_of_blocked (fuel : Nat) (hi : slot i s = some e) (queue : e.queue = w :: more)
    (blocked : fits w.mode e = false) : passLoop fuel i s = s := by
  cases fuel with
  | zero => rfl
  | succ fuel =>
    rw [passLoop, hi]
    dsimp only
    rw [queue]
    simp [blocked]

theorem grantPass_of_open (running : s.svp.halted = false) (hi : slot i s = some e) (life : e.life = .opened) :
    grantPass i s = endCheck i (passLoop e.queue.length i s) := by
  rw [grantPass, hi]
  simp [running, life]

section OnlyWait

variable (running : s.svp.halted = false) (hi : slot i s = some e) (life : e.life = .opened) (queue : e.queue = [w])
  (fit : fits w.mode e = true) (belowQuota : (node w.node s).heldCount ≠ (node w.node s).quota)

include running hi life queue fit belowQuota

/-- The pass over an entry with one wait that fits, a holding record and a notice entry being free: it is granted, and the
entry leaves both lists. -/
theorem grantPass_grants (records : s.freeHoldings ≠ 0) (entries : freeEntries s ≠ 0) :
    grantPass i s = leaveBothLists i (grantHead i e w [] s) := by
  rw [grantPass_of_open running hi life, queue, List.length_singleton, passLoop, hi]
  dsimp only
  rw [queue]
  simp only [fit, belowQuota, records, entries, or_self, if_true, if_false, passLoop]
  exact endCheck_of_queue_nil (grantHead_slot i e w [] s) rfl

/-- Otherwise the resource joins the deferred-grant list. -/
theorem grantPass_defers (none : s.freeHoldings = 0 ∨ freeEntries s = 0) :
    grantPass i s = leaveStartList i (joinDeferred i s) := by
  have grantable : headGrantable e = true := by simp [headGrantable, queue, fit]
  have hd : slot i (joinDeferred i s) = some e := hi
  rw [grantPass_of_open running hi life, queue, List.length_singleton, passLoop, hi]
  dsimp only
  rw [queue]
  simp only [fit, belowQuota, none, if_true, if_false]
  rw [endCheck, hd]
  simp [queue, grantable]

end OnlyWait

/-- The pass over an entry whose head is blocked and whose recall runs: the entry stands on neither list after it. -/
theorem grantPass_of_recalled (running : s.svp.halted = false) (hi : slot i s = some e) (life : e.life = .opened)
    (queue : e.queue = w :: more) (blocked : fits w.mode e = false) (recalled : e.recallSlot = some k) :
    grantPass i s = leaveBothLists i s := by
  have unqualified : qualifies i (leaveDeferred i s) = false := by
    rw [qualifies, slot_leaveDeferred, hi]
    simp [entryQualifies, recalled]
  rw [grantPass_of_open running hi life, passLoop_of_blocked _ hi queue blocked, endCheck_of_blocked hi queue blocked]
  exact recallDecision_of_unqualified running unqualified

/-! ### A recall slot handed out (R68) -/

/-- The freed recall slot goes to the oldest resource of the recall-start list, when it qualifies. -/
theorem handOut_to_head {rest : List SlotId} (running : s.svp.halted = false) (list : s.rct.startList = i :: rest)
    (free : freeRecallSlot s = some k) (qualified : qualifies i s = true) :
    handOut s = leaveStartList i (startRecall k i s) := by
  rw [handOut, list]
  simp [running, handoutWalk, list, free, qualified]

theorem freeRecall_slot_free (k : RecallId) {u : State} (slots : u.rct.slots = tset s.rct.slots k none)
    (others : ∀ j < k, (recallAt j s).isSome = true) : freeRecallSlot u = some k := by
  refine freeRecallSlot_of_least ?_ fun j lt => ?_
  · rw [recallAt, slots, tget_tset_same]
  · rw [recallAt, slots, tget_tset_ne _ _ _ _ lt.ne]
    exact others j lt

/-! ### A recall abandoned (R74) -/

/-- A holding without its recall-target mark. -/
def unmarked (h : Holding) : Holding := { h with recallTarget := false }

/-- The recall in slot `k` of the resource of slot `i` is gone, the notices queued being `nq`, and no holding keeps its
mark. -/
def recallGone (k : RecallId) (i : SlotId) (e : Entry) (nq : List NoticeEntry) (s : State) : State :=
  { s with
    nq := nq
    rct := { s.rct with slots := tset s.rct.slots k none, startOrder := s.rct.startOrder.filter (· ≠ k) }
    dir :=
      { s.dir with
        slots := tset s.dir.slots i (some { e with recallSlot := none, holders := e.holders.map unmarked }) } }

theorem abandonRecall_eq {nq : List NoticeEntry} (left : Bool) (hi : slot i s = some e) (runs : e.recallSlot = some k)
    (back : takeBack (isRecallFor e.id) s = { s with nq := nq }) :
    abandonRecall i left s
      = handOut (if left && qualifies i (recallGone k i e nq s) then joinStartList i (recallGone k i e nq s)
          else recallGone k i e nq s) := by
  have hu : slot i { s with nq := nq } = some e := hi
  have gone : freeRecall k i (setSlot i (some { e with holders := e.holders.map unmarked }) { s with nq := nq })
      = recallGone k i e nq s := by
    rw [freeRecall_eq k (slot_setSlot_same _ _ _)]
    simp only [setSlot, tset_tset]
    rfl
  rw [abandonRecall, hi]
  dsimp only
  rw [runs]
  dsimp only
  rw [back, hu]
  dsimp only
  rw [← gone]
  rfl

/-! ### A wait removed (R46) -/

/-- The notice that belongs to a cause (R46 step 3). -/
def tellEnd (why : WaitEnd) (n : NodeId) (id : ResourceId) (s : State) : State :=
  match waitEndReason why with
  | none => s
  | some reason => offerBestEffort n (.waitEnded id reason) s

theorem tellEnd_dir (why : WaitEnd) (n : NodeId) (id : ResourceId) (s : State) : (tellEnd why n id s).dir = s.dir := by
  unfold tellEnd offerBestEffort
  split
  · rfl
  · split <;> rfl

theorem waitOf_split {before after : List Wait} (queue : e.queue = before ++ w :: after)
    (others : ∀ x ∈ before, x.node ≠ n) (hn : w.node = n) : waitOf n e = some w := by
  rw [waitOf, queue, List.find?_append, List.find?_eq_none.mpr fun x hx => by simpa using others x hx]
  simp [hn]

/-- Where the wait removed is not the head, nothing follows. -/
theorem removeWait_behind {why : WaitEnd} {head : Wait} {before after : List Wait} (hi : slot i s = some e)
    (queue : e.queue = head :: before ++ w :: after) (others : ∀ x ∈ head :: before, x.node ≠ w.node) :
    removeWait i w.node why s
      = tellEnd why w.node e.id
          (returnWait w.node (setSlot i (some { e with queue := head :: before ++ after }) s)) := by
  have found : waitOf w.node e = some w := waitOf_split queue others rfl
  have left : e.queue.eraseP (fun x => decide (x.node = w.node)) = head :: before ++ after := by
    rw [queue, eraseP_split (f := Wait.node) others rfl]
  have behind : (e.queue.head?.any fun x => decide (x.node = w.node)) = false := by
    rw [queue]; simpa using others head (by simp)
  have waited : ((slot i (tellEnd why w.node e.id
      (returnWait w.node (setSlot i (some { e with queue := head :: before ++ after }) s)))).any
        fun e => e.queue.isEmpty) = false := by
    rw [slot, tellEnd_dir]
    exact congrArg (Option.any _) (slot_setSlot_same _ _ _)
  rw [removeWait, hi]
  dsimp only
  rw [found]
  dsimp only
  rw [left, behind]
  simp only [Bool.false_and, Bool.false_eq_true, if_false]
  exact if_neg (by rw [Bool.not_eq_true]; exact waited)

/-- Where the head leaves, its recall is abandoned, and the pass runs for the wait behind it. -/
theorem removeWait_head {why : WaitEnd} (passes : passAfter why = true) (hi : slot i s = some e) (queue : e.queue = w :: more) :
    removeWait i w.node why s
      = grantPass i (let u := abandonRecall i true (tellEnd why w.node e.id
            (returnWait w.node (setSlot i (some { e with queue := more }) s)))
          if (slot i u).any fun e => e.queue.isEmpty then leaveBothLists i u else u) := by
  have found : waitOf w.node e = some w := waitOf_split (before := []) queue nofun rfl
  have left : e.queue.eraseP (fun x => decide (x.node = w.node)) = more := by simp [queue]
  have isHead : (e.queue.head?.any fun x => decide (x.node = w.node)) = true := by simp [queue]
  rw [removeWait, hi]
  dsimp only
  rw [found]
  dsimp only
  rw [left, isHead, passes]
  rfl

end Sys2Proof.Machine
end

section
/-!
PROOF. Waits that end at their deadline (R46, R48) and by CANCEL (R47): behind the head, alone, with the recall that runs
for them, and before a wait that is then served.
-/

namespace Sys2Proof.Machine

variable {s : State} {i : SlotId} {e : Entry} {k : RecallId} {w : Wait} {more : List Wait} {n : NodeId} {m : Mode}

/-! ### The deadline of a wait (R48) -/

theorem exec_waitDeadlineExpiry_of_reached (line : s.lif.lineState ≠ .held) (running : s.svp.halted = false)
    (hi : slot i s = some e) (waits : waitOf n e = some w) (due : w.deadline = s.dlu.holdClock) :
    exec (.waitDeadlineExpiry i n) s = .next (removeWait i n .timedOut s) :=
  congrArg Host.Outcome.next (if_pos (by simp [waitReached, holdRuns, line, running, hi, waits, due]))

/-- The state `u` once the wait of a node has ended with a best-effort notice, its record having left use (R46 steps 2 and
3, R99). -/
theorem offerBestEffort_returnWait (msg : NoticeMsg) {u : State} (nodes : u.nodes = s.nodes) (nq : u.nq = s.nq) :
    offerBestEffort n msg (returnWait n u)
      = if 5 ≤ 16 - s.nq.length then
          { u with
            freeWaits := u.freeWaits + 1
            nodes := tset s.nodes n
              { node n s with waitCount := (node n s).waitCount - 1, noticeSeq := (node n s).noticeSeq + 1 }
            nq := s.nq ++ [queuedEntry n msg s] }
        else
          flagged 0x020#11
            { u with
              freeWaits := u.freeWaits + 1
              nodes := tset s.nodes n { node n s with waitCount := (node n s).waitCount - 1 } } := by
  have room : freeEntries (returnWait n u) = 16 - s.nq.length := by rw [← nq]; rfl
  have record : node n u = node n s := congrArg (tget · n) nodes
  have left : node n (returnWait n u) = { node n s with waitCount := (node n s).waitCount - 1 } := by
    rw [node_returnWait, if_pos rfl, record]
  have seq : (node n (returnWait n u)).noticeSeq = (node n s).noticeSeq := by rw [left]
  unfold offerBestEffort
  rw [room, queueNotice_of_seq (s := s) msg seq, left, ← nodes, ← nq]
  simp only [returnWait, modNode, tset_tset, ← record]
  rfl

theorem not_mem_left (i : SlotId) (l : List SlotId) : i ∉ l.filter (· ≠ i) := by simp

/-- The recall of the only wait is abandoned with it: no one waits for what it leaves. -/
theorem grantPass_after_last {nq : List NoticeEntry} (hi : slot i s = some e) (empty : e.queue = [])
    (runs : e.recallSlot = some k) (list : s.rct.startList = [])
    (back : takeBack (isRecallFor e.id) s = { s with nq := nq }) :
    grantPass i (let u := abandonRecall i true s
        if (slot i u).any fun e => e.queue.isEmpty then leaveBothLists i u else u)
      = leaveBothLists i (recallGone k i e nq s) := by
  have gone : slot i (recallGone k i e nq s) = some { e with recallSlot := none, holders := e.holders.map unmarked } :=
    tget_tset_same _ _ _
  have unqualified : qualifies i (recallGone k i e nq s) = false := by
    rw [qualifies, gone]; simp [entryQualifies, empty]
  rw [abandonRecall_eq true hi runs back, unqualified, Bool.and_false, if_neg Bool.false_ne_true,
    handOut_of_nil (s := recallGone k i e nq s) list]
  dsimp only
  rw [gone, Option.any_some, empty, List.isEmpty_nil, if_pos rfl]
  exact grantPass_of_queue_nil (s := leaveBothLists i (recallGone k i e nq s)) gone empty (not_mem_left _ _) (not_mem_left _ _)

/-- A head that leaves without a recall makes way for the wait behind it, which is granted when it fits. -/
theorem grantPass_next (running : s.svp.halted = false) (hi : slot i s = some e) (queue : e.queue = [w])
    (life : e.life = .opened) (idle : e.recallSlot = none) (fit : fits w.mode e = true)
    (belowQuota : (node w.node s).heldCount ≠ (node w.node s).quota) (records : s.freeHoldings ≠ 0)
    (entries : freeEntries s ≠ 0) :
    grantPass i (let u := abandonRecall i true s
        if (slot i u).any fun e => e.queue.isEmpty then leaveBothLists i u else u)
      = leaveBothLists i (grantHead i e w [] s) := by
  rw [abandonRecall_of_no_recall true hi idle]
  dsimp only
  rw [hi, Option.any_some, queue, List.isEmpty_cons, if_neg Bool.false_ne_true,
    grantPass_grants running hi life queue fit belowQuota records entries]

/-- Settles O22: the notice is offered first; then a wait behind the head leaves nothing to do, the only wait abandons its
recall, and a head makes way for the next. -/
theorem waitBehindTheHeadTimesOut : Obligations.WaitBehindTheHeadTimesOut := by
  intro i e w s line running hi due timesOut
  have ends {before after : List Wait} (queue : e.queue = before ++ w :: after) (others : ∀ x ∈ before, x.node ≠ w.node) :=
    exec_waitDeadlineExpiry_of_reached line running hi (waitOf_split queue others rfl) due
  refine ⟨fun head before after queue others => ?behind, fun k q queue runs recalled list quiet => ?last,
    fun x queue other life idle fit belowQuota records room => ?next⟩
  case behind =>
    exact (ends queue others).trans (congrArg _ ((removeWait_behind hi queue others).trans
      (offerBestEffort_returnWait (s := s) _ rfl rfl)))
  case last =>
    let u := setSlot i (some { e with queue := [] }) s
    let told := offerBestEffort w.node (.waitEnded e.id .timeout) (returnWait w.node u)
    have told_eq : told = _ := offerBestEffort_returnWait (s := s) (u := u) _ rfl rfl
    have removed : removeWait i w.node .timedOut s = leaveBothLists i (recallGone k i { e with queue := [] } told.nq told) := by
      have stays : told.dir = u.dir := tellEnd_dir .timedOut w.node e.id (returnWait w.node u)
      have entry : slot i told = some { e with queue := [] } := by rw [slot, stays]; exact slot_setSlot_same _ _ _
      have noRecall : ∀ y ∈ told.nq, isRecallFor e.id y = false := by
        rw [told_eq]
        split
        · intro y hy
          rcases List.mem_append.mp hy with hy | hy
          · exact quiet y hy
          · rw [List.mem_singleton.mp hy]; rfl
        · exact quiet
      have noList : told.rct.startList = [] := by
        rw [told_eq, ← list]
        split <;> rfl
      rw [removeWait_head rfl hi queue]
      exact grantPass_after_last (s := told) entry rfl runs noList (takeBack_of_none noRecall)
    refine (ends (before := []) queue nofun).trans (congrArg _ (removed.trans ?_))
    rw [told_eq]
    split <;> simp only [leaveBothLists, leaveDeferred, leaveStartList, recallGone, flagged, u, setSlot, tset_tset, list,
      List.filter_nil] <;> rfl
  case next =>
    intro token
    refine (ends (before := []) queue nofun).trans (congrArg _ ((removeWait_head rfl hi queue).trans ?_))
    let u := setSlot i (some { e with queue := [x] }) s
    have told : tellEnd .timedOut w.node e.id (returnWait w.node u) = _ :=
      (offerBestEffort_returnWait (s := s) (u := u) _ rfl rfl).trans (if_pos (by omega))
    rw [told]
    generalize hv : ({ u with
      freeWaits := _
      nodes := _
      nq := _ } : State) = v
    have entry : slot i v = some { e with queue := [x] } := by rw [← hv]; exact slot_setSlot_same _ _ _
    have record : node x.node v = node x.node s := by rw [← hv]; exact tget_tset_ne _ _ _ _ other
    have free : freeEntries v ≠ 0 := by
      rw [← hv, freeEntries, List.length_append, List.length_singleton]; change 16 - _ ≠ 0; omega
    have drawn : drawnToken v = token := by rw [← hv]; exact drawnToken_of_slots rfl rfl
    rw [grantPass_next (w := x) (by rw [← hv]; exact running) entry rfl life idle
      ((fits_eq_true x.mode e).mpr fit) (by rw [record]; exact belowQuota) (by rw [← hv]; exact records) free,
      grantHead_eq, record, queuedEntry_of_seq (congrArg NodeRecord.noticeSeq record), drawn, grantedHolding, drawn, ← hv]
    simp only [leaveBothLists, leaveDeferred, leaveStartList, u, setSlot, tset_tset]

/-! ### CANCEL (R47) -/

theorem exec_cancel (r : Request) (s : State) :
    exec (.cancel r) s
      = onRequest (kindCode .cancel) r
          (decideRequest .cancel r.src (readIdOnly r.body) (decideCancel r.src)) s := rfl

/-- CANCEL is served halted or not (R118). -/
theorem gate_cancel (active : isActive (node n s).session = true) : gate .cancel n s = none := by
  rw [gate, gateSession_of_active .cancel active, Option.none_or, gateHalted]

/-- A fresh CANCEL of an ACTIVE node is answered with what `decideCancel` gives, halted or not. -/
theorem exec_cancel_fresh {r : Request} {id : ResourceId} {u : State} {reply : Reply}
    (fresh : arrivesFresh (kindCode .cancel) r s) (read : readIdOnly r.body = some id)
    (active : isActive (node r.src s).session = true) (decided : decideCancel r.src id s = (u, reply)) :
    exec (.cancel r) s = .next (answered (kindCode .cancel) r reply true u) := by
  rw [exec_cancel, onRequest_served fresh read (gate_cancel active) decided, active]

theorem decideCancel_of_waiting {id : ResourceId} (found : lookup id s = some (i, e)) (waits : waitOf n e = some w) :
    decideCancel n id s = (removeWait i n .cancelled s, .cancelled) := by
  simp only [decideCancel, found, waits]

theorem decideCancel_of_not_waiting {id : ResourceId} (found : lookup id s = some (i, e)) (waits : waitOf n e = none) :
    decideCancel n id s = (s, .notWaiting) := by
  simp only [decideCancel, found, waits]

theorem decideCancel_of_lookup_none {id : ResourceId} (absent : lookup id s = none) :
    decideCancel n id s = (s, .noResource) := by
  simp only [decideCancel, absent]

theorem recordedId_cancel {body : List Byte} {id : ResourceId} (read : readIdOnly body = some id) :
    recordedId (kindCode .cancel) body = some id := by
  unfold readIdOnly at read
  split at read
  · exact congrArg some (recordedId_of_readId read)
  · cases read

/-- The only wait leaves an entry without a recall: nothing follows. -/
theorem grantPass_after_only {u : State} (hi : slot i u = some e) (empty : e.queue = []) (idle : e.recallSlot = none)
    (notDeferred : i ∉ u.dir.deferred) (notPending : i ∉ u.rct.startList) :
    grantPass i (let u := abandonRecall i true u
        if (slot i u).any fun e => e.queue.isEmpty then leaveBothLists i u else u) = u := by
  rw [abandonRecall_of_no_recall true hi idle]
  dsimp only
  rw [leaveBothLists_of_not_mem notDeferred notPending, ite_self]
  exact grantPass_of_queue_nil hi empty notDeferred notPending

theorem blockers_unmarked (m : Mode) (e : Entry) (o : Option RecallId) :
    blockers m { e with recallSlot := o, holders := e.holders.map unmarked } = (blockers m e).map unmarked :=
  List.filter_map

/-- Blockers marked where no holding was: the mark says whether the holding blocks. -/
theorem markBlockers_unmarked (k : RecallId) (x : Wait) (e : Entry) :
    markBlockers k x { e with recallSlot := none, holders := e.holders.map unmarked }
      = { e with
          recallSlot := some k
          holders := e.holders.map fun h =>
            { h with recallTarget := x.mode = .exclusive || h.mode = .exclusive } } := by
  rw [markBlockers, List.map_map]
  refine congrArg (fun l : List Holding => { e with recallSlot := some k, holders := l }) (List.map_congr_left fun h _ => ?_)
  by_cases blocking : blocks x.mode (unmarked h) = true
  · rw [Function.comp_apply, if_pos blocking]
    exact congrArg (fun b => { h with recallTarget := b }) blocking.symm
  · rw [Function.comp_apply, if_neg blocking]
    exact congrArg (fun b => { h with recallTarget := b }) (Bool.eq_false_iff.mpr blocking).symm

theorem startedRecall_unmarked (i : SlotId) (e : Entry) (x : Wait) (o : Option RecallId) (s : State) :
    startedRecall i { e with recallSlot := o, holders := e.holders.map unmarked } x s = startedRecall i e x s := by
  rw [startedRecall, blockers_unmarked]
  refine congrArg (fun l => ({ slot := i, waiter := x, targets := l, deadline := _ } : Recall)) (List.ext_getElem? fun j => ?_)
  simp only [List.getElem?_mapIdx, List.getElem?_map, Option.map_map]
  rfl

/-- A head leaves and the next one is blocked: the recall of the first is abandoned, and one starts for the second in the
slot just freed (R74, R68). -/
theorem grantPass_after_waiter {x : Wait} (running : s.svp.halted = false) (hi : slot i s = some e)
    (queue : e.queue = x :: more) (runs : e.recallSlot = some k) (deferred : s.dir.deferred = [])
    (list : s.rct.startList = []) (quiet : ∀ y ∈ s.nq, isRecallFor e.id y = false)
    (least : ∀ j < k, (recallAt j s).isSome = true) (life : e.life = .opened) (recallable : e.recallable = true)
    (distinct : (e.holders.map (·.node)).Nodup)
    (blocked : ∃ h ∈ e.holders, x.mode = .exclusive ∨ h.mode = .exclusive) :
    ∃ nodes : Vector NodeRecord 30, (∀ n, ∃ seq, tget nodes n = { node n s with noticeSeq := seq })
      ∧ grantPass i (let u := abandonRecall i true s
          if (slot i u).any fun e => e.queue.isEmpty then leaveBothLists i u else u)
        = { s with
            nodes := nodes
            nq := s.nq ++ ((blockers x.mode e).take (freeEntries s)).map fun h =>
              queuedEntry h.node (.askBack e.id h.token) s
            rct :=
              { s.rct with
                slots := tset s.rct.slots k (some (startedRecall i e x s))
                startOrder := s.rct.startOrder.filter (· ≠ k) ++ [k] }
            dir :=
              { s.dir with
                slots := tset s.dir.slots i
                  (some { e with
                    recallSlot := some k
                    holders := e.holders.map fun h =>
                      { h with recallTarget := x.mode = .exclusive || h.mode = .exclusive } }) } } := by
  let f : Entry := { e with recallSlot := none, holders := e.holders.map unmarked }
  let u := recallGone k i e s.nq s
  have entry : slot i u = some f := tget_tset_same _ _ _
  have blocked' : ∃ h ∈ f.holders, x.mode = .exclusive ∨ h.mode = .exclusive := by
    obtain ⟨h, held, mode⟩ := blocked
    exact ⟨unmarked h, List.mem_map_of_mem held, mode⟩
  have qualified : qualifies i u = true := qualifies_of_blocked entry life recallable rfl queue blocked'
  have free : freeRecallSlot u = some k := freeRecall_slot_free k rfl least
  have listed : (joinStartList i u).rct.startList = [i] := by
    change appendOnce i s.rct.startList = [i]
    rw [list]; rfl
  have distinct' : (f.holders.map (·.node)).Nodup := by
    have same : f.holders.map (·.node) = e.holders.map (·.node) := by simp only [f, List.map_map]; rfl
    rw [same]; exact distinct
  obtain ⟨nodes, records, started⟩ := startRecall_eq (s := joinStartList i u) (k := k) entry queue distinct'
  refine ⟨nodes, records, ?_⟩
  have abandoned : abandonRecall i true s = leaveStartList i (startRecall k i (joinStartList i u)) := by
    rw [abandonRecall_eq true hi runs (takeBack_of_none quiet), qualified, Bool.and_true, if_pos rfl]
    exact handOut_to_head running listed free qualified
  let v := leaveStartList i (startRecall k i (joinStartList i u))
  have entryLeft : slot i v = some (markBlockers k x f) := by
    rw [slot_leaveStartList, started]
    exact tget_tset_same _ _ _
  have marks := markBlockers_unmarked k x e
  have stillBlocked : fits x.mode (markBlockers k x f) = false := by
    refine fits_of_blocked ?_
    obtain ⟨h, held, mode⟩ := blocked
    rw [marks]
    exact ⟨_, List.mem_map_of_mem held, mode⟩
  have v_deferred : v.dir.deferred = [] := by simp only [v, started]; exact deferred
  have v_startList : v.rct.startList = [] := by
    simp only [v, leaveStartList, started, listed]
    simp
  rw [abandoned]
  dsimp only
  rw [entryLeft, Option.any_some]
  have v_running : v.svp.halted = false := by simp only [v, started]; exact running
  have pass := grantPass_of_recalled v_running entryLeft life queue stillBlocked rfl
  rw [leaveBothLists_of_not_mem (by rw [v_deferred]; simp) (by rw [v_startList]; simp)] at pass
  rw [if_neg (by simp [markBlockers, f, queue]), pass]
  have result : v = { startRecall k i (joinStartList i u) with
      rct := { (startRecall k i (joinStartList i u)).rct with startList := [] } } := by
    rw [← v_startList]
    rfl
  have recall_eq : startedRecall i f x (joinStartList i u) = startedRecall i e x s := startedRecall_unmarked i e x none s
  have notices : ((blockers x.mode f).take (freeEntries s)).map (fun h => queuedEntry h.node (.askBack e.id h.token) s)
      = ((blockers x.mode e).take (freeEntries s)).map fun h => queuedEntry h.node (.askBack e.id h.token) s := by
    rw [blockers_unmarked, ← List.map_take, List.map_map]
    rfl
  have recallSlots : (joinStartList i u).rct.slots = tset s.rct.slots k none := rfl
  have slots : (joinStartList i u).dir.slots = tset s.dir.slots i (some f) := rfl
  rw [result, started, marks, ← list, recall_eq, recallSlots, slots, tset_tset, tset_tset, ← notices]
  rfl

/-- A wait that CANCEL removes leaves no notice: behind the head nothing follows. -/
theorem cancel_behind {head : Wait} {before after : List Wait} (hi : slot i s = some e)
    (queue : e.queue = head :: before ++ w :: after) (others : ∀ x ∈ head :: before, x.node ≠ n) (hn : w.node = n) :
    removeWait i n .cancelled s = returnWait n (setSlot i (some { e with queue := head :: before ++ after }) s) := by
  subst hn
  exact removeWait_behind hi queue others

theorem cancel_head (hi : slot i s = some e) (queue : e.queue = w :: more) (hn : w.node = n) :
    removeWait i n .cancelled s
      = grantPass i (let u := abandonRecall i true (returnWait n (setSlot i (some { e with queue := more }) s))
          if (slot i u).any fun e => e.queue.isEmpty then leaveBothLists i u else u) := by
  subst hn
  exact removeWait_head rfl hi queue

theorem answered_reply (kind : BitVec 4) (r : Request) (reply : Reply) (b : Bool) (u : State) :
    (node r.src (answered kind r reply b u)).reply = .stored r.seq kind (recordedId kind r.body) reply := by
  obtain ⟨session, sender⟩ := node_answered kind r reply b u
  rw [sender]

theorem answered_waitCount (kind : BitVec 4) (r : Request) (reply : Reply) (b : Bool) (u : State) :
    (node r.src (answered kind r reply b u)).waitCount = (node r.src u).waitCount := by
  obtain ⟨session, sender⟩ := node_answered kind r reply b u
  rw [sender]

/-- Settles O41: CANCEL tells no one; what follows depends on whether the wait was the head, and on its recall. -/
theorem cancelRemovesTheWait : Obligations.CancelRemovesTheWait := by
  intro r id s fresh read active cancelled leaving
  have answers {i : SlotId} {e : Entry} {w : Wait} {before after : List Wait} {v : State} (found : lookup id s = some (i, e))
      (queue : e.queue = before ++ w :: after) (others : ∀ x ∈ before, x.node ≠ r.src) (hn : w.node = r.src)
      (removed : removeWait i r.src .cancelled s = v) :
      exec (.cancel r) s = .next (answered (kindCode .cancel) r .cancelled true v) :=
    exec_cancel_fresh fresh read active (by rw [decideCancel_of_waiting found (waitOf_split queue others hn), removed])
  refine ⟨fun i e head w before after found queue others hn => ?behind,
    fun i e w found queue hn idle notDeferred notPending => ?only,
    fun i e w k q found queue hn runs recalled quiet taken => ?last,
    fun i e w k q x more found queue hn runs recalled running deferred list quiet least life recallable distinct
      blocked => ?next,
    fun i e found notWaiting => exec_cancel_fresh fresh read active (decideCancel_of_not_waiting found notWaiting),
    fun absent => exec_cancel_fresh fresh read active (decideCancel_of_lookup_none absent)⟩
  case behind =>
    exact answers found queue others hn (cancel_behind (lookup_some found).1 queue others hn)
  case only =>
    let u := returnWait r.src (setSlot i (some { e with queue := [] }) s)
    have entry : slot i u = some { e with queue := [] } := slot_setSlot_same _ _ _
    exact answers (before := []) found queue nofun hn ((cancel_head (lookup_some found).1 queue hn).trans
      (grantPass_after_only entry rfl idle notDeferred notPending))
  case last =>
    let u := returnWait r.src (setSlot i (some { e with queue := [] }) s)
    have entry : slot i u = some { e with queue := [] } := slot_setSlot_same _ _ _
    have deferred : s.dir.deferred = [] := quiet.1
    have list : s.rct.startList = [] := quiet.2.1
    refine answers (before := []) found queue nofun hn ((cancel_head (lookup_some found).1 queue hn).trans
      ((grantPass_after_last (s := u) entry rfl runs list (takeBack_of_noOneServed (s := u) quiet taken)).trans ?_))
    rw [leaveBothLists_of_not_mem (s := recallGone k i { e with queue := [] } _ u)
      (by rw [show (recallGone k i { e with queue := [] } _ u).dir.deferred = [] from deferred]; simp)
      (by rw [show (recallGone k i { e with queue := [] } _ u).rct.startList = [] from list]; simp)]
    rw [← list]
    simp only [recallGone, u, returnWait, modNode, setSlot, tset_tset]
    rfl
  case next =>
    intro blockers free
    let u := returnWait r.src (setSlot i (some { e with queue := x :: more }) s)
    have entry : slot i u = some { e with queue := x :: more } := slot_setSlot_same _ _ _
    obtain ⟨nodes, records, passed⟩ := grantPass_after_waiter (s := u) running entry rfl runs deferred list quiet least life
      recallable distinct blocked
    have answer := answers (before := []) found queue nofun hn ((cancel_head (lookup_some found).1 queue hn).trans passed)
    have entries (h : Holding) :
        queuedEntry h.node (.askBack e.id h.token) u = queuedEntry h.node (.askBack e.id h.token) s :=
      queuedEntry_of_seq (modNode_noticeSeq r.src h.node _ fun _ => rfl)
    refine ⟨_, answer, ?reply, ?waitCount, tget_tset_same _ _ _, fun j other => tget_tset_ne _ _ _ _ other, rfl,
      ?entry, fun j other => ?otherSlots, ?notices, deferred, list, rfl, rfl, rfl, rfl⟩
    case reply => rw [answered_reply, recordedId_cancel read]
    case waitCount =>
      obtain ⟨seq, record⟩ := records r.src
      have left : node r.src u = { node r.src s with waitCount := (node r.src s).waitCount - 1 } := tget_tset_same _ _ _
      rw [answered_waitCount]
      exact (congrArg NodeRecord.waitCount record).trans (congrArg NodeRecord.waitCount left)
    case entry => exact (tget_tset_same _ _ _).trans (by rw [← runs])
    case otherSlots => exact (tget_tset_ne _ _ _ _ other).trans (tget_tset_ne _ _ _ _ other)
    case notices => exact congrArg (s.nq ++ ·) (List.map_congr_left fun h _ => entries h)

end Sys2Proof.Machine
end

section
/-!
PROOF. RELEASE of the only holding under a waiting head (R30, R50, R51): the recall that runs for it completes (R70 to
R72), its slot is handed out (R68), and the head is granted.
-/

namespace Sys2Proof.Machine

variable {s : State} {i j : SlotId} {e : Entry} {k : RecallId} {w : Wait} {n : NodeId} {q : Recall}

/-! ### The last target of a recall (R70 to R72) -/

theorem hasLiveTarget_of_exists (h : ∃ x ∈ q.targets, x.node = n ∧ x.status ≠ .gone) : hasLiveTarget n q = true := by
  simpa [hasLiveTarget] using h

/-- With every other target GONE, a node's target is the last. -/
theorem allGone_setStatus (h : ∀ x ∈ q.targets, x.node = n ∨ x.status = .gone) : allGone (setStatus n .gone q) = true := by
  refine List.all_eq_true.mpr fun y hy => ?_
  obtain ⟨x, hx, rfl⟩ := List.mem_map.mp hy
  by_cases same : x.node = n
  · simp [same]
  · simp [same, (h x hx).resolve_left same]

/-- A target that has become GONE waits for no notice entry. -/
theorem noOneServed_setGone (quiet : noOneServed s) (running : recallAt k s = some q) :
    noOneServed (setRecall k (some (setStatus n .gone q)) s) := by
  obtain ⟨deferred, list, none⟩ := quiet
  refine ⟨deferred, list, firstPending_eq_none.mpr fun m order p hp x hx => ?_⟩
  have before := firstPending_eq_none.mp none m order
  rw [recallAt_setRecall] at hp
  split at hp
  · next same =>
    subst same
    obtain rfl := Option.some.inj hp
    obtain ⟨y, hy, rfl⟩ := List.mem_map.mp hx
    split
    · simp
    · exact before q running y hy
  · exact before p hp x hx

/-- The recall in slot `k` of the resource of slot `i` has completed, the notices queued being `nq` (R72). -/
def recallDone (k : RecallId) (i : SlotId) (e : Entry) (nq : List NoticeEntry) (s : State) : State :=
  { s with
    nq := nq
    rct := { s.rct with slots := tset s.rct.slots k none, startOrder := s.rct.startOrder.filter (· ≠ k) }
    dir := { s.dir with slots := tset s.dir.slots i (some { e with recallSlot := none }) } }

theorem resolveTarget_last {nq : List NoticeEntry} (hi : slot i s = some e) (noHolder : e.holders = [])
    (runs : e.recallSlot = some k) (running : recallAt k s = some q) (live : hasLiveTarget n q = true)
    (last : allGone (setStatus n .gone q) = true)
    (back : supersede e.id n (setRecall k (some (setStatus n .gone q)) s)
      = { setRecall k (some (setStatus n .gone q)) s with nq := nq }) :
    resolveTarget i n s = handOut (recallDone k i e nq s) := by
  have unmarked : clearMark n e = e := by rw [clearMark, noHolder, List.map_nil, ← noHolder]
  have same (u : State) (hu : slot i u = some e) : setSlot i (some e) u = u := by
    have kept : tset u.dir.slots i (some e) = u.dir.slots := by rw [← hu, slot, tset_tget]
    rw [setSlot, kept]
  rw [resolveTarget, hi]
  dsimp only
  rw [runs]
  dsimp only
  rw [running]
  dsimp only
  rw [if_pos live, if_pos last, unmarked, same _ (by rw [slot_setRecall, hi]), back,
    freeRecall_eq (s := { setRecall k (some (setStatus n .gone q)) s with nq := nq }) k hi]
  simp only [setRecall, tset_tset]
  rfl

/-! ### The wait that is served in the same event (R30, R50, R51) -/

/-- The only holding of an entry given up, with the Recall Tracker and the notices as they stand then. -/
def givenUp (i : SlotId) (e : Entry) (n : NodeId) (rct : Rct) (nq : List NoticeEntry) (s : State) : State :=
  { s with
    freeHoldings := s.freeHoldings + 1
    nodes := tset s.nodes n { node n s with heldCount := (node n s).heldCount - 1 }
    rct := rct
    nq := nq
    dir := { s.dir with slots := tset s.dir.slots i (some { e with holders := [], recallSlot := none }) } }

theorem slot_givenUp (i : SlotId) (e : Entry) (n : NodeId) (rct : Rct) (nq : List NoticeEntry) (s : State) :
    slot i (givenUp i e n rct nq s) = some { e with holders := [], recallSlot := none } :=
  tget_tset_same _ _ _

/-- An entry without holders fits any wait (R50). -/
theorem fits_of_no_holder (m : Mode) (noHolder : e.holders = []) (share : 1 ≤ e.shareLimit) : fits m e = true := by
  rw [fits_eq_true]
  cases m with
  | exclusive => exact noHolder
  | shared =>
    refine ⟨?_, ?_⟩
    · rw [noHolder]; nofun
    · rw [noHolder]; exact share

/-- The pass after the only holding is given up grants the one wait. -/
theorem grantPass_givenUp {rct : Rct} {nq : List NoticeEntry} (running : s.svp.halted = false) (life : e.life = .opened)
    (queue : e.queue = [w]) (other : w.node ≠ n) (share : 1 ≤ e.shareLimit)
    (belowQuota : (node w.node s).heldCount ≠ (node w.node s).quota) (room : nq.length < 16)
    (deferred : s.dir.deferred = []) (notPending : i ∉ rct.startList) :
    grantPass i (givenUp i e n rct nq s)
      = { givenUp i e n rct nq s with
          freeHoldings := s.freeHoldings
          freeWaits := s.freeWaits + 1
          nodes := tset (givenUp i e n rct nq s).nodes w.node
            { node w.node s with
              heldCount := (node w.node s).heldCount + 1, waitCount := (node w.node s).waitCount - 1
              noticeSeq := (node w.node s).noticeSeq + 1 }
          nq := nq ++ [queuedEntry w.node (.granted e.id (drawnToken (givenUp i e n rct nq s))) s]
          dir :=
            { s.dir with
              nextToken := tokenAfter (drawnToken (givenUp i e n rct nq s))
              slots := tset s.dir.slots i
                (some { e with
                  queue := [], recallSlot := none
                  holders := [grantedHolding i w (givenUp i e n rct nq s)] }) } } := by
  have record : node w.node (givenUp i e n rct nq s) = node w.node s := tget_tset_ne _ _ _ _ other
  have entries : freeEntries (givenUp i e n rct nq s) ≠ 0 := by
    change 16 - nq.length ≠ 0
    omega
  let emptied : Entry := { e with holders := [], recallSlot := none }
  have deferredLeft : (grantHead i emptied w [] (givenUp i e n rct nq s)).dir.deferred = [] := deferred
  rw [grantPass_grants (s := givenUp i e n rct nq s) running (slot_givenUp ..) life queue
    (fits_of_no_holder _ rfl share) (by rw [record]; exact belowQuota) (Nat.succ_ne_zero _) entries,
    leaveBothLists_of_not_mem (by rw [deferredLeft]; simp) notPending, grantHead_eq,
    record, queuedEntry_of_seq (s := s) (congrArg NodeRecord.noticeSeq record)]
  simp only [givenUp, tset_tset, Nat.add_sub_cancel, List.nil_append]

/-- The only holding of an OPEN entry is given up: the pass runs on what the Recall Tracker leaves. -/
theorem depart_only {h : Holding} {f : Entry} {u : State} (hi : slot i s = some e) (alone : e.holders = [h]) (hn : h.node = n)
    (resolved : resolveTarget i n (dropHolding i e n s) = u) (entry : slot i u = some f) (life : f.life = .opened)
    (deferred : u.dir.deferred = []) : depart i n .released s = grantPass i u := by
  rw [depart_of_holding .released hi (holdingOf_split (before := []) alone nofun hn)]
  unfold revocationEffects
  dsimp only
  rw [resolved, freeIfRetired_of_open entry life, serveDeferred_of_nil deferred]

/-- The state after the only holding has left its entry. -/
theorem dropHolding_only {h : Holding} (alone : e.holders = [h]) (hn : h.node = n) :
    dropHolding i e n s
      = { s with
          freeHoldings := s.freeHoldings + 1
          nodes := tset s.nodes n { node n s with heldCount := (node n s).heldCount - 1 }
          dir := { s.dir with slots := tset s.dir.slots i (some { e with holders := [] }) } } :=
  dropHolding_of_split (before := []) (after := []) alone nofun hn

/-- The completion of the recall that ran for the waiting head, no one being served by what it leaves. -/
theorem resolveTarget_completes {h : Holding} {nq : List NoticeEntry} (alone : e.holders = [h]) (hn : h.node = n)
    (runs : e.recallSlot = some k) (running : recallAt k s = some q)
    (live : ∃ x ∈ q.targets, x.node = n ∧ x.status ≠ .gone) (last : ∀ x ∈ q.targets, x.node = n ∨ x.status = .gone)
    (back : supersede e.id n (setRecall k (some (setStatus n .gone q)) (dropHolding i e n s))
      = { setRecall k (some (setStatus n .gone q)) (dropHolding i e n s) with nq := nq }) :
    resolveTarget i n (dropHolding i e n s)
      = handOut (givenUp i e n
          { s.rct with slots := tset s.rct.slots k none, startOrder := s.rct.startOrder.filter (· ≠ k) } nq s) := by
  have entry : slot i (dropHolding i e n s) = some { e with holders := [] } := by
    rw [dropHolding_only alone hn]; exact tget_tset_same _ _ _
  rw [resolveTarget_last (q := q) (nq := nq) entry rfl runs running (hasLiveTarget_of_exists live)
    (allGone_setStatus last) back, recallDone, dropHolding_only alone hn]
  simp only [givenUp, tset_tset]

/-- The pass over one wait that fits changes no recall and no other slot, whether it grants or defers. -/
theorem grantPass_of_fitting (running : s.svp.halted = false) (hi : slot i s = some e) (life : e.life = .opened)
    (queue : e.queue = [w]) (fit : fits w.mode e = true)
    (belowQuota : (node w.node s).heldCount ≠ (node w.node s).quota) (records : s.freeHoldings ≠ 0) :
    (grantPass i s).rct = { s.rct with startList := s.rct.startList.filter (· ≠ i) }
      ∧ ∀ m, m ≠ i → slot m (grantPass i s) = slot m s := by
  by_cases full : freeEntries s = 0
  case pos =>
    rw [grantPass_defers running hi life queue fit belowQuota (.inr full)]
    exact ⟨rfl, fun _ _ => rfl⟩
  case neg =>
    rw [grantPass_grants running hi life queue fit belowQuota records full, grantHead_eq]
    exact ⟨rfl, fun m other => tget_tset_ne _ _ _ _ other⟩

/-- Settles O35: the holding departs, its recall completes, and the pass grants the wait that is left; a freed recall slot
is handed out before the pass, which then changes no recall. -/
theorem releaseServesTheWaiter : Obligations.ReleaseServesTheWaiter := by
  intro r a i e h w s fresh read active running found life deferred notPending alone hn current queue other share
    belowQuota room emptied token granted serves lastTarget itsRecalls
  obtain ⟨hi, hid⟩ := lookup_some found
  have held : holdingOf r.src e = some h := holdingOf_split (before := []) alone nofun hn
  have answers {v : State} (departs : depart i r.src .released s = v) :
      exec (.release r) s = .next (answered (kindCode .release) r .released true v) :=
    exec_release_fresh fresh read active (by rw [decideRelease_of_held found held current, departs])
  have granting {rct : Rct} {nq : List NoticeEntry} (shorter : nq.length < 16) (list : i ∉ rct.startList)
      (resolved : resolveTarget i r.src (dropHolding i e r.src s) = givenUp i e r.src rct nq s) : serves rct nq := by
    have drawn : drawnToken (givenUp i e r.src rct nq s) = token := drawnToken_of_slots rfl rfl
    have departs := (depart_only (u := givenUp i e r.src rct nq s) hi alone hn resolved (slot_givenUp ..) life deferred).trans
      (grantPass_givenUp running life queue other share belowQuota shorter deferred list)
    rw [grantedHolding, drawn] at departs
    exact answers departs
  refine ⟨fun idle => ?idle, fun k q runs recalled last quiet taken => ?completes,
    fun k q j f x more runs recalled last quiet full head hj opened recallable idle waits distinct blocked => ?handsOut⟩
  case idle =>
    refine granting room notPending ?_
    have entry : slot i (dropHolding i e r.src s) = some { e with holders := [] } := by
      rw [dropHolding_only alone hn]; exact tget_tset_same _ _ _
    rw [resolveTarget_of_no_recall entry idle, dropHolding_only alone hn, givenUp, ← idle]
  case completes =>
    have list : s.rct.startList = [] := quiet.2.1
    have left : noOneServed (dropHolding i e r.src s) := quiet
    have back := takeBack_of_noOneServed (p := itsRecalls)
      (s := setRecall k (some (setStatus r.src .gone q)) (dropHolding i e r.src s))
      (noOneServed_setGone left recalled) taken
    have nothing := handOut_of_nil (s := givenUp i e r.src
      { s.rct with slots := tset s.rct.slots k none, startOrder := s.rct.startOrder.filter (· ≠ k) }
      (s.nq.filter fun x => !itsRecalls x) s) list
    refine granting ((List.length_filter_le _ _).trans_lt room) (by simp) ?_
    refine (resolveTarget_completes alone hn runs recalled last.1 last.2 back).trans (nothing.trans ?_)
    rw [← list]
  case handsOut =>
    let u := givenUp i e r.src
      { s.rct with slots := tset s.rct.slots k none, startOrder := s.rct.startOrder.filter (· ≠ k) } s.nq s
    obtain ⟨rest, list⟩ : ∃ rest, s.rct.startList = j :: rest := by simpa [List.head?_eq_some_iff] using head
    have apart : j ≠ i := by
      rintro rfl
      exact notPending (by rw [list]; simp)
    have back : takeBack itsRecalls (setRecall k (some (setStatus r.src .gone q)) (dropHolding i e r.src s)) = _ :=
      takeBack_of_none quiet
    have itsEntry : slot j u = some f := (tget_tset_ne _ _ _ _ apart).trans hj
    have handed : handOut u = leaveStartList j (startRecall k j u) :=
      handOut_to_head running list (freeRecall_slot_free k (u := u) rfl fun m lt => full m lt.ne)
        (qualifies_of_blocked itsEntry opened recallable idle waits blocked)
    have resolved := (resolveTarget_completes alone hn runs recalled last.1 last.2 back).trans handed
    obtain ⟨nodes, records, started⟩ := startRecall_eq (k := k) itsEntry waits distinct
    rw [started] at resolved
    generalize hv : leaveStartList j _ = v at resolved
    have entry : slot i v = some emptied := by
      rw [← hv]; exact (tget_tset_ne _ _ _ _ apart.symm).trans (slot_givenUp ..)
    have rct : v.rct =
        { slots := tset s.rct.slots k (some (startedRecall j f x u))
          startOrder := s.rct.startOrder.filter (· ≠ k) ++ [k]
          startList := s.rct.startList.filter (· ≠ j) } := by
      rw [← hv]
      simp only [leaveStartList, u, givenUp, tset_tset]
    have quota : (node w.node v).heldCount ≠ (node w.node v).quota := by
      obtain ⟨seq, record⟩ := records w.node
      have kept : node w.node u = node w.node s := tget_tset_ne _ _ _ _ other
      have left : node w.node v = { node w.node u with noticeSeq := seq } := by rw [← hv]; exact record
      rw [left, kept]
      exact belowQuota
    have pass := grantPass_of_fitting (s := v) (by rw [← hv]; exact running) entry life queue
      (fits_of_no_holder _ rfl share) quota (by rw [← hv]; exact Nat.succ_ne_zero _)
    have departs := depart_only hi alone hn resolved entry life (by rw [← hv]; exact deferred)
    obtain ⟨passRct, passSlots⟩ := pass
    have offList : i ∉ s.rct.startList.filter (· ≠ j) := fun mem => notPending (List.mem_filter.mp mem).1
    rw [rct] at passRct
    dsimp only at passRct
    rw [filter_ne_of_not_mem offList] at passRct
    have others (m : SlotId) (apartI : m ≠ i) (apartJ : m ≠ j) : slot m v = slot m s := by
      rw [← hv]
      exact (tget_tset_ne _ _ _ _ apartJ).trans (tget_tset_ne _ _ _ _ apartI)
    have itsSlot : slot j v = some (markBlockers k x f) := by rw [← hv]; exact tget_tset_same _ _ _
    refine ⟨_, answers departs, ?_, fun m other => ?_, ?_, ?_, ?_, fun m apartI apartJ => ?_⟩
    · exact (congrArg (fun c : Rct => tget c.slots k) passRct).trans (tget_tset_same _ _ _)
    · exact (congrArg (fun c : Rct => tget c.slots m) passRct).trans (tget_tset_ne _ _ _ _ other)
    · exact congrArg Rct.startOrder passRct
    · exact congrArg Rct.startList passRct
    · refine (passSlots j apart).trans (itsSlot.trans (congrArg some ?_))
      rw [← markBlockers_holders k x f]
      rfl
    · exact (passSlots m apartI).trans (others m apartI apartJ)

end Sys2Proof.Machine
end

section
/-!
PROOF. The end of a session by lapse, LEAVE, restarting JOIN or EVICT strips the node (R40, R41, R49, R84): once a node's
waits have left, no pass can give it a holding, and each holding that departs stays away.
-/

namespace Sys2Proof.Machine

variable {s t : State} {i : SlotId} {n : NodeId} {k : Kind}

/-! ### A node that neither holds nor awaits a resource -/

/-- The node neither holds nor awaits the resource of a slot. -/
def away (n : NodeId) (i : SlotId) (s : State) : Prop :=
  ∀ e, slot i s = some e → n ∉ e.holders.map (·.node) ∧ n ∉ e.queue.map (·.node)

theorem away_of_slot (h : slot i t = slot i s) (hs : away n i s) : away n i t := fun e he => hs e (h ▸ he)

theorem away_of_set {j : SlotId} {e e' : Entry} (hj : slot j s = some e)
    (members : ∀ m, m ∈ e'.holders.map (·.node) ∨ m ∈ e'.queue.map (·.node) →
      m ∈ e.holders.map (·.node) ∨ m ∈ e.queue.map (·.node))
    (ht : t.dir.slots = tset s.dir.slots j (some e')) (hs : away n i s) : away n i t := by
  intro f hf
  rw [slot, ht, tget_tset] at hf
  split at hf
  · next same =>
    subst same
    obtain rfl := Option.some.inj hf
    have before := not_or.mpr (hs e hj)
    exact not_or.mp fun after => before (members n after)
  · exact hs f hf

/-- No pass, removal or departure brings a node to a resource that it neither holds nor awaits. -/
theorem Act.away (a : Act k s t) (hk : leavingKinds k) (hs : away n i s) : away n i t := by
  cases a with
  | relink j e e' _ h hid hl hsl hr hq hh =>
    refine away_of_set h (fun m hm => ?_) rfl hs
    rwa [sameHoldings_nodes hh, hq] at hm
  | grant j e w rest _ h hq hl hh hf hc hp =>
    refine away_of_set (e' := { e with queue := rest, holders := e.holders ++ [_] }) h (fun m hm => ?_) rfl hs
    rw [hq, List.map_cons, List.mem_cons]
    simp only [List.map_append, List.map_cons, List.map_nil, List.mem_append, List.mem_singleton] at hm
    tauto
  | dropWait j e m w _ h hw =>
    exact away_of_set (e' := { e with queue := e.queue.eraseP fun w => w.node = m }) h
      (fun x hx => hx.imp_right fun hx => (List.eraseP_sublist.map _).mem hx) rfl hs
  | dropHolding j e m h _ he hh =>
    exact away_of_set (e' := { e with holders := e.holders.eraseP fun h => h.node = m }) he
      (fun x hx => hx.imp_left fun hx => (List.eraseP_sublist.map _).mem hx) rfl hs
  | freeSlot j e _ h hh hq =>
    intro f hf
    rw [slot, freeSlot_slots h, tget_tset] at hf
    split at hf
    · cases hf
    · exact hs f hf
  | flag | queue | eraseNotice | discard | entryState | joinDeferred | leaveDeferred | joinStartList
  | leaveStartList | retarget | openRecall | closeRecall | revoke => exact away_of_slot (s := s) rfl hs
  | _ => simp [leavingKinds] at hk

theorem Acts.away {K : Kind → Prop} (h : Acts K s t) (hK : ∀ k, K k → leavingKinds k) (hs : Machine.away n i s) :
    Machine.away n i t :=
  h.keeps (P := Machine.away n i) (fun _ _ _ hk a => a.away (hK _ hk)) hs

theorem Acts.members {K : Kind → Prop} (h : Acts K s t) (hs : membersDistinct s) : membersDistinct t :=
  h.keeps (P := membersDistinct) (fun _ _ _ _ a => members_law.act a) hs

theorem waits_eq_false : waits n i s = false ↔ ∀ e, slot i s = some e → n ∉ e.queue.map (·.node) := by
  unfold waits
  cases slot i s <;> simp [waitOf]

theorem holds_eq_false : holds n i s = false ↔ ∀ e, slot i s = some e → n ∉ e.holders.map (·.node) := by
  unfold holds
  cases slot i s <;> simp [holdingOf]

theorem away_iff : away n i s ↔ holds n i s = false ∧ waits n i s = false := by
  rw [holds_eq_false, waits_eq_false]
  exact ⟨fun h => ⟨fun e he => (h e he).1, fun e he => (h e he).2⟩, fun h e he => ⟨h.1 e he, h.2 e he⟩⟩

/-- A wait that has ended does not come back with passes, removals and departures. -/
theorem waits_of_leaving (h : Acts leavingKinds s t) (gone : waits n i s = false) : waits n i t = false := by
  rw [waits_eq_false] at gone ⊢
  intro f hf
  obtain ⟨e, he, queue, -⟩ := shrinks_of_leaving h i f hf
  exact fun mem => gone e he (queue.mem mem)

/-- The node's wait leaves, and it was the only one (R7). -/
theorem removeWait_gone (why : WaitEnd) (hs : membersDistinct s) : waits n i (removeWait i n why s) = false := by
  rw [waits_eq_false]
  intro f hf
  obtain ⟨e, he, queue⟩ := removeWait_drops i n why s f hf
  have distinct : (e.queue.map (·.node)).Nodup := (List.nodup_append.mp (hs i e he)).2.1
  exact fun mem => distinct.not_mem_erase (queue.mem mem)

/-- The node's holding departs, and with it the node, where it does not wait. -/
theorem depart_away (why : Departing) (hs : membersDistinct s) (still : waits n i s = false) :
    away n i (depart i n why s) := by
  cases held : holds n i s with
  | false => exact (depart_leaving i n why s).away (fun _ => id) (away_iff.mpr ⟨held, still⟩)
  | true =>
    obtain ⟨e, he, hh⟩ := (Option.any_eq_true _ _).mp held
    obtain ⟨h, hh⟩ := Option.isSome_iff_exists.mp hh
    refine (depart_rest i n why s e h he hh).away (fun _ => departKinds_leaving) fun f hf => ?_
    rw [slot_dropHolding, if_pos rfl] at hf
    obtain rfl := Option.some.inj hf
    have distinct : (e.holders.map (·.node)).Nodup := (List.nodup_append.mp (hs i e he)).1
    refine ⟨?_, waits_eq_false.mp still e he⟩
    rw [map_eraseP_node (fun h : Holding => h.node)]
    exact distinct.not_mem_erase

/-! ### The stages of a session's end (R84) -/

theorem sessionDrop_fold (l : List SlotId) (hs : membersDistinct s) (i : SlotId) (h : i ∈ l ∨ waits n i s = false) :
    waits n i (l.foldl (fun s j => removeWait j n .dropped s) s) = false := by
  induction l generalizing s with
  | nil => exact h.resolve_left List.not_mem_nil
  | cons j l ih =>
    have ripples := removeWait_ripples j n .dropped s
    refine ih (ripples.members hs) ?_
    by_cases same : i = j
    · subst same; exact .inr (removeWait_gone .dropped hs)
    · exact (h.imp_left fun mem => (List.mem_cons.mp mem).resolve_left same).imp_right
        (waits_of_leaving (ripples.within leaving_claims))

/-- Session drop: no wait of the node is left. -/
theorem sessionDrop_waits (hs : membersDistinct s) (i : SlotId) : waits n i (sessionDrop n s) = false := by
  refine sessionDrop_fold _ hs i ?_
  cases h : waits n i s with
  | false => exact .inr rfl
  | true => exact .inl (mem_twhere.mpr h)

theorem sessionDepart_fold (why : Departing) (l : List SlotId) (hs : membersDistinct s) (still : ∀ i, waits n i s = false)
    (i : SlotId) (h : i ∈ l ∨ away n i s) : away n i (l.foldl (fun s j => depart j n why s) s) := by
  induction l generalizing s with
  | nil => exact h.resolve_left List.not_mem_nil
  | cons j l ih =>
    have acts := depart_leaving j n why s
    refine ih (acts.members hs) (fun i => waits_of_leaving acts (still i)) ?_
    by_cases same : i = j
    · subst same; exact .inr (depart_away why hs (still i))
    · exact (h.imp_left fun mem => (List.mem_cons.mp mem).resolve_left same).imp_right (acts.away fun _ => id)

/-- Session release and session revocation, of a node that waits nowhere: no holding of it is left. -/
theorem sessionDepart_away (why : Departing) (hs : membersDistinct s) (still : ∀ i, waits n i s = false) (i : SlotId) :
    away n i (sessionDepart n why s) := by
  refine sessionDepart_fold why _ hs still i ?_
  cases h : holds n i s with
  | false => exact .inr (away_iff.mpr ⟨h, still i⟩)
  | true => exact .inl (mem_twhere.mpr h)

/-- The state of a session's end before its notices are taken back. -/
def departed (n : NodeId) (why : SessionEnd) (s : State) : State := sessionDepart n (departureOf why) (sessionDrop n s)

theorem departed_away (why : SessionEnd) (hs : membersDistinct s) (i : SlotId) : away n i (departed n why s) :=
  sessionDepart_away _ ((sessionDrop_ripples n s).members hs) (fun i => sessionDrop_waits hs i) i

theorem stripped_departed (why : SessionEnd) (hs : membersDistinct s) : stripped n (departed n why s) := by
  intro i e he
  obtain ⟨holders, queue⟩ := departed_away why hs i e he
  simp only [List.mem_map, not_exists, not_and] at holders queue
  exact ⟨holders, queue⟩

theorem departed_acts (n : NodeId) (why : SessionEnd) (s : State) :
    Acts (departKinds n (departureOf why)) s (departed n why s) :=
  ((sessionDrop_ripples n s).within (departKinds_claims n _)).trans (sessionDepart_acts n _ _)

theorem sessionEnd_eq (n : NodeId) (why : SessionEnd) (s : State) :
    sessionEnd n why s = modNode n (endSession why) (takeBack (isAddressedTo n) (departed n why s)) := rfl

/-- What a session's end leaves of the node and of the rest: O20's own words. -/
def leftBare (n : NodeId) (s t : State) : Prop :=
  (∀ i, holds n i t = false ∧ waits n i t = false)
    ∧ (∀ x ∈ t.nq, isAddressedTo n x = true → x.state = .inFlight true)
    ∧ (∀ m, m ≠ n → keepsRecord (node m s) (node m t))
    ∧ keepsEntries s t ∧ t.dlu = s.dlu ∧ t.dir.epoch = s.dir.epoch

/-- The rest of what a command does with the node's own record, the flags and the line changes nothing of it. -/
theorem leftBare_of {u : State} (h : leftBare n s u) (dir : t.dir = u.dir) (nq : t.nq = u.nq) (dlu : t.dlu = u.dlu)
    (nodes : ∀ m, m ≠ n → node m t = node m u) : leftBare n s t := by
  obtain ⟨bare, notices, records, entries, clocks, epoch⟩ := h
  have slots (i : SlotId) : slot i t = slot i u := by rw [slot, dir]; rfl
  refine ⟨fun i => ?_, by rw [nq]; exact notices, fun m other => by rw [nodes m other]; exact records m other,
    fun i e' he' => entries i e' (slots i ▸ he'), dlu.trans clocks, by rw [dir, epoch]⟩
  rw [holds, waits, slots]
  exact bare i

theorem departKinds_sets {why : Departing} (h : departKinds n why k) : k.sets = false := by
  rcases h with rfl | rfl | ⟨-, rfl⟩ <;> rfl

theorem departKinds_spares {m : NodeId} {why : Departing} (other : m ≠ n) (h : departKinds n why k) :
    k.spares m = true := by
  rcases h with rfl | rfl | ⟨-, rfl⟩
  · rfl
  · rfl
  · simpa [Kind.spares] using other.symm

/-- The state of a session's end before the record itself is closed (R84 steps 1 to 3). -/
def emptied (n : NodeId) (why : SessionEnd) (s : State) : State := takeBack (isAddressedTo n) (departed n why s)

theorem emptied_acts (n : NodeId) (why : SessionEnd) (s : State) :
    Acts (departKinds n (departureOf why)) s (emptied n why s) :=
  (departed_acts n why s).trans ((takeBack_ripples _ _).within (departKinds_claims n _))

theorem leftBare_emptied (why : SessionEnd) (hs : membersDistinct s) : leftBare n s (emptied n why s) := by
  have acts := emptied_acts n why s
  have settings := acts.settings fun _ => departKinds_sets
  refine ⟨fun i => away_iff.mp ?_, takeBack_clears n _ (stripped_departed why hs),
    fun m other => acts.recordSpared fun _ => departKinds_spares other, acts.entriesKept ?_, keepsSettings_dlu settings,
    keepsSettings_epoch settings⟩
  · exact (takeBack_ripples _ _).away (by rintro k rfl; exact leaving_claims) (departed_away why hs i)
  · rintro k (rfl | rfl | ⟨-, rfl⟩) <;> exact ⟨nofun, nofun, nofun, nofun⟩

theorem sessionEnd_emptied (n : NodeId) (why : SessionEnd) (s : State) :
    sessionEnd n why s = modNode n (endSession why) (emptied n why s) := rfl

theorem node_modNode_ne {m : NodeId} (f : NodeRecord → NodeRecord) (other : m ≠ n) : node m (modNode n f s) = node m s := by
  rw [node_modNode, if_neg other]

theorem leftBare_modNode (f : NodeRecord → NodeRecord) (h : leftBare n s t) : leftBare n s (modNode n f t) :=
  leftBare_of h rfl rfl rfl fun _ other => node_modNode_ne f other

theorem leftBare_answered {kind : BitVec 4} {r : Request} {reply : Reply} {b : Bool} (h : leftBare r.src s t) :
    leftBare r.src s (answered kind r reply b t) :=
  leftBare_of h rfl rfl rfl fun _ other => tget_tset_ne _ _ _ _ other

/-- A release at the session's end leaves the node's own record but for its counts (R40, R84). -/
theorem emptied_record {why : SessionEnd} (released : departureOf why = .released) (s : State) :
    keepsRecord (node n s) (node n (emptied n why s)) := by
  refine (emptied_acts n why s).recordSpared fun k hk => ?_
  rw [released] at hk
  rcases departKinds_released hk with rfl | rfl <;> rfl

/-- Settles O20: the stages of `sessionEnd` leave the node bare, and the rest of each command writes its own record. -/
theorem sessionEndStripsTheNode : Obligations.SessionEndStripsTheNode := by
  intro n d s distinct session stripped
  have active : isActive (node n s).session = true := congrArg isActive session
  refine ⟨fun line due => ?lapse, fun r sender empty fresh => ?leave, fun r sender empty fresh running => ?join,
    fun a1 a2 a3 run => ?evict⟩
  case lapse =>
    have ran : exec (.leaseExpiry n) s
        = .next (setFlag .nodeLapsed (modNode n (endSession .lapsed) (emptied n .lapsed s))) :=
      exec_leaseExpiry_of_reached line (due ▸ session)
    have left : leftBare n s (emptied n .lapsed s) := leftBare_emptied .lapsed distinct
    generalize emptied n .lapsed s = u at ran left
    have record : node n (modNode n (endSession .lapsed) u) = endSession .lapsed (node n u) := node_modNode_same u n _
    refine ⟨_, ran, leftBare_of (leftBare_modNode _ left) rfl rfl rfl fun _ _ => rfl, congrArg NodeRecord.session record,
      congrArg NodeRecord.reply record, ?_⟩
    simp [flagSet, setFlag, flagBit, flagMask]
  case leave =>
    subst sender
    have decided : decideLeave r.src s = (modNode r.src (endSession .left) (emptied r.src .left s), .left) := by
      rw [decideLeave, if_pos active, sessionEnd_emptied]
    have ran := (exec_leave r s).trans (onRequest_served (owner := fun _ => decideLeave r.src) fresh
      (congrArg readNothing empty) (gate_leave (by rw [session]; nofun)) decided)
    have left : leftBare r.src s (emptied r.src .left s) := leftBare_emptied .left distinct
    have kept : keepsRecord (node r.src s) (node r.src (emptied r.src .left s)) := emptied_record rfl s
    generalize emptied r.src .left s = u at ran left kept
    have record : node r.src (modNode r.src (endSession .left) u) = endSession .left (node r.src u) :=
      node_modNode_same u r.src _
    rw [answered_of_inactive _ (by rw [record]; rfl)] at ran
    have final : node r.src (answered (kindCode .leave) r .left false (modNode r.src (endSession .left) u)) = _ :=
      tget_tset_same _ _ _
    rw [record] at final
    refine ⟨_, ran, leftBare_answered (leftBare_modNode _ left), ?_, ?_, ?_⟩
    all_goals rw [final]
    · rfl
    · rw [empty]; rfl
    · exact kept.2.2.2.2.2.2
  case join =>
    subst sender
    have decided : decideJoin r.src s
        = (startSession r.src (modNode r.src (endSession .restarted) (emptied r.src .restarted s)),
          joinedReply r.src (startSession r.src (modNode r.src (endSession .restarted) (emptied r.src .restarted s)))) := by
      rw [decideJoin, if_pos active, sessionEnd_emptied]
    have ran := (exec_join r s).trans (onRequest_served (owner := fun _ => decideJoin r.src) fresh
      (congrArg readNothing empty) (gate_join_of_running (by rw [session]; nofun) running) decided)
    have left : leftBare r.src s (emptied r.src .restarted s) := leftBare_emptied .restarted distinct
    have kept : keepsRecord (node r.src s) (node r.src (emptied r.src .restarted s)) := emptied_record rfl s
    generalize emptied r.src .restarted s = u at ran left kept
    obtain ⟨-, -, epoch, term, -, -, revocations⟩ := kept
    have clocks : u.dlu = s.dlu := left.2.2.2.2.1
    have record : node r.src (startSession r.src (modNode r.src (endSession .restarted) u)) =
        { endSession .restarted (node r.src u) with
          epoch := (node r.src u).epoch + 1, noticeSeq := 0
          session := .active (s.dlu.leaseClock + BitVec.ofNat 32 (20 * (node r.src s).leaseTerm)) } := by
      rw [startSession, node_modNode_same, node_modNode_same, ← clocks, ← term]
      rfl
    rw [active] at ran
    have final := tget_tset_same
      (startSession r.src (modNode r.src (endSession .restarted) u)).nodes r.src
    refine ⟨_, ran, leftBare_answered (leftBare_modNode _ (leftBare_modNode _ left)), ?_, ?_, ?_, ?_⟩
    · refine (congrArg NodeRecord.session (final _)).trans ?_
      dsimp only
      rw [if_pos rfl, record, ← clocks, ← term]
      rfl
    · refine (congrArg NodeRecord.epoch (final _)).trans ?_
      dsimp only
      rw [record, ← epoch]
    · refine (congrArg NodeRecord.noticeSeq (final _)).trans ?_
      dsimp only
      rw [record]
    · refine (congrArg NodeRecord.revocationCount (final _)).trans ?_
      dsimp only
      rw [record]
      exact revocations
  case evict =>
    have evicted : evictNode n s
        = modNode n (fun rec => { endSession .evicted rec with admission := .barred }) (emptied n .evicted s) := by
      rw [evictNode, if_pos active, sessionEnd_emptied, modNode_modNode]
      exact modNode_congr rfl
    have ran := (exec_evict s).trans (congrArg _ (runCommand_of_running run (ownEvict_of_node n a1 a2 a3 s)))
    rw [evicted] at ran
    have left : leftBare n s (emptied n .evicted s) := leftBare_emptied .evicted distinct
    generalize emptied n .evicted s = u at ran left
    have record := node_modNode_same u n fun rec => { endSession .evicted rec with admission := .barred }
    refine ⟨_, ran, leftBare_of (leftBare_modNode (fun rec => { endSession .evicted rec with admission := .barred }) left)
      rfl rfl rfl fun _ _ => rfl, congrArg NodeRecord.session record, congrArg NodeRecord.admission record,
      fun _ => congrArg NodeRecord.reply record, rfl⟩

end Sys2Proof.Machine
end

section
/-!
SUPPORT. What stands in a slot through passes, the Recall Tracker, taking back and removals of waits: the entry with its
provisioning, every holding of it, and on a RETIRING entry nothing more than that.
-/

namespace Sys2Proof.Machine

variable {s t u : State} {i j : SlotId} {e e' : Entry} {n : NodeId} {k : RecallId}

/-! ### One entry -/

/-- The entry goes on as the same resource: holdings are added at the tail at most, and a RETIRING one is given neither a
holding nor a recall. -/
def Entry.goesOn (e e' : Entry) : Prop :=
  e'.id = e.id ∧ e'.life = e.life ∧ e'.shareLimit = e.shareLimit ∧ e'.recallable = e.recallable
    ∧ ∃ more, sameHoldings e'.holders (e.holders ++ more)
      ∧ (e.life = .retiring → more = [] ∧ (e.recallSlot = none → e'.recallSlot = none))

theorem Entry.goesOn_refl (e : Entry) : e.goesOn e :=
  ⟨rfl, rfl, rfl, rfl, [], by rw [List.append_nil]; exact sameHoldings_refl _, fun _ => ⟨rfl, fun h => h⟩⟩

theorem sameHoldings_append {a b c d : List Holding} (h : sameHoldings a b) (g : sameHoldings c d) :
    sameHoldings (a ++ c) (b ++ d) := by
  unfold sameHoldings at *
  rw [List.map_append, List.map_append, h, g]

theorem Entry.goesOn_trans {f : Entry} (h : e.goesOn e') (g : e'.goesOn f) : e.goesOn f := by
  obtain ⟨id1, life1, share1, rec1, more1, holds1, retiring1⟩ := h
  obtain ⟨id2, life2, share2, rec2, more2, holds2, retiring2⟩ := g
  refine ⟨id2.trans id1, life2.trans life1, share2.trans share1, rec2.trans rec1, more1 ++ more2, ?_, fun life => ?_⟩
  · rw [← List.append_assoc]
    exact Eq.trans holds2 (sameHoldings_append holds1 (sameHoldings_refl more2))
  · obtain ⟨none1, idle1⟩ := retiring1 life
    obtain ⟨none2, idle2⟩ := retiring2 (life1.trans life)
    exact ⟨by rw [none1, none2]; rfl, idle2 ∘ idle1⟩

/-- Marks, waits and the recall slot may change; a recall slot is taken on an OPEN entry only. -/
theorem Entry.goesOn_marks {holders : List Holding} {queue : List Wait} {o : Option RecallId}
    (same : sameHoldings holders e.holders) (idle : e.life = .retiring → e.recallSlot = none → o = none) :
    e.goesOn { e with holders := holders, queue := queue, recallSlot := o } :=
  ⟨rfl, rfl, rfl, rfl, [], by rw [List.append_nil]; exact same, fun life => ⟨rfl, idle life⟩⟩

theorem Entry.goesOn_granted {queue : List Wait} (h : Holding) (life : e.life = .opened) :
    e.goesOn { e with queue := queue, holders := e.holders ++ [h] } :=
  ⟨rfl, rfl, rfl, rfl, [h], sameHoldings_refl _, fun retiring => by rw [life] at retiring; cases retiring⟩

/-! ### One slot -/

/-- The entry of a slot stands, as far as `goesOn` says. -/
def Stands (j : SlotId) (s t : State) : Prop := ∀ e, slot j s = some e → ∃ e', slot j t = some e' ∧ e.goesOn e'

theorem Stands.refl (j : SlotId) (s : State) : Stands j s s := fun e he => ⟨e, he, e.goesOn_refl⟩

theorem Stands.trans (h : Stands j s t) (g : Stands j t u) : Stands j s u := by
  intro e he
  obtain ⟨f, hf, on1⟩ := h e he
  obtain ⟨f', hf', on2⟩ := g f hf
  exact ⟨f', hf', Entry.goesOn_trans on1 on2⟩

theorem Stands.same (h : Stands j s t) (slots : u.dir.slots = t.dir.slots) : Stands j s u :=
  h.trans fun e he => ⟨e, by rw [slot, slots]; exact he, e.goesOn_refl⟩

theorem Stands.write (h : Stands j s t) (hi : slot i t = some e) (on : e.goesOn e')
    (slots : u.dir.slots = tset t.dir.slots i (some e')) : Stands j s u := by
  refine h.trans fun f hf => ?_
  rw [slot, slots, tget_tset]
  split
  · next same =>
    subst same
    obtain rfl := Option.some.inj (hi.symm.trans hf)
    exact ⟨e', rfl, on⟩
  · exact ⟨f, hf, f.goesOn_refl⟩

/-! ### The Recall Tracker -/

theorem Stands.startRecall (qualified : qualifies i t = true) (h : Stands j s t) : Stands j s (startRecall k i t) := by
  unfold Machine.startRecall
  split
  · exact h
  · next e he =>
    split
    · exact h
    · next w rest queue =>
      have life : e.life = .opened := by
        rw [qualifies, he] at qualified
        simp only [Option.any_some, entryQualifies, Bool.and_eq_true, decide_eq_true_eq] at qualified
        exact qualified.1.1.1
      dsimp only
      refine Stands.same (t := setSlot i (some (markBlockers k w e)) (openRecall k (newRecall i e w t) t)) ?_
        (congrArg Dir.slots (notifyWhileFree_dir _ _ _))
      refine h.write he (Entry.goesOn_marks (markBlockers_same k w e) fun retiring => ?_) rfl
      rw [life] at retiring
      cases retiring

theorem Stands.recallDecision (i : SlotId) (h : Stands j s t) : Stands j s (recallDecision i t) := by
  unfold Machine.recallDecision
  split
  · exact h
  · split
    · next qualified =>
      split
      · exact (h.startRecall qualified).same rfl
      · exact h.same rfl
    · exact h.same rfl

theorem Stands.handoutWalk (fuel : Nat) (h : Stands j s t) : Stands j s (handoutWalk fuel t) := by
  induction fuel generalizing t with
  | zero => exact h
  | succ fuel ih =>
    unfold Machine.handoutWalk
    split
    · split
      · next qualified => exact (h.startRecall qualified).same rfl
      · exact ih (h.same rfl)
    · exact h

theorem Stands.handOut (h : Stands j s t) : Stands j s (handOut t) := by
  unfold Machine.handOut
  split
  · exact h
  · exact h.handoutWalk _

theorem Stands.takeFreeEntry (h : Stands j s t) : Stands j s (takeFreeEntry t) := by
  unfold Machine.takeFreeEntry
  split
  · exact h
  · exact h.same (congrArg Dir.slots (notifyTarget_dir _ _ _))

theorem Stands.freeRecall (k : RecallId) (i : SlotId) (h : Stands j s t) : Stands j s (freeRecall k i t) := by
  cases hi : slot i t with
  | none =>
    have stays : (Machine.freeRecall k i t).dir = t.dir := by
      unfold Machine.freeRecall
      dsimp only
      split
      · rfl
      · next e he => exact absurd (hi.symm.trans he) nofun
    exact h.same (congrArg Dir.slots stays)
  | some e =>
    rw [freeRecall_eq k hi]
    exact h.write hi (Entry.goesOn_marks (sameHoldings_refl _) fun _ _ => rfl) rfl

/-! ### Passes and the arbiter -/

theorem Stands.offerBestEffort (n : NodeId) (m : NoticeMsg) (h : Stands j s t) : Stands j s (offerBestEffort n m t) :=
  h.same (congrArg Dir.slots (offerBestEffort_dir n m t))

theorem Stands.passLoop (fuel : Nat) (i : SlotId) (life : ∀ e, slot i t = some e → e.life = .opened) (h : Stands j s t) :
    Stands j s (passLoop fuel i t) := by
  induction fuel generalizing t with
  | zero => exact h
  | succ fuel ih =>
    unfold Machine.passLoop
    split
    · exact h
    · next e he =>
      split
      · exact h
      · next w rest queue =>
        split
        · split
          · have left : slot i (endByQuota i e w rest t) = some { e with queue := rest } := endByQuota_slot i e w rest t
            refine ih (fun f hf => ?_) ?_
            · rw [left] at hf; cases hf; exact life e he
            · refine Stands.offerBestEffort _ _ ?_
              exact h.write he (Entry.goesOn_marks (sameHoldings_refl _) fun _ h => h) rfl
          · split
            · exact h.same rfl
            · refine ih (fun f hf => ?_) ?_
              · rw [grantHead_slot] at hf; cases hf; exact life e he
              · exact h.write he (Entry.goesOn_granted (grantedHolding i w t) (life e he))
                  (by rw [grantHead_eq])
        · exact h

theorem Stands.endCheck (i : SlotId) (h : Stands j s t) : Stands j s (endCheck i t) := by
  unfold Machine.endCheck
  split
  · exact h
  · split
    · exact h.same rfl
    · split
      · exact h.same rfl
      · exact Stands.recallDecision i (h.same rfl)

theorem Stands.grantPass (i : SlotId) (h : Stands j s t) : Stands j s (grantPass i t) := by
  unfold Machine.grantPass
  split
  · exact h
  · split
    · exact h
    · next e he =>
      split
      · next life =>
        exact (h.passLoop _ i fun f hf => by rw [he] at hf; cases hf; exact life).endCheck i
      · exact h

theorem Stands.serveLoop (fuel : Nat) (h : Stands j s t) : Stands j s (serveLoop fuel t) := by
  induction fuel generalizing t with
  | zero => exact h
  | succ fuel ih =>
    unfold Machine.serveLoop
    split
    · exact h
    · next i _ _ =>
      dsimp only
      split
      · exact h.grantPass i
      · exact ih (h.grantPass i)

theorem Stands.serveDeferred (h : Stands j s t) : Stands j s (serveDeferred t) := by
  unfold Machine.serveDeferred
  split
  · exact h
  · exact h.serveLoop _

theorem Stands.arbiter (h : Stands j s t) : Stands j s (arbiter t) := by
  unfold Machine.arbiter
  dsimp only
  split
  · exact h.serveDeferred
  · exact h.serveDeferred.takeFreeEntry

theorem Stands.removeEntries (p : NoticeEntry → Bool) (fuel : Nat) (h : Stands j s t) :
    Stands j s (removeEntries p fuel t) := by
  induction fuel generalizing t with
  | zero => exact h
  | succ fuel ih =>
    unfold Machine.removeEntries
    split
    · exact h
    · exact ih (Stands.arbiter (h.same rfl))

theorem Stands.takeBack (p : NoticeEntry → Bool) (h : Stands j s t) : Stands j s (takeBack p t) :=
  Stands.removeEntries _ _ (h.same rfl)

/-! ### Recalls that end, and waits that leave -/

theorem Stands.resolveTarget (i : SlotId) (n : NodeId) (h : Stands j s t) : Stands j s (resolveTarget i n t) := by
  unfold Machine.resolveTarget
  split
  · exact h
  · next e he =>
    split
    · exact h
    · split
      · exact h
      · next k _ _ q _ =>
        split
        · have marked : Stands j s (setSlot i (some (clearMark n e)) (setRecall k (some (setStatus n .gone q)) t)) :=
            h.write he (Entry.goesOn_marks (clearMark_same n e) fun _ h => h) rfl
          dsimp only
          split
          · exact ((marked.takeBack _).freeRecall _ _).handOut
          · exact marked.takeBack _
        · exact h

/-- A choice between two states, of which either stands. -/
theorem Stands.ite {c : Prop} [Decidable c] {a b : State} (ha : Stands j s a) (hb : Stands j s b) :
    Stands j s (if c then a else b) := by
  split
  · exact ha
  · exact hb

/-- The holdings of an entry lose their recall-target marks (R74). -/
def unmarkSlot (i : SlotId) (s : State) : State :=
  match slot i s with
  | none => s
  | some e => setSlot i (some { e with holders := e.holders.map unmarked }) s

/-- The recall in slot `k` of the resource of slot `i` is closed, before its slot is handed out (R74 steps 1 to 3). -/
def closedRecall (k : RecallId) (i : SlotId) (id : ResourceId) (s : State) : State :=
  freeRecall k i (unmarkSlot i (takeBack (isRecallFor id) s))

theorem abandonRecall_of_recall (left : Bool) (hi : slot i s = some e) (runs : e.recallSlot = some k) :
    abandonRecall i left s
      = handOut (if left && qualifies i (closedRecall k i e.id s) then joinStartList i (closedRecall k i e.id s)
          else closedRecall k i e.id s) := by
  rw [abandonRecall, hi]
  dsimp only
  rw [runs]
  rfl

theorem Stands.unmarkSlot (i : SlotId) (h : Stands j s t) : Stands j s (unmarkSlot i t) := by
  unfold Machine.unmarkSlot
  split
  · exact h
  · next e he =>
    exact h.write he
      (Entry.goesOn_marks (holders := e.holders.map unmarked) (queue := e.queue)
        (sameHoldings_map e.holders unmarked fun _ => rfl) fun _ h => h) rfl

theorem Stands.closedRecall (k : RecallId) (i : SlotId) (id : ResourceId) (h : Stands j s t) :
    Stands j s (closedRecall k i id t) :=
  ((h.takeBack _).unmarkSlot i).freeRecall k i

theorem Stands.abandonRecall (i : SlotId) (left : Bool) (h : Stands j s t) : Stands j s (abandonRecall i left t) := by
  cases hi : slot i t with
  | none => simpa only [Machine.abandonRecall, hi] using h
  | some e =>
    cases runs : e.recallSlot with
    | none => rwa [abandonRecall_of_no_recall left hi runs]
    | some k =>
      rw [abandonRecall_of_recall left hi runs]
      exact Stands.handOut (Stands.ite ((h.closedRecall k i e.id).same rfl) (h.closedRecall k i e.id))

theorem removeWait_of_waiting {w : Wait} (why : WaitEnd) (hi : slot i s = some e) (waits : waitOf n e = some w) :
    ∃ (wasHead : Bool) (c : State → Prop) (_ : DecidablePred c),
      removeWait i n why s
        = let u := tellEnd why n e.id (dropWait i e n s)
          let v := if wasHead then abandonRecall i true u else u
          let v := if c v then leaveBothLists i v else v
          if wasHead && passAfter why then grantPass i v else v := by
  refine ⟨e.queue.head?.any fun w => w.node = n, fun v => ((slot i v).any fun e => e.queue.isEmpty) = true,
    fun _ => inferInstance, ?_⟩
  rw [removeWait, hi]
  dsimp only
  rw [waits]
  rfl

theorem Stands.removeWait (i : SlotId) (n : NodeId) (why : WaitEnd) (h : Stands j s t) : Stands j s (removeWait i n why t) := by
  cases hi : slot i t with
  | none => simpa only [Machine.removeWait, hi] using h
  | some e =>
    cases waits : waitOf n e with
    | none => simpa only [Machine.removeWait, hi, waits] using h
    | some w =>
      obtain ⟨wasHead, c, _, eq⟩ := removeWait_of_waiting why hi waits
      have left : Stands j s (dropWait i e n t) :=
        h.write hi (Entry.goesOn_marks (sameHoldings_refl _) fun _ h => h) rfl
      have told : Stands j s (tellEnd why n e.id (dropWait i e n t)) :=
        left.same (congrArg Dir.slots (tellEnd_dir why n e.id _))
      have abandoned := Stands.ite (c := wasHead = true) (told.abandonRecall i true) told
      have delisted := fun v (hv : Stands j s v) => Stands.ite (c := c v) (hv.same rfl : Stands j s (leaveBothLists i v)) hv
      have passed := fun v (hv : Stands j s v) => Stands.ite (c := (wasHead && passAfter why) = true) (hv.grantPass i) hv
      rw [eq]
      exact passed _ (delisted _ abandoned)

theorem Stands.endWaits (i : SlotId) (why : WaitEnd) (h : Stands j s t) : Stands j s (endWaits i why t) := by
  have fold (ws : List Wait) (u : State) (hu : Stands j s u) :
      Stands j s (ws.foldl (fun u w => Machine.removeWait i w.node why u) u) := by
    induction ws generalizing u with
    | nil => exact hu
    | cons w ws ih => exact ih _ (hu.removeWait i w.node why)
  unfold Machine.endWaits
  split
  · exact h
  · exact fold _ _ h

end Sys2Proof.Machine
end

section
/-!
PROOF. Revocation (R37, R73): each holding of a list is revoked in turn. What holds a resource goes on to hold it while
others depart, so each node of the list loses its holding, and with it exactly one revocation is counted.
-/

namespace Sys2Proof.Machine

variable {s t u : State} {i j : SlotId} {e : Entry} {n m : NodeId} {k : Kind} {why : Departing} {ns : List NodeId}

/-! ### What stands while a holding departs -/

theorem Stands.elsewhere {o : Option Entry} (other : j ≠ i) (h : Stands j s t)
    (slots : u.dir.slots = tset t.dir.slots i o) : Stands j s u :=
  h.trans fun e he => ⟨e, by rw [slot, slots, tget_tset_ne _ _ _ _ other]; exact he, e.goesOn_refl⟩

theorem Stands.freeSlot (other : j ≠ i) (h : Stands j s t) : Stands j s (freeSlot i t) := by
  cases hi : slot i t with
  | none => simpa only [Machine.freeSlot, hi] using h
  | some e => exact h.elsewhere other (freeSlot_slots hi)

theorem Stands.freeIfRetired (other : j ≠ i) (h : Stands j s t) : Stands j s (freeIfRetired i t) := by
  unfold Machine.freeIfRetired
  split
  · exact h
  · exact Stands.ite (h.freeSlot other) h

theorem Stands.revocationEffects (id : ResourceId) (x : Holding) (why : Departing) (h : Stands j s t) :
    Stands j s (revocationEffects id x why t) := by
  cases why with
  | released => exact h
  | revoked notify => exact Stands.ite (Stands.offerBestEffort _ _ (h.same rfl)) (h.same rfl)

theorem Stands.depart (other : j ≠ i) (n : NodeId) (why : Departing) (h : Stands j s t) :
    Stands j s (depart i n why t) := by
  cases hi : slot i t with
  | none => simpa only [Machine.depart, hi] using h
  | some e =>
    cases held : holdingOf n e with
    | none => simpa only [Machine.depart, hi, held] using h
    | some x =>
      rw [depart_of_holding why hi held]
      have dropped : Stands j s (dropHolding i e n t) := h.elsewhere other rfl
      exact ((((dropped.revocationEffects e.id x why).resolveTarget i n).freeIfRetired other).serveDeferred).grantPass i

/-! ### The other holders -/

theorem holds_iff : holds n i s = true ↔ ∃ e, slot i s = some e ∧ n ∈ e.holders.map (·.node) := by
  rw [← Bool.not_eq_false, holds_eq_false]
  push Not
  rfl

theorem Stands.holds (h : Stands i s t) (held : holds n i s = true) : Machine.holds n i t = true := by
  obtain ⟨e, he, mem⟩ := holds_iff.mp held
  obtain ⟨e', he', -, -, -, -, more, same, -⟩ := h e he
  refine holds_iff.mpr ⟨e', he', ?_⟩
  rw [sameHoldings_nodes same, List.map_append]
  exact List.mem_append_left _ mem

theorem freeIfRetired_of_held (held : holds n i s = true) : freeIfRetired i s = s := by
  obtain ⟨e, he, mem⟩ := holds_iff.mp held
  rw [freeIfRetired, he]
  exact if_neg fun retired => by simp [retired.2] at mem

/-- A node goes on to hold a resource while another's holding departs. -/
theorem depart_holds (other : m ≠ n) (why : Departing) (held : holds m i s = true) :
    holds m i (depart i n why s) = true := by
  obtain ⟨e, he, mem⟩ := holds_iff.mp held
  cases departs : holdingOf n e with
  | none => simpa only [depart, he, departs] using held
  | some x =>
    have dropped : holds m i (dropHolding i e n s) = true := by
      refine holds_iff.mpr ⟨_, (slot_dropHolding i i e n s).trans (if_pos rfl), ?_⟩
      dsimp only
      rw [map_eraseP_node (fun h : Holding => h.node)]
      exact (List.mem_erase_of_ne other).mpr mem
    have resolved := (((Stands.refl i _).revocationEffects e.id x why).resolveTarget i n).holds dropped
    rw [depart_of_holding why he departs, freeIfRetired_of_held resolved]
    exact (((Stands.refl i _).serveDeferred).grantPass i).holds resolved

/-! ### The revocation that is counted -/

theorem flagSet_grows {f : Flag} (grows : s.svp.flags &&& t.svp.flags = s.svp.flags) (h : flagSet f s = true) :
    flagSet f t = true := by
  unfold flagSet at h ⊢
  rw [← grows, BitVec.getLsbD_and, Bool.and_eq_true] at h
  exact h.2

theorem leaving_flag {f : Flag} (h : Acts leavingKinds s t) (set : flagSet f s = true) : flagSet f t = true :=
  flagSet_grows (h.flagsGrow (by simp [leavingKinds]) (by simp [leavingKinds])) set

theorem flagSet_setFlag (f : Flag) (s : State) : flagSet f (setFlag f s) = true := by
  cases f <;> simp [flagSet, setFlag, flagBit, flagMask]

/-- The state in which a revoked holding has left and its revocation is counted, before anyone is told (R37). -/
def revocationCounted (i : SlotId) (e : Entry) (n : NodeId) (s : State) : State :=
  setFlag .revocation (modNode n
    (fun r => { r with revocationCount := min (r.revocationCount + 1) Config.revocationCeiling }) (dropHolding i e n s))

theorem revocationCounted_count (i : SlotId) (e : Entry) (n : NodeId) (s : State) :
    (node n (revocationCounted i e n s)).revocationCount = min ((node n s).revocationCount + 1) 255 := by
  have record : node n (dropHolding i e n s) = { node n s with heldCount := (node n s).heldCount - 1 } :=
    node_modNode_same _ n _
  have counted := node_modNode_same (dropHolding i e n s) n
    fun r => { r with revocationCount := min (r.revocationCount + 1) Config.revocationCeiling }
  rw [record] at counted
  exact congrArg NodeRecord.revocationCount counted

/-- After the count, a departure is made of acts that leave every node's record alone. -/
theorem depart_after_count {x : Holding} (notify : Bool) (he : slot i s = some e) (departs : holdingOf n e = some x) :
    Acts (fun k => k = .claims ∨ k = .freed) (revocationCounted i e n s) (depart i n (.revoked notify) s) := by
  obtain rfl := holdingOf_node departs
  have told : Ripples (revocationCounted i e x.node s)
      (revocationEffects e.id x (.revoked notify) (dropHolding i e x.node s)) :=
    ite_acts (fun _ => offerBestEffort_ripples _ _ _) fun _ => .refl
  have resolved := told.trans (resolveTarget_ripples i x.node _)
  have freed := (Ripples.within (K := fun k => k = .claims ∨ k = .freed) resolved (.inl rfl)).trans
    ((freeIfRetired_acts i _).mono fun _ => Or.inr)
  have passed := (serveDeferred_ripples (freeIfRetired i (resolveTarget i x.node
    (revocationEffects e.id x (.revoked notify) (dropHolding i e x.node s))))).trans (grantPass_ripples i _)
  rw [depart_of_holding _ he departs]
  exact freed.trans (Ripples.within passed (.inl rfl))

/-- The departure of a revoked holding counts one revocation of its node and sets REVOCATION (R37). -/
theorem depart_counts (held : holds n i s = true) (notify : Bool) :
    (node n (depart i n (.revoked notify) s)).revocationCount = min ((node n s).revocationCount + 1) 255
      ∧ flagSet .revocation (depart i n (.revoked notify) s) = true := by
  obtain ⟨e, he, mem⟩ := holds_iff.mp held
  cases departs : holdingOf n e with
  | none => exact absurd mem (holdingOf_none departs)
  | some x =>
    have rest := depart_after_count notify he departs
    obtain ⟨-, -, -, -, -, -, count⟩ := rest.recordSpared (n := n) (by rintro k (rfl | rfl) <;> rfl)
    exact ⟨count.trans (revocationCounted_count i e n s),
      flagSet_grows (rest.flagsGrow (by simp) (by simp)) (flagSet_setFlag _ _)⟩

theorem depart_count_ne (other : m ≠ n) (why : Departing) (s : State) :
    (node m (depart i n why s)).revocationCount = (node m s).revocationCount := by
  obtain ⟨-, -, -, -, -, -, count⟩ := (depart_acts i n why s).recordSpared fun _ => departKinds_spares other
  exact count

/-! ### One revocation after the other -/

/-- The holdings of these nodes on a resource are revoked in turn, with a notice offered to each. -/
def revokeEach (i : SlotId) (ns : List NodeId) (s : State) : State :=
  ns.foldl (fun s n => depart i n (.revoked true) s) s

theorem revokeEach_acts (i : SlotId) (ns : List NodeId) (s : State) : Acts leavingKinds s (revokeEach i ns s) :=
  foldl_acts _ (fun s n => depart_leaving i n _ s) ns s

theorem revokeEach_stands (other : j ≠ i) (ns : List NodeId) (h : Stands j s t) : Stands j s (revokeEach i ns t) := by
  induction ns generalizing t with
  | nil => exact h
  | cons n ns ih => exact ih (h.depart other n _)

theorem revokeEach_count_not_mem (out : n ∉ ns) (s : State) :
    (node n (revokeEach i ns s)).revocationCount = (node n s).revocationCount := by
  induction ns generalizing s with
  | nil => rfl
  | cons m ns ih =>
    obtain ⟨other, rest⟩ := List.ne_and_not_mem_of_not_mem_cons out
    exact (ih rest _).trans (depart_count_ne other _ s)

/-- The node has lost the resource, and one revocation was counted. -/
def revokedOnce (n : NodeId) (i : SlotId) (s t : State) : Prop :=
  away n i t ∧ (node n t).revocationCount = min ((node n s).revocationCount + 1) 255 ∧ flagSet .revocation t = true

theorem revokeEach_mem (distinct : membersDistinct s) (once : ns.Nodup) (held : ∀ n ∈ ns, holds n i s = true) :
    ∀ n ∈ ns, revokedOnce n i s (revokeEach i ns s) := by
  induction ns generalizing s with
  | nil => exact nofun
  | cons m ns ih =>
    obtain ⟨first, rest⟩ := List.nodup_cons.mp once
    have holdsFirst := held m List.mem_cons_self
    have departs : Acts leavingKinds s (depart i m (.revoked true) s) := depart_leaving i m _ s
    intro n mem
    by_cases same : n = m
    · subst same
      obtain ⟨e, he, isHolder⟩ := holds_iff.mp holdsFirst
      have noWait : waits n i s = false := waits_eq_false.mpr fun f hf => by
        obtain rfl := Option.some.inj (he.symm.trans hf)
        exact fun isWaiter => List.disjoint_of_nodup_append (distinct i e he) isHolder isWaiter
      have after := revokeEach_acts i ns (depart i n (.revoked true) s)
      obtain ⟨count, flag⟩ := depart_counts holdsFirst true
      exact ⟨after.away (fun _ => id) (depart_away _ distinct noWait), (revokeEach_count_not_mem first _).trans count,
        leaving_flag after flag⟩
    · have later : n ∈ ns := (List.mem_cons.mp mem).resolve_left same
      have stillHeld (x : NodeId) (hx : x ∈ ns) : holds x i (depart i m (.revoked true) s) = true :=
        depart_holds (ne_of_mem_of_not_mem hx first) _ (held x (List.mem_cons_of_mem _ hx))
      obtain ⟨gone, count, flag⟩ := ih (departs.members distinct) rest stillHeld n later
      exact ⟨gone, by rw [← depart_count_ne same (.revoked true) s]; exact count, flag⟩

/-! ### A node's record under departures -/

/-- The record is kept but for the revocation count. -/
def keepsRecordBut (a b : NodeRecord) : Prop := keepsRecord { a with revocationCount := b.revocationCount } b

theorem keepsRecordBut_of_keeps {a b : NodeRecord} (h : keepsRecord a b) : keepsRecordBut a b := by
  obtain ⟨h1, h2, h3, h4, h5, h6, -⟩ := h
  exact ⟨h1, h2, h3, h4, h5, h6, rfl⟩

theorem keepsRecordBut_trans {a b c : NodeRecord} (h : keepsRecordBut a b) (g : keepsRecordBut b c) :
    keepsRecordBut a c := by
  obtain ⟨h1, h2, h3, h4, h5, h6, -⟩ := h
  obtain ⟨g1, g2, g3, g4, g5, g6, -⟩ := g
  exact ⟨g1.trans h1, g2.trans h2, g3.trans h3, g4.trans h4, g5.trans h5, g6.trans h6, rfl⟩

theorem Act.recordBut (a : Act k s t) (hk : leavingKinds k) : keepsRecordBut (node n s) (node n t) := by
  rcases hk with rfl | rfl | ⟨m, rfl⟩
  · exact keepsRecordBut_of_keeps (a.recordSpared rfl)
  · exact keepsRecordBut_of_keeps (a.recordSpared rfl)
  · cases a
    rw [node_modNode]
    split
    · next same => subst same; exact ⟨rfl, rfl, rfl, rfl, rfl, rfl, rfl⟩
    · exact keepsRecordBut_of_keeps (keepsRecord_refl _)

/-- What departures, passes and removals of waits leave of every node, every entry and the settings. -/
structure leavesTheRest (s t : State) : Prop where
  record : ∀ n, keepsRecordBut (node n s) (node n t)
  entries : keepsEntries s t
  clocks : t.dlu = s.dlu
  epoch : t.dir.epoch = s.dir.epoch
  line : t.lif = s.lif
  halted : t.svp.halted = s.svp.halted

theorem leaving_rest (h : Acts leavingKinds s t) : leavesTheRest s t := by
  have settings := h.settings (by rintro k (rfl | rfl | ⟨m, rfl⟩) <;> rfl)
  refine ⟨fun n => ?_, h.entriesKept ?_, keepsSettings_dlu settings, keepsSettings_epoch settings,
    h.lifKept (by simp [leavingKinds]) (by simp [leavingKinds]), leaving_halted h⟩
  · exact h.rel (R := fun s t => keepsRecordBut (node n s) (node n t))
      (fun _ => keepsRecordBut_of_keeps (keepsRecord_refl _)) (fun _ _ _ => keepsRecordBut_trans)
      fun _ _ _ hk a => a.recordBut hk
  · rintro k (rfl | rfl | ⟨m, rfl⟩) <;> exact ⟨nofun, nofun, nofun, nofun⟩

/-! ### The deadline of a recall (R73) -/

theorem exec_recallDeadline_of_reached {r : Recall} {which : RecallId} (line : s.lif.lineState ≠ .held)
    (running : s.svp.halted = false) (runs : recallAt which s = some r) (due : r.deadline = s.dlu.holdClock) :
    exec (.recallDeadline which) s = .next (recallTimeout which s) :=
  congrArg Host.Outcome.next (if_pos (by simp [recallReached, holdRuns, line, running, runs, due]))

/-- The targets that are not GONE, in target-list order. -/
def liveTargets (r : Recall) : List NodeId := (r.targets.filter fun t => t.status ≠ .gone).map (·.node)

theorem mem_liveTargets {r : Recall} : n ∈ liveTargets r ↔ ∃ x ∈ r.targets, x.status ≠ .gone ∧ x.node = n := by
  simp [liveTargets, and_assoc]

theorem recallTimeout_eq {r : Recall} {which : RecallId} (runs : recallAt which s = some r) :
    recallTimeout which s = revokeEach r.slot (liveTargets r) s := by
  rw [recallTimeout, runs, revokeEach, liveTargets, List.foldl_map]

/-- Settles O23: the deadline revokes the holdings of the targets that are not GONE one after the other. -/
theorem recallDeadlineRevokesTheTargets : Obligations.RecallDeadlineRevokesTheTargets := by
  intro which r s distinct line running runs due once held
  have ran := exec_recallDeadline_of_reached line running runs due
  rw [recallTimeout_eq runs] at ran
  have targetsOnce : (liveTargets r).Nodup := (List.filter_sublist.map _).nodup once
  have revoked := revokeEach_mem (i := r.slot) distinct targetsOnce fun n mem => by
    obtain ⟨x, hx, live, rfl⟩ := mem_liveTargets.mp mem
    exact held x hx live
  have spared := fun n (out : n ∉ liveTargets r) => revokeEach_count_not_mem (i := r.slot) out s
  have rest := leaving_rest (revokeEach_acts r.slot (liveTargets r) s)
  generalize revokeEach r.slot (liveTargets r) s = t at *
  refine ⟨t, ran, fun x hx live => ?_, fun n other => spared n fun mem => ?_, rest.record, rest.entries, rest.clocks,
    rest.epoch, rest.halted.trans running⟩
  · obtain ⟨gone, count, flag⟩ := revoked x.node (mem_liveTargets.mpr ⟨x, hx, live, rfl⟩)
    exact ⟨(away_iff.mp gone).1, count, flag⟩
  · obtain ⟨x, hx, live, same⟩ := mem_liveTargets.mp mem
    exact other x hx live same

end Sys2Proof.Machine
end

section
/-!
PROOF. RETIRE and WITHDRAW (R14, R15, R16): what the entry, the other entries, the nodes and the flags are once a
resource has retired or has been withdrawn.
-/

namespace Sys2Proof.Machine

variable {s t u : State} {i j : SlotId} {e e' : Entry} {n : NodeId} {k : Kind}

/-! ### Slots that are freed -/

theorem slot_freeSlot_ne (other : j ≠ i) (s : State) : slot j (freeSlot i s) = slot j s := by
  cases hi : slot i s with
  | none => rw [freeSlot, hi]
  | some e => rw [slot, freeSlot_slots hi]; exact tget_tset_ne _ _ _ _ other

theorem freeSlot_flag (hi : slot i s = some e) : flagSet .resourceFreed (freeSlot i s) = true := by
  rw [freeSlot, hi]
  exact flagSet_setFlag _ _

/-- A slot that is UNUSED was freed with RESOURCE_FREED set (R2). -/
def saidFreed (i : SlotId) (s : State) : Prop := slot i s = none → flagSet .resourceFreed s = true

theorem saidFreed_of_slot (hi : slot i s = some e) : saidFreed i s := fun none => by rw [hi] at none; cases none

/-- Of the acts of a departure only the freeing of a slot leaves it UNUSED. -/
theorem Act.slotStays (a : Act k s t) (hk : leavingKinds k) (hi : slot i s = some e) :
    (∃ e', slot i t = some e') ∨ t = Machine.freeSlot i s := by
  cases a with
  | relink j f f' _ h | grant j f w rest _ h | dropWait j f m w _ h | dropHolding j f m h _ hj =>
    refine .inl ?_
    by_cases same : i = j
    · subst same; exact ⟨_, tget_tset_same _ _ _⟩
    · exact ⟨e, (tget_tset_ne _ _ _ _ same).trans hi⟩
  | freeSlot j =>
    by_cases same : i = j
    · subst same; exact .inr rfl
    · exact .inl ⟨e, (slot_freeSlot_ne same s).trans hi⟩
  | flag | queue | eraseNotice | discard | entryState | joinDeferred | leaveDeferred | joinStartList
  | leaveStartList | retarget | openRecall | closeRecall | revoke => exact .inl ⟨e, hi⟩
  | _ => simp [leavingKinds] at hk

theorem Act.saidFreed (a : Act k s t) (hk : leavingKinds k) (said : Machine.saidFreed i s) : Machine.saidFreed i t := by
  intro none
  cases hi : slot i s with
  | none => exact leaving_flag (.one hk a) (said hi)
  | some e =>
    rcases a.slotStays hk hi with ⟨e', he'⟩ | rfl
    · rw [none] at he'; cases he'
    · exact freeSlot_flag hi

theorem Acts.saidFreed (h : Acts leavingKinds s t) (said : Machine.saidFreed i s) : Machine.saidFreed i t :=
  h.keeps (P := Machine.saidFreed i) (fun _ _ _ hk a => a.saidFreed hk) said

/-- The resource stands on neither list. -/
def offLists (i : SlotId) (s : State) : Prop := isDeferred i s = false ∧ isRecallPending i s = false

theorem offLists_leaveBothLists (i : SlotId) (s : State) : offLists i (leaveBothLists i s) := by
  simp [offLists, isDeferred, isRecallPending, leaveBothLists, leaveDeferred, leaveStartList]

theorem offLists_freeSlot (h : offLists i s) : offLists i (freeSlot i s) := by
  unfold freeSlot
  split
  · exact h
  · exact offLists_leaveBothLists i _

/-! ### WITHDRAW (R16) -/

theorem exec_withdraw (s : State) : exec .withdraw s = .next (runCommand 0x0003 ownWithdraw s) := rfl

/-- A withdrawn entry before its holdings are revoked (R16 steps 1 and 2). -/
def withdrawing (i : SlotId) (s : State) : State := endWaits i .withdrawn (abandonRecall i false s)

theorem withdrawing_ripples (i : SlotId) (s : State) : Ripples s (withdrawing i s) :=
  (abandonRecall_ripples i false s).trans (endWaits_ripples i .withdrawn _)

theorem withdrawing_stands (i j : SlotId) (s : State) : Stands j s (withdrawing i s) :=
  ((Stands.refl j s).abandonRecall i false).endWaits i .withdrawn

/-- A withdrawn entry is revoked from those that hold it, each once. -/
theorem withdrawEntry_eq (hi : slot i (withdrawing i s) = some e) :
    withdrawEntry i s = freeSlot i (leaveBothLists i (revokeEach i (e.holders.map (·.node)) (withdrawing i s))) := by
  have revoked : revokeHolders i (withdrawing i s) = revokeEach i (e.holders.map (·.node)) (withdrawing i s) := by
    rw [revokeHolders, hi, revokeEach, List.foldl_map]
  rw [← revoked]
  rfl

/-- What WITHDRAW leaves, of the entry and of its holders. -/
structure withdrawn (i : SlotId) (s t : State) : Prop where
  unused : slot i t = none
  off : offLists i t
  freed : flagSet .resourceFreed t = true
  holder : ∀ n, holds n i s = true →
    (node n t).revocationCount = min ((node n s).revocationCount + 1) 255 ∧ flagSet .revocation t = true
  stranger : ∀ n, away n i s → (node n t).revocationCount = (node n s).revocationCount
  others : ∀ j, j ≠ i → Stands j s t

theorem withdrawEntry_withdrawn (distinct : membersDistinct s) (hi : slot i s = some e) :
    withdrawn i s (withdrawEntry i s) := by
  obtain ⟨f, hf, -⟩ := withdrawing_stands i i s e hi
  have ripples := withdrawing_ripples i s
  have before := ripples.within leaving_claims
  have wasDistinct : membersDistinct (withdrawing i s) := ripples.members distinct
  have holder (n : NodeId) (held : holds n i s = true) : n ∈ f.holders.map (·.node) := by
    obtain ⟨f', hf', mem⟩ := holds_iff.mp ((withdrawing_stands i i s).holds held)
    obtain rfl := Option.some.inj (hf.symm.trans hf')
    exact mem
  have revoked := revokeEach_mem (i := i) wasDistinct (List.nodup_append.mp (wasDistinct i f hf)).1
    fun n mem => holds_iff.mpr ⟨f, hf, mem⟩
  have counts (n : NodeId) : (node n (withdrawing i s)).revocationCount = (node n s).revocationCount := by
    obtain ⟨-, -, -, -, -, -, count⟩ := ripples.recordSpared (n := n) (by rintro k rfl; rfl)
    exact count
  have after := revokeEach_acts i (f.holders.map (·.node)) (withdrawing i s)
  have all : Acts leavingKinds s (withdrawEntry i s) := withdrawEntry_acts i s
  rw [withdrawEntry_eq hf] at all ⊢
  refine ⟨slot_freeSlot_same i _, offLists_freeSlot (offLists_leaveBothLists i _), ?_, fun n held => ?_, fun n gone => ?_,
    fun j other => ?_⟩
  · exact all.saidFreed (saidFreed_of_slot hi) (slot_freeSlot_same i _)
  · obtain ⟨-, count, flag⟩ := revoked n (holder n held)
    rw [freeSlot_node]
    exact ⟨count.trans (by rw [counts]), flagSet_grows (keepsSettings_flags (freeSlot_settings i _)) flag⟩
  · have out : n ∉ f.holders.map (·.node) := ((before.away (fun _ => id) gone) f hf).1
    rw [freeSlot_node]
    exact (revokeEach_count_not_mem out _).trans (counts n)
  · exact ((revokeEach_stands other _ (withdrawing_stands i j s)).same rfl).freeSlot other

/-- The other entries stay as they were provisioned. -/
def othersProvisioned (i : SlotId) (s t : State) : Prop :=
  ∀ j, j ≠ i → (slot j s = none → slot j t = none)
    ∧ ∀ x, slot j s = some x → ∃ x', slot j t = some x' ∧ x'.id = x.id ∧ x'.life = x.life
      ∧ x'.shareLimit = x.shareLimit ∧ x'.recallable = x.recallable

theorem othersProvisioned_of (forward : ∀ j, j ≠ i → Stands j s t)
    (backward : ∀ j, j ≠ i → slot j s = none → slot j t = none) : othersProvisioned i s t := by
  refine fun j other => ⟨backward j other, fun x hx => ?_⟩
  obtain ⟨x', hx', id, life, share, recallable, -⟩ := forward j other x hx
  exact ⟨x', hx', id, life, share, recallable⟩

theorem keepsEntries_none (h : keepsEntries s t) (unused : slot j s = none) : slot j t = none := by
  cases hj : slot j t with
  | none => rfl
  | some x =>
    obtain ⟨e, he, -⟩ := h j x hj
    rw [unused] at he
    cases he

theorem flagSet_completedWith (state : CmdState) (results : Vector Word 7) (s : State) :
    flagSet .cmdDone (completedWith state results s) = true := by
  simp [flagSet, completedWith, flagBit]

theorem completedWith_flag {f : Flag} (state : CmdState) (results : Vector Word 7) (h : flagSet f s = true) :
    flagSet f (completedWith state results s) = true :=
  by
  simp only [flagSet, completedWith, BitVec.getLsbD_or, Bool.or_eq_true]
  exact .inl h

/-- Settles O52: what `withdrawEntry` leaves, with the mailbox written after it. -/
theorem withdrawRevokesTheHoldings : Obligations.WithdrawRevokesTheHoldings := by
  intro a0 a1 a2 a3 s distinct run
  refine ⟨fun bad => ?badId, fun low high absent => ?absent, fun i e low high found => ?found⟩
  case badId =>
    have owned : ownWithdraw #v[a0, a1, a2, a3] s = (s, .failed .badArgument) := by
      rw [ownWithdraw, show argId (tget #v[a0, a1, a2, a3] 0) = none from argId_of_invalid bad]
    exact (exec_withdraw s).trans (congrArg _ (runCommand_fails run owned))
  case absent =>
    have owned : ownWithdraw #v[a0, a1, a2, a3] s = (s, .failed .noResource) := by
      rw [ownWithdraw, show argId (tget #v[a0, a1, a2, a3] 0) = some a0 from argId_of_valid ⟨low, high⟩]
      simp only [absent]
    exact (exec_withdraw s).trans (congrArg _ (runCommand_fails run owned))
  case found =>
    have owned : ownWithdraw #v[a0, a1, a2, a3] s = (withdrawEntry i s, .done []) := by
      rw [ownWithdraw, show argId (tget #v[a0, a1, a2, a3] 0) = some a0 from argId_of_valid ⟨low, high⟩]
      simp only [found]
    have ran : exec .withdraw s = .next (completedWith .done (Vector.replicate 7 0) (withdrawEntry i s)) :=
      (exec_withdraw s).trans (congrArg _ (runCommand_of_running run owned))
    obtain ⟨hi, -⟩ := lookup_some found
    have left := withdrawEntry_withdrawn distinct hi
    have rest := leaving_rest (withdrawEntry_acts i s)
    generalize withdrawEntry i s = u at ran left rest
    obtain ⟨notDeferred, notPending⟩ := left.off
    refine ⟨_, ran, left.unused, notDeferred, notPending, completedWith_flag _ _ left.freed, fun n held => ?_,
      fun n noHolding noWait => left.stranger n (away_iff.mpr ⟨noHolding, noWait⟩), rest.record,
      othersProvisioned_of left.others fun j _ => keepsEntries_none rest.entries, rest.clocks, rest.epoch, rest.line,
      rest.halted, rfl, rfl, flagSet_completedWith _ _ u⟩
    obtain ⟨count, flag⟩ := left.holder n held
    exact ⟨count, completedWith_flag _ _ flag⟩

/-! ### RETIRE (R14, R15) -/

theorem exec_retire (s : State) : exec .retire s = .next (runCommand 0x0002 ownRetire s) := rfl

/-- A retiring entry stands on neither list, without recall and without waits, before its slot is freed (R14 steps 1 to
4). -/
def retiredAt (i : SlotId) (e : Entry) (s : State) : State :=
  leaveBothLists i (endWaits i .retired (abandonRecall i false (setSlot i (some { e with life := .retiring }) s)))

theorem retireEntry_eq (i : SlotId) (e : Entry) (s : State) : retireEntry i e s = freeIfRetired i (retiredAt i e s) := rfl

/-- Abandoning its recall leaves a RETIRING entry without one. -/
theorem abandonRecall_idle (hi : slot i s = some e) (life : e.life = .retiring)
    (he' : slot i (abandonRecall i false s) = some e') : e'.recallSlot = none := by
  cases runs : e.recallSlot with
  | none =>
    rw [abandonRecall_of_no_recall false hi runs, hi] at he'
    cases he'
    exact runs
  | some which =>
    obtain ⟨f, hf, -, fLife, -⟩ := ((Stands.refl i s).takeBack (isRecallFor e.id)).unmarkSlot i e hi
    have closed : slot i (closedRecall which i e.id s) = some { f with recallSlot := none } := by
      rw [closedRecall, freeRecall_eq which hf]
      exact tget_tset_same _ _ _
    obtain ⟨g, hg, -, -, -, -, more, -, idle⟩ := (Stands.refl i (closedRecall which i e.id s)).handOut _ closed
    have handed : abandonRecall i false s = handOut (closedRecall which i e.id s) := abandonRecall_of_recall false hi runs
    rw [handed, hg] at he'
    cases he'
    exact (idle (fLife.trans life)).2 rfl

/-- The entry that has retired: its holdings as they were, and nothing else of its claims. -/
theorem retiredAt_slot (i : SlotId) (e : Entry) (s : State) :
    ∃ f, slot i (retiredAt i e s) = some f ∧ f.id = e.id ∧ f.life = .retiring ∧ f.queue = [] ∧ f.recallSlot = none
      ∧ f.shareLimit = e.shareLimit ∧ f.recallable = e.recallable ∧ sameHoldings f.holders e.holders := by
  have hi : slot i (setSlot i (some { e with life := .retiring }) s) = some { e with life := .retiring } :=
    slot_setSlot_same _ _ _
  obtain ⟨g, hg, gid, glife, gshare, grecallable, gmore, gsame, gnone⟩ := (Stands.refl i _).abandonRecall i false _ hi
  have idle := abandonRecall_idle hi rfl hg
  obtain ⟨f, hf, fid, flife, fshare, frecallable, fmore, fsame, fnone⟩ := (Stands.refl i _).endWaits i .retired _ hg
  have empty := endWaits_queue i .retired _ f hf
  obtain ⟨rfl, -⟩ := gnone rfl
  obtain ⟨rfl, still⟩ := fnone glife
  rw [List.append_nil] at gsame fsame
  exact ⟨f, hf, fid.trans gid, flife.trans glife, empty, still idle, fshare.trans gshare, frecallable.trans grecallable,
    Eq.trans fsame gsame⟩

theorem retiredAt_stands (other : j ≠ i) (e : Entry) (s : State) : Stands j s (retiredAt i e s) :=
  ((((Stands.refl j s).elsewhere other rfl).abandonRecall i false).endWaits i .retired).same rfl

/-- RETIRE changes no record but for its counts and its notice sequence, and no setting. -/
theorem retireEntry_rest (hi : slot i s = some e) :
    (∀ n, keepsRecord (node n s) (node n (retireEntry i e s))) ∧ (retireEntry i e s).dlu = s.dlu
      ∧ (retireEntry i e s).dir.epoch = s.dir.epoch ∧ (retireEntry i e s).lif = s.lif
      ∧ (retireEntry i e s).svp.halted = s.svp.halted := by
  have acts := retireEntry_acts i e s hi
  have settings := acts.settings (by rintro k (rfl | rfl | rfl) <;> rfl)
  exact ⟨fun n => acts.recordSpared (by rintro k (rfl | rfl | rfl) <;> rfl), keepsSettings_dlu settings,
    keepsSettings_epoch settings, acts.lifKept (by simp) (by simp), acts.haltedKept (by simp) (by simp)⟩

theorem freeIfRetired_of_empty (hi : slot i s = some e) (life : e.life = .retiring) (empty : e.holders = []) :
    freeIfRetired i s = freeSlot i s := by
  rw [freeIfRetired, hi]
  exact if_pos ⟨life, empty⟩

theorem freeIfRetired_of_holders (hi : slot i s = some e) (holders : e.holders ≠ []) : freeIfRetired i s = s := by
  rw [freeIfRetired, hi]
  exact if_neg fun retired => holders retired.2

/-- Holdings that differ in their marks have the same nodes, modes and tokens. -/
theorem sameHoldings_claims {a b : List Holding} (h : sameHoldings a b) :
    a.map (fun h => (h.node, h.mode, h.token)) = b.map (fun h => (h.node, h.mode, h.token)) := by
  have := congrArg (List.map fun h : Holding => (h.node, h.mode, h.token)) h
  rwa [List.map_map, List.map_map] at this

theorem sameHoldings_nil_iff {a b : List Holding} (h : sameHoldings a b) : a = [] ↔ b = [] := by
  have lengths := congrArg List.length h
  rw [List.length_map, List.length_map] at lengths
  rw [← List.length_eq_zero_iff, ← List.length_eq_zero_iff, lengths]

/-- What RETIRE leaves of the entry and of the others. -/
structure retired (i : SlotId) (e : Entry) (s t : State) : Prop where
  freed : e.holders = [] → slot i t = none ∧ flagSet .resourceFreed t = true
  stays : e.holders ≠ [] → ∃ e', slot i t = some e' ∧ e'.id = e.id ∧ e'.life = .retiring ∧ e'.queue = []
    ∧ e'.recallSlot = none ∧ e'.shareLimit = e.shareLimit ∧ e'.recallable = e.recallable
    ∧ e'.holders.map (fun h => (h.node, h.mode, h.token)) = e.holders.map (fun h => (h.node, h.mode, h.token))
  off : offLists i t
  others : ∀ j, j ≠ i → Stands j s t

theorem retireEntry_retired (i : SlotId) (e : Entry) (s : State) : retired i e s (retireEntry i e s) := by
  obtain ⟨f, hf, id, life, empty, idle, share, recallable, same⟩ := retiredAt_slot i e s
  have off : offLists i (retiredAt i e s) := offLists_leaveBothLists i _
  rw [retireEntry_eq]
  by_cases holders : f.holders = []
  · rw [freeIfRetired_of_empty hf life holders]
    exact ⟨fun _ => ⟨slot_freeSlot_same i _, freeSlot_flag hf⟩,
      fun some => absurd ((sameHoldings_nil_iff same).mp holders) some, offLists_freeSlot off,
      fun j other => (retiredAt_stands other e s).freeSlot other⟩
  · rw [freeIfRetired_of_holders hf holders]
    exact ⟨fun none => absurd ((sameHoldings_nil_iff same).mpr none) holders,
      fun _ => ⟨f, hf, id, life, empty, idle, share, recallable, sameHoldings_claims same⟩, off,
      fun j other => retiredAt_stands other e s⟩

/-- RETIRE of an entry without waits, recall or place on a list changes its life state alone, under holders. -/
theorem retireEntry_of_bare (empty : e.queue = []) (idle : e.recallSlot = none) (h1 : i ∉ s.dir.deferred)
    (h2 : i ∉ s.rct.startList) (holders : e.holders ≠ []) :
    retireEntry i e s = setSlot i (some { e with life := .retiring }) s := by
  have hi : slot i (setSlot i (some { e with life := .retiring }) s) = some { e with life := .retiring } :=
    slot_setSlot_same _ _ _
  have abandoned := abandonRecall_of_no_recall false hi idle
  have noWaits : endWaits i .retired (setSlot i (some { e with life := .retiring }) s)
      = setSlot i (some { e with life := .retiring }) s := by
    rw [endWaits, hi]
    dsimp only
    rw [empty]
    rfl
  rw [retireEntry_eq, retiredAt, abandoned, noWaits,
    leaveBothLists_of_not_mem (s := setSlot i (some { e with life := .retiring }) s) h1 h2]
  exact freeIfRetired_of_holders hi holders

/-- A slot that is UNUSED stays so when another entry retires. -/
theorem retireEntry_none (e : Entry) (other : j ≠ i) (unused : slot j s = none) :
    slot j (retireEntry i e s) = none := by
  have ripples := ((abandonRecall_ripples i false (setSlot i (some { e with life := .retiring }) s)).trans
    (endWaits_ripples i .retired _)).trans (leaveBothLists_ripples i _)
  have acts : Acts (fun k => k = .claims ∨ k = .freed) (setSlot i (some { e with life := .retiring }) s)
      (retireEntry i e s) :=
    (Ripples.within ripples (.inl rfl)).trans ((freeIfRetired_acts i _).mono fun _ => Or.inr)
  exact keepsEntries_none (acts.entriesKept (by rintro k (rfl | rfl) <;> exact ⟨nofun, nofun, nofun, nofun⟩))
    ((tget_tset_ne _ _ _ _ other).trans unused)

/-- Settles O51: the stages of `retireEntry`, and the failures and the RETIRING entry by the order of the checks. -/
theorem retireKeepsTheHoldings : Obligations.RetireKeepsTheHoldings := by
  intro a0 a1 a2 a3 s run
  refine ⟨fun bad => ?badId, fun low high absent => ?absent, fun i e low high found => ?found⟩
  case badId =>
    have owned : ownRetire #v[a0, a1, a2, a3] s = (s, .failed .badArgument) := by
      rw [ownRetire, show argId (tget #v[a0, a1, a2, a3] 0) = none from argId_of_invalid bad]
    exact (exec_retire s).trans (congrArg _ (runCommand_fails run owned))
  case absent =>
    have owned : ownRetire #v[a0, a1, a2, a3] s = (s, .failed .noResource) := by
      rw [ownRetire, show argId (tget #v[a0, a1, a2, a3] 0) = some a0 from argId_of_valid ⟨low, high⟩]
      simp only [absent]
    exact (exec_retire s).trans (congrArg _ (runCommand_fails run owned))
  case found =>
    have owned : ownRetire #v[a0, a1, a2, a3] s
        = if e.life = .retiring then (s, .done []) else (retireEntry i e s, .done []) := by
      rw [ownRetire, show argId (tget #v[a0, a1, a2, a3] 0) = some a0 from argId_of_valid ⟨low, high⟩]
      simp only [found]
    have openOwned (life : e.life = .opened) : ownRetire #v[a0, a1, a2, a3] s = (retireEntry i e s, .done []) :=
      owned.trans (if_neg (by rw [life]; nofun))
    have ran (life : e.life = .opened) :
        exec .retire s = .next (completedWith .done (Vector.replicate 7 0) (retireEntry i e s)) :=
      (exec_retire s).trans (congrArg _ (runCommand_of_running run (openOwned life)))
    refine ⟨fun life => ?retiring, fun life => ?opened, fun life empty idle h1 h2 holders => ?bare⟩
    case retiring =>
      exact (exec_retire s).trans (congrArg _ (runCommand_of_running run (owned.trans (if_pos life))))
    case opened =>
      obtain ⟨hi, -⟩ := lookup_some found
      have left := retireEntry_retired i e s
      have unused := fun j (other : j ≠ i) => retireEntry_none (s := s) e other
      obtain ⟨record, clocks, epoch, line, halted⟩ := retireEntry_rest hi
      have ran := ran life
      generalize retireEntry i e s = u at *
      obtain ⟨notDeferred, notPending⟩ := left.off
      refine ⟨_, ran, fun empty => ?_, left.stays, notDeferred, notPending, othersProvisioned_of left.others unused,
        record, clocks, epoch, line, halted, rfl, rfl, flagSet_completedWith _ _ u⟩
      obtain ⟨gone, flag⟩ := left.freed empty
      exact ⟨gone, completedWith_flag _ _ flag⟩
    case bare =>
      have ran := ran life
      rwa [retireEntry_of_bare empty idle h1 h2 holders] at ran

end Sys2Proof.Machine
end
